-- ==== Sys2Proof/Word.lean ====
section
/-! DEFINITION. The word types of the block: 32-bit words of packets, registers and addresses, and bytes
(`30_encoding.md` R60, `20_memory.md` R40). -/

namespace Sys2Proof

/-- A 32-bit word: a packet word, a register, an address (`ADDR_BITS` = 32, R7). -/
abbrev Word := BitVec 32

/-- A byte of host memory or of a FIFO, and an 8-bit identifier (controller, binding, line, channel). -/
abbrev Byte := BitVec 8

end Sys2Proof
end

