-- ==== Sys2Proof/Config.lean ====
section
/-! DEFINITION. What is fixed for a machine: the decided constants of `00_scope.md` R7, the OPEN parameters
(named, without a value), the two oracles of the spec (PERIPH, MAPPER) and the source of every `draw`.
An `opaque` constant below has no body: no proof can see what it is, so a claim holds whatever it is. -/

namespace Sys2Proof

/-- What a chip-select event names (R35): an external line, or the native output in manual or automatic use. -/
inductive Site where
  | line (l : Byte)
  | native
  | autoNative
  deriving DecidableEq, Repr

/-- One event of the bus log (R35). It stands here because the peripheral oracle answers from the log (R92). -/
inductive BusEvent where
  | csAssert (c b : Byte) (site : Site)
  | csDeassert (c b : Byte) (site : Site)
  | word (c : Byte) (width : Nat) (cpol cpha : Bool) (div : BitVec 8) (tx : Word) (txDefined : Bool) (rx : Word)
  deriving DecidableEq, Repr

/-- Direction of a buffer mapping: to the device (transmit) or from it (receive), R50. -/
inductive MapDir where
  | toDevice
  | fromDevice
  deriving DecidableEq, Repr

/-- The OPEN parameters of R7 that are constants of the block. The state carries one record of them that no
step writes, so that every claim is a claim for every value of them (log entry 8). -/
structure Params where
  /-- `SHIFTER_STALLS_WHEN_RX_FULL`. -/
  shifterStalls : Bool
  /-- `SPURIOUS_ERRORS`: the environment may set error bits with no cause the spec names. -/
  spuriousErrors : Bool
  /-- `ACQ_RETRY_MAX`. -/
  acqRetryMax : Nat
  /-- `ACQ_BACKOFF_US` less one: the parameter's domain is the naturals from 1. -/
  acqBackoffLessOne : Nat
  deriving DecidableEq, Repr

/-- `ACQ_BACKOFF_US`, at least 1. -/
def Params.acqBackoffUs (p : Params) : Nat := p.acqBackoffLessOne + 1

namespace Config

/-- `DIV_MAX` (R7, decision D4). -/
def divMax : Nat := 255
/-- `MAX_PACKET_COUNT` (R7, decision D7). -/
def maxPacketCount : Nat := 65535
/-- `HS_THRESHOLD_HZ` (R7, decision D10). -/
def hsThresholdHz : Nat := 30000000
/-- `T_MIN_MS`, the floor of the deadline (R7). -/
def tMinMs : Nat := 100
/-- `T_FACTOR` = 13/10 (R7): numerator. -/
def tFactorNum : Nat := 13
/-- `T_FACTOR` = 13/10 (R7): denominator. -/
def tFactorDen : Nat := 10
/-- The bytes of one controller's register window (R210). -/
def windowBytes : Nat := 48
/-- The size of the address space, `2 ^ ADDR_BITS` (R7). -/
def addrSpace : Nat := 4294967296

/-- The machine's own values of the OPEN parameters, which the spec leaves open (log entry 8). -/
opaque shifterStalls : Bool
opaque spuriousErrors : Bool
opaque acqRetryMax : Nat
opaque acqBackoffLessOne : Nat

/-- The parameters a machine has at power-on. -/
def params : Params := ⟨shifterStalls, spuriousErrors, acqRetryMax, acqBackoffLessOne⟩

/-- The peripheral oracle PERIPH (R92): controller, holder of the select, word bytes, the word sent and all of
the bus log before it. No law is placed on it (log entry 10). -/
opaque periph (c : Byte) (holder : Option Byte) (wb : Nat) (tx : Word) (busLog : List BusEvent) : Word

/-- The mapping oracle MAPPER (R50) for requests the outside has not answered beforehand: the number of the
draw, the host address, the byte count and the direction (log entry 9). -/
opaque mapper (n : Nat) (addr : Word) (len : Nat) (dir : MapDir) : Option Word

/-- Free values: the `n`-th `draw` of a word, of a byte, of a bit, of FIFO contents (log entry 7). -/
opaque freeWord (n : Nat) : Word
opaque freeByte (n : Nat) : Byte
opaque freeBit (n : Nat) : Bool
opaque freeBytes (n : Nat) : List Byte

/-- The level of a select line that no BIND has driven yet: unspecified (R260; log entry 16). -/
opaque powerOnLine (l : Nat) : Bool

end Config
end Sys2Proof
end

