-- ==== Sys2Proof/Syntax.lean ====
section
/-! DEFINITION. The instructions of the block: the nine commands and the thirty-six step tags of
`spec/opcode_table.json`, one constructor a row, with the operands `30_encoding.md` R62 to R67 give a command
and the operands a step takes from the schedule (log entry 4). -/

namespace Sys2Proof

/-- `mode`, three bits (R17, decision D9). -/
structure SpiMode where
  cpha : Bool
  cpol : Bool
  loop : Bool
  deriving DecidableEq, Repr

/-- "chip-select electrical mode {AUTO, MANUAL}" (R17). -/
inductive CsMode where
  | auto
  | manual
  deriving DecidableEq, Repr

/-- The four conditions of R195. -/
inductive Cond where
  | rxOverrun
  | rxUnderrun
  | txOverrun
  | txUnderrun
  deriving DecidableEq, Repr

/-- A set of the four conditions: the sticky bits of STATUS, INT_EN, PENDING_CLR, `err_latch` (R195). -/
structure Conds where
  rxOverrun : Bool
  rxUnderrun : Bool
  txOverrun : Bool
  txUnderrun : Bool
  deriving DecidableEq, Repr

/-- How a command packet's form stands to R70 and R73: as its layout asks; with a nonzero must-be-zero field;
or (all must-be-zero fields present being zero) with a delimited length other than the header implies. -/
inductive PacketForm where
  | exact
  | mbzNonzero
  | wrongLength
  deriving DecidableEq, Repr

/-- Operands of NEW (R62). -/
structure NewArgs where
  base : Word
  sourceClock : Word
  fifoDepth : BitVec 9
  needsReinit : Bool
  swapByte : Bool
  dmaRx : Byte
  dmaTx : Byte
  autosuspendMs : BitVec 16
  deriving DecidableEq, Repr

/-- Operands of BIND (R64); `lineId` is meant only when `linePresent`. -/
structure BindArgs where
  maxSpeed : Word
  mode : SpiMode
  width : BitVec 6
  linePresent : Bool
  lineId : Byte
  csMode : CsMode
  activeLevel : Bool
  fbDelay : BitVec 2
  secureRouted : Bool
  idleHold : Bool
  deriving DecidableEq, Repr

/-- One Transfer of a SUBMIT (R65, R15). -/
structure Transfer where
  tx : Word
  rx : Word
  len : Word
  speed : Word
  width : BitVec 6
  txPresent : Bool
  rxPresent : Bool
  csChange : Bool
  premapped : Bool
  delayUsecs : BitVec 16
  txDma : Word
  rxDma : Word
  deriving DecidableEq, Repr

/-- The instructions. Commands carry their packet's form; steps of SEQ(C), SH(C), IRQ(C), ENV and PWR carry the
controller, steps of DMA(k) the channel, and a step with a free choice carries the choice. -/
inductive Instr where
  | new (f : PacketForm) (c : Byte) (a : NewArgs)
  | destroy (f : PacketForm) (c : Byte)
  | bind (f : PacketForm) (c b : Byte) (a : BindArgs)
  | submit (f : PacketForm) (c b : Byte) (ts : List Transfer)
  | onSuspend (f : PacketForm) (c : Byte)
  | onResume (f : PacketForm) (c : Byte)
  | onIdle (f : PacketForm) (c : Byte)
  | onActive (f : PacketForm) (c : Byte)
  | flush (f : PacketForm) (c : Byte)
  | seqStart (c : Byte) (pick : Nat)
  | seqConfigDevice (c : Byte)
  | seqSelectCs (c : Byte)
  | seqConfiguring (c : Byte)
  | pArm (c : Byte)
  | pPoll (c : Byte)
  | pDrain (c : Byte)
  | dMap (c : Byte)
  | dArm (c : Byte)
  | dWait (c : Byte)
  | dTxdrain (c : Byte)
  | seqPostDelay (c : Byte)
  | seqAdvance (c : Byte)
  | seqComplete (c : Byte)
  | seqFail (c : Byte)
  | configure (c : Byte) (speed : Word) (mode : SpiMode) (width : BitVec 6)
  | csAssert (c b : Byte)
  | csDeassert (c : Byte)
  | errAck (c : Byte)
  | flushOp (c : Byte)
  | hwInit (c : Byte)
  | dmaAbort (c : Byte)
  | xferPoll (c : Byte)
  | xferDma (c : Byte)
  | shLoad (c : Byte)
  | shDone (c : Byte)
  | dmaTxBeat (k : Byte)
  | dmaRxBeat (k : Byte)
  | dmaTxDone (k : Byte)
  | dmaRxDone (k : Byte)
  | errIrq (c : Byte)
  | errInject (c : Byte) (conds : Conds)
  | powerLoss (c : Byte)
  | tick (dLessOne : Nat)
  | acqAttempt (c : Byte)
  | suspendFinish (c : Byte)
  deriving DecidableEq, Repr

/-- An encoded instruction: a command packet (a delimited list of 32-bit words, word 0 first, R60) or a step
(its 8-bit tag and, after it, the operand bytes of log entry 4). -/
inductive Encoded where
  | packet (ws : List Word)
  | tag (bs : List Byte)
  deriving DecidableEq, Repr

end Sys2Proof
end

