-- ==== Sys2Proof/WellFormed.lean ====
section
/-! DEFINITION. Which instructions an encoding stands for exactly: a command whose packet has the form its layout
asks (R70, R73), a line id only where a line is present (R64), 1 to 255 Transfers (R61, R65), a non-empty set of
injected conditions (R93). An ill-formed command still runs: its meaning answers the error the spec names. -/

namespace Sys2Proof

/-- At least one of the four conditions. -/
def Conds.nonempty (s : Conds) : Bool := s.rxOverrun || s.rxUnderrun || s.txOverrun || s.txUnderrun

/-- The packet has the form its layout asks. -/
def PacketForm.isExact : PacketForm → Bool
  | .exact => true
  | .mbzNonzero => false
  | .wrongLength => false

/-- `line_id` must be 0 when `line_present` = 0 (R64). -/
def BindArgs.lineOk (a : BindArgs) : Bool := a.linePresent || decide (a.lineId = 0)

/-- A SUBMIT names 1 to 255 Transfers (R61, R65). -/
def countOk (ts : List Transfer) : Bool := decide (1 ≤ ts.length) && decide (ts.length ≤ 255)

/-- The check, one line a constructor. -/
def Instr.wellFormed : Instr → Bool
  | .new f _ _ => f.isExact
  | .destroy f _ => f.isExact
  | .bind f _ _ a => f.isExact && a.lineOk
  | .submit f _ _ ts => f.isExact && countOk ts
  | .onSuspend f _ => f.isExact
  | .onResume f _ => f.isExact
  | .onIdle f _ => f.isExact
  | .onActive f _ => f.isExact
  | .flush f _ => f.isExact
  | .seqStart _ _ => true
  | .seqConfigDevice _ => true
  | .seqSelectCs _ => true
  | .seqConfiguring _ => true
  | .pArm _ => true
  | .pPoll _ => true
  | .pDrain _ => true
  | .dMap _ => true
  | .dArm _ => true
  | .dWait _ => true
  | .dTxdrain _ => true
  | .seqPostDelay _ => true
  | .seqAdvance _ => true
  | .seqComplete _ => true
  | .seqFail _ => true
  | .configure _ _ _ _ => true
  | .csAssert _ _ => true
  | .csDeassert _ => true
  | .errAck _ => true
  | .flushOp _ => true
  | .hwInit _ => true
  | .dmaAbort _ => true
  | .xferPoll _ => true
  | .xferDma _ => true
  | .shLoad _ => true
  | .shDone _ => true
  | .dmaTxBeat _ => true
  | .dmaRxBeat _ => true
  | .dmaTxDone _ => true
  | .dmaRxDone _ => true
  | .errIrq _ => true
  | .errInject _ m => m.nonempty
  | .powerLoss _ => true
  | .tick _ => true
  | .acqAttempt _ => true
  | .suspendFinish _ => true

end Sys2Proof
end

