-- ==== Sys2Proof/Decode.lean ====
section
/-! DEFINITION. The decoder, total on any packet and any step bytes, rejecting by name, and after it the encoder,
both from the layouts of `30_encoding.md` R61 to R67, R70, R72, R73, R76 and, for the operands of a step, of log
entry 4. A packet with a known opcode always decodes to its command; a must-be-zero field that is not zero or a
wrong length is carried in the command's form, and the command's own meaning answers it (R70, R73). -/

namespace Sys2Proof

/-- Why the decoder gives no instruction. -/
inductive DecodeError where
  /-- A packet of no words: it has no header. -/
  | emptyPacket
  /-- Opcodes 0x00 and 0x0A to 0xFF (R70). -/
  | unknownOpcode
  /-- Step bytes without a tag, or a tag R72 does not list. -/
  | unknownTag
  /-- A step tag with the wrong number of operand bytes (log entry 4). -/
  | stepOperandLength
  /-- A step operand byte with a bit set that names nothing (log entry 4). -/
  | stepOperandReserved
  deriving DecidableEq, Repr

/-- Word `k` of a packet; an absent word counts as 0. -/
def wordAt (ws : List Word) (k : Nat) : Word := ws.getD k 0

/-- A field of a word: `v` at the bits from `lo` upward, every other bit 0. -/
def put {n : Nat} (lo : Nat) (v : BitVec n) : Word := (v.setWidth 32) <<< lo

/-- A one-bit field of a word. -/
def putBit (lo : Nat) (b : Bool) : Word := put lo (BitVec.ofBool b)

/-- The header's `op` (R61). -/
def hdrOp (w : Word) : Byte := w.extractLsb' 24 8
/-- The header's `c` (R61). -/
def hdrC (w : Word) : Byte := w.extractLsb' 16 8
/-- The header's `b` (R61). -/
def hdrB (w : Word) : Byte := w.extractLsb' 8 8
/-- The header's `n` (R61). -/
def hdrN (w : Word) : Byte := w.extractLsb' 0 8

/-- A packet's form (R70, R73): the must-be-zero check comes before the length check (R236). -/
def formOf (mbzZero : Bool) (len implied : Nat) : PacketForm :=
  if mbzZero then (if len = implied then .exact else .wrongLength) else .mbzNonzero

/-- NEW's operands (R62). -/
def newArgsOf (ws : List Word) : NewArgs where
  base := wordAt ws 1
  sourceClock := wordAt ws 2
  fifoDepth := (wordAt ws 3).extractLsb' 0 9
  needsReinit := (wordAt ws 3).getLsbD 16
  swapByte := (wordAt ws 3).getLsbD 17
  dmaRx := (wordAt ws 4).extractLsb' 0 8
  dmaTx := (wordAt ws 4).extractLsb' 8 8
  autosuspendMs := (wordAt ws 4).extractLsb' 16 16

/-- NEW's must-be-zero fields are zero: the header's `b` and `n`, word 3 bits 15:9 and 31:18 (R62). -/
def newMbzZero (ws : List Word) : Bool :=
  decide (hdrB (wordAt ws 0) = 0) && decide (hdrN (wordAt ws 0) = 0) &&
  decide ((wordAt ws 3).extractLsb' 9 7 = 0) && decide ((wordAt ws 3).extractLsb' 18 14 = 0)

/-- BIND's operands (R64). -/
def bindArgsOf (ws : List Word) : BindArgs where
  maxSpeed := wordAt ws 1
  mode := ⟨(wordAt ws 2).getLsbD 0, (wordAt ws 2).getLsbD 1, (wordAt ws 2).getLsbD 2⟩
  width := (wordAt ws 2).extractLsb' 8 6
  linePresent := (wordAt ws 3).getLsbD 0
  lineId := (wordAt ws 3).extractLsb' 1 8
  csMode := if (wordAt ws 3).getLsbD 9 then .manual else .auto
  activeLevel := (wordAt ws 3).getLsbD 10
  fbDelay := (wordAt ws 3).extractLsb' 11 2
  secureRouted := (wordAt ws 3).getLsbD 13
  idleHold := (wordAt ws 3).getLsbD 14

/-- BIND's must-be-zero fields are zero: the header's `n`, word 2 bits 7:3 and 31:14, word 3 bits 31:15, and the
line id where no line is present (R64). -/
def bindMbzZero (ws : List Word) : Bool :=
  decide (hdrN (wordAt ws 0) = 0) && decide ((wordAt ws 2).extractLsb' 3 5 = 0) &&
  decide ((wordAt ws 2).extractLsb' 14 18 = 0) && decide ((wordAt ws 3).extractLsb' 15 17 = 0) &&
  (bindArgsOf ws).lineOk

/-- The header's `b` and `n` are zero: the must-be-zero fields of the one-word commands (R63, R66, R67). -/
def plainMbzZero (ws : List Word) : Bool :=
  decide (hdrB (wordAt ws 0) = 0) && decide (hdrN (wordAt ws 0) = 0)

/-- One Transfer from the eight words at the head of a list (R65). -/
def transferOf (ws : List Word) : Transfer where
  tx := wordAt ws 0
  rx := wordAt ws 1
  len := wordAt ws 2
  speed := wordAt ws 3
  width := (wordAt ws 4).extractLsb' 0 6
  txPresent := (wordAt ws 4).getLsbD 8
  rxPresent := (wordAt ws 4).getLsbD 9
  csChange := (wordAt ws 4).getLsbD 10
  premapped := (wordAt ws 4).getLsbD 11
  delayUsecs := (wordAt ws 4).extractLsb' 16 16
  txDma := wordAt ws 5
  rxDma := wordAt ws 6

/-- A Transfer's must-be-zero fields are zero: word 4 bits 7:6 and 15:12, word 7 (R65). -/
def transferMbzZero (ws : List Word) : Bool :=
  decide ((wordAt ws 4).extractLsb' 6 2 = 0) && decide ((wordAt ws 4).extractLsb' 12 4 = 0) &&
  decide (wordAt ws 7 = 0)

/-- The `n` Transfers of a SUBMIT's body. -/
def transfersOf : Nat → List Word → List Transfer
  | 0, _ => []
  | n + 1, ws => transferOf ws :: transfersOf n (ws.drop 8)

/-- The must-be-zero fields of all `n` Transfers are zero. -/
def transfersMbzZero : Nat → List Word → Bool
  | 0, _ => true
  | n + 1, ws => transferMbzZero ws && transfersMbzZero n (ws.drop 8)

/-- The length in words a header implies (R73); 0 for a reserved opcode. -/
def impliedLength (w : Word) : Nat :=
  match (hdrOp w).toNat with
  | 1 => 5
  | 3 => 4
  | 4 => 1 + 8 * (hdrN w).toNat
  | 2 => 1
  | 5 => 1
  | 6 => 1
  | 7 => 1
  | 8 => 1
  | 9 => 1
  | _ => 0

/-- The command of a packet with header `w` (R60 to R67); `ws` is the whole packet. -/
def commandOf (w : Word) (ws : List Word) : Except DecodeError Instr :=
  match (hdrOp w).toNat with
  | 1 => .ok (.new (formOf (newMbzZero ws) ws.length (impliedLength w)) (hdrC w) (newArgsOf ws))
  | 2 => .ok (.destroy (formOf (plainMbzZero ws) ws.length (impliedLength w)) (hdrC w))
  | 3 => .ok (.bind (formOf (bindMbzZero ws) ws.length (impliedLength w)) (hdrC w) (hdrB w) (bindArgsOf ws))
  | 4 => .ok (.submit (formOf (transfersMbzZero (hdrN w).toNat (ws.drop 1)) ws.length (impliedLength w))
          (hdrC w) (hdrB w) (transfersOf (hdrN w).toNat (ws.drop 1)))
  | 5 => .ok (.onSuspend (formOf (plainMbzZero ws) ws.length (impliedLength w)) (hdrC w))
  | 6 => .ok (.onResume (formOf (plainMbzZero ws) ws.length (impliedLength w)) (hdrC w))
  | 7 => .ok (.onIdle (formOf (plainMbzZero ws) ws.length (impliedLength w)) (hdrC w))
  | 8 => .ok (.onActive (formOf (plainMbzZero ws) ws.length (impliedLength w)) (hdrC w))
  | 9 => .ok (.flush (formOf (plainMbzZero ws) ws.length (impliedLength w)) (hdrC w))
  | _ => .error .unknownOpcode

/-- Command packets. -/
def decodePacket : List Word → Except DecodeError Instr
  | [] => .error .emptyPacket
  | w :: ws => commandOf w (w :: ws)

/-- The number whose bytes are `bs`, the first least significant (R44). -/
def leNat : List Byte → Nat
  | [] => 0
  | b :: bs => b.toNat + 256 * leNat bs

/-- The last byte is not 0: no shorter list of bytes gives the same number (log entry 4). -/
def natShortest (bs : List Byte) : Bool := decide (bs.getLast? ≠ some 0)

/-- A word from four bytes, lowest address first (R44). -/
def wordOfBytes (b0 b1 b2 b3 : Byte) : Word := put 0 b0 ||| put 8 b1 ||| put 16 b2 ||| put 24 b3

/-- A step that names one identifier and nothing else. -/
def stepOne (mk : Byte → Instr) : List Byte → Except DecodeError Instr
  | [c] => .ok (mk c)
  | _ => .error .stepOperandLength

/-- SEQ_START: controller and the index of the waiting entry taken, a natural number. -/
def stepPick : List Byte → Except DecodeError Instr
  | [] => .error .stepOperandLength
  | c :: bs => if natShortest bs then .ok (.seqStart c (leNat bs)) else .error .stepOperandReserved

/-- CONFIGURE: controller, speed, mode (bits 2:0), width (bits 5:0). -/
def stepConfigure : List Byte → Except DecodeError Instr
  | [c, s0, s1, s2, s3, m, w] =>
    if m.extractLsb' 3 5 = 0 ∧ w.extractLsb' 6 2 = 0 then
      .ok (.configure c (wordOfBytes s0 s1 s2 s3) ⟨m.getLsbD 0, m.getLsbD 1, m.getLsbD 2⟩ (w.extractLsb' 0 6))
    else .error .stepOperandReserved
  | _ => .error .stepOperandLength

/-- CS_ASSERT: controller and binding. -/
def stepCsAssert : List Byte → Except DecodeError Instr
  | [c, b] => .ok (.csAssert c b)
  | _ => .error .stepOperandLength

/-- ERR_INJECT: controller and the set of conditions, bit numbers as in `err_latch` (R195). -/
def stepErrInject : List Byte → Except DecodeError Instr
  | [c, m] =>
    if m.extractLsb' 4 4 = 0 then .ok (.errInject c ⟨m.getLsbD 0, m.getLsbD 1, m.getLsbD 2, m.getLsbD 3⟩)
    else .error .stepOperandReserved
  | _ => .error .stepOperandLength

/-- TICK: the microseconds to advance, less one, a natural number. -/
def stepTick (bs : List Byte) : Except DecodeError Instr :=
  if natShortest bs then .ok (.tick (leNat bs)) else .error .stepOperandReserved

/-- The step of a tag (R72). -/
def stepOf (tag : Nat) (ops : List Byte) : Except DecodeError Instr :=
  match tag with
  | 0x10 => stepPick ops
  | 0x11 => stepOne .seqConfigDevice ops
  | 0x12 => stepOne .seqSelectCs ops
  | 0x13 => stepOne .seqConfiguring ops
  | 0x14 => stepOne .pArm ops
  | 0x15 => stepOne .pPoll ops
  | 0x16 => stepOne .pDrain ops
  | 0x17 => stepOne .dMap ops
  | 0x18 => stepOne .dArm ops
  | 0x19 => stepOne .dWait ops
  | 0x1A => stepOne .dTxdrain ops
  | 0x1B => stepOne .seqPostDelay ops
  | 0x1C => stepOne .seqAdvance ops
  | 0x1D => stepOne .seqComplete ops
  | 0x1E => stepOne .seqFail ops
  | 0x20 => stepConfigure ops
  | 0x21 => stepCsAssert ops
  | 0x22 => stepOne .csDeassert ops
  | 0x23 => stepOne .errAck ops
  | 0x24 => stepOne .flushOp ops
  | 0x25 => stepOne .hwInit ops
  | 0x26 => stepOne .dmaAbort ops
  | 0x27 => stepOne .xferPoll ops
  | 0x28 => stepOne .xferDma ops
  | 0x30 => stepOne .shLoad ops
  | 0x31 => stepOne .shDone ops
  | 0x32 => stepOne .dmaTxBeat ops
  | 0x33 => stepOne .dmaRxBeat ops
  | 0x34 => stepOne .dmaTxDone ops
  | 0x35 => stepOne .dmaRxDone ops
  | 0x36 => stepOne .errIrq ops
  | 0x37 => stepErrInject ops
  | 0x38 => stepOne .powerLoss ops
  | 0x39 => stepTick ops
  | 0x3A => stepOne .acqAttempt ops
  | 0x3B => stepOne .suspendFinish ops
  | _ => .error .unknownTag

/-- Step bytes: the tag, then its operand bytes. -/
def decodeTag : List Byte → Except DecodeError Instr
  | [] => .error .unknownTag
  | t :: ops => stepOf t.toNat ops

/-- The decoder. -/
def decode : Encoded → Except DecodeError Instr
  | .packet ws => decodePacket ws
  | .tag bs => decodeTag bs

/-! The encoder. -/

/-- A command header (R61). -/
def header (op c b n : Byte) : Word := put 24 op ||| put 16 c ||| put 8 b ||| put 0 n

/-- NEW's words 1 to 4 (R62). -/
def encodeNew (a : NewArgs) : List Word :=
  [a.base, a.sourceClock,
   put 0 a.fifoDepth ||| putBit 16 a.needsReinit ||| putBit 17 a.swapByte,
   put 0 a.dmaRx ||| put 8 a.dmaTx ||| put 16 a.autosuspendMs]

/-- The bit of a select mode: 0 AUTO, 1 MANUAL (R64). -/
def CsMode.bit : CsMode → Bool
  | .auto => false
  | .manual => true

/-- BIND's words 1 to 3 (R64). -/
def encodeBind (a : BindArgs) : List Word :=
  [a.maxSpeed,
   putBit 0 a.mode.cpha ||| putBit 1 a.mode.cpol ||| putBit 2 a.mode.loop ||| put 8 a.width,
   putBit 0 a.linePresent ||| put 1 a.lineId ||| putBit 9 a.csMode.bit ||| putBit 10 a.activeLevel |||
     put 11 a.fbDelay ||| putBit 13 a.secureRouted ||| putBit 14 a.idleHold]

/-- A Transfer's eight words (R65). -/
def encodeTransfer (t : Transfer) : List Word :=
  [t.tx, t.rx, t.len, t.speed,
   put 0 t.width ||| putBit 8 t.txPresent ||| putBit 9 t.rxPresent ||| putBit 10 t.csChange |||
     putBit 11 t.premapped ||| put 16 t.delayUsecs,
   t.txDma, t.rxDma, 0#32]

/-- A SUBMIT's body. -/
def encodeTransfers : List Transfer → List Word
  | [] => []
  | t :: ts => encodeTransfer t ++ encodeTransfers ts

/-- The four bytes of a word, lowest address first (R44). -/
def bytesOfWord (w : Word) : List Byte :=
  [w.extractLsb' 0 8, w.extractLsb' 8 8, w.extractLsb' 16 8, w.extractLsb' 24 8]

/-- The bytes of a natural number, least significant first and none for 0; the first argument bounds their count. -/
def natBytesUpTo : Nat → Nat → List Byte
  | 0, _ => []
  | n + 1, v => if v = 0 then [] else BitVec.ofNat 8 v :: natBytesUpTo n (v / 256)

/-- The bytes of a natural number, as few as carry it (log entry 4). -/
def natBytes (v : Nat) : List Byte := natBytesUpTo v v

/-- `mode` as a byte (R74). -/
def SpiMode.byte (m : SpiMode) : Byte :=
  (putBit 0 m.cpha ||| putBit 1 m.cpol ||| putBit 2 m.loop).setWidth 8

/-- A set of conditions as a number, bit numbers as in `err_latch` (R195). -/
def Conds.nibble (s : Conds) : Byte :=
  (putBit 0 s.rxOverrun ||| putBit 1 s.rxUnderrun ||| putBit 2 s.txOverrun ||| putBit 3 s.txUnderrun).setWidth 8

/-- The encoder: the words or bytes of a well-formed instruction. -/
def encode : Instr → Encoded
  | .new _ c a => .packet (header 1 c 0 0 :: encodeNew a)
  | .destroy _ c => .packet [header 2 c 0 0]
  | .bind _ c b a => .packet (header 3 c b 0 :: encodeBind a)
  | .submit _ c b ts => .packet (header 4 c b (BitVec.ofNat 8 ts.length) :: encodeTransfers ts)
  | .onSuspend _ c => .packet [header 5 c 0 0]
  | .onResume _ c => .packet [header 6 c 0 0]
  | .onIdle _ c => .packet [header 7 c 0 0]
  | .onActive _ c => .packet [header 8 c 0 0]
  | .flush _ c => .packet [header 9 c 0 0]
  | .seqStart c p => .tag (0x10 :: c :: natBytes p)
  | .seqConfigDevice c => .tag [0x11, c]
  | .seqSelectCs c => .tag [0x12, c]
  | .seqConfiguring c => .tag [0x13, c]
  | .pArm c => .tag [0x14, c]
  | .pPoll c => .tag [0x15, c]
  | .pDrain c => .tag [0x16, c]
  | .dMap c => .tag [0x17, c]
  | .dArm c => .tag [0x18, c]
  | .dWait c => .tag [0x19, c]
  | .dTxdrain c => .tag [0x1A, c]
  | .seqPostDelay c => .tag [0x1B, c]
  | .seqAdvance c => .tag [0x1C, c]
  | .seqComplete c => .tag [0x1D, c]
  | .seqFail c => .tag [0x1E, c]
  | .configure c sp m w => .tag (0x20 :: c :: bytesOfWord sp ++ [m.byte, w.setWidth 8])
  | .csAssert c b => .tag [0x21, c, b]
  | .csDeassert c => .tag [0x22, c]
  | .errAck c => .tag [0x23, c]
  | .flushOp c => .tag [0x24, c]
  | .hwInit c => .tag [0x25, c]
  | .dmaAbort c => .tag [0x26, c]
  | .xferPoll c => .tag [0x27, c]
  | .xferDma c => .tag [0x28, c]
  | .shLoad c => .tag [0x30, c]
  | .shDone c => .tag [0x31, c]
  | .dmaTxBeat k => .tag [0x32, k]
  | .dmaRxBeat k => .tag [0x33, k]
  | .dmaTxDone k => .tag [0x34, k]
  | .dmaRxDone k => .tag [0x35, k]
  | .errIrq c => .tag [0x36, c]
  | .errInject c m => .tag [0x37, c, m.nibble]
  | .powerLoss c => .tag [0x38, c]
  | .tick d => .tag (0x39 :: natBytes d)
  | .acqAttempt c => .tag [0x3A, c]
  | .suspendFinish c => .tag [0x3B, c]

/-! The table's numbering of an instruction's bits. -/

/-- How many operand bytes a step tag has; where a natural number ends them (SEQ_START, TICK), the number 0, which
has no byte (log entry 4). -/
def operandBytes (tag : Nat) : Nat :=
  match tag with
  | 0x10 => 1
  | 0x20 => 7
  | 0x21 => 2
  | 0x37 => 2
  | 0x39 => 0
  | _ => 1

/-- The low `n` words of a number, least significant first. -/
def wordsOfNat : Nat → Nat → List Word
  | 0, _ => []
  | n + 1, w => BitVec.ofNat 32 w :: wordsOfNat n (w / 4294967296)

/-- The encoded instruction whose bits are `w`, numbered as the opcode table numbers them: a row of 8 bits is a
step tag, its operand bytes zero; a longer one is a command packet, its words least significant first, extended
with words of zeros to the length its header implies. -/
def encodedOfTableWord (nbits w : Nat) : Encoded :=
  if nbits ≤ 8 then .tag (BitVec.ofNat 8 w :: List.replicate (operandBytes (w % 256)) 0)
  else .packet (wordsOfNat (max ((nbits + 31) / 32) (impliedLength (BitVec.ofNat 32 w))) w)

/-- The instruction the decoder reads from an instruction whose bits are `w`. -/
def decodeTableWord (nbits w : Nat) : Option Instr :=
  match decode (encodedOfTableWord nbits w) with
  | .ok i => some i
  | .error _ => none

end Sys2Proof
end

