-- ==== Sys2Proof/Machine/State.lean ====
section
/-! DEFINITION. Everything the spec gives the machine, as plain data (`10_state.md`), the reasons a step stops, and
the state at power-on (R260). Tables indexed by an 8-bit identifier and memory are lists of (key, value) pairs in
one canonical form (`Machine/Ops.lean`). -/

namespace Sys2Proof.Machine

/-- Why a step stops as a fault of the model (`93_implementation_defined.md`, treatment `fault`). -/
inductive Fault where
  /-- A register of the serial engine is accessed while the controller's clocks are gated (R80, U7). Raised by
  every step that touches a register; no rule does so in a state a run reaches. Safe. -/
  | registerAccessClockOff
  /-- A DMA channel accesses an address outside every live mapping and pre-mapped range (R50, U8). Raised by
  DMA_TX_BEAT, DMA_RX_BEAT and the composite XFER_DMA. Safe. -/
  | deviceAccessUnmapped
  deriving DecidableEq, Repr

/-- Why a step has no meaning. -/
inductive Refusal where
  /-- An instruction without a meaning; raised by an arm of `exec` only. Safe. -/
  | notModelled (mnemonic : String)
  /-- The schedule names a step tag that R72 does not list; raised by `step`. Safe. -/
  | unknownStepTag
  /-- The schedule names a step with operand bytes of another form than log entry 4; raised by `step`. Safe. -/
  | stepOperandForm
  deriving DecidableEq, Repr

/-! ### The register file of the serial engine (R21 to R33) -/

/-- `CH_CFG` (R22). Its bit 4, `SLAVE`, is stuck at 0 and is not stored. -/
structure ChCfg where
  txchOn : Bool
  rxchOn : Bool
  cpha : Bool
  cpol : Bool
  swRst : Bool
  hsEn : Bool
  deriving DecidableEq, Repr

/-- `CLK_CFG` (R23). -/
structure ClkCfg where
  div : BitVec 8
  enclk : Bool
  deriving DecidableEq, Repr

/-- `MODE_CFG` (R24). -/
structure ModeCfg where
  burst4 : Bool
  txdmaOn : Bool
  rxdmaOn : Bool
  loopback : Bool
  busTsz : BitVec 2
  chTsz : BitVec 2
  deriving DecidableEq, Repr

/-- `CS_REG` (R25). -/
structure CsReg where
  sigInact : Bool
  auto : Bool
  idleHold : Bool
  activeHigh : Bool
  deriving DecidableEq, Repr

/-- `PACKET_CNT` (R30). -/
structure PacketCnt where
  count : BitVec 16
  en : Bool
  deriving DecidableEq, Repr

/-- `SWAP_CFG` (R32). -/
structure SwapCfg where
  txEn : Bool
  txByte : Bool
  txHword : Bool
  rxEn : Bool
  rxByte : Bool
  rxHword : Bool
  deriving DecidableEq, Repr

/-- The serial engine of one controller: registers, FIFOs, hidden state (R18, R20 to R33). -/
structure Hw where
  chCfg : ChCfg
  clkCfg : ClkCfg
  modeCfg : ModeCfg
  csReg : CsReg
  /-- `INT_EN` (R26). -/
  intEn : Conds
  /-- The four sticky bits of `STATUS` (R27). -/
  sticky : Conds
  packetCnt : PacketCnt
  /-- `PENDING_CLR` (R31). -/
  pendingClr : Conds
  swapCfg : SwapCfg
  /-- `FB_CLK.DELAY` (R33). -/
  fbDelay : BitVec 2
  /-- `txf`, head first (R18). -/
  txf : List Byte
  /-- `rxf`, head first (R18). -/
  rxf : List Byte
  /-- `pkt_rem`, 16 bits (R20, R251). -/
  pktRem : BitVec 16
  shBusy : Bool
  shWord : Word
  shDefined : Bool
  deriving DecidableEq, Repr

/-! ### Controllers (R12 to R17) -/

/-- `C.pstate` (R13, R213). -/
inductive PState where
  | active
  | idle
  | suspended
  deriving DecidableEq, Repr

/-- `C.seq.state` (R14, R71). Codes 9 to 15 are never taken and have no constructor. -/
inductive SeqState where
  | idle
  | configuringDevice
  | selectCs
  | configuring
  | transporting
  | postDelay
  | deselectCs
  | completed
  | failed
  deriving DecidableEq, Repr

/-- `C.seq.phase` (R14, R71). -/
inductive Phase where
  | none
  | pArm
  | pPoll
  | pDrain
  | dMap
  | dArm
  | dWait
  | dTxdrain
  deriving DecidableEq, Repr

/-- `C.seq.transport` (R14). -/
inductive Transport where
  | none
  | poll
  | dma
  deriving DecidableEq, Repr

/-- `C.seq.M.status` (R15): none before the first Message. -/
inductive MsgStatus where
  | none
  | pending
  | success
  | error
  deriving DecidableEq, Repr

/-- A binding (R17). -/
structure Binding where
  maxSpeed : Word
  mode : SpiMode
  width : BitVec 6
  line : Option Byte
  csMode : CsMode
  activeLevel : Bool
  idleHold : Bool
  fbDelay : BitVec 2
  secureRouted : Bool
  deriving DecidableEq, Repr

/-- An entry of `C.waitq` (R13): caller tag, binding, Message. -/
structure Waiter where
  tag : Nat
  b : Byte
  msg : List Transfer
  deriving DecidableEq, Repr

/-- The sequencer registers and the captured Message (R14, R15). -/
structure Seq where
  state : SeqState
  phase : Phase
  /-- 8 bits, 0 to `M.n - 1`. -/
  xi : Nat
  /-- 32 bits, at most `T.len`. -/
  off : Nat
  /-- 32 bits. -/
  chunk : Nat
  transport : Transport
  deadline : Nat
  delayUntil : Nat
  actual : Word
  /-- 8 bits. -/
  ncfg : Nat
  toggle : Bool
  err : Word
  mapTx : Option Word
  mapRx : Option Word
  weMappedTx : Bool
  weMappedRx : Bool
  b : Byte
  msg : List Transfer
  msgStatus : MsgStatus
  deriving DecidableEq, Repr

/-- A controller. -/
structure Ctrl where
  id : Byte
  base : Word
  srcClk : Word
  /-- 9 bits (R12). -/
  fifoDepth : Nat
  /-- 8 bits (R12). -/
  half : Nat
  dmaRx : Byte
  dmaTx : Byte
  needsReinit : Bool
  /-- 16 bits (R12). -/
  autosuspendMs : Nat
  /-- `swap_mode`: true is BYTE. -/
  swapByte : Bool
  curSpeed : Word
  curMode : SpiMode
  curWidth : BitVec 6
  cfgValid : Bool
  rxCh : Bool
  txCh : Bool
  owner : Option Nat
  waitq : List Waiter
  /-- `C.busy.RX_BUSY`. -/
  rxBusy : Bool
  /-- `C.busy.TX_BUSY`. -/
  txBusy : Bool
  /-- `C.done`, the shared completion primitive. -/
  dmaDone : Bool
  csHolder : Option Byte
  suspended : Bool
  pstate : PState
  clkOn : Bool
  lastActivity : Nat
  errLatch : Conds
  secure : Bool
  /-- The retry counter, 8 bits (R13). -/
  acqK : BitVec 8
  acqNext : Nat
  actWait : Bool
  seq : Seq
  /-- The binding table `C.bind[b]` (R17). -/
  bind : List (Nat × Binding)
  hw : Hw
  /-- The level the native select output had when the clocks were gated (R91, log entry 17). -/
  nssHeld : Bool
  deriving DecidableEq, Repr

/-! ### State shared by all controllers (R10) -/

/-- Direction of a channel (R19). -/
inductive ChanDir where
  | tx
  | rx
  deriving DecidableEq, Repr

/-- A DMA channel (R19). -/
structure Chan where
  lessee : Option Byte
  armed : Bool
  dir : ChanDir
  addr : Word
  rem : Nat
  burst : Nat
  wb : Nat
  notify : Bool
  deriving DecidableEq, Repr

/-- A live mapping the engine made (R50): device addresses `dev` to `dev + len - 1` stand for the host bytes at
`host`; `ctrl` and `dir` say which controller made it for which buffer. -/
structure Mapping where
  ctrl : Byte
  dir : MapDir
  dev : Word
  host : Word
  len : Nat
  deriving DecidableEq, Repr

/-- A record of the error log (R36). -/
structure ErrRecord where
  ctrl : Byte
  cond : Cond
  snapshot : Word
  time : Nat
  deriving DecidableEq, Repr

/-- Whom a response answers: the issuer of the command just taken, the caller of an accepted SUBMIT, or the
issuer of an ON_ACTIVE or ON_SUSPEND that was waiting (R60, R184, R215, R217). -/
inductive Recipient where
  | issuer
  | caller (tag : Nat)
  | onActive (c : Byte)
  | onSuspend (c : Byte)
  deriving DecidableEq, Repr

/-- A response packet (R68). -/
structure Response where
  dest : Recipient
  words : List Word
  deriving DecidableEq, Repr

/-- What the outside schedules next (log entries 1, 19): an encoded command or step, or a caller's store of one
byte into memory it owns. -/
inductive Input where
  | encoded (e : Encoded)
  | callerWrite (addr : Word) (v : Byte)
  deriving DecidableEq, Repr

/-- The machine. -/
structure State where
  /-- Time in microseconds (R10). -/
  now : Nat
  /-- Host memory (R10, R44). -/
  mem : List Host.Cell
  /-- The channel pool (R19); an unlisted channel is free and unarmed. -/
  chan : List (Nat × Chan)
  /-- The select lines that have been driven (R10); true is electrical high. -/
  csLine : List (Nat × Bool)
  /-- The controllers (R10). -/
  ctrl : List (Nat × Ctrl)
  /-- Appended at the end (R35). -/
  busLog : List BusEvent
  /-- Appended at the end (R36). -/
  errLog : List ErrRecord
  /-- The responses given, in order (R60, R68). -/
  outbox : List Response
  /-- What is still scheduled, next first (log entry 1). -/
  inbox : List Input
  /-- The mappings the engine made and has not undone, newest first (R50). -/
  maps : List Mapping
  /-- Answers the outside has fixed for the next Map requests (log entry 9). -/
  mapTape : List (Option Word)
  /-- The next fresh caller tag (R170). -/
  nextTag : Nat
  /-- How many draws were made: the model's own counter (log entry 7). -/
  draws : Nat
  /-- The OPEN parameters; no step writes them (log entry 8). -/
  params : Params
  deriving DecidableEq, Repr

/-- The outcome of a step of this machine. -/
abbrev Out := Host.Outcome State Fault Refusal

/-- Power-on of the whole block (R260): no controller, every channel free, empty logs, `now` = 0. -/
def State.reset : State where
  now := 0
  mem := []
  chan := []
  csLine := []
  ctrl := []
  busLog := []
  errLog := []
  outbox := []
  inbox := []
  maps := []
  mapTape := []
  nextTag := 0
  draws := 0
  params := Config.params

/-- A state with the controller `key` taken out to work on; `st`'s own copy of it is replaced by `c` when the
view is put back (`View.commit`). -/
structure View where
  st : State
  key : Byte
  c : Ctrl
  deriving DecidableEq, Repr

end Sys2Proof.Machine
end

