-- ==== Sys2Proof/Machine/Operands.lean ====
section
/-! DEFINITION. Operand forms and the pure computations of the spec: register words and fields (R21 to R34), words
from bytes and back (R44), the byte swap (R46), the rate (R100), widths (R102), effective parameters (R105),
deadlines (R131), chunks and bursts (R146, R147), status words (R69). -/

namespace Sys2Proof.Machine

/-! ### Register words (R22 to R32) -/

def ChCfg.toWord (r : ChCfg) : Word :=
  putBit 0 r.txchOn ||| putBit 1 r.rxchOn ||| putBit 2 r.cpha ||| putBit 3 r.cpol ||| putBit 5 r.swRst |||
    putBit 6 r.hsEn

/-- Bit 4, `SLAVE`, is ignored (R22, R81). -/
def ChCfg.ofWord (v : Word) : ChCfg :=
  ⟨v.getLsbD 0, v.getLsbD 1, v.getLsbD 2, v.getLsbD 3, v.getLsbD 5, v.getLsbD 6⟩

def ClkCfg.toWord (r : ClkCfg) : Word := put 0 r.div ||| putBit 8 r.enclk

def ClkCfg.ofWord (v : Word) : ClkCfg := ⟨v.extractLsb' 0 8, v.getLsbD 8⟩

def ModeCfg.toWord (r : ModeCfg) : Word :=
  putBit 0 r.burst4 ||| putBit 1 r.txdmaOn ||| putBit 2 r.rxdmaOn ||| putBit 3 r.loopback ||| put 17 r.busTsz |||
    put 29 r.chTsz

def ModeCfg.ofWord (v : Word) : ModeCfg :=
  ⟨v.getLsbD 0, v.getLsbD 1, v.getLsbD 2, v.getLsbD 3, v.extractLsb' 17 2, v.extractLsb' 29 2⟩

def CsReg.toWord (r : CsReg) : Word :=
  putBit 0 r.sigInact ||| putBit 1 r.auto ||| putBit 2 r.idleHold ||| putBit 3 r.activeHigh

def CsReg.ofWord (v : Word) : CsReg := ⟨v.getLsbD 0, v.getLsbD 1, v.getLsbD 2, v.getLsbD 3⟩

def PacketCnt.toWord (r : PacketCnt) : Word := put 0 r.count ||| putBit 16 r.en

def PacketCnt.ofWord (v : Word) : PacketCnt := ⟨v.extractLsb' 0 16, v.getLsbD 16⟩

def SwapCfg.toWord (r : SwapCfg) : Word :=
  putBit 0 r.txEn ||| putBit 2 r.txByte ||| putBit 3 r.txHword ||| putBit 4 r.rxEn ||| putBit 6 r.rxByte |||
    putBit 7 r.rxHword

def SwapCfg.ofWord (v : Word) : SwapCfg :=
  ⟨v.getLsbD 0, v.getLsbD 2, v.getLsbD 3, v.getLsbD 4, v.getLsbD 6, v.getLsbD 7⟩

/-- The conditions at their bits of `STATUS` and `INT_EN`: 2 TX_UNDERRUN, 3 TX_OVERRUN, 4 RX_UNDERRUN,
5 RX_OVERRUN (R26, R27). -/
def condsStatusWord (s : Conds) : Word :=
  putBit 2 s.txUnderrun ||| putBit 3 s.txOverrun ||| putBit 4 s.rxUnderrun ||| putBit 5 s.rxOverrun

def condsOfStatusBits (v : Word) : Conds := ⟨v.getLsbD 5, v.getLsbD 4, v.getLsbD 3, v.getLsbD 2⟩

/-- The conditions at their bits of `PENDING_CLR`: 1 RX_OVERRUN, 2 RX_UNDERRUN, 3 TX_OVERRUN, 4 TX_UNDERRUN
(R31). -/
def condsClrWord (s : Conds) : Word :=
  putBit 1 s.rxOverrun ||| putBit 2 s.rxUnderrun ||| putBit 3 s.txOverrun ||| putBit 4 s.txUnderrun

def condsOfClrBits (v : Word) : Conds := ⟨v.getLsbD 1, v.getLsbD 2, v.getLsbD 3, v.getLsbD 4⟩

/-- The twelve registers (R21). -/
inductive Reg where
  | chCfg
  | clkCfg
  | modeCfg
  | csReg
  | intEn
  | status
  | txData
  | rxData
  | packetCnt
  | pendingClr
  | swapCfg
  | fbClk
  deriving DecidableEq, Repr

/-- The register at an offset from `C.base` (R21, R34): none at 0x30 and above or between registers. -/
def Reg.ofOffset (off : Nat) : Option Reg :=
  match off with
  | 0x00 => some .chCfg
  | 0x04 => some .clkCfg
  | 0x08 => some .modeCfg
  | 0x0C => some .csReg
  | 0x10 => some .intEn
  | 0x14 => some .status
  | 0x18 => some .txData
  | 0x1C => some .rxData
  | 0x20 => some .packetCnt
  | 0x24 => some .pendingClr
  | 0x28 => some .swapCfg
  | 0x2C => some .fbClk
  | _ => none

/-- The access sizes a register admits: 1, 2 or 4 bytes at the data ports, 4 elsewhere (R34). -/
def Reg.sizeOk (r : Reg) (n : Nat) : Bool :=
  match r with
  | .txData => n == 1 || n == 2 || n == 4
  | .rxData => n == 1 || n == 2 || n == 4
  | _ => n == 4

/-! ### Words and bytes (R44, R46) -/

/-- The word whose bytes are `bs`, the first least significant (R44). -/
def leWord (bs : List Byte) : Word := BitVec.ofNat 32 (leNat bs)

/-- The low `n` bytes of a number, least significant first (R44). -/
def leBytesNat : Nat → Nat → List Byte
  | 0, _ => []
  | n + 1, v => BitVec.ofNat 8 v :: leBytesNat n (v / 256)

/-- The low `n` bytes of a word, least significant first (R44). -/
def leBytes (n : Nat) (v : Word) : List Byte := leBytesNat n v.toNat

/-- A value of `wb * 8` bits: the rest of the word is 0. -/
def truncWord (wb : Nat) (v : Word) : Word := BitVec.ofNat 32 (v.toNat % 2 ^ (8 * wb))

/-- `swap(w, 2)`: exchange the two bytes (R46). -/
def swap2 (w : Word) : Word := put 8 (w.extractLsb' 0 8) ||| put 0 (w.extractLsb' 8 8)

/-- `swap(w, 4)`: reverse the four bytes (R46). -/
def swap4 (w : Word) : Word :=
  put 24 (w.extractLsb' 0 8) ||| put 16 (w.extractLsb' 8 8) ||| put 8 (w.extractLsb' 16 8) |||
    put 0 (w.extractLsb' 24 8)

/-- The swap one direction's three fields of `SWAP_CFG` ask for (R46); none where R46 states no result (fields
that CONFIGURE never writes for this word size; log entry 13). -/
def swapFields (en byte hword : Bool) (w : Word) (wb : Nat) : Option Word :=
  if wb = 1 then some w
  else if !en && !byte && !hword then some w
  else if en && byte && !hword && decide (wb = 2) then some (swap2 w)
  else if en && byte && hword && decide (wb = 4) then some (swap4 w)
  else none

/-- The transmit direction's swap. -/
def SwapCfg.swapTx (r : SwapCfg) (w : Word) (wb : Nat) : Option Word := swapFields r.txEn r.txByte r.txHword w wb

/-- The receive direction's swap. -/
def SwapCfg.swapRx (r : SwapCfg) (w : Word) (wb : Nat) : Option Word := swapFields r.rxEn r.rxByte r.rxHword w wb

/-! ### Clock and format (R100, R102, R104, R105, R107) -/

/-- `rate(src, target)`: divider and achieved speed, or none for UnachievableRate (R100). -/
def rate (src target : Nat) : Option (Nat × Nat) :=
  if target = 0 then none
  else if Config.divMax < src / (2 * (target + 1)) then none
  else if src / (2 * (src / (2 * (target + 1)) + 1)) = 0 then none
  else some (src / (2 * (target + 1)), src / (2 * (src / (2 * (target + 1)) + 1)))

/-- A width is legal exactly when it is 8, 16 or 32 (R102). -/
def widthOk (w : BitVec 6) : Bool := w == 8#6 || w == 16#6 || w == 32#6

/-- `code(width)` (R102): 0, 1, 2 for 8, 16, 32. -/
def widthCode (w : BitVec 6) : BitVec 2 := if w = 16#6 then 1#2 else if w = 32#6 then 2#2 else 0#2

/-- `swapval(width, swap_mode)` (R102): 0x00, 0x55 or 0xDD. -/
def swapVal (w : BitVec 6) (swapByte : Bool) : SwapCfg :=
  if swapByte && decide (w = 16#6) then ⟨true, true, false, true, true, false⟩
  else if swapByte && decide (w = 32#6) then ⟨true, true, true, true, true, true⟩
  else ⟨false, false, false, false, false, false⟩

/-- `eff_speed` (R105). -/
def effSpeed (t : Transfer) (b : Binding) : Word :=
  if t.speed = 0 then b.maxSpeed else if t.speed.toNat ≤ b.maxSpeed.toNat then t.speed else b.maxSpeed

/-- `eff_width` (R105). -/
def effWidth (t : Transfer) (b : Binding) : BitVec 6 := if t.width = 0 then b.width else t.width

/-- `need_config` (R104). -/
def needConfig (c : Ctrl) (s : Word) (m : SpiMode) (w : BitVec 6) : Bool :=
  !c.cfgValid || decide (s ≠ c.curSpeed) || decide (m ≠ c.curMode) || decide (w ≠ c.curWidth)

/-- `wb` of the transports: `C.cur_width / 8` (`43_fifo_polling.md`, `44_dma_transport.md`). -/
def Ctrl.wb (c : Ctrl) : Nat := c.curWidth.toNat / 8

/-- `wb(C)` of the datapath, from `CH_TSZ`; the reserved code 3 acts as 0 (R83, U2). -/
def Hw.wb (h : Hw) : Nat := if h.modeCfg.chTsz = 1#2 then 2 else if h.modeCfg.chTsz = 2#2 then 4 else 1

/-! ### Deadlines, chunks, bursts (R131, R146, R147, R177) -/

/-- `deadline_ms` (R131). -/
def deadlineMs (len speed : Nat) : Nat :=
  max Config.tMinMs (Config.tFactorNum * ((len * 8000) / speed) / Config.tFactorDen)

/-- `deadline_us` (R131). -/
def deadlineUs (len speed : Nat) : Nat := 1000 * deadlineMs len speed

/-- `chunk(T, off)` (R146). -/
def chunkOf (len off wb : Nat) : Nat := min (len - off) (Config.maxPacketCount * wb)

/-- `burst(n)` (R147). -/
def burstOf (n wb : Nat) : Nat := if n % (4 * wb) = 0 then 4 else 1

/-- The choice of transport (R177). -/
def transportOf (len half : Nat) : Transport := if len = 0 then .none else if len ≤ half then .poll else .dma

/-! ### Errors (R69, R235, R236) -/

/-- The error kinds of R69, with OK. -/
inductive ErrKind where
  | ok
  | unachievableRate
  | unsupportedWidth
  | invalidClock
  | timeout
  | overrun
  | underrun
  | lengthNotWordAligned
  | dmaMapFailed
  | channelUnavailable
  | unknownOpcode
  | malformed
  | badHandle
  | busy
  | wrongState
  deriving DecidableEq, Repr

/-- The status word of a kind with `info` = 0 (R69). -/
def ErrKind.base : ErrKind → Word
  | .ok => 0x00000000#32
  | .unachievableRate => 0x01010000#32
  | .unsupportedWidth => 0x01020000#32
  | .invalidClock => 0x02010000#32
  | .timeout => 0x03010000#32
  | .overrun => 0x03020000#32
  | .underrun => 0x03030000#32
  | .lengthNotWordAligned => 0x03040000#32
  | .dmaMapFailed => 0x03050000#32
  | .channelUnavailable => 0x04010000#32
  | .unknownOpcode => 0x05010000#32
  | .malformed => 0x05020000#32
  | .badHandle => 0x05030000#32
  | .busy => 0x05040000#32
  | .wrongState => 0x05050000#32

/-- A status word: class and kind, and the 16-bit `info` (R68, R69). -/
def statusWord (k : ErrKind) (info : Nat) : Word := k.base ||| put 0 (BitVec.ofNat 16 info)

/-- The number of a power state (R213). -/
def PState.code : PState → Nat
  | .active => 0
  | .idle => 1
  | .suspended => 2

/-- The number of a sequencer state (R71). -/
def SeqState.code : SeqState → Nat
  | .idle => 0
  | .configuringDevice => 1
  | .selectCs => 2
  | .configuring => 3
  | .transporting => 4
  | .postDelay => 5
  | .deselectCs => 6
  | .completed => 7
  | .failed => 8

/-- The number of a phase (R71). -/
def Phase.code : Phase → Nat
  | .none => 0
  | .pArm => 1
  | .pPoll => 2
  | .pDrain => 3
  | .dMap => 4
  | .dArm => 5
  | .dWait => 6
  | .dTxdrain => 7

/-- The phases of the polling transport. -/
def Phase.isPoll : Phase → Bool
  | .pArm => true
  | .pPoll => true
  | .pDrain => true
  | .none => false
  | .dMap => false
  | .dArm => false
  | .dWait => false
  | .dTxdrain => false

/-- The phases of the DMA transport. -/
def Phase.isDma : Phase → Bool
  | .dMap => true
  | .dArm => true
  | .dWait => true
  | .dTxdrain => true
  | .none => false
  | .pArm => false
  | .pPoll => false
  | .pDrain => false

/-! ### SUBMIT's checks (R171) -/

/-- Check 2: a buffer range does not pass the top of the address space. -/
def rangeOk (a : Word) (len : Nat) : Bool := decide (a.toNat + len ≤ Config.addrSpace)

/-- Check 2 for the buffers present, and for their device addresses when pre-mapped (R171). -/
def rangesOk (t : Transfer) : Bool :=
  (!t.txPresent || (rangeOk t.tx t.len.toNat && (!t.premapped || rangeOk t.txDma t.len.toNat))) &&
  (!t.rxPresent || (rangeOk t.rx t.len.toNat && (!t.premapped || rangeOk t.rxDma t.len.toNat)))

/-- The checks of one Transfer in the order of R171: the kind and `info` of the first that fails. -/
def checkTransfer (src : Word) (b : Binding) (i : Nat) (t : Transfer) : Option (ErrKind × Nat) :=
  if !(t.txPresent || t.rxPresent) then some (.malformed, 6)
  else if !rangesOk t then some (.malformed, 7)
  else if !widthOk (effWidth t b) then some (.unsupportedWidth, i)
  else if t.len.toNat % ((effWidth t b).toNat / 8) ≠ 0 then some (.lengthNotWordAligned, i)
  else if (rate src.toNat (effSpeed t b).toNat).isNone then some (.unachievableRate, i)
  else none

/-- `prevalidate` (R171), Transfer by Transfer from index `i`. -/
def prevalidate (src : Word) (b : Binding) : Nat → List Transfer → Option (ErrKind × Nat)
  | _, [] => none
  | i, t :: ts =>
    match checkTransfer src b i t with
    | some e => some e
    | none => prevalidate src b (i + 1) ts

/-! ### NEW's checks (R210) -/

/-- `fifo_depth` is a multiple of 16 from 16 to 256 (R7, R210). -/
def depthOk (d : BitVec 9) : Bool := decide (d.toNat % 16 = 0) && decide (16 ≤ d.toNat) && decide (d.toNat ≤ 256)

/-- Two 48-byte register windows meet (R210). -/
def windowsMeet (a b : Word) : Bool :=
  decide (a.toNat < b.toNat + Config.windowBytes) && decide (b.toNat < a.toNat + Config.windowBytes)

/-- `base_registers` is a multiple of 4 whose window fits the address space (R210). -/
def baseOk (a : Word) : Bool :=
  decide (a.toNat % 4 = 0) && decide (a.toNat + Config.windowBytes ≤ Config.addrSpace)

end Sys2Proof.Machine
end

