-- ==== Sys2Proof/Machine/Flags.lean ====
section
/-! DEFINITION. Flags and conditions: the sticky status bits and their masking (R87), the STATUS value (R27), the
derived predicates (R90, R91, R241), the latch and its error kind (R195, R199), and when each step is enabled
(R186 and the rule of each step). -/

namespace Sys2Proof

/-! ### Sets of conditions -/

/-- No condition. -/
def Conds.empty : Conds := ⟨false, false, false, false⟩

/-- All four conditions. -/
def Conds.all : Conds := ⟨true, true, true, true⟩

def Conds.has (s : Conds) : Cond → Bool
  | .rxOverrun => s.rxOverrun
  | .rxUnderrun => s.rxUnderrun
  | .txOverrun => s.txOverrun
  | .txUnderrun => s.txUnderrun

def Conds.insert (s : Conds) : Cond → Conds
  | .rxOverrun => { s with rxOverrun := true }
  | .rxUnderrun => { s with rxUnderrun := true }
  | .txOverrun => { s with txOverrun := true }
  | .txUnderrun => { s with txUnderrun := true }

def Conds.union (s t : Conds) : Conds :=
  ⟨s.rxOverrun || t.rxOverrun, s.rxUnderrun || t.rxUnderrun, s.txOverrun || t.txOverrun, s.txUnderrun || t.txUnderrun⟩

def Conds.inter (s t : Conds) : Conds :=
  ⟨s.rxOverrun && t.rxOverrun, s.rxUnderrun && t.rxUnderrun, s.txOverrun && t.txOverrun, s.txUnderrun && t.txUnderrun⟩

def Conds.diff (s t : Conds) : Conds :=
  ⟨s.rxOverrun && !t.rxOverrun, s.rxUnderrun && !t.rxUnderrun, s.txOverrun && !t.txOverrun,
    s.txUnderrun && !t.txUnderrun⟩

/-- The conditions of a set in the order ERR_ACK looks at them (R198). -/
def Conds.list (s : Conds) : List Cond :=
  [Cond.rxOverrun, .rxUnderrun, .txOverrun, .txUnderrun].filter s.has

end Sys2Proof

namespace Sys2Proof.Machine

/-! ### Status bits (R27, R87, R90) -/

/-- `set_status(C, X)` (R87): a condition whose clear bit is 1 is masked. -/
def Hw.setStatus (h : Hw) (x : Cond) : Hw :=
  if h.pendingClr.has x then h else { h with sticky := h.sticky.insert x }

/-- `set_status` for each condition of a set (R93). -/
def Hw.setStatuses (h : Hw) (m : Conds) : Hw :=
  { h with sticky := h.sticky.union (m.diff h.pendingClr) }

/-- `chan_on(C)` (R90). -/
def Hw.chanOn (h : Hw) : Bool := h.chCfg.txchOn || h.chCfg.rxchOn

/-- `in_txn(C)` (R90). -/
def Hw.inTxn (h : Hw) : Bool := h.shBusy || (h.packetCnt.en && decide (0 < h.pktRem.toNat) && h.chanOn)

/-- `tx_done(C)` (R90). -/
def Hw.txDone (h : Hw) : Bool := h.txf.isEmpty && !h.shBusy

/-- `RegRead(C, STATUS)` (R27, R87). -/
def Hw.statusWord (h : Hw) : Word :=
  condsStatusWord h.sticky ||| put 6 (BitVec.ofNat 9 h.txf.length) ||| put 15 (BitVec.ofNat 9 h.rxf.length) |||
    putBit 25 h.txDone

/-- The level the native select output shows while the clocks run (R91). -/
def Hw.nss (h : Hw) : Bool :=
  if !h.csReg.sigInact && (!h.csReg.auto || h.inTxn || h.csReg.idleHold) then h.csReg.activeHigh
  else !h.csReg.activeHigh

/-- `C.nss` (R91): with the clocks gated the output keeps the level it had. -/
def Ctrl.nss (c : Ctrl) : Bool := if c.clkOn then c.hw.nss else c.nssHeld

/-- `err_pending(C)` (R241): enables ERR_IRQ. -/
def Ctrl.errPending (c : Ctrl) : Bool := c.clkOn && (c.hw.sticky.inter c.hw.intEn).nonempty

/-! ### The latch (R195, R199) -/

/-- `kind_of(latch)` (R199): Overrun wins. -/
def kindOfLatch (l : Conds) : ErrKind := if l.rxOverrun || l.txOverrun then .overrun else .underrun

/-- The `info` of a failure in service (R69, R183): the Transfer index, and for Overrun and Underrun the latch in
bits 11:8. -/
def failInfo (k : ErrKind) (xi : Nat) (l : Conds) : Nat :=
  match k with
  | .overrun => xi + 256 * l.nibble.toNat
  | .underrun => xi + 256 * l.nibble.toNat
  | _ => xi

/-! ### Enabling conditions -/

/-- SEQ_START (R173). -/
def Ctrl.startEnabled (c : Ctrl) : Bool :=
  decide (c.seq.state = .idle) && !c.waitq.isEmpty && decide (c.pstate = .active) && !c.suspended

/-- The sequencer is in a state outside TRANSPORTING. -/
def Ctrl.inState (c : Ctrl) (x : SeqState) : Bool := decide (c.seq.state = x)

/-- The sequencer is in TRANSPORTING at a phase (R178). -/
def Ctrl.inPhase (c : Ctrl) (p : Phase) : Bool := decide (c.seq.state = .transporting) && decide (c.seq.phase = p)

/-- An activation is in progress (R220). -/
def Ctrl.activating (c : Ctrl) : Bool := decide (c.pstate = .idle) && (!c.waitq.isEmpty || c.actWait)

/-- ACQ_ATTEMPT (R216). -/
def Ctrl.acqEnabled (c : Ctrl) (now : Nat) : Bool :=
  c.activating && !c.suspended && decide (c.seq.state = .idle) && decide (c.acqNext ≤ now)

/-- SUSPEND_FINISH (R217). -/
def Ctrl.suspendFinishEnabled (c : Ctrl) : Bool :=
  c.suspended && decide (c.pstate ≠ .suspended) && decide (c.seq.state = .idle)

/-- POWER_LOSS (R219). -/
def Ctrl.powerLossEnabled (c : Ctrl) : Bool := decide (c.pstate = .suspended) && c.needsReinit

/-- SH_LOAD (R88). -/
def Ctrl.shLoadEnabled (c : Ctrl) (stalls : Bool) : Bool :=
  c.clkOn && c.hw.clkCfg.enclk && !c.hw.chCfg.swRst && !c.hw.shBusy &&
  c.hw.packetCnt.en && decide (0 < c.hw.pktRem.toNat) && c.hw.chanOn &&
  (!c.hw.chCfg.txchOn || decide (c.hw.wb ≤ c.hw.txf.length)) &&
  (decide (c.hw.wb ≤ c.fifoDepth - c.hw.rxf.length) || !c.hw.chCfg.rxchOn || !stalls)

/-- SH_DONE (R89). -/
def Ctrl.shDoneEnabled (c : Ctrl) : Bool := c.hw.shBusy && c.clkOn

/-- ERR_INJECT (R93). -/
def Ctrl.injectEnabled (c : Ctrl) (spurious : Bool) (m : Conds) : Bool :=
  spurious && c.clkOn && c.hw.inTxn && m.nonempty

/-- DMA_TX_BEAT (R150). -/
def Ctrl.txBeatEnabled (c : Ctrl) (ch : Chan) : Bool :=
  ch.armed && decide (ch.dir = .tx) && decide (0 < ch.rem) && c.clkOn && c.hw.modeCfg.txdmaOn && !c.hw.chCfg.swRst &&
  decide (ch.burst * ch.wb ≤ c.fifoDepth - c.hw.txf.length)

/-- DMA_RX_BEAT (R151). -/
def Ctrl.rxBeatEnabled (c : Ctrl) (ch : Chan) : Bool :=
  ch.armed && decide (ch.dir = .rx) && decide (0 < ch.rem) && c.clkOn && c.hw.modeCfg.rxdmaOn &&
  decide (ch.burst * ch.wb ≤ c.hw.rxf.length)

end Sys2Proof.Machine
end

