-- ==== Sys2Proof/Machine/Ops.lean ====
section
/-! DEFINITION. The shared operations: tables and memory, the register accesses with their side effects (R80 to
R87, R96), responses, mappings (R50), the flush and the register defaults (R200, R212), chip-select (R116, R117),
the failure path `fail(K)` (R183, R244), and the schedule. -/

namespace Sys2Proof.Machine

/-! ### Tables: lists of (key, value) pairs, keys strictly rising -/

def Table.get? {α : Type} : List (Nat × α) → Nat → Option α
  | [], _ => none
  | (k, x) :: t, n => if k = n then some x else Table.get? t n

def Table.set {α : Type} : List (Nat × α) → Nat → α → List (Nat × α)
  | [], n, v => [(n, v)]
  | (k, x) :: t, n, v =>
    if n < k then (n, v) :: (k, x) :: t else if n = k then (n, v) :: t else (k, x) :: Table.set t n v

def Table.erase {α : Type} : List (Nat × α) → Nat → List (Nat × α)
  | [], _ => []
  | (k, x) :: t, n => if k = n then Table.erase t n else (k, x) :: Table.erase t n

/-- Every key of the list is above `n`. -/
def Table.above {α : Type} (n : Nat) : List (Nat × α) → Bool
  | [] => true
  | (k, _) :: t => decide (n < k) && Table.above n t

/-- The canonical form: keys strictly rising. -/
def Table.sorted {α : Type} : List (Nat × α) → Bool
  | [] => true
  | (k, _) :: t => Table.above k t && Table.sorted t

/-! ### Host memory (R44): a byte that nothing has written reads as 0 (log entry 6) -/

/-- What an unlisted address reads as. -/
def Memory.unlisted : Byte := 0

def Memory.read (m : List Host.Cell) (a : Word) : Byte := (Table.get? m a.toNat).getD Memory.unlisted

def Memory.write (m : List Host.Cell) (a : Word) (v : Byte) : List Host.Cell :=
  if v = Memory.unlisted then Table.erase m a.toNat else Table.set m a.toNat v

/-- The canonical form of memory: addresses strictly rising and inside the address space, no entry equal to what
an unlisted address reads as. -/
def Memory.wf (m : List Host.Cell) : Bool :=
  Table.sorted m && m.all fun c => decide (c.2 ≠ Memory.unlisted) && decide (c.1 < Config.addrSpace)

/-- The `n` bytes from `a` upward. -/
def Memory.readBytes (m : List Host.Cell) : Nat → Word → List Byte
  | 0, _ => []
  | n + 1, a => Memory.read m a :: Memory.readBytes m n (a + 1)

/-- Bytes stored from `a` upward. -/
def Memory.writeBytes (m : List Host.Cell) : Word → List Byte → List Host.Cell
  | _, [] => m
  | a, b :: bs => Memory.writeBytes (Memory.write m a b) (a + 1) bs

/-- `MemRead(addr, n)` (R44). -/
def memRead (m : List Host.Cell) (a : Word) (n : Nat) : Word := leWord (Memory.readBytes m n a)

/-- `MemWrite(addr, n, v)` (R44). -/
def memWrite (m : List Host.Cell) (a : Word) (n : Nat) (v : Word) : List Host.Cell :=
  Memory.writeBytes m a (leBytes n v)

/-! ### Register writes (R81 to R87, R96) -/

/-- `format_changed(C)` (R96). -/
def Hw.formatChanged (h : Hw) : Hw := { h with txf := [], rxf := [] }

/-- The effect of `SW_RST` written 1 (R81). -/
def Hw.softReset (h : Hw) : Hw :=
  { h with txf := [], shBusy := false, pktRem := 0, chCfg := { h.chCfg with hsEn := false } }

/-- `RegWrite(C, CH_CFG, …)` (R81), by fields. -/
def Hw.putChCfg (h : Hw) (r : ChCfg) : Hw :=
  let h1 : Hw := { h with chCfg := r }
  let h2 : Hw := if r.swRst then h1.softReset else h1
  if r.cpha = h.chCfg.cpha ∧ r.cpol = h.chCfg.cpol then h2 else h2.formatChanged

/-- `RegWrite(C, CLK_CFG, …)` (R82), by fields. -/
def Hw.putClkCfg (h : Hw) (r : ClkCfg) : Hw :=
  let h1 : Hw := { h with clkCfg := r }
  if r.div = h.clkCfg.div then h1 else h1.formatChanged

/-- `RegWrite(C, MODE_CFG, …)` (R83), by fields. -/
def Hw.putModeCfg (h : Hw) (r : ModeCfg) : Hw :=
  let h1 : Hw := { h with modeCfg := r }
  if r.busTsz = h.modeCfg.busTsz ∧ r.chTsz = h.modeCfg.chTsz then h1 else h1.formatChanged

/-- `RegWrite(C, SWAP_CFG, …)` (R83), by fields. -/
def Hw.putSwapCfg (h : Hw) (r : SwapCfg) : Hw :=
  let h1 : Hw := { h with swapCfg := r }
  if r = h.swapCfg then h1 else h1.formatChanged

/-- `RegWrite(C, CS_REG, …)` (R83). -/
def Hw.putCsReg (h : Hw) (r : CsReg) : Hw := { h with csReg := r }

/-- `RegWrite(C, INT_EN, …)` (R83). -/
def Hw.putIntEn (h : Hw) (r : Conds) : Hw := { h with intEn := r }

/-- `RegWrite(C, FB_CLK, …)` (R83). -/
def Hw.putFbClk (h : Hw) (d : BitVec 2) : Hw := { h with fbDelay := d }

/-- `RegWrite(C, PACKET_CNT, …)` (R86): loads `pkt_rem`. -/
def Hw.putPacketCnt (h : Hw) (r : PacketCnt) : Hw :=
  { h with packetCnt := r, pktRem := if r.en then r.count else 0 }

/-- `RegWrite(C, PENDING_CLR, …)` (R87): stores the bits and clears the status bits they name. -/
def Hw.putPendingClr (h : Hw) (r : Conds) : Hw := { h with pendingClr := r, sticky := h.sticky.diff r }

/-- `RegWrite(C, TX_DATA, v)` with access size `n` (R84). -/
def Hw.writeTxData (h : Hw) (depth n : Nat) (v : Word) : Hw :=
  if h.chCfg.swRst then h
  else if depth - h.txf.length < n then h.setStatus .txOverrun
  else { h with txf := h.txf ++ leBytes n v }

/-- The value of `RegRead(C, RX_DATA)` with access size `n`; none where the FIFO is short and the value is a
`draw` (R85). -/
def Hw.rxValue (h : Hw) (n : Nat) : Option Word :=
  if n ≤ h.rxf.length then some (leWord (h.rxf.take n)) else none

/-- The effect of `RegRead(C, RX_DATA)` with access size `n` (R85). -/
def Hw.popRx (h : Hw) (n : Nat) : Hw :=
  if n ≤ h.rxf.length then { h with rxf := h.rxf.drop n } else h.setStatus .rxUnderrun

/-- The value of a register read (R80); none for the two data ports' `draw`s. -/
def Hw.regRead (h : Hw) (r : Reg) (n : Nat) : Option Word :=
  match r with
  | .chCfg => some h.chCfg.toWord
  | .clkCfg => some h.clkCfg.toWord
  | .modeCfg => some h.modeCfg.toWord
  | .csReg => some h.csReg.toWord
  | .intEn => some (condsStatusWord h.intEn)
  | .status => some h.statusWord
  | .txData => none
  | .rxData => h.rxValue n
  | .packetCnt => some h.packetCnt.toWord
  | .pendingClr => some (condsClrWord h.pendingClr)
  | .swapCfg => some h.swapCfg.toWord
  | .fbClk => some (put 0 h.fbDelay)

/-- The effect of a register write of the word `v` with access size `n` (R80; a write of the read-only `STATUS`,
`RX_DATA` is ignored, U5). -/
def Hw.regWrite (h : Hw) (depth : Nat) (r : Reg) (n : Nat) (v : Word) : Hw :=
  match r with
  | .chCfg => h.putChCfg (ChCfg.ofWord v)
  | .clkCfg => h.putClkCfg (ClkCfg.ofWord v)
  | .modeCfg => h.putModeCfg (ModeCfg.ofWord v)
  | .csReg => h.putCsReg (CsReg.ofWord v)
  | .intEn => h.putIntEn (condsOfStatusBits v)
  | .status => h
  | .txData => h.writeTxData depth n v
  | .rxData => h
  | .packetCnt => h.putPacketCnt (PacketCnt.ofWord v)
  | .pendingClr => h.putPendingClr (condsOfClrBits v)
  | .swapCfg => h.putSwapCfg (SwapCfg.ofWord v)
  | .fbClk => h.putFbClk (v.extractLsb' 0 2)

/-! ### Sequences of register accesses -/

/-- The drain loop of the flush (R200 item 4): one-byte reads until `RX_LVL` is 0; the first argument bounds the
loop by the number of bytes. -/
def Hw.drainRx : Nat → Hw → Hw
  | 0, h => h
  | n + 1, h => if h.rxf.isEmpty then h else Hw.drainRx n (h.popRx 1)

/-- The register part of FLUSH_OP (R200 items 1 to 5). -/
def Hw.flush (h : Hw) : Hw :=
  let h1 := h.putChCfg { h.chCfg with txchOn := false, rxchOn := false }
  let h2 := h1.putPacketCnt ⟨0, false⟩
  let h3 := h2.putChCfg { h2.chCfg with swRst := true }
  let h4 := h3.putChCfg { h3.chCfg with swRst := false }
  let h5 := h4.drainRx h4.rxf.length
  h5.putModeCfg { h5.modeCfg with txdmaOn := false, rxdmaOn := false }

/-- The register part of HW_INIT (R212). -/
def Hw.init (h : Hw) : Hw :=
  let h1 := h.putClkCfg ⟨0, false⟩
  let h2 := h1.putChCfg ⟨false, false, false, false, false, false⟩
  let h3 := h2.putModeCfg ⟨false, false, false, false, 0, 0⟩
  let h4 := h3.putCsReg ⟨true, false, false, false⟩
  let h5 := h4.putIntEn Conds.all
  let h6 := (h5.putPendingClr Conds.all).putPendingClr Conds.empty
  let h7 := h6.putPacketCnt ⟨0, false⟩
  let h8 := h7.putSwapCfg ⟨false, false, false, false, false, false⟩
  let h9 := h8.putFbClk 0
  h9.flush

/-- The register part of CONFIGURE (R103): divider `d`, the high-speed request `hs`. -/
def Hw.configure (h : Hw) (d : Nat) (hs : Bool) (mode : SpiMode) (width : BitVec 6) (swapByte : Bool) : Hw :=
  let h1 := h.putClkCfg { h.clkCfg with enclk := false }
  let h2 := h1.putChCfg ⟨false, false, mode.cpha, mode.cpol, false, hs⟩
  let h3 := h2.putModeCfg ⟨false, false, false, mode.loop, widthCode width, widthCode width⟩
  let h4 := h3.putSwapCfg (swapVal width swapByte)
  let h5 := h4.putClkCfg ⟨BitVec.ofNat 8 d, true⟩
  h5.formatChanged

/-- P_ARM's pushes: `W` words of `wb` bytes from `a` upward (R132). -/
def Hw.pushWords (m : List Host.Cell) (depth wb : Nat) : Nat → Word → Hw → Hw
  | 0, _, h => h
  | k + 1, a, h => Hw.pushWords m depth wb k (a + BitVec.ofNat 32 wb) (h.writeTxData depth wb (memRead m a wb))

/-- Register, FIFO and shifter contents that nothing determines: before HW_INIT and after POWER_LOSS (R37, U10).
Reserved bits and `SLAVE` cannot be drawn. No rule gives the draw of `sh_word` a width: that it is of all 32 bits,
whatever the word size in force, is the model's choice (log entry 32). -/
def Hw.drawn (n depth : Nat) : Hw where
  chCfg := ChCfg.ofWord (Config.freeWord n)
  clkCfg := ClkCfg.ofWord (Config.freeWord (n + 1))
  modeCfg := ModeCfg.ofWord (Config.freeWord (n + 2))
  csReg := CsReg.ofWord (Config.freeWord (n + 3))
  intEn := condsOfStatusBits (Config.freeWord (n + 4))
  sticky := condsOfStatusBits (Config.freeWord (n + 5))
  packetCnt := PacketCnt.ofWord (Config.freeWord (n + 6))
  pendingClr := condsOfClrBits (Config.freeWord (n + 7))
  swapCfg := SwapCfg.ofWord (Config.freeWord (n + 8))
  fbDelay := (Config.freeWord (n + 9)).extractLsb' 0 2
  txf := (Config.freeBytes (n + 10)).take depth
  rxf := (Config.freeBytes (n + 11)).take depth
  pktRem := (Config.freeWord (n + 12)).extractLsb' 0 16
  shBusy := Config.freeBit (n + 13)
  shWord := Config.freeWord (n + 14)
  shDefined := Config.freeBit (n + 15)

/-- The draws one `Hw.drawn` makes. -/
def drawnCount : Nat := 16

/-! ### State: channels, lines, responses, draws -/

/-- A free, unarmed channel (R19): what an unlisted channel is. -/
def Chan.free : Chan := ⟨none, false, .tx, 0, 0, 0, 0, false⟩

def State.chanAt (s : State) (k : Byte) : Chan := (Table.get? s.chan k.toNat).getD Chan.free

def State.setChan (s : State) (k : Byte) (ch : Chan) : State :=
  { s with chan := if ch = Chan.free then Table.erase s.chan k.toNat else Table.set s.chan k.toNat ch }

/-- The level of a select line; before the first BIND that names it, unspecified (R10, R260). -/
def State.lineLevel (s : State) (l : Byte) : Bool := (Table.get? s.csLine l.toNat).getD (Config.powerOnLine l.toNat)

def State.setLine (s : State) (l : Byte) (level : Bool) : State :=
  { s with csLine := Table.set s.csLine l.toNat level }

/-- A response packet (R68). -/
def State.respond (s : State) (dest : Recipient) (ws : List Word) : State :=
  { s with outbox := s.outbox ++ [⟨dest, ws⟩] }

/-- The two-word response of a command: status word, word 1 (R68). -/
def State.answer (s : State) (k : ErrKind) (info : Nat) (word1 : Word) : State :=
  s.respond .issuer [statusWord k info, word1]

/-- A SUBMIT response given without service: word 1 = 0 and `n` zero speed words (R170). -/
def zeroOutcome (k : ErrKind) (info n : Nat) : List Word := statusWord k info :: 0 :: List.replicate n 0

/-- Take `n` draws. -/
def State.drew (s : State) (n : Nat) : State := { s with draws := s.draws + n }

def State.pushBus (s : State) (e : BusEvent) : State := { s with busLog := s.busLog ++ [e] }

/-- The controller `c`, if present. -/
def State.ctrlAt (s : State) (c : Byte) : Option Ctrl := Table.get? s.ctrl c.toNat

/-- `n` bytes of memory from `a` upward take values that no rule constrains (R52 item 3). -/
def State.forget : Nat → Word → State → State
  | 0, _, s => s
  | n + 1, a, s =>
    State.forget n (a + 1) { s with mem := Memory.write s.mem a (Config.freeByte s.draws), draws := s.draws + 1 }

/-- A controller's bindings' entry. -/
def Ctrl.bindAt (c : Ctrl) (b : Byte) : Option Binding := Table.get? c.bind b.toNat

/-- The Transfer in hand, `M.t[xi]`. -/
def Ctrl.transfer (c : Ctrl) : Option Transfer := c.seq.msg[c.seq.xi]?

/-- Gate the clocks: the native output keeps its level from here on (R91). -/
def Ctrl.gate (c : Ctrl) : Ctrl := { c with nssHeld := c.hw.nss, clkOn := false }

/-! ### Views -/

/-- Put the controller back. -/
def View.commit (v : View) : State := { v.st with ctrl := Table.set v.st.ctrl v.key.toNat v.c }

def View.onHw (v : View) (f : Hw → Hw) : View := { v with c := { v.c with hw := f v.c.hw } }

def View.onSeq (v : View) (f : Seq → Seq) : View := { v with c := { v.c with seq := f v.c.seq } }

/-- Work on the controller `c`; a step of an absent controller is not enabled (log entry 2). -/
def State.withCtrl (s : State) (c : Byte) (k : View → Out) : Out :=
  match s.ctrlAt c with
  | none => .next s
  | some x => k ⟨s, c, x⟩

/-- A step that accesses registers while the clocks are gated is a fault of the model (R80, U7). -/
def View.clocked (v : View) (k : Out) : Out := if v.c.clkOn then k else .fault .registerAccessClockOff

/-- The binding of the Message in service. -/
def View.binding (v : View) : Option Binding := v.c.bindAt v.c.seq.b

/-! ### Errors: ERR_ACK, check_status, fail (R183, R196, R198, R244) -/

/-- ERR_ACK (R198): log, latch, clear every condition seen. -/
def View.errAck (v : View) : View :=
  let seen := v.c.hw.sticky
  let snapshot := v.c.hw.statusWord
  { v with
    st := { v.st with errLog := v.st.errLog ++ seen.list.map fun x => ⟨v.c.id, x, snapshot, v.st.now⟩ }
    c := { v.c with
      errLatch := v.c.errLatch.union seen
      hw := (v.c.hw.putPendingClr seen).putPendingClr Conds.empty } }

/-- `check_status(C)` (R196); the latch is then read from the view. -/
def View.checkStatus (v : View) : View := if v.c.hw.sticky.nonempty then v.errAck else v

/-- The first `n` bytes of the failing Transfer's receive buffer are no longer determined (R52 item 3). -/
def View.forgetRx (v : View) (n : Nat) : View :=
  match v.c.transfer with
  | none => v
  | some t => if t.rxPresent then { v with st := State.forget n t.rx v.st } else v

/-- `fail(K)` (R183, R244), the block's trap entry: the status word is saved, the state becomes FAILED. `written`
is how many bytes of the failing Transfer's receive buffer the engine may have written (log entry 14). -/
def View.fail (v : View) (k : ErrKind) (written : Nat) : View :=
  (v.forgetRx written).onSeq fun q =>
    { q with err := statusWord k (failInfo k v.c.seq.xi v.c.errLatch), phase := .none, state := .failed }

/-- `enter_post_delay(C)` (R179). -/
def View.enterPostDelay (v : View) (t : Transfer) : View :=
  v.onSeq fun q => { q with phase := .none, delayUntil := v.st.now + t.delayUsecs.toNat, state := .postDelay }

/-- `validate_status(C)` (R179), the tail of P_DRAIN. -/
def View.validateStatus (v : View) (t : Transfer) (written : Nat) : View :=
  let v1 := v.checkStatus
  if v1.c.errLatch.nonempty then v1.fail (kindOfLatch v1.c.errLatch) written else v1.enterPostDelay t

/-! ### Flush and defaults (R200, R212) -/

/-- FLUSH_OP (R200). -/
def View.flushOp (v : View) : View :=
  { v with c := { v.c with hw := v.c.hw.flush, cfgValid := false, errLatch := Conds.empty } }

/-- HW_INIT (R212). -/
def View.hwInit (v : View) : View :=
  { v with c := { v.c with hw := v.c.hw.init, cfgValid := false, errLatch := Conds.empty } }

/-! ### Chip-select (R116, R117) -/

/-- Where a binding's select is driven (R116, decision D13). -/
def bindingSite (b : Binding) : Site :=
  match b.csMode, b.line with
  | .manual, some l => .line l
  | .manual, none => .native
  | .auto, _ => .autoNative

/-- CS_ASSERT (R116) of a present binding. -/
def View.assertBinding (v : View) (b : Byte) (x : Binding) : View :=
  let v1 : View := match bindingSite x with
    | .line l => { v with st := v.st.setLine l x.activeLevel }
    | .native => v.onHw fun h => h.putCsReg ⟨false, false, false, x.activeLevel⟩
    | .autoNative => v.onHw fun h => h.putCsReg ⟨false, true, x.idleHold, x.activeLevel⟩
  { v1 with st := v1.st.pushBus (.csAssert v.c.id b (bindingSite x)), c := { v1.c with csHolder := some b } }

/-- CS_ASSERT (R116). -/
def View.csAssert (v : View) (b : Byte) : View :=
  match v.c.bindAt b with
  | none => v
  | some x => v.assertBinding b x

/-- CS_DEASSERT (R117) of the present holder's binding. -/
def View.deassertBinding (v : View) (b : Byte) (x : Binding) : View :=
  let v1 : View := match bindingSite x with
    | .line l => { v with st := v.st.setLine l (!x.activeLevel) }
    | .native => v.onHw fun h => h.putCsReg { h.csReg with sigInact := true }
    | .autoNative => v.onHw fun h => h.putCsReg { h.csReg with sigInact := true }
  { v1 with st := v1.st.pushBus (.csDeassert v.c.id b (bindingSite x)), c := { v1.c with csHolder := none } }

/-- CS_DEASSERT (R117): nothing when already Deasserted. -/
def View.csDeassert (v : View) : View :=
  match v.c.csHolder with
  | none => v
  | some b =>
    match v.c.bindAt b with
    | none => v
    | some x => v.deassertBinding b x

/-- CS_DEASSERT would write `CS_REG` (R117: "the register form needs `C.clk_on = 1`"). -/
def Ctrl.deassertTouchesRegister (c : Ctrl) : Bool :=
  match c.csHolder with
  | none => false
  | some b =>
    match c.bindAt b with
    | none => false
    | some x =>
      match bindingSite x with
      | .line _ => false
      | .native => true
      | .autoNative => true

/-- CS_DEASSERT in a step: a fault where it would touch a register with the clocks gated. -/
def View.deassertClocked (v : View) (k : View → Out) : Out :=
  if v.c.deassertTouchesRegister then v.clocked (k v.csDeassert) else k v.csDeassert

/-! ### CONFIGURE (R103) -/

/-- CONFIGURE: the error it raises with nothing written, or the view after it. -/
def View.configure (v : View) (speed : Word) (mode : SpiMode) (width : BitVec 6) : Except ErrKind View :=
  if !widthOk width then .error .unsupportedWidth
  else
    match rate v.c.srcClk.toNat speed.toNat with
    | none => .error .unachievableRate
    | some (d, a) => .ok { v with c := { v.c with
        hw := v.c.hw.configure d (decide (Config.hsThresholdHz ≤ a)) mode width v.c.swapByte
        curSpeed := BitVec.ofNat 32 a
        curMode := mode
        curWidth := width
        cfgValid := true } }

/-! ### Mappings and device accesses (R50, R158) -/

/-- MAPPER's answer to a request: the outside's own when it fixed one, else a free value; an answer whose range
passes the top of the device-visible space is no address (log entry 9). -/
def State.mapAnswer (s : State) (addr : Word) (n : Nat) (dir : MapDir) : Option Word :=
  match s.mapTape with
  | [] => (Config.mapper s.draws addr n dir).filter fun d => rangeOk d n
  | x :: _ => x.filter fun d => rangeOk d n

/-- The request itself used up the fixed answer, or made a draw. -/
def State.mapAsked (s : State) : State :=
  match s.mapTape with
  | [] => s.drew 1
  | _ :: t => { s with mapTape := t }

/-- The mapping becomes live. -/
def State.addMapping (s : State) (m : Mapping) : State := { s with maps := m :: s.maps }

/-- `Unmap(d)` by controller `c` for direction `dir`: the mapping ends (R50). -/
def State.unmap (s : State) (c : Byte) (dir : MapDir) (d : Word) : State :=
  { s with maps := s.maps.eraseP fun m => decide (m.ctrl = c) && decide (m.dir = dir) && decide (m.dev = d) }

/-- `unmap_owed(C)` (R158), transmit side. -/
def View.unmapTx (v : View) : View :=
  match v.c.seq.weMappedTx, v.c.seq.mapTx with
  | true, some d => { v with st := v.st.unmap v.c.id .toDevice d }
  | _, _ => v

/-- `unmap_owed(C)` (R158), receive side. -/
def View.unmapRx (v : View) : View :=
  match v.c.seq.weMappedRx, v.c.seq.mapRx with
  | true, some d => { v with st := v.st.unmap v.c.id .fromDevice d }
  | _, _ => v

/-- `unmap_owed(C)` (R158). -/
def View.unmapOwed (v : View) : View :=
  (v.unmapTx.unmapRx).onSeq fun q =>
    { q with weMappedTx := false, weMappedRx := false, mapTx := none, mapRx := none }

/-- The pre-mapped ranges a Transfer brings (R50). -/
def premappedOf (c : Byte) (t : Transfer) : List Mapping :=
  if t.premapped then
    (if t.txPresent then [⟨c, .toDevice, t.txDma, t.tx, t.len.toNat⟩] else []) ++
    (if t.rxPresent then [⟨c, .fromDevice, t.rxDma, t.rx, t.len.toNat⟩] else [])
  else []

/-- The pre-mapped ranges of the Message a controller has in service (R50: "for the whole Message"). -/
def premappedRanges (c : Ctrl) : List Mapping :=
  if c.owner.isSome then c.seq.msg.flatMap (premappedOf c.id) else []

/-- Every live range: the engine's mappings, then the pre-mapped ones. -/
def State.ranges (s : State) : List Mapping := s.maps ++ s.ctrl.flatMap fun x => premappedRanges x.2

/-- The range covers the device address. -/
def Mapping.covers (m : Mapping) (d : Word) : Bool :=
  decide (m.dev.toNat ≤ d.toNat) && decide (d.toNat < m.dev.toNat + m.len)

/-- The host byte behind a device address (R50); none outside every live range (U8). -/
def State.translate (s : State) (d : Word) : Option Word :=
  (s.ranges.find? fun m => m.covers d).map fun m => m.host + (d - m.dev)

/-- The byte at `h` races with the receive side of the same Transfer: the buffers overlap with `T.rx > T.tx`
(R42, U9). -/
def Ctrl.racy (c : Ctrl) (h : Word) : Bool :=
  match c.transfer with
  | none => false
  | some t => t.txPresent && t.rxPresent && decide (t.tx.toNat < t.rx.toNat) && decide (t.rx.toNat ≤ h.toNat) &&
      decide (h.toNat < t.rx.toNat + t.len.toNat)

/-- `DevRead` of one byte by the TX channel (R50, R42). -/
def View.devReadByte (v : View) (d : Word) : Option (Byte × View) :=
  match v.st.translate d with
  | none => none
  | some h =>
    if v.c.racy h then some (Config.freeByte v.st.draws, { v with st := v.st.drew 1 })
    else some (Memory.read v.st.mem h, v)

/-- `DevRead(d, n)`, byte by byte (R44, R50). -/
def View.devRead : Nat → Word → View → Option (List Byte × View)
  | 0, _, v => some ([], v)
  | n + 1, d, v =>
    match v.devReadByte d with
    | none => none
    | some (b, v1) =>
      match View.devRead n (d + 1) v1 with
      | none => none
      | some (bs, v2) => some (b :: bs, v2)

/-- `DevWrite`, byte by byte (R44, R50). -/
def View.devWrite : Word → List Byte → View → Option View
  | _, [], v => some v
  | d, b :: bs, v =>
    match v.st.translate d with
    | none => none
    | some h => View.devWrite (d + 1) bs { v with st := { v.st with mem := Memory.write v.st.mem h b } }

/-- `RegRead(C, RX_DATA)` with access size `n` (R85). -/
def View.readRx (v : View) (n : Nat) : Word × View :=
  match v.c.hw.rxValue n with
  | some w => (w, v.onHw fun h => h.popRx n)
  | none => (Config.freeWord v.st.draws, { (v.onHw fun h => h.popRx n) with st := v.st.drew 1 })

/-! ### DMA channels (R157) -/

/-- The abort of one channel the controller leases (R157). -/
def State.abortChan (s : State) (owner k : Byte) : State :=
  if (s.chanAt k).lessee = some owner then
    s.setChan k { s.chanAt k with armed := false, rem := 0, notify := false }
  else s

/-- DMA_ABORT (R157). -/
def View.dmaAbort (v : View) : View :=
  { v with
    st := (v.st.abortChan v.c.id v.c.dmaRx).abortChan v.c.id v.c.dmaTx
    c := { v.c with rxBusy := false, txBusy := false, dmaDone := false } }

/-- Set a channel's lessee. -/
def State.setLessee (s : State) (k : Byte) (l : Option Byte) : State := s.setChan k { s.chanAt k with lessee := l }

/-! ### Activation and waiting callers (R216, R217, R220) -/

/-- `start_activation(C)` (R220). -/
def Ctrl.startActivation (c : Ctrl) (now : Nat) : Ctrl :=
  if c.waitq.isEmpty && !c.actWait then { c with acqK := 0, acqNext := now } else c

/-- Every waiting caller is answered with the same error, word 1 and all speed words 0 (R216, R217). -/
def State.answerWaiters (s : State) (k : ErrKind) (info : Nat) : List Waiter → State
  | [] => s
  | w :: ws => State.answerWaiters (s.respond (.caller w.tag) (zeroOutcome k info w.msg.length)) k info ws

/-! ### Borrowed memory and the schedule (R52, R268; log entries 1 and 19) -/

/-- The address is inside a buffer the Transfer names. -/
def transferBorrows (t : Transfer) (a : Word) : Bool :=
  (t.txPresent && decide (t.tx.toNat ≤ a.toNat) && decide (a.toNat < t.tx.toNat + t.len.toNat)) ||
  (t.rxPresent && decide (t.rx.toNat ≤ a.toNat) && decide (a.toNat < t.rx.toNat + t.len.toNat))

/-- The address is inside a buffer of a Message that waits or is in service at this controller. -/
def Ctrl.borrows (c : Ctrl) (a : Word) : Bool :=
  (c.waitq.any fun w => w.msg.any fun t => transferBorrows t a) ||
  (c.owner.isSome && c.seq.msg.any fun t => transferBorrows t a)

/-- The address is borrowed by the engine (R52). -/
def State.borrowed (s : State) (a : Word) : Bool := s.ctrl.any fun x => x.2.borrows a

/-- A caller's store of one byte: outside every borrow only (R10, R52 item 4). -/
def State.callerWrite (s : State) (a : Word) (v : Byte) : State :=
  if s.borrowed a then s else { s with mem := Memory.write s.mem a v }

/-- What is scheduled next, and the state without it (log entry 1). -/
def State.fetch (s : State) : Option (Input × State) :=
  match s.inbox with
  | [] => none
  | i :: rest => some (i, { s with inbox := rest })

/-- Schedule an encoded command or step before everything else (log entry 1). -/
def State.schedule (s : State) (e : Encoded) : State := { s with inbox := .encoded e :: s.inbox }

/-- The answer to a packet the decoder reads no command from (R70; the empty packet, log entry 5). -/
def State.answerUndecoded (s : State) (e : DecodeError) : Out :=
  match e with
  | .unknownOpcode => .next (s.answer .unknownOpcode 0 0)
  | .emptyPacket => .next (s.answer .malformed 2 0)
  | .unknownTag => .refused .unknownStepTag
  | .stepOperandLength => .refused .stepOperandForm
  | .stepOperandReserved => .refused .stepOperandForm

/-- The form checks every command makes first (R70, R73, R236): Malformed(1), Malformed(2), else the command; `n`
is the number of speed words a SUBMIT's response carries (R68). -/
def State.checkForm (s : State) (f : PacketForm) (n : Nat) (k : Out) : Out :=
  match f with
  | .mbzNonzero => .next (s.respond .issuer (zeroOutcome .malformed 1 n))
  | .wrongLength => .next (s.respond .issuer (zeroOutcome .malformed 2 n))
  | .exact => k

/-- The command's controller, or BadHandle (R243). -/
def State.withHandle (s : State) (c : Byte) (k : Ctrl → Out) : Out :=
  match s.ctrlAt c with
  | none => .next (s.answer .badHandle 0 0)
  | some x => k x

/-- Work on the Transfer in hand of controller `c` when the step is enabled; a step that is not enabled does
nothing (log entries 2, 20). -/
def State.withTransfer (s : State) (c : Byte) (enabled : Ctrl → Bool) (k : View → Transfer → Out) : Out :=
  s.withCtrl c fun v =>
    if enabled v.c then
      match v.c.transfer with
      | none => .next s
      | some t => k v t
    else .next s

/-- Put a controller back after a command. -/
def State.setCtrl (s : State) (c : Byte) (x : Ctrl) : State := { s with ctrl := Table.set s.ctrl c.toNat x }

end Sys2Proof.Machine
end

