-- ==== Sys2Proof/Machine/ChipSelect.lean ====
section
/-! DEFINITION. The chip-select controller's micro-operations (`42_chip_select.md`): CS_ASSERT, CS_DEASSERT. -/

namespace Sys2Proof.Machine

/-- CS_ASSERT (R116), tag 0x21: with a present binding and no holder; with the clocks gated, a fault. -/
def execCsAssert (c b : Byte) (s : State) : Out :=
  s.withCtrl c fun v =>
    if decide (v.c.csHolder = none) && (v.c.bindAt b).isSome then v.clocked (.next (v.csAssert b).commit)
    else .next s

/-- CS_DEASSERT (R117), tag 0x22: nothing when nothing is held. -/
def execCsDeassert (c : Byte) (s : State) : Out :=
  s.withCtrl c fun v =>
    if v.c.csHolder = none then .next s else v.deassertClocked fun v1 => .next v1.commit

end Sys2Proof.Machine
end

