-- ==== Sys2Proof/Machine/ClockFormat.lean ====
section
/-! DEFINITION. The clock and format configurator (`41_clock_format.md`): CONFIGURE, BIND. -/

namespace Sys2Proof.Machine

/-- CONFIGURE (R103), tag 0x20, in the sequencer state CONFIGURING and nowhere else (R109). Where it raises, nothing
is written (log entry 24). -/
def execConfigure (c : Byte) (speed : Word) (mode : SpiMode) (width : BitVec 6) (s : State) : Out :=
  s.withCtrl c fun v =>
    if v.c.inState .configuring then
      match v.configure speed mode width with
      | .error _ => .next s
      | .ok v1 => v.clocked (.next v1.commit)
    else .next s

/-- Some binding of any controller names the line (R106). -/
def State.lineNamed (s : State) (l : Byte) : Bool :=
  s.ctrl.any fun x => x.2.bind.any fun y => decide (y.2.line = some l)

/-- The binding BIND records (R106): the achieved speed, not the request. -/
def bindingOf (a : BindArgs) (achieved : Nat) : Binding where
  maxSpeed := BitVec.ofNat 32 achieved
  mode := a.mode
  width := a.width
  line := if a.linePresent then some a.lineId else none
  csMode := a.csMode
  activeLevel := a.activeLevel
  idleHold := a.idleHold
  fbDelay := a.fbDelay
  secureRouted := a.secureRouted

/-- BIND once every check has passed (R106). -/
def State.bindDone (s : State) (c b : Byte) (x : Ctrl) (a : BindArgs) (achieved : Nat) : State :=
  let s1 := s.setCtrl c { x with
    bind := Table.set x.bind b.toNat (bindingOf a achieved), secure := x.secure || a.secureRouted }
  let s2 := if a.linePresent then s1.setLine a.lineId (!a.activeLevel) else s1
  s2.answer .ok 0 (BitVec.ofNat 32 achieved)

/-- BIND (R106), opcode 0x03. -/
def execBind (f : PacketForm) (c b : Byte) (a : BindArgs) (s : State) : Out :=
  s.checkForm f 0 <| s.withHandle c fun x =>
    if (x.bindAt b).isSome then .next (s.answer .malformed 4 0)
    else if a.linePresent && s.lineNamed a.lineId then .next (s.answer .malformed 5 0)
    else if !widthOk a.width then .next (s.answer .unsupportedWidth 0 0)
    else if a.maxSpeed = 0 then .next (s.answer .unachievableRate 0 0)
    else if x.srcClk.toNat < 2 * a.maxSpeed.toNat then .next (s.answer .invalidClock 0 0)
    else
      match rate x.srcClk.toNat a.maxSpeed.toNat with
      | none => .next (s.answer .unachievableRate 0 0)
      | some (_, achieved) => .next (s.bindDone c b x a achieved)

end Sys2Proof.Machine
end

