-- ==== Sys2Proof/Machine/Datapath.lean ====
section
/-! DEFINITION. The serial engine and the environment (`40_datapath.md`): SH_LOAD, SH_DONE, ERR_INJECT, TICK. -/

namespace Sys2Proof.Machine

/-- SH_LOAD's effect (R88). A swap R46 gives no result for is a free value (log entry 13). -/
def View.shLoad (v : View) : View :=
  let h := v.c.hw
  if h.chCfg.txchOn then
    match h.swapCfg.swapTx (leWord (h.txf.take h.wb)) h.wb with
    | some w =>
      v.onHw fun h => { h with txf := h.txf.drop h.wb, shWord := w, shDefined := true, shBusy := true }
    | none =>
      { v.onHw (fun h => { h with
          txf := h.txf.drop h.wb, shWord := truncWord h.wb (Config.freeWord v.st.draws), shDefined := true,
          shBusy := true }) with st := v.st.drew 1 }
  else
    { v.onHw (fun h => { h with
        shWord := truncWord h.wb (Config.freeWord v.st.draws), shDefined := false, shBusy := true }) with
      st := v.st.drew 1 }

/-- SH_LOAD (R88), tag 0x30. -/
def execShLoad (c : Byte) (s : State) : Out :=
  s.withCtrl c fun v => if v.c.shLoadEnabled s.params.shifterStalls then .next v.shLoad.commit else .next s

/-- The word the wire brings back (R89, R92). -/
def View.wireWord (v : View) : Word :=
  if v.c.hw.modeCfg.loopback then v.c.hw.shWord
  else truncWord v.c.hw.wb (Config.periph v.c.id v.c.csHolder v.c.hw.wb v.c.hw.shWord v.st.busLog)

/-- SH_DONE's receive side (R89): push the swapped word, or lose it and set RX_OVERRUN. -/
def View.receive (v : View) (r : Word) : View :=
  let h := v.c.hw
  if h.chCfg.rxchOn then
    if h.wb ≤ v.c.fifoDepth - h.rxf.length then
      match h.swapCfg.swapRx r h.wb with
      | some w => v.onHw fun h => { h with rxf := h.rxf ++ leBytes h.wb w }
      | none =>
        { v.onHw (fun h => { h with rxf := h.rxf ++ leBytes h.wb (Config.freeWord v.st.draws) }) with
          st := v.st.drew 1 }
    else v.onHw fun h => h.setStatus .rxOverrun
  else v

/-- One word less to shift (R89); below 0 no result is stated (log entry 12). -/
def View.countDown (v : View) : View :=
  if v.c.hw.pktRem = 0 then
    { v.onHw (fun h => { h with pktRem := (Config.freeWord v.st.draws).extractLsb' 0 16, shBusy := false }) with
      st := v.st.drew 1 }
  else v.onHw fun h => { h with pktRem := h.pktRem - 1, shBusy := false }

/-- The `Word` event of the word on the wire (R35, R89). -/
def Ctrl.wordEvent (c : Ctrl) (r : Word) : BusEvent :=
  .word c.id (8 * c.hw.wb) c.hw.chCfg.cpol c.hw.chCfg.cpha c.hw.clkCfg.div c.hw.shWord c.hw.shDefined r

/-- SH_DONE's effect (R89). -/
def View.shDone (v : View) : View :=
  let r := v.wireWord
  let v1 := (v.receive r).countDown
  { v1 with st := v1.st.pushBus (v.c.wordEvent r) }

/-- SH_DONE (R89), tag 0x31. -/
def execShDone (c : Byte) (s : State) : Out :=
  s.withCtrl c fun v => if v.c.shDoneEnabled then .next v.shDone.commit else .next s

/-- ERR_INJECT (R93), tag 0x37. -/
def execErrInject (c : Byte) (m : Conds) (s : State) : Out :=
  s.withCtrl c fun v =>
    if v.c.injectEnabled s.params.spuriousErrors m then .next (v.onHw fun h => h.setStatuses m).commit else .next s

/-- TICK (R94), tag 0x39: `now` advances by `d + 1` microseconds. -/
def execTick (d : Nat) (s : State) : Out := .next { s with now := s.now + (d + 1) }

end Sys2Proof.Machine
end

