-- ==== Sys2Proof/Machine/Dispatcher.lean ====
section
/-! DEFINITION. The transfer dispatcher (`45_dispatcher.md`): SUBMIT and the steps of the sequencer outside the
transports. -/

namespace Sys2Proof.Machine

/-! ### SUBMIT (R170, R171, R172) -/

/-- A SUBMIT answered at acceptance: word 1 = 0 and `n` zero speed words (R170). -/
def State.rejectSubmit (s : State) (k : ErrKind) (info n : Nat) : Out :=
  .next (s.respond .issuer (zeroOutcome k info n))

/-- The Message is queued under a fresh caller tag; in IDLE an activation starts first (R170, R220). -/
def State.acceptSubmit (s : State) (c b : Byte) (x : Ctrl) (ts : List Transfer) : State :=
  let x1 := if x.pstate = .idle then x.startActivation s.now else x
  { s.setCtrl c { x1 with waitq := x1.waitq ++ [⟨s.nextTag, b, ts⟩] } with nextTag := s.nextTag + 1 }

/-- SUBMIT's acceptance (R170), opcode 0x04. -/
def execSubmit (f : PacketForm) (c b : Byte) (ts : List Transfer) (s : State) : Out :=
  s.checkForm f ts.length <|
    if ts.isEmpty then s.rejectSubmit .malformed 3 0
    else
      match s.ctrlAt c with
      | none => s.rejectSubmit .badHandle 0 ts.length
      | some x =>
        match x.bindAt b with
        | none => s.rejectSubmit .badHandle 0 ts.length
        | some bd =>
          match prevalidate x.srcClk bd 0 ts with
          | some (k, info) => s.rejectSubmit k info ts.length
          | none =>
            if x.suspended then s.rejectSubmit .channelUnavailable 2 ts.length
            else .next (s.acceptSubmit c b x ts)

/-! ### The sequencer -/

/-- SEQ_START's effect for the waiting entry `w` at index `i` (R173). -/
def View.seqStart (v : View) (i : Nat) (w : Waiter) : View :=
  { v with c := { v.c with
    waitq := v.c.waitq.eraseIdx i
    owner := some w.tag
    seq := { v.c.seq with
      b := w.b, msg := w.msg, msgStatus := .pending, xi := 0, off := 0, actual := 0, ncfg := 0, toggle := false,
      err := 0, phase := .none, transport := .none, state := .configuringDevice } } }

/-- SEQ_START (R173), tag 0x10: takes the waiting entry the schedule picks. -/
def execSeqStart (c : Byte) (pick : Nat) (s : State) : Out :=
  s.withCtrl c fun v =>
    if v.c.startEnabled then
      match v.c.waitq[pick]? with
      | none => .next s
      | some w => .next (v.seqStart pick w).commit
    else .next s

/-- Work on the Message's binding when the step is enabled (log entries 2, 20). -/
def State.withBinding (s : State) (c : Byte) (enabled : Ctrl → Bool) (k : View → Binding → Out) : Out :=
  s.withCtrl c fun v =>
    if enabled v.c then
      match v.binding with
      | none => .next s
      | some x => k v x
    else .next s

/-- A different holder is deselected first (R121, R174). -/
def View.deselectOther (v : View) : View :=
  match v.c.csHolder with
  | none => v
  | some h => if h = v.c.seq.b then v else v.csDeassert

/-- SEQ_CONFIG_DEVICE's effect (R174). -/
def View.configDevice (v : View) (x : Binding) : View :=
  (v.deselectOther.onHw fun h => h.putFbClk x.fbDelay).onSeq fun q => { q with state := .selectCs }

/-- SEQ_CONFIG_DEVICE (R174), tag 0x11. -/
def execSeqConfigDevice (c : Byte) (s : State) : Out :=
  s.withBinding c (fun x => x.inState .configuringDevice) fun v x => v.clocked (.next (v.configDevice x).commit)

/-- The end of SEQ_SELECT_CS (R175). -/
def View.selected (v : View) : View := v.onSeq fun q => { q with off := 0, state := .configuring }

/-- SEQ_SELECT_CS (R175, R124), tag 0x12. -/
def execSeqSelectCs (c : Byte) (s : State) : Out :=
  s.withBinding c (fun x => x.inState .selectCs) fun v _ =>
    if v.c.csHolder = some v.c.seq.b then .next v.selected.commit
    else v.clocked (.next (v.csAssert v.c.seq.b).selected.commit)

/-- SEQ_CONFIGURING after the format is right (R176, R177): write the speed back, choose the transport. -/
def View.configured (v : View) (t : Transfer) : View :=
  let tr := transportOf t.len.toNat v.c.half
  let v1 := v.onSeq fun q => { q with
    msg := q.msg.set q.xi { t with speed := v.c.curSpeed }, ncfg := q.xi + 1, transport := tr }
  match tr with
  | .none => v1.enterPostDelay t
  | .poll => v1.onSeq fun q => { q with phase := .pArm, state := .transporting }
  | .dma => v1.onSeq fun q => { q with phase := .dMap, state := .transporting }

/-- SEQ_CONFIGURING's effect under the binding `x` (R176, R104, R105). -/
def View.seqConfiguring (v : View) (t : Transfer) (x : Binding) : Out :=
  if needConfig v.c (effSpeed t x) x.mode (effWidth t x) then
    match v.configure (effSpeed t x) x.mode (effWidth t x) with
    | .error k => .next (v.fail k 0).commit
    | .ok v1 => v.clocked (.next (v1.configured t).commit)
  else .next (v.configured t).commit

/-- SEQ_CONFIGURING (R176), tag 0x13. -/
def execSeqConfiguring (c : Byte) (s : State) : Out :=
  s.withBinding c (fun x => x.inState .configuring) fun v x =>
    match v.c.transfer with
    | none => .next s
    | some t => v.seqConfiguring t x

/-- `C.seq.actual + T.len`; a sum past 32 bits is a value no rule states (R180; log entry 11). -/
def View.accumulate (v : View) (t : Transfer) : View :=
  if v.c.seq.actual.toNat + t.len.toNat < Config.addrSpace then
    v.onSeq fun q => { q with actual := q.actual + t.len }
  else { v.onSeq (fun q => { q with actual := Config.freeWord v.st.draws }) with st := v.st.drew 1 }

/-- SEQ_POST_DELAY (R180), tag 0x1B. -/
def execSeqPostDelay (c : Byte) (s : State) : Out :=
  s.withTransfer c (fun x => x.inState .postDelay && decide (x.seq.delayUntil ≤ s.now)) fun v t =>
    .next ((v.accumulate t).onSeq fun q => { q with state := .deselectCs }).commit

/-- SEQ_ADVANCE's end when a Transfer is left (R181). -/
def View.nextTransfer (v : View) : View := v.onSeq fun q => { q with xi := q.xi + 1, state := .selectCs }

/-- SEQ_ADVANCE's effect (R181, R123, R120). -/
def View.seqAdvance (v : View) (t : Transfer) : Out :=
  if v.c.seq.xi + 1 < v.c.seq.msg.length then
    if t.csChange then v.deassertClocked fun v1 => .next v1.nextTransfer.commit
    else .next v.nextTransfer.commit
  else if t.csChange then
    .next (v.onSeq fun q => { q with toggle := true, state := .completed }).commit
  else v.deassertClocked fun v1 => .next (v1.onSeq fun q => { q with state := .completed }).commit

/-- SEQ_ADVANCE (R181), tag 0x1C. -/
def execSeqAdvance (c : Byte) (s : State) : Out :=
  s.withTransfer c (fun x => x.inState .deselectCs) fun v t => v.seqAdvance t

/-- The response of a Message that completed (R182, R184). -/
def Seq.successWords (q : Seq) : List Word := statusWord .ok 0 :: q.actual :: q.msg.map fun t => t.speed

/-- SEQ_COMPLETE's effect for the caller `tag` (R182). -/
def View.seqComplete (v : View) (tag : Nat) : View :=
  { v with
    st := v.st.respond (.caller tag) v.c.seq.successWords
    c := { v.c with
      owner := none
      lastActivity := v.st.now
      seq := { v.c.seq with msgStatus := .success, state := .idle } } }

/-- Work on the Message in service for its caller when the step is enabled (log entries 2, 20). -/
def State.withOwner (s : State) (c : Byte) (enabled : Ctrl → Bool) (k : View → Nat → Out) : Out :=
  s.withCtrl c fun v =>
    if enabled v.c then
      match v.c.owner with
      | none => .next s
      | some tag => k v tag
    else .next s

/-- SEQ_COMPLETE (R182), tag 0x1D. -/
def execSeqComplete (c : Byte) (s : State) : Out :=
  s.withOwner c (fun x => x.inState .completed) fun v tag => .next (v.seqComplete tag).commit

/-- The speed words of a failed Message: those of the first `n` Transfers, then zeros (R183). -/
def reportedSpeeds : Nat → List Transfer → List Word
  | _, [] => []
  | 0, _ :: ts => 0 :: reportedSpeeds 0 ts
  | n + 1, t :: ts => t.speed :: reportedSpeeds n ts

/-- The response of a Message that failed (R183, R184). -/
def Seq.failureWords (q : Seq) : List Word := q.err :: q.actual :: reportedSpeeds q.ncfg q.msg

/-- The recovery part of SEQ_FAIL, in its order (R183). -/
def View.recover (v : View) : View := v.checkStatus.dmaAbort.unmapOwed.csDeassert.flushOp

/-- SEQ_FAIL's effect for the caller `tag` (R183). -/
def View.seqFail (v : View) (tag : Nat) : View :=
  let v1 := v.recover
  { v1 with
    st := v1.st.respond (.caller tag) v1.c.seq.failureWords
    c := { v1.c with
      owner := none
      lastActivity := v1.st.now
      seq := { v1.c.seq with msgStatus := .error, toggle := false, state := .idle } } }

/-- SEQ_FAIL (R183), tag 0x1E: the block's one return from an exception (R244). -/
def execSeqFail (c : Byte) (s : State) : Out :=
  s.withOwner c (fun x => x.inState .failed) fun v tag => v.clocked (.next (v.seqFail tag).commit)

end Sys2Proof.Machine
end

