-- ==== Sys2Proof/Machine/Polling.lean ====
section
/-! DEFINITION. The FIFO/polling transport (`43_fifo_polling.md`): P_ARM, P_POLL, P_DRAIN, XFER_POLL. -/

namespace Sys2Proof.Machine

/-- The registers after P_ARM (R132). -/
def Hw.pArm (h : Hw) (m : List Host.Cell) (depth wb : Nat) (t : Transfer) : Hw :=
  let h1 := h.putModeCfg { h.modeCfg with txdmaOn := false, rxdmaOn := false, burst4 := false }
  let h2 := h1.putPacketCnt ⟨BitVec.ofNat 16 (t.len.toNat / wb), true⟩
  let h3 := if t.txPresent then Hw.pushWords m depth wb (t.len.toNat / wb) t.tx h2 else h2
  h3.putChCfg { h3.chCfg with txchOn := t.txPresent, rxchOn := t.rxPresent }

/-- P_ARM's effect (R132). -/
def View.pArm (v : View) (t : Transfer) : View :=
  { v with c := { v.c with
    errLatch := Conds.empty
    hw := v.c.hw.pArm v.st.mem v.c.fifoDepth v.c.wb t
    seq := { v.c.seq with
      deadline := v.st.now + deadlineUs t.len.toNat v.c.curSpeed.toNat
      phase := .pPoll } } }

/-- P_ARM (R132), tag 0x14. -/
def execPArm (c : Byte) (s : State) : Out :=
  s.withTransfer c (fun x => x.inPhase .pArm) fun v t => v.clocked (.next (v.pArm t).commit)

/-- The completion test of P_POLL (R133): the level for a Transfer that receives, TX_DONE for one that only
sends. -/
def Ctrl.pollComplete (c : Ctrl) (t : Transfer) : Bool :=
  if t.rxPresent then decide (t.len.toNat ≤ c.hw.rxf.length) else c.hw.txDone

/-- P_POLL's effect (R133): error, completion, deadline, in this order. -/
def View.pPoll (v : View) (t : Transfer) : View :=
  let v1 := v.checkStatus
  if v1.c.errLatch.nonempty then v1.fail (kindOfLatch v1.c.errLatch) 0
  else if v1.c.pollComplete t then v1.onSeq fun q => { q with phase := .pDrain }
  else if v1.c.seq.deadline ≤ v1.st.now then v1.fail .timeout 0
  else v1

/-- P_POLL (R133), tag 0x15. -/
def execPPoll (c : Byte) (s : State) : Out :=
  s.withTransfer c (fun x => x.inPhase .pPoll) fun v t => v.clocked (.next (v.pPoll t).commit)

/-- One word of the drain (R134): read `RX_DATA`, store at `a`. -/
def View.drainWord (v : View) (wb : Nat) (a : Word) : View :=
  let r := v.readRx wb
  { r.2 with st := { r.2.st with mem := memWrite r.2.st.mem a wb r.1 } }

/-- The drain of `W` words to `a` upward (R134). -/
def View.drainWords (wb : Nat) : Nat → Word → View → View
  | 0, _, v => v
  | k + 1, a, v => View.drainWords wb k (a + BitVec.ofNat 32 wb) (v.drainWord wb a)

/-- The epilogue of a hardware transaction on `CH_CFG` and `PACKET_CNT` (R134). -/
def Hw.channelsOff (h : Hw) : Hw :=
  (h.putChCfg { h.chCfg with txchOn := false, rxchOn := false })

/-- P_DRAIN's effect (R134, R179). -/
def View.pDrain (v : View) (t : Transfer) : View :=
  let v1 := if t.rxPresent then View.drainWords v.c.wb (t.len.toNat / v.c.wb) t.rx v else v
  let v2 := v1.onHw fun h => h.channelsOff.putPacketCnt ⟨0, false⟩
  let v3 := v2.onSeq fun q => { q with phase := .none }
  v3.validateStatus t t.len.toNat

/-- P_DRAIN (R134), tag 0x16. -/
def execPDrain (c : Byte) (s : State) : Out :=
  s.withTransfer c (fun x => x.inPhase .pDrain) fun v t => v.clocked (.next (v.pDrain t).commit)

/-- Run one step after another; a stop ends the run. -/
def andThen (o : Out) (k : State → Out) : Out :=
  match o with
  | .next s => k s
  | .fault e => .fault e
  | .refused e => .refused e

/-- The serial engine shifts up to `n` words of controller `c`: SH_LOAD, SH_DONE, each as far as enabled. -/
def shiftWords (c : Byte) : Nat → State → Out
  | 0, s => .next s
  | n + 1, s => andThen (execShLoad c s) fun s1 => andThen (execShDone c s1) (shiftWords c n)

/-- The words controller `c` still has to shift, and one for a word on the wire. -/
def State.wordsLeft (s : State) (c : Byte) : Nat :=
  match s.ctrlAt c with
  | none => 0
  | some x => x.hw.pktRem.toNat + 1

/-- The environment's TICKs bring the time to the deadline of a controller that still waits in the phase `p` (R94). -/
def State.untilDeadline (s : State) (c : Byte) (p : Phase) : State :=
  match s.ctrlAt c with
  | none => s
  | some x => if x.inPhase p then { s with now := max s.now x.seq.deadline } else s

/-- A waiting step of the phase `p`, repeated: with no engine or channel that could still move, a look at once and,
where the sequencer still waits, a look at the deadline. -/
def lookUntilDeadline (c : Byte) (p : Phase) (look : State → Out) (s : State) : Out :=
  andThen (look s) fun s1 => look (s1.untilDeadline c p)

/-- XFER_POLL (R136), tag 0x27: the composite P_ARM; the serial engine's words; P_POLL, repeated; P_DRAIN, from the
phase the sequencer is in (log entry 25). -/
def execXferPoll (c : Byte) (s : State) : Out :=
  s.withCtrl c fun v =>
    if v.c.inState .transporting && v.c.seq.phase.isPoll then
      andThen (execPArm c s) fun s1 =>
      andThen (shiftWords c (s1.wordsLeft c) s1) fun s2 =>
      andThen (lookUntilDeadline c .pPoll (execPPoll c) s2) (execPDrain c)
    else .next s

end Sys2Proof.Machine
end

