-- ==== Sys2Proof/Machine/Dma.lean ====
section
/-! DEFINITION. The DMA transport (`44_dma_transport.md`): D_MAP, D_ARM, D_WAIT, D_TXDRAIN, DMA_ABORT, the steps of
the channels, XFER_DMA. -/

namespace Sys2Proof.Machine

/-! ### D_MAP (R148) -/

/-- The pre-mapped form of D_MAP: the caller's device addresses, advanced by the offset. -/
def View.mapPremapped (v : View) (t : Transfer) : View :=
  v.onSeq fun q => { q with
    mapTx := if t.txPresent then some (t.txDma + BitVec.ofNat 32 q.off) else none
    mapRx := if t.rxPresent then some (t.rxDma + BitVec.ofNat 32 q.off) else none
    phase := .dArm }

/-- Ask for the transmit mapping (R148, R50): none where MAPPER fails. -/
def View.mapTxSide (v : View) (t : Transfer) : Option View × View :=
  let a := t.tx + BitVec.ofNat 32 v.c.seq.off
  let n := v.c.seq.chunk
  let asked : View := { v with st := v.st.mapAsked }
  match v.st.mapAnswer a n .toDevice with
  | none => (none, asked)
  | some d =>
    (some { asked.onSeq (fun q => { q with mapTx := some d, weMappedTx := true }) with
      st := asked.st.addMapping ⟨v.c.id, .toDevice, d, a, n⟩ }, asked)

/-- Ask for the receive mapping (R148, R50). -/
def View.mapRxSide (v : View) (t : Transfer) : Option View × View :=
  let a := t.rx + BitVec.ofNat 32 v.c.seq.off
  let n := v.c.seq.chunk
  let asked : View := { v with st := v.st.mapAsked }
  match v.st.mapAnswer a n .fromDevice with
  | none => (none, asked)
  | some d =>
    (some { asked.onSeq (fun q => { q with mapRx := some d, weMappedRx := true }) with
      st := asked.st.addMapping ⟨v.c.id, .fromDevice, d, a, n⟩ }, asked)

/-- The receive half of D_MAP and its end (R148). -/
def View.mapRxThen (v : View) (t : Transfer) : View :=
  if t.rxPresent then
    match v.mapRxSide t with
    | (none, w) => w.unmapOwed.fail .dmaMapFailed v.c.seq.off
    | (some w, _) => w.onSeq fun q => { q with phase := .dArm }
  else v.onSeq fun q => { q with phase := .dArm }

/-- D_MAP's effect (R148). -/
def View.dMap (v : View) (t : Transfer) : View :=
  let v1 := v.onSeq fun q => { q with chunk := chunkOf t.len.toNat q.off v.c.wb }
  if t.premapped then v1.mapPremapped t
  else if t.txPresent then
    match v1.mapTxSide t with
    | (none, w) => w.fail .dmaMapFailed v.c.seq.off
    | (some w, _) => w.mapRxThen t
  else v1.mapRxThen t

/-- D_MAP (R148), tag 0x17. It accesses no register. -/
def execDMap (c : Byte) (s : State) : Out :=
  s.withTransfer c (fun x => x.inPhase .dMap) fun v t => .next (v.dMap t).commit

/-! ### D_ARM (R149) -/

/-- A channel's descriptor (R149). -/
def Chan.arm (ch : Chan) (dir : ChanDir) (addr : Word) (n burst wb : Nat) : Chan :=
  { ch with armed := true, dir := dir, addr := addr, rem := n, burst := burst, wb := wb, notify := false }

/-- The registers after D_ARM (R149). -/
def Hw.dArm (h : Hw) (n wb : Nat) (t : Transfer) : Hw :=
  let h1 := h.putModeCfg { h.modeCfg with
    burst4 := decide (burstOf n wb = 4), txdmaOn := t.txPresent, rxdmaOn := t.rxPresent }
  let h2 := h1.putPacketCnt ⟨BitVec.ofNat 16 (n / wb), true⟩
  h2.putChCfg { h2.chCfg with txchOn := t.txPresent, rxchOn := t.rxPresent }

/-- The pool after D_ARM (R149). -/
def View.armChannels (v : View) (t : Transfer) : State :=
  let n := v.c.seq.chunk
  let wb := v.c.wb
  let s1 := if t.rxPresent then
      v.st.setChan v.c.dmaRx ((v.st.chanAt v.c.dmaRx).arm .rx (v.c.seq.mapRx.getD 0) n (burstOf n wb) wb)
    else v.st
  if t.txPresent then
    s1.setChan v.c.dmaTx ((s1.chanAt v.c.dmaTx).arm .tx (v.c.seq.mapTx.getD 0) n (burstOf n wb) wb)
  else s1

/-- D_ARM's effect (R149). -/
def View.dArm (v : View) (t : Transfer) : View :=
  { v with
    st := v.armChannels t
    c := { v.c with
      errLatch := Conds.empty
      hw := v.c.hw.dArm v.c.seq.chunk v.c.wb t
      rxBusy := t.rxPresent
      txBusy := t.txPresent
      dmaDone := false
      seq := { v.c.seq with
        deadline := v.st.now + deadlineUs v.c.seq.chunk v.c.curSpeed.toNat
        phase := .dWait } } }

/-- D_ARM (R149), tag 0x18. -/
def execDArm (c : Byte) (s : State) : Out :=
  s.withTransfer c (fun x => x.inPhase .dArm) fun v t => v.clocked (.next (v.dArm t).commit)

/-! ### D_WAIT, D_TXDRAIN and their tails (R154, R155, R156, R161) -/

/-- The registers after D_EPILOG (R156). -/
def Hw.dEpilog (h : Hw) : Hw :=
  let h1 := h.channelsOff
  let h2 := h1.putModeCfg { h1.modeCfg with txdmaOn := false, rxdmaOn := false, burst4 := false }
  h2.putPacketCnt ⟨0, false⟩

/-- D_EPILOG (R156). -/
def View.dEpilog (v : View) (t : Transfer) : View :=
  let v1 := ((v.onHw Hw.dEpilog).unmapOwed).checkStatus
  if v1.c.errLatch.nonempty then v1.fail (kindOfLatch v1.c.errLatch) (v.c.seq.off + v.c.seq.chunk)
  else
    let v2 := v1.onSeq fun q => { q with off := q.off + q.chunk }
    if v2.c.seq.off < t.len.toNat then v2.onSeq fun q => { q with phase := .dMap }
    else v2.enterPostDelay t

/-- The bytes of the Transfer's receive buffer that the engine may have written when a sub-transfer is given up:
those of earlier sub-transfers and those the RX channel has moved (log entry 14). -/
def View.rxMoved (v : View) : Nat := v.c.seq.off + (v.c.seq.chunk - (v.st.chanAt v.c.dmaRx).rem)

/-- `dma_give_up(C)` (R161): a latched condition explains the stall, else Timeout. -/
def View.dmaGiveUp (v : View) : View :=
  let v1 := (v.dmaAbort.unmapOwed).checkStatus
  if v1.c.errLatch.nonempty then v1.fail (kindOfLatch v1.c.errLatch) v.rxMoved
  else v1.fail .timeout v.rxMoved

/-- D_WAIT's effect (R154); the flag says that a register is accessed. -/
def View.dWait (v : View) (t : Transfer) : Out :=
  if v.c.dmaDone then
    if t.rxPresent then v.clocked (.next (v.dEpilog t).commit)
    else .next (v.onSeq fun q => { q with
      deadline := v.st.now + deadlineUs q.chunk v.c.curSpeed.toNat, phase := .dTxdrain }).commit
  else if v.c.seq.deadline ≤ v.st.now then v.clocked (.next v.dmaGiveUp.commit)
  else .next v.st

/-- D_WAIT (R154), tag 0x19. -/
def execDWait (c : Byte) (s : State) : Out :=
  s.withTransfer c (fun x => x.inPhase .dWait) fun v t => v.dWait t

/-- D_TXDRAIN's effect (R155). -/
def View.dTxdrain (v : View) (t : Transfer) : State :=
  if v.c.hw.txDone then (v.dEpilog t).commit
  else if v.c.seq.deadline ≤ v.st.now then v.dmaGiveUp.commit
  else v.st

/-- D_TXDRAIN (R155), tag 0x1A. -/
def execDTxdrain (c : Byte) (s : State) : Out :=
  s.withTransfer c (fun x => x.inPhase .dTxdrain) fun v t => v.clocked (.next (v.dTxdrain t))

/-- DMA_ABORT (R157), tag 0x26. It accesses no register. -/
def execDmaAbort (c : Byte) (s : State) : Out := s.withCtrl c fun v => .next v.dmaAbort.commit

/-! ### Steps of the channels (R150 to R153) -/

/-- Work on channel `k` on behalf of its lessee (R162). -/
def State.withLessee (s : State) (k : Byte) (k' : View → Out) : Out :=
  match (s.chanAt k).lessee with
  | none => .next s
  | some c => s.withCtrl c k'

/-- A channel's descriptor after a burst (R150, R151). -/
def Chan.advance (ch : Chan) : Chan :=
  { ch with
    addr := ch.addr + BitVec.ofNat 32 (ch.burst * ch.wb)
    rem := ch.rem - ch.burst * ch.wb
    notify := ch.notify || decide (ch.rem - ch.burst * ch.wb = 0) }

/-- The beats of a TX burst (R150). -/
def View.txBeats (wb : Nat) : Nat → Word → View → Option View
  | 0, _, v => some v
  | n + 1, a, v =>
    match View.devRead wb a v with
    | none => none
    | some (bs, v1) =>
      View.txBeats wb n (a + BitVec.ofNat 32 wb) (v1.onHw fun h => h.writeTxData v.c.fifoDepth wb (leWord bs))

/-- DMA_TX_BEAT (R150), tag 0x32. -/
def execDmaTxBeat (k : Byte) (s : State) : Out :=
  s.withLessee k fun v =>
    if decide (v.c.dmaTx = k) && v.c.txBeatEnabled (s.chanAt k) then
      match View.txBeats (s.chanAt k).wb (s.chanAt k).burst (s.chanAt k).addr v with
      | none => .fault .deviceAccessUnmapped
      | some v1 => .next { v1 with st := v1.st.setChan k (s.chanAt k).advance }.commit
    else .next s

/-- The beats of an RX burst (R151). -/
def View.rxBeats (wb : Nat) : Nat → Word → View → Option View
  | 0, _, v => some v
  | n + 1, a, v =>
    match View.devWrite a (leBytes wb (v.readRx wb).1) (v.readRx wb).2 with
    | none => none
    | some v1 => View.rxBeats wb n (a + BitVec.ofNat 32 wb) v1

/-- DMA_RX_BEAT (R151), tag 0x33. -/
def execDmaRxBeat (k : Byte) (s : State) : Out :=
  s.withLessee k fun v =>
    if decide (v.c.dmaRx = k) && v.c.rxBeatEnabled (s.chanAt k) then
      match View.rxBeats (s.chanAt k).wb (s.chanAt k).burst (s.chanAt k).addr v with
      | none => .fault .deviceAccessUnmapped
      | some v1 => .next { v1 with st := v1.st.setChan k (s.chanAt k).advance }.commit
    else .next s

/-- DMA_TX_DONE (R152), tag 0x34. -/
def execDmaTxDone (k : Byte) (s : State) : Out :=
  s.withLessee k fun v =>
    if decide (v.c.dmaTx = k) && (s.chanAt k).notify then
      .next { v with
        st := s.setChan k { s.chanAt k with notify := false, armed := false }
        c := { v.c with txBusy := false, dmaDone := v.c.dmaDone || !v.c.rxBusy } }.commit
    else .next s

/-- DMA_RX_DONE (R153), tag 0x35. -/
def execDmaRxDone (k : Byte) (s : State) : Out :=
  s.withLessee k fun v =>
    if decide (v.c.dmaRx = k) && (s.chanAt k).notify then
      .next { v with
        st := s.setChan k { s.chanAt k with notify := false, armed := false }
        c := { v.c with rxBusy := false, dmaDone := v.c.dmaDone || !v.c.txBusy } }.commit
    else .next s

/-! ### XFER_DMA (R160) -/

/-- Both channels and the serial engine work on a sub-transfer for `n` rounds: a TX burst, a word, an RX burst,
each as far as enabled. -/
def moveWords (c kt kr : Byte) : Nat → State → Out
  | 0, s => .next s
  | n + 1, s =>
    andThen (execDmaTxBeat kt s) fun s1 =>
    andThen (execShLoad c s1) fun s2 =>
    andThen (execShDone c s2) fun s3 =>
    andThen (execDmaRxBeat kr s3) (moveWords c kt kr n)

/-- The rounds that bring controller `c`'s sub-transfer as far as it can go: one for each word, and enough for the
receive bursts behind them. -/
def State.roundsLeft (s : State) (c : Byte) : Nat :=
  match s.ctrlAt c with
  | none => 0
  | some x => x.hw.pktRem.toNat + 1 + x.hw.rxf.length

/-- Go on only while controller `c` is transporting: a failure ends the composite. -/
def State.whileTransporting (s : State) (c : Byte) (k : State → Out) : Out :=
  match s.ctrlAt c with
  | none => .next s
  | some x => if x.inState .transporting then k s else .next s

/-- A sub-transfer from D_ARM on: D_ARM; the words; the notifications; D_WAIT, repeated; D_TXDRAIN, repeated, each as
far as enabled. -/
def armedSubTransfer (c kt kr : Byte) (s : State) : Out :=
  andThen (execDArm c s) fun s1 =>
  andThen (moveWords c kt kr (s1.roundsLeft c) s1) fun s2 =>
  andThen (execDmaTxDone kt s2) fun s3 =>
  andThen (execDmaRxDone kr s3) fun s4 =>
  andThen (lookUntilDeadline c .dWait (execDWait c) s4) (lookUntilDeadline c .dTxdrain (execDTxdrain c))

/-- One sub-transfer: D_MAP and the rest. -/
def subTransfer (c kt kr : Byte) (s : State) : Out :=
  andThen (execDMap c s) fun s1 => s1.whileTransporting c (armedSubTransfer c kt kr)

/-- Up to `n` sub-transfers. -/
def subTransfers (c kt kr : Byte) : Nat → State → Out
  | 0, s => .next s
  | n + 1, s => andThen (subTransfer c kt kr s) fun s1 => s1.whileTransporting c (subTransfers c kt kr n)

/-- XFER_DMA (R160), tag 0x28: the composite of the sub-transfers that are left, from the phase the sequencer is
in (log entry 25). -/
def execXferDma (c : Byte) (s : State) : Out :=
  s.withTransfer c (fun x => x.inState .transporting && x.seq.phase.isDma) fun v t =>
    subTransfers c v.c.dmaTx v.c.dmaRx ((t.len.toNat - v.c.seq.off) / (Config.maxPacketCount * v.c.wb) + 1) s

end Sys2Proof.Machine
end

