-- ==== Sys2Proof/Machine/Power.lean ====
section
/-! DEFINITION. The power and lifecycle manager (`47_power_lifecycle.md`): NEW, DESTROY, HW_INIT, ON_IDLE,
ON_ACTIVE, ACQ_ATTEMPT, ON_SUSPEND, SUSPEND_FINISH, ON_RESUME, POWER_LOSS. -/

namespace Sys2Proof.Machine

/-! ### Creation and destruction -/

/-- The sequencer registers after NEW (R14, R261). -/
def Seq.fresh : Seq where
  state := .idle
  phase := .none
  xi := 0
  off := 0
  chunk := 0
  transport := .none
  deadline := 0
  delayUntil := 0
  actual := 0
  ncfg := 0
  toggle := false
  err := 0
  mapTx := none
  mapRx := none
  weMappedTx := false
  weMappedRx := false
  b := 0
  msg := []
  msgStatus := .none

/-- A controller as NEW makes it, its serial engine's contents given and its clocks running (R210, R261). -/
def Ctrl.fresh (c : Byte) (a : NewArgs) (hw : Hw) (now : Nat) : Ctrl where
  id := c
  base := a.base
  srcClk := a.sourceClock
  fifoDepth := a.fifoDepth.toNat
  half := a.fifoDepth.toNat / 2
  dmaRx := a.dmaRx
  dmaTx := a.dmaTx
  needsReinit := a.needsReinit
  autosuspendMs := a.autosuspendMs.toNat
  swapByte := a.swapByte
  curSpeed := 0
  curMode := ⟨false, false, false⟩
  curWidth := 8
  cfgValid := false
  rxCh := false
  txCh := false
  owner := none
  waitq := []
  rxBusy := false
  txBusy := false
  dmaDone := false
  csHolder := none
  suspended := false
  pstate := .idle
  clkOn := true
  lastActivity := now
  errLatch := Conds.empty
  secure := false
  acqK := 0
  acqNext := 0
  actWait := false
  seq := Seq.fresh
  bind := []
  hw := hw
  nssHeld := true

/-- The window `[base, base+47]` meets that of an existing controller (R210). -/
def State.windowTaken (s : State) (base : Word) : Bool := s.ctrl.any fun x => windowsMeet base x.2.base

/-- NEW once every check has passed (R210). -/
def State.newDone (s : State) (c : Byte) (a : NewArgs) : State :=
  let v : View := ⟨s, c, Ctrl.fresh c a (Hw.drawn s.draws a.fifoDepth.toNat) s.now⟩
  ((s.drew drawnCount).setCtrl c v.hwInit.c.gate).answer .ok 0 0

/-- NEW (R210), opcode 0x01. -/
def execNew (f : PacketForm) (c : Byte) (a : NewArgs) (s : State) : Out :=
  s.checkForm f 0 <|
    if (s.ctrlAt c).isSome then .next (s.answer .malformed 8 0)
    else if !baseOk a.base || s.windowTaken a.base then .next (s.answer .malformed 9 0)
    else if a.sourceClock = 0 then .next (s.answer .malformed 10 0)
    else if !depthOk a.fifoDepth then .next (s.answer .malformed 11 0)
    else if a.dmaRx = a.dmaTx then .next (s.answer .malformed 12 0)
    else .next (s.newDone c a)

/-- Free the channel if the controller leases it (R211). -/
def State.freeLease (s : State) (owner k : Byte) : State :=
  if (s.chanAt k).lessee = some owner then s.setLessee k none else s

/-- DESTROY once every check has passed (R211). -/
def State.destroyDone (s : State) (c : Byte) (x : Ctrl) : State :=
  let s1 := (View.mk s c { x with clkOn := true }).csDeassert.st
  let s2 := (s1.freeLease c x.dmaRx).freeLease c x.dmaTx
  { s2 with ctrl := Table.erase s2.ctrl c.toNat }.answer .ok 0 0

/-- DESTROY's reasons for Busy (R211). -/
def Ctrl.destroyBusy (x : Ctrl) : Bool :=
  !x.inState .idle || !x.waitq.isEmpty || x.actWait || (x.suspended && decide (x.pstate ≠ .suspended))

/-- DESTROY (R211), opcode 0x02. -/
def execDestroy (f : PacketForm) (c : Byte) (s : State) : Out :=
  s.checkForm f 0 <| s.withHandle c fun x =>
    if x.destroyBusy then .next (s.answer .busy 0 0) else .next (s.destroyDone c x)

/-- HW_INIT (R212), tag 0x25. -/
def execHwInit (c : Byte) (s : State) : Out := s.withCtrl c fun v => v.clocked (.next v.hwInit.commit)

/-! ### Active and Idle -/

/-- Both leases ended (R214, R217). -/
def State.freeLeases (s : State) (x : Ctrl) : State := (s.setLessee x.dmaRx none).setLessee x.dmaTx none

/-- The controller without leases and clocks (R214, R217). -/
def Ctrl.quiesce (x : Ctrl) : Ctrl := { x.gate with rxCh := false, txCh := false }

/-- ON_IDLE (R214, R221), opcode 0x07. -/
def execOnIdle (f : PacketForm) (c : Byte) (s : State) : Out :=
  s.checkForm f 0 <| s.withHandle c fun x =>
    if x.pstate = .idle ∧ x.suspended = false then .next (s.answer .ok 0 0)
    else if x.pstate = .suspended then .next (s.answer .wrongState 2 0)
    else if !x.inState .idle || !x.waitq.isEmpty || x.suspended then .next (s.answer .busy 0 0)
    else if s.now - x.lastActivity < 1000 * x.autosuspendMs then .next (s.answer .busy 0 0)
    else .next (((s.freeLeases x).setCtrl c { x.quiesce with pstate := .idle }).answer .ok 0 0)

/-- ON_ACTIVE (R215), opcode 0x08; the response of an accepted one is given by ACQ_ATTEMPT or SUSPEND_FINISH. -/
def execOnActive (f : PacketForm) (c : Byte) (s : State) : Out :=
  s.checkForm f 0 <| s.withHandle c fun x =>
    if x.suspended then .next (s.answer .wrongState 2 0)
    else if x.pstate = .active then .next (s.answer .ok 0 0)
    else if x.actWait then .next (s.answer .busy 0 0)
    else .next (s.setCtrl c { x.startActivation s.now with actWait := true })

/-- The answer to the ON_ACTIVE that waits, if one does (R216, R217). -/
def State.answerActive (s : State) (c : Byte) (x : Ctrl) (k : ErrKind) (info : Nat) : State :=
  if x.actWait then s.respond (.onActive c) [statusWord k info, 0] else s

/-- Both channels are free (R216). -/
def State.leasesFree (s : State) (x : Ctrl) : Bool :=
  (s.chanAt x.dmaRx).lessee.isNone && (s.chanAt x.dmaTx).lessee.isNone

/-- ACQ_ATTEMPT that finds both channels free (R216). -/
def View.acquire (v : View) : View :=
  { v with
    st := ((v.st.setLessee v.c.dmaRx (some v.c.id)).setLessee v.c.dmaTx (some v.c.id)).answerActive v.c.id v.c .ok 0
    c := { v.c with
      rxCh := true, txCh := true, clkOn := true, pstate := .active, lastActivity := v.st.now, acqK := 0,
      actWait := false } }

/-- `C.acq_k + 1`; a sum past its 8 bits is a value no rule states (R13, R216; log entry 23). -/
def View.countRetry (v : View) : View :=
  if v.c.acqK.toNat + 1 < 256 then { v with c := { v.c with acqK := v.c.acqK + 1 } }
  else { v with st := v.st.drew 1, c := { v.c with acqK := Config.freeByte v.st.draws } }

/-- ACQ_ATTEMPT that tries again later (R216). -/
def View.backOff (v : View) : View :=
  let v1 := v.countRetry
  { v1 with c := { v1.c with acqNext := v.st.now + v.st.params.acqBackoffUs } }

/-- ACQ_ATTEMPT that gives up (R216). -/
def View.giveUp (v : View) : View :=
  { v with
    st := (v.st.answerActive v.c.id v.c .channelUnavailable 1).answerWaiters .channelUnavailable 1 v.c.waitq
    c := { v.c with acqK := 0, acqNext := v.st.now, actWait := false, waitq := [] } }

/-- ACQ_ATTEMPT's effect (R216). -/
def View.acqAttempt (v : View) : View :=
  if v.st.leasesFree v.c then v.acquire
  else if v.c.acqK.toNat < v.st.params.acqRetryMax then v.backOff
  else v.giveUp

/-- ACQ_ATTEMPT (R216), tag 0x3A. -/
def execAcqAttempt (c : Byte) (s : State) : Out :=
  s.withCtrl c fun v => if v.c.acqEnabled s.now then .next v.acqAttempt.commit else .next s

/-! ### Suspend and resume -/

/-- ON_SUSPEND (R217), opcode 0x05; the response of an accepted one is given by SUSPEND_FINISH. -/
def execOnSuspend (f : PacketForm) (c : Byte) (s : State) : Out :=
  s.checkForm f 0 <| s.withHandle c fun x =>
    if x.suspended then .next (s.answer .wrongState 2 0)
    else .next (s.setCtrl c { x with suspended := true })

/-- SUSPEND_FINISH's effect (R217). -/
def View.suspendFinish (v : View) : View :=
  let s1 := (v.st.answerWaiters .channelUnavailable 2 v.c.waitq).answerActive v.c.id v.c .channelUnavailable 2
  let s2 := if v.c.pstate = .active then s1.freeLeases v.c else s1
  let x := if v.c.pstate = .active then v.c.quiesce else v.c
  { v with
    st := s2.respond (.onSuspend v.c.id) [statusWord .ok 0, 0]
    c := { x with waitq := [], actWait := false, acqK := 0, pstate := .suspended } }

/-- SUSPEND_FINISH (R217), tag 0x3B. -/
def execSuspendFinish (c : Byte) (s : State) : Out :=
  s.withCtrl c fun v => if v.c.suspendFinishEnabled then .next v.suspendFinish.commit else .next s

/-- Every line a binding names is driven inactive (R218). -/
def State.linesInactive (s : State) : List (Nat × Binding) → State
  | [] => s
  | (_, b) :: bs =>
    match b.line with
    | none => State.linesInactive s bs
    | some l => State.linesInactive (s.setLine l (!b.activeLevel)) bs

/-- The sequencer's registers as R261 gives them. With no Message in service, which SUSPENDED implies, the state is IDLE
and the phase none already (R14, R213); in a state no run reaches the sequencer is left alone (log entry 20). -/
def Seq.renewed (q : Seq) : Seq := if q.state = .idle ∧ q.phase = .none then Seq.fresh else q

/-- The context and sequencer registers after HW_INIT in ON_RESUME: the values of R261, as R263 says, for each that may
hold another in SUSPENDED and that R218's steps do not write themselves (log entry 31). -/
def Ctrl.renewed (c : Ctrl) : Ctrl :=
  { c with
    curSpeed := 0, curMode := ⟨false, false, false⟩, curWidth := 8, dmaDone := false, acqNext := 0
    seq := c.seq.renewed }

/-- ON_RESUME's re-initialisation of a marked controller: HW_INIT, and the values of R261 (R218, R263). -/
def View.reinit (v : View) : View := { v.hwInit with c := v.hwInit.c.renewed }

/-- The registers after ON_RESUME, between the clock pulse's edges; a secure controller's are left alone (R218,
R226, R263). -/
def View.resumeHw (v : View) : View :=
  if v.c.secure then v
  else
    let v1 : View := { v with c := { v.c with clkOn := true } }
    let v2 := if v.c.needsReinit then v1.reinit else v1.onHw fun h => h.putCsReg { h.csReg with sigInact := true }
    { v2 with c := v2.c.gate }

/-- The held select is forgotten, with its event (R218). -/
def View.dropHolder (v : View) : View :=
  match v.c.csHolder with
  | none => v
  | some h =>
    let v1 : View := { v with c := { v.c with csHolder := none } }
    match v.c.bindAt h with
    | none => v1
    | some x => { v1 with st := v1.st.pushBus (.csDeassert v.c.id h (bindingSite x)) }

/-- ON_RESUME once every check has passed (R218, R263). -/
def View.resume (v : View) : View :=
  let v1 := v.resumeHw
  let v2 := View.dropHolder { v1 with st := v1.st.linesInactive v1.c.bind }
  { v2 with c := { v2.c with
    cfgValid := false, suspended := false, pstate := .idle, lastActivity := v.st.now } }

/-- ON_RESUME (R218), opcode 0x06. -/
def execOnResume (f : PacketForm) (c : Byte) (s : State) : Out :=
  s.checkForm f 0 <| s.withHandle c fun x =>
    if x.pstate ≠ .suspended then .next (s.answer .wrongState x.pstate.code 0)
    else .next ((View.mk s c x).resume.commit.answer .ok 0 0)

/-- POWER_LOSS (R219), tag 0x38. -/
def execPowerLoss (c : Byte) (s : State) : Out :=
  s.withCtrl c fun v =>
    if v.c.powerLossEnabled then
      .next { (v.onHw fun _ => Hw.drawn s.draws v.c.fifoDepth) with st := s.drew drawnCount }.commit
    else .next s

end Sys2Proof.Machine
end

