-- ==== Sys2Proof/Machine/Recovery.lean ====
section
/-! DEFINITION. The error and recovery supervisor (`46_error_recovery.md`): ERR_ACK, ERR_IRQ, FLUSH_OP, FLUSH. -/

namespace Sys2Proof.Machine

/-- ERR_ACK (R198), tag 0x23. -/
def execErrAck (c : Byte) (s : State) : Out := s.withCtrl c fun v => v.clocked (.next v.errAck.commit)

/-- ERR_IRQ (R197), tag 0x36: the notification of a pending, enabled condition. -/
def execErrIrq (c : Byte) (s : State) : Out :=
  s.withCtrl c fun v => if v.c.errPending then .next v.errAck.commit else .next s

/-- FLUSH_OP (R200), tag 0x24. -/
def execFlushOp (c : Byte) (s : State) : Out := s.withCtrl c fun v => v.clocked (.next v.flushOp.commit)

/-- FLUSH (R201), opcode 0x09. -/
def execFlush (f : PacketForm) (c : Byte) (s : State) : Out :=
  s.checkForm f 0 <| s.withHandle c fun x =>
    if !(x.inState .idle && x.waitq.isEmpty) then .next (s.answer .busy 0 0)
    else if x.pstate ≠ .active then .next (s.answer .wrongState x.pstate.code 0)
    else (View.mk s c x).clocked (.next ((View.mk s c x).flushOp.commit.answer .ok 0 0))

end Sys2Proof.Machine
end

