-- ==== Sys2Proof/Machine/Dispatch.lean ====
section
/-! DEFINITION. One arm per instruction of `spec/opcode_table.json`. -/

namespace Sys2Proof.Machine

def exec (i : Instr) (s : State) : Host.Outcome State Fault Refusal :=
  match i with
  | .new f c a => Sys2Proof.Machine.execNew f c a s
  | .destroy f c => Sys2Proof.Machine.execDestroy f c s
  | .bind f c b a => Sys2Proof.Machine.execBind f c b a s
  | .submit f c b ts => Sys2Proof.Machine.execSubmit f c b ts s
  | .onSuspend f c => Sys2Proof.Machine.execOnSuspend f c s
  | .onResume f c => Sys2Proof.Machine.execOnResume f c s
  | .onIdle f c => Sys2Proof.Machine.execOnIdle f c s
  | .onActive f c => Sys2Proof.Machine.execOnActive f c s
  | .flush f c => Sys2Proof.Machine.execFlush f c s
  | .seqStart c pick => Sys2Proof.Machine.execSeqStart c pick s
  | .seqConfigDevice c => Sys2Proof.Machine.execSeqConfigDevice c s
  | .seqSelectCs c => Sys2Proof.Machine.execSeqSelectCs c s
  | .seqConfiguring c => Sys2Proof.Machine.execSeqConfiguring c s
  | .pArm c => Sys2Proof.Machine.execPArm c s
  | .pPoll c => Sys2Proof.Machine.execPPoll c s
  | .pDrain c => Sys2Proof.Machine.execPDrain c s
  | .dMap c => Sys2Proof.Machine.execDMap c s
  | .dArm c => Sys2Proof.Machine.execDArm c s
  | .dWait c => Sys2Proof.Machine.execDWait c s
  | .dTxdrain c => Sys2Proof.Machine.execDTxdrain c s
  | .seqPostDelay c => Sys2Proof.Machine.execSeqPostDelay c s
  | .seqAdvance c => Sys2Proof.Machine.execSeqAdvance c s
  | .seqComplete c => Sys2Proof.Machine.execSeqComplete c s
  | .seqFail c => Sys2Proof.Machine.execSeqFail c s
  | .configure c speed mode width => Sys2Proof.Machine.execConfigure c speed mode width s
  | .csAssert c b => Sys2Proof.Machine.execCsAssert c b s
  | .csDeassert c => Sys2Proof.Machine.execCsDeassert c s
  | .errAck c => Sys2Proof.Machine.execErrAck c s
  | .flushOp c => Sys2Proof.Machine.execFlushOp c s
  | .hwInit c => Sys2Proof.Machine.execHwInit c s
  | .dmaAbort c => Sys2Proof.Machine.execDmaAbort c s
  | .xferPoll c => Sys2Proof.Machine.execXferPoll c s
  | .xferDma c => Sys2Proof.Machine.execXferDma c s
  | .shLoad c => Sys2Proof.Machine.execShLoad c s
  | .shDone c => Sys2Proof.Machine.execShDone c s
  | .dmaTxBeat k => Sys2Proof.Machine.execDmaTxBeat k s
  | .dmaRxBeat k => Sys2Proof.Machine.execDmaRxBeat k s
  | .dmaTxDone k => Sys2Proof.Machine.execDmaTxDone k s
  | .dmaRxDone k => Sys2Proof.Machine.execDmaRxDone k s
  | .errIrq c => Sys2Proof.Machine.execErrIrq c s
  | .errInject c conds => Sys2Proof.Machine.execErrInject c conds s
  | .powerLoss c => Sys2Proof.Machine.execPowerLoss c s
  | .tick d => Sys2Proof.Machine.execTick d s
  | .acqAttempt c => Sys2Proof.Machine.execAcqAttempt c s
  | .suspendFinish c => Sys2Proof.Machine.execSuspendFinish c s

end Sys2Proof.Machine
end

