-- ==== Sys2Proof/Machine/Step.lean ====
section
/-! DEFINITION. One step: what is scheduled next is taken off the schedule and runs (R11, R260; log entry 1). -/

namespace Sys2Proof.Machine

/-- One step of the machine. With nothing scheduled the block does nothing (R260). -/
def step (s : State) : Host.Outcome State Fault Refusal :=
  match s.fetch with
  | none => .next s
  | some (.callerWrite a v, s0) => .next (s0.callerWrite a v)
  | some (.encoded e, s0) =>
    match decode e with
    | .ok i => exec i s0
    | .error d => s0.answerUndecoded d

/-- The instruction whose bits are `w`, numbered as the opcode table numbers them, scheduled next. -/
def State.withFetchWord (s : State) (nbits w : Nat) : State := s.schedule (encodedOfTableWord nbits w)

end Sys2Proof.Machine
end

