-- ==== Sys2Proof/Safety.lean ====
section
/-! DEFINITION. The terms in which claims speak of a safe run: the invariants of `10_state.md` R38, the transitions
the spec admits (R186, R213), which controller an instruction works on, which instructions store to memory, and which
a rule of the spec never schedules alone. -/

namespace Sys2Proof.Machine

/-! ### Kinds of instructions -/

/-- A micro-operation or composite of R72 (tags 0x20 to 0x28): a rule runs it inside a step, never alone (R109,
R203, R212, R265). A schedule without them is one the spec admits (log entry 3). -/
def microOp : Instr → Bool
  | .configure _ _ _ _ => true
  | .csAssert _ _ => true
  | .csDeassert _ => true
  | .errAck _ => true
  | .flushOp _ => true
  | .hwInit _ => true
  | .dmaAbort _ => true
  | .xferPoll _ => true
  | .xferDma _ => true
  | .new _ _ _ => false
  | .destroy _ _ => false
  | .bind _ _ _ _ => false
  | .submit _ _ _ _ => false
  | .onSuspend _ _ => false
  | .onResume _ _ => false
  | .onIdle _ _ => false
  | .onActive _ _ => false
  | .flush _ _ => false
  | .seqStart _ _ => false
  | .seqConfigDevice _ => false
  | .seqSelectCs _ => false
  | .seqConfiguring _ => false
  | .pArm _ => false
  | .pPoll _ => false
  | .pDrain _ => false
  | .dMap _ => false
  | .dArm _ => false
  | .dWait _ => false
  | .dTxdrain _ => false
  | .seqPostDelay _ => false
  | .seqAdvance _ => false
  | .seqComplete _ => false
  | .seqFail _ => false
  | .shLoad _ => false
  | .shDone _ => false
  | .dmaTxBeat _ => false
  | .dmaRxBeat _ => false
  | .dmaTxDone _ => false
  | .dmaRxDone _ => false
  | .errIrq _ => false
  | .errInject _ _ => false
  | .powerLoss _ => false
  | .tick _ => false
  | .acqAttempt _ => false
  | .suspendFinish _ => false

/-- The controller an instruction works on: the one it names, or the lessee of the channel it names (R162). -/
def target (s : State) : Instr → Option Byte
  | .new _ c _ => some c
  | .destroy _ c => some c
  | .bind _ c _ _ => some c
  | .submit _ c _ _ => some c
  | .onSuspend _ c => some c
  | .onResume _ c => some c
  | .onIdle _ c => some c
  | .onActive _ c => some c
  | .flush _ c => some c
  | .seqStart c _ => some c
  | .seqConfigDevice c => some c
  | .seqSelectCs c => some c
  | .seqConfiguring c => some c
  | .pArm c => some c
  | .pPoll c => some c
  | .pDrain c => some c
  | .dMap c => some c
  | .dArm c => some c
  | .dWait c => some c
  | .dTxdrain c => some c
  | .seqPostDelay c => some c
  | .seqAdvance c => some c
  | .seqComplete c => some c
  | .seqFail c => some c
  | .configure c _ _ _ => some c
  | .csAssert c _ => some c
  | .csDeassert c => some c
  | .errAck c => some c
  | .flushOp c => some c
  | .hwInit c => some c
  | .dmaAbort c => some c
  | .xferPoll c => some c
  | .xferDma c => some c
  | .shLoad c => some c
  | .shDone c => some c
  | .dmaTxBeat k => (s.chanAt k).lessee
  | .dmaRxBeat k => (s.chanAt k).lessee
  | .dmaTxDone k => (s.chanAt k).lessee
  | .dmaRxDone k => (s.chanAt k).lessee
  | .errIrq c => some c
  | .errInject c _ => some c
  | .powerLoss c => some c
  | .tick _ => none
  | .acqAttempt c => some c
  | .suspendFinish c => some c

/-- The instructions after which a byte of memory may differ: those that store received words, and those that can
fail a Transfer whose receive buffer was partly written (R134, R151, R52 item 3). -/
def mayStore : Instr → Bool
  | .pDrain _ => true
  | .dMap _ => true
  | .dWait _ => true
  | .dTxdrain _ => true
  | .dmaRxBeat _ => true
  | .xferPoll _ => true
  | .xferDma _ => true
  | .new _ _ _ => false
  | .destroy _ _ => false
  | .bind _ _ _ _ => false
  | .submit _ _ _ _ => false
  | .onSuspend _ _ => false
  | .onResume _ _ => false
  | .onIdle _ _ => false
  | .onActive _ _ => false
  | .flush _ _ => false
  | .seqStart _ _ => false
  | .seqConfigDevice _ => false
  | .seqSelectCs _ => false
  | .seqConfiguring _ => false
  | .pArm _ => false
  | .pPoll _ => false
  | .dArm _ => false
  | .seqPostDelay _ => false
  | .seqAdvance _ => false
  | .seqComplete _ => false
  | .seqFail _ => false
  | .configure _ _ _ _ => false
  | .csAssert _ _ => false
  | .csDeassert _ => false
  | .errAck _ => false
  | .flushOp _ => false
  | .hwInit _ => false
  | .dmaAbort _ => false
  | .shLoad _ => false
  | .shDone _ => false
  | .dmaTxBeat _ => false
  | .dmaTxDone _ => false
  | .dmaRxDone _ => false
  | .errIrq _ => false
  | .errInject _ _ => false
  | .powerLoss _ => false
  | .tick _ => false
  | .acqAttempt _ => false
  | .suspendFinish _ => false

/-! ### Transitions -/

/-- The transitions of R186's state table, and staying. -/
def SeqState.mayBecome : SeqState → SeqState → Bool
  | .idle, .idle => true
  | .idle, .configuringDevice => true
  | .configuringDevice, .configuringDevice => true
  | .configuringDevice, .selectCs => true
  | .selectCs, .selectCs => true
  | .selectCs, .configuring => true
  | .configuring, .configuring => true
  | .configuring, .transporting => true
  | .configuring, .postDelay => true
  | .configuring, .failed => true
  | .transporting, .transporting => true
  | .transporting, .postDelay => true
  | .transporting, .failed => true
  | .postDelay, .postDelay => true
  | .postDelay, .deselectCs => true
  | .deselectCs, .deselectCs => true
  | .deselectCs, .selectCs => true
  | .deselectCs, .completed => true
  | .completed, .completed => true
  | .completed, .idle => true
  | .failed, .failed => true
  | .failed, .idle => true
  | _, _ => false

/-- The moves of R186's table between the phases of TRANSPORTING, one step each, and staying. -/
def Phase.mayBecome : Phase → Phase → Bool
  | .none, .none => true
  | .pArm, .pArm => true
  | .pArm, .pPoll => true
  | .pPoll, .pPoll => true
  | .pPoll, .pDrain => true
  | .pDrain, .pDrain => true
  | .dMap, .dMap => true
  | .dMap, .dArm => true
  | .dArm, .dArm => true
  | .dArm, .dWait => true
  | .dWait, .dWait => true
  | .dWait, .dTxdrain => true
  | .dWait, .dMap => true
  | .dTxdrain, .dTxdrain => true
  | .dTxdrain, .dMap => true
  | _, _ => false

/-- The phases from which R186's table leaves TRANSPORTING for a state. -/
def Phase.mayEndIn : Phase → SeqState → Bool
  | .pPoll, .failed => true
  | .pDrain, .postDelay => true
  | .pDrain, .failed => true
  | .dMap, .failed => true
  | .dWait, .postDelay => true
  | .dWait, .failed => true
  | .dTxdrain, .postDelay => true
  | .dTxdrain, .failed => true
  | _, _ => false

/-- The instruction is a step of controller `c`'s sequencer that R186's table lists for the state and phase, or the
composite of that phase's transport (R136, R160). -/
def rowStep (c : Byte) (q : SeqState) (p : Phase) (i : Instr) : Prop :=
  match q with
  | .idle => ∃ k, i = .seqStart c k
  | .configuringDevice => i = .seqConfigDevice c
  | .selectCs => i = .seqSelectCs c
  | .configuring => i = .seqConfiguring c
  | .transporting =>
    match p with
    | .none => False
    | .pArm => i = .pArm c ∨ i = .xferPoll c
    | .pPoll => i = .pPoll c ∨ i = .xferPoll c
    | .pDrain => i = .pDrain c ∨ i = .xferPoll c
    | .dMap => i = .dMap c ∨ i = .xferDma c
    | .dArm => i = .dArm c ∨ i = .xferDma c
    | .dWait => i = .dWait c ∨ i = .xferDma c
    | .dTxdrain => i = .dTxdrain c ∨ i = .xferDma c
  | .postDelay => i = .seqPostDelay c
  | .deselectCs => i = .seqAdvance c
  | .completed => i = .seqComplete c
  | .failed => i = .seqFail c

/-- The transitions of R213, and staying. -/
def PState.mayBecome : PState → PState → Bool
  | .idle, .active => true
  | .active, .idle => true
  | .active, .suspended => true
  | .idle, .suspended => true
  | .suspended, .idle => true
  | .active, .active => true
  | .idle, .idle => true
  | .suspended, .suspended => true
  | .suspended, .active => false

/-! ### Invariants (R38) -/

/-- Memory has its canonical form (R44; log entry 6). -/
def State.memoryForm (s : State) : Prop := Memory.wf s.mem = true

/-- Neither FIFO holds more than its capacity (R38 item 1). -/
def State.fifosBounded (s : State) : Prop :=
  ∀ c x, s.ctrlAt c = some x → x.hw.txf.length ≤ x.fifoDepth ∧ x.hw.rxf.length ≤ x.fifoDepth

/-- The sequencer is IDLE exactly when no Message is in service (R38 item 5). -/
def State.ownersRight (s : State) : Prop :=
  ∀ c x, s.ctrlAt c = some x → (x.seq.state = .idle ↔ x.owner = none)

/-- The clocks run exactly in ACTIVE (R38 item 4), a Message is in service only in ACTIVE (R213), and SUSPENDED
implies the suspended flag (R38 item 2). -/
def State.clocksRight (s : State) : Prop :=
  ∀ c x, s.ctrlAt c = some x →
    (x.clkOn = true ↔ x.pstate = .active) ∧ (x.seq.state ≠ .idle → x.pstate = .active) ∧
    (x.pstate = .suspended → x.suspended = true)

/-- The lease bits say what the pool says, both are 1 exactly in ACTIVE (R38 item 3), and every leased channel is
one of its lessee's two. -/
def State.leasesRight (s : State) : Prop :=
  (∀ c x, s.ctrlAt c = some x → x.id = c ∧ x.dmaRx ≠ x.dmaTx ∧
    (x.rxCh = true ↔ (s.chanAt x.dmaRx).lessee = some c) ∧ (x.txCh = true ↔ (s.chanAt x.dmaTx).lessee = some c) ∧
    (x.rxCh = true ↔ x.pstate = .active) ∧ (x.txCh = true ↔ x.pstate = .active)) ∧
  (∀ k c, (s.chanAt k).lessee = some c → ∃ x, s.ctrlAt c = some x ∧ (k = x.dmaRx ∨ k = x.dmaTx))

/-- A busy flag is set only in D_WAIT, and the completion primitive is released only with both clear (R38 item 6,
R152, R153). -/
def State.busyRight (s : State) : Prop :=
  ∀ c x, s.ctrlAt c = some x →
    ((x.rxBusy = true ∨ x.txBusy = true) → x.seq.state = .transporting ∧ x.seq.phase = .dWait) ∧
    (x.dmaDone = true → x.rxBusy = false ∧ x.txBusy = false)

/-- The device addresses a controller's own live mappings of one direction begin at, newest first (R50). -/
def State.mappedAt (s : State) (c : Byte) (dir : MapDir) : List Word :=
  (s.maps.filter fun m => decide (m.ctrl = c) && decide (m.dir = dir)).map Mapping.dev

/-- The mappings the engine made and has not released are those its sequencer owes, and it owes some only between
D_MAP and the end of the sub-transfer: with the sequencer outside TRANSPORTING none is live (R158). -/
def State.mapsRight (s : State) : Prop :=
  (∀ c, s.ctrlAt c = none → s.mappedAt c .toDevice = [] ∧ s.mappedAt c .fromDevice = []) ∧
  (∀ c x, s.ctrlAt c = some x → x.id = c ∧
    s.mappedAt c .toDevice = (if x.seq.weMappedTx then x.seq.mapTx.toList else []) ∧
    s.mappedAt c .fromDevice = (if x.seq.weMappedRx then x.seq.mapRx.toList else []) ∧
    ((x.seq.weMappedTx = true ∨ x.seq.weMappedRx = true) → x.seq.state = .transporting ∧
      (x.seq.phase = .dArm ∨ x.seq.phase = .dWait ∨ x.seq.phase = .dTxdrain)))

/-- A Message that waits names a present binding and has a Transfer (R171); in service, the binding is still there, the
index is that of a Transfer (R14, R15), and the bytes moved, with those of a sub-transfer under way, do not pass its
length. In SELECT_CS the offset may still be the last Transfer's (R175). -/
def State.serviceRight (s : State) : Prop :=
  ∀ c x, s.ctrlAt c = some x →
    (∀ w ∈ x.waitq, (x.bindAt w.b).isSome = true ∧ w.msg ≠ []) ∧
    (x.seq.state ≠ .idle → (x.bindAt x.seq.b).isSome = true ∧ ∃ t, x.transfer = some t ∧
      (x.seq.state ≠ .selectCs → x.seq.off ≤ t.len.toNat) ∧
      (x.seq.state = .transporting → (x.seq.phase = .dArm ∨ x.seq.phase = .dWait ∨ x.seq.phase = .dTxdrain) →
        x.seq.off + x.seq.chunk ≤ t.len.toNat))

/-- In SUSPENDED nothing waits and no retry is counted (R217, R263); outside TRANSPORTING there is no phase (R14, R186). -/
def State.restRight (s : State) : Prop :=
  ∀ c x, s.ctrlAt c = some x →
    (x.pstate = .suspended → x.suspended = true ∧ x.waitq = [] ∧ x.actWait = false ∧ x.acqK = 0) ∧
    (x.seq.state ≠ .transporting → x.seq.phase = .none)

/-- The live mappings left once a controller has released what its sequencer owes: in each direction it mapped, the
newest of its own that begins at the address the sequencer holds (R158). -/
def Ctrl.released (x : Ctrl) (maps : List Mapping) : List Mapping :=
  let release (owed : Bool) (d : Option Word) (dir : MapDir) (ms : List Mapping) : List Mapping :=
    if owed then ms.eraseP fun m => decide (m.ctrl = x.id) && decide (m.dir = dir) && decide (some m.dev = d) else ms
  release x.seq.weMappedRx x.seq.mapRx .fromDevice (release x.seq.weMappedTx x.seq.mapTx .toDevice maps)

/-- The serial engine and the channels as R149 says they are on entry to a sub-transfer: the format of the current
width programmed (R103), the FIFOs empty, no condition set, nothing owed, both channels leased and unarmed. -/
def State.readyForDma (s : State) (c : Byte) (x : Ctrl) : Prop :=
  x.id = c ∧ x.clkOn = true ∧ (x.curWidth = 8 ∨ x.curWidth = 16 ∨ x.curWidth = 32) ∧
  16 ≤ x.fifoDepth ∧ x.fifoDepth ≤ 256 ∧ x.hw.clkCfg.enclk = true ∧ x.hw.chCfg.swRst = false ∧
  x.hw.modeCfg.chTsz = widthCode x.curWidth ∧ x.hw.swapCfg = swapVal x.curWidth x.swapByte ∧
  x.hw.txf = [] ∧ x.hw.rxf = [] ∧ x.hw.shBusy = false ∧ x.hw.sticky = ⟨false, false, false, false⟩ ∧
  x.seq.weMappedTx = false ∧ x.seq.weMappedRx = false ∧ x.dmaRx ≠ x.dmaTx ∧
  ∀ k, (k = x.dmaRx ∨ k = x.dmaTx) →
    (s.chanAt k).lessee = some c ∧ (s.chanAt k).armed = false ∧ (s.chanAt k).notify = false

/-- The holder of a select is a present binding (R38 item 7). -/
def State.holderBound (s : State) : Prop :=
  ∀ c x b, s.ctrlAt c = some x → x.csHolder = some b → (x.bindAt b).isSome = true

end Sys2Proof.Machine
end

