-- ==== Sys2Proof/Certificates/Slice0/Obligations.lean ====
section
/-! DEFINITION. The statements for the provers. A statement whose conclusion is `exec … = .next (…)` with the whole
next state written out says the instruction's result and its frame at once: every field that is not written out is
that of the state before. -/

open Sys2Proof Sys2Proof.Machine

/-! ### Encoding, decoding, the step -/

/-- R60 to R67, R72: decoding the encoding of a well-formed instruction gives it back, operands and all. R72 gives a
step no operand bytes: those are the model's choice (log entry 4). -/
def Obligations.DecodeEncodeRoundTrip : Prop :=
  ∀ i : Instr, i.wellFormed = true → decode (encode i) = .ok i

/-- R60 to R67, R70, R73: what decodes to a well-formed instruction is that instruction's encoding, so no bit of it is
ignored; a step's operand bytes are the model's choice (log entry 4). -/
def Obligations.EncodingsAreUnique : Prop :=
  ∀ (e : Encoded) (i : Instr), decode e = .ok i → i.wellFormed = true → encode i = e

/-- Words written out from R61 to R67, R72, R76 (`95_test_vectors.md` V-ENC): a few of each kind. R72 gives a step its
tag and no operand bytes: that the controller's byte follows the tag, and that TICK's count less one follows it, least
significant byte first and as short as can be, is the model's choice (log entries 4 and 27). -/
def Obligations.SampleWordsDecode : Prop :=
  decode (.packet [0x02000000#32]) = .ok (.destroy .exact 0) ∧
  decode (.packet [0x09030000#32]) = .ok (.flush .exact 3) ∧
  decode (.packet [0x01000000#32, 0x10000000#32, 100000000#32, 0x00010040#32, 0x00640100#32]) =
    .ok (.new .exact 0 ⟨0x10000000#32, 100000000#32, 64, true, false, 0, 1, 100⟩) ∧
  decode (.packet [0x03000100#32, 1000000#32, 0x00000804#32, 0x00000207#32]) =
    .ok (.bind .exact 0 1 ⟨1000000#32, ⟨false, false, true⟩, 8, true, 3, .manual, false, 0, false, false⟩) ∧
  decode (.packet [0x04000101#32, 0x1000#32, 0x2000#32, 2#32, 0#32, 0x300#32, 0#32, 0#32, 0#32]) =
    .ok (.submit .exact 0 1 [⟨0x1000#32, 0x2000#32, 2#32, 0#32, 0, true, true, false, false, 0, 0#32, 0#32⟩]) ∧
  decode (.tag [0x30, 7]) = .ok (.shLoad 7) ∧
  decode (.tag [0x3B, 2]) = .ok (.suspendFinish 2) ∧
  decode (.tag [0x39, 0xE7, 0x03]) = .ok (.tick 999)

/-- A step runs what is scheduled next: if it decodes to an instruction, the step is that instruction's meaning in the
state without it on the schedule, and `withFetchWord` schedules exactly the table word's instruction. R11 and R260 let
any agent's step come next and have no place of a program: that the next one is the head of `inbox`, taken off before
it runs, is the model's choice (log entry 1). -/
def Obligations.StepRunsDecodedInstruction : Prop :=
  (∀ (s : State) (e : Encoded) (rest : List Input) (i : Instr), s.inbox = .encoded e :: rest → decode e = .ok i →
    step s = exec i { s with inbox := rest }) ∧
  (∀ (s : State) (nbits w : Nat) (i : Instr), decodeTableWord nbits w = some i →
    step (s.withFetchWord nbits w) = exec i s)

/-- R260, R38, R158: the block does nothing until something arrives; at power-on there is no controller, every channel
is free and unarmed, time is 0, the logs are empty, and every invariant stated below holds. -/
def Obligations.PowerOnIsQuiet : Prop :=
  (∀ s : State, s.inbox = [] → step s = .next s) ∧
  (∀ c, State.reset.ctrlAt c = none) ∧ (∀ k, State.reset.chanAt k = ⟨none, false, .tx, 0, 0, 0, 0, false⟩) ∧
  State.reset.now = 0 ∧ State.reset.busLog = [] ∧ State.reset.errLog = [] ∧ State.reset.inbox = [] ∧
  State.reset.memoryForm ∧ State.reset.fifosBounded ∧ State.reset.ownersRight ∧ State.reset.clocksRight ∧
  State.reset.holderBound ∧ State.reset.busyRight ∧ State.reset.mapsRight ∧ State.reset.leasesRight ∧
  State.reset.serviceRight ∧ State.reset.restRight

/-- R70, R73, R236: the command port's answers, with nothing else changed. A packet with a reserved opcode:
UnknownOpcode. A packet of a known opcode with a nonzero must-be-zero field (the header's, the body's by its layout in
R62 to R67, the line id where no line is present): Malformed(1); without one but of another length than its header
implies: Malformed(2); a SUBMIT of no Transfers: Malformed(3). The third part says the same of a command by its form.
The model's choices (log entry 5): a word the packet does not have counts as zero, the packet of no words is
Malformed(2), and a malformed SUBMIT's answer has one zero speed word for each Transfer its header names. -/
def Obligations.CommandPortAnswers : Prop :=
  (∀ (s : State) (w : Word) (ws : List Word) (rest : List Input),
    s.inbox = .encoded (.packet (w :: ws)) :: rest → (hdrOp w = 0 ∨ 0x0A ≤ (hdrOp w).toNat) →
    step s = .next { s with inbox := rest, outbox := s.outbox ++ [⟨.issuer, [0x05010000#32, 0#32]⟩] }) ∧
  (∀ (s : State) (ws : List Word) (rest : List Input), s.inbox = .encoded (.packet ws) :: rest →
    (let w (k : Nat) : Word := ws.getD k 0
     let op := (w 0).toNat / 2 ^ 24
     let n := (w 0).toNat % 2 ^ 8
     let answers (code : Word) : Prop := step s = .next { s with
       inbox := rest
       outbox := s.outbox ++ [⟨.issuer, code :: 0#32 :: List.replicate (if op = 4 then n else 0) 0#32⟩] }
     let badBody : Prop :=
       op = 1 ∧ w 3 &&& 0xFFFCFE00#32 ≠ 0 ∨
       op = 3 ∧ (w 2 &&& 0xFFFFC0F8#32 ≠ 0 ∨ w 3 &&& 0xFFFF8000#32 ≠ 0 ∨
         w 3 &&& 1#32 = 0 ∧ w 3 &&& 0x1FE#32 ≠ 0) ∨
       op = 4 ∧ ∃ i, i < n ∧ (w (1 + 8 * i + 4) &&& 0xF0C0#32 ≠ 0 ∨ w (1 + 8 * i + 7) ≠ 0)
     let badHeader : Prop := op ≠ 4 ∧ n ≠ 0 ∨ op ≠ 3 ∧ op ≠ 4 ∧ w 0 &&& 0xFF00#32 ≠ 0
     let length := if op = 1 then 5 else if op = 3 then 4 else if op = 4 then 1 + 8 * n else 1
     (ws = [] → answers 0x05020002#32) ∧
     (1 ≤ op → op ≤ 9 → (badHeader ∨ badBody) → answers 0x05020001#32) ∧
     (1 ≤ op → op ≤ 9 → ¬ (badHeader ∨ badBody) → ws.length ≠ length → answers 0x05020002#32) ∧
     (op = 4 → n = 0 → ws.length = 1 → answers 0x05020003#32))) ∧
  (∀ (s : State) (f : PacketForm) (code : Word),
    (f = .mbzNonzero ∧ code = 0x05020001#32 ∨ f = .wrongLength ∧ code = 0x05020002#32) →
    (∀ i : Instr, ((∃ c a, i = .new f c a) ∨ (∃ c, i = .destroy f c) ∨ (∃ c b a, i = .bind f c b a) ∨
        (∃ c, i = .onSuspend f c) ∨ (∃ c, i = .onResume f c) ∨ (∃ c, i = .onIdle f c) ∨ (∃ c, i = .onActive f c) ∨
        (∃ c, i = .flush f c)) →
      exec i s = .next { s with outbox := s.outbox ++ [⟨.issuer, [code, 0#32]⟩] }) ∧
    (∀ c b ts, exec (.submit f c b ts) s =
      .next { s with outbox := s.outbox ++ [⟨.issuer, code :: 0#32 :: List.replicate ts.length 0#32⟩] }) ∧
    (∀ c b, exec (.submit .exact c b []) s =
      .next { s with outbox := s.outbox ++ [⟨.issuer, [0x05020003#32, 0#32]⟩] }))

/-! ### Registers and the serial engine -/

/-- R80 to R87, R22 to R33: what a read of each register returns right after a write: the stored bits, zeros in the
reserved ones; `SLAVE` stays 0; `HS_EN` is cleared by a write with `SW_RST` = 1; writes of `STATUS` and `RX_DATA` are
ignored. `STATUS` reads the four sticky bits at 2 to 5, the two FIFO levels at 14:6 and 23:15, `TX_DONE` (transmit FIFO
empty and nothing on the wire) at 25, and zeros elsewhere (R27, R90). -/
def Obligations.RegisterReadsBackWrite : Prop :=
  (∀ (h : Hw) (d : Nat) (v : Word),
    (h.regWrite d .chCfg 4 v).regRead .chCfg 4 = some (if v.getLsbD 5 then v &&& 0x2F#32 else v &&& 0x6F#32) ∧
    (h.regWrite d .clkCfg 4 v).regRead .clkCfg 4 = some (v &&& 0x1FF#32) ∧
    (h.regWrite d .modeCfg 4 v).regRead .modeCfg 4 = some (v &&& 0x6006000F#32) ∧
    (h.regWrite d .csReg 4 v).regRead .csReg 4 = some (v &&& 0xF#32) ∧
    (h.regWrite d .intEn 4 v).regRead .intEn 4 = some (v &&& 0x3C#32) ∧
    (h.regWrite d .packetCnt 4 v).regRead .packetCnt 4 = some (v &&& 0x1FFFF#32) ∧
    (h.regWrite d .pendingClr 4 v).regRead .pendingClr 4 = some (v &&& 0x1E#32) ∧
    (h.regWrite d .swapCfg 4 v).regRead .swapCfg 4 = some (v &&& 0xDD#32) ∧
    (h.regWrite d .fbClk 4 v).regRead .fbClk 4 = some (v &&& 0x3#32) ∧
    (∀ n, h.regWrite d .status n v = h ∧ h.regWrite d .rxData n v = h)) ∧
  (∀ h : Hw, h.txf.length ≤ 256 → h.rxf.length ≤ 256 → ∃ v : Word, h.regRead .status 4 = some v ∧
    (v.extractLsb' 6 9).toNat = h.txf.length ∧ (v.extractLsb' 15 9).toNat = h.rxf.length ∧
    v.getLsbD 2 = h.sticky.txUnderrun ∧ v.getLsbD 3 = h.sticky.txOverrun ∧
    v.getLsbD 4 = h.sticky.rxUnderrun ∧ v.getLsbD 5 = h.sticky.rxOverrun ∧
    (v.getLsbD 25 = true ↔ h.txf = [] ∧ h.shBusy = false) ∧ v &&& 0xFD000003#32 = 0)

/-- R84, R85, R96: the side effects of register accesses on the FIFOs. A write of `TX_DATA` is dropped under software
reset, sets TX_OVERRUN (unless masked) where it does not fit, and else appends its bytes, least significant first. A
read of `RX_DATA` takes the head bytes, or sets RX_UNDERRUN (unless masked) and takes nothing. Any other write empties
both FIFOs exactly when it changes `CPOL`, `CPHA`, `DIV`, `BUS_TSZ`, `CH_TSZ` or `SWAP_CFG`; otherwise `rxf` keeps its
bytes, and so does `txf` unless the write sets `SW_RST`. -/
def Obligations.RegisterAccessesMoveFifos : Prop :=
  (∀ (h : Hw) (d n : Nat) (v : Word),
    (h.chCfg.swRst = true → h.regWrite d .txData n v = h) ∧
    (h.chCfg.swRst = false → d - h.txf.length < n → h.regWrite d .txData n v =
      if h.pendingClr.txOverrun then h else { h with sticky := { h.sticky with txOverrun := true } }) ∧
    (h.chCfg.swRst = false → n ≤ d - h.txf.length →
      h.regWrite d .txData n v = { h with txf := h.txf ++ leBytes n v }) ∧
    (n ≤ h.rxf.length → h.regRead .rxData n = some (leWord (h.rxf.take n)) ∧
      h.popRx n = { h with rxf := h.rxf.drop n }) ∧
    (h.rxf.length < n → h.regRead .rxData n = none ∧ h.popRx n =
      if h.pendingClr.rxUnderrun then h else { h with sticky := { h.sticky with rxUnderrun := true } })) ∧
  (∀ (h : Hw) (d : Nat) (r : Reg) (v : Word), r ≠ .txData →
    (let k := h.regWrite d r 4 v
     let same : Prop := k.chCfg.cpol = h.chCfg.cpol ∧ k.chCfg.cpha = h.chCfg.cpha ∧ k.clkCfg.div = h.clkCfg.div ∧
       k.modeCfg.busTsz = h.modeCfg.busTsz ∧ k.modeCfg.chTsz = h.modeCfg.chTsz ∧ k.swapCfg = h.swapCfg
     (¬ same → k.txf = [] ∧ k.rxf = []) ∧
     (same → k.rxf = h.rxf ∧ (k.txf = h.txf ∨ r = .chCfg ∧ v.getLsbD 5 = true ∧ k.txf = []))))

/-- R44: the bytes of a buffer of up to four bytes survive the trip through a word, a store of `n` bytes puts byte
`i` of the value at `a + i`, and no byte outside the stored range changes. -/
def Obligations.MemoryIsLittleEndian : Prop :=
  ∀ (m : List Host.Cell) (a : Word) (n : Nat) (v : Word), n ≤ 4 → a.toNat + n ≤ 2 ^ 32 →
    (∀ i, i < n → Memory.read (memWrite m a n v) (a + BitVec.ofNat 32 i) = v.extractLsb' (8 * i) 8) ∧
    (∀ b : Word, (b.toNat < a.toNat ∨ a.toNat + n ≤ b.toNat) →
      Memory.read (memWrite m a n v) b = Memory.read m b) ∧
    (memRead (memWrite m a n v) a n).toNat = v.toNat % 2 ^ (8 * n)

/-- R88: SH_LOAD, when enabled, takes one word off `txf` and swaps it, or, in a receive-only transaction, puts a word
nobody determines on the wire; so it does where R46 gives the swap no result (the model's choice, log entry 13). It is
not enabled, and changes nothing (log entry 2), with the clocks gated or `ENCLK` 0, in software reset, with a word on
the wire, without words to shift or a channel on, with too few bytes in `txf`, or, where the engine stalls, without room
in `rxf`. -/
def Obligations.ShLoadStartsOneWord : Prop :=
  ∀ (s : State) (c : Byte) (x : Ctrl), s.ctrlAt c = some x →
    (x.clkOn = true → x.hw.clkCfg.enclk = true → x.hw.chCfg.swRst = false → x.hw.shBusy = false →
      x.hw.packetCnt.en = true → 0 < x.hw.pktRem.toNat →
      (s.params.shifterStalls = true → x.hw.chCfg.rxchOn = true → x.hw.wb ≤ x.fifoDepth - x.hw.rxf.length) →
      (x.hw.chCfg.txchOn = true → x.hw.wb ≤ x.hw.txf.length →
        (∀ w, x.hw.swapCfg.swapTx (leWord (x.hw.txf.take x.hw.wb)) x.hw.wb = some w →
          exec (.shLoad c) s = .next (s.setCtrl c { x with hw := { x.hw with
            txf := x.hw.txf.drop x.hw.wb, shWord := w, shDefined := true, shBusy := true } })) ∧
        (x.hw.swapCfg.swapTx (leWord (x.hw.txf.take x.hw.wb)) x.hw.wb = none →
          ∃ w : Word, w.toNat < 2 ^ (8 * x.hw.wb) ∧ exec (.shLoad c) s = .next { s.setCtrl c { x with hw := { x.hw with
            txf := x.hw.txf.drop x.hw.wb, shWord := w, shDefined := true, shBusy := true } } with
            draws := s.draws + 1 })) ∧
      (x.hw.chCfg.txchOn = false → x.hw.chCfg.rxchOn = true →
        ∃ w : Word, w.toNat < 2 ^ (8 * x.hw.wb) ∧ exec (.shLoad c) s = .next { s.setCtrl c { x with hw := { x.hw with
          shWord := w, shDefined := false, shBusy := true } } with draws := s.draws + 1 })) ∧
    ((x.clkOn = false ∨ x.hw.clkCfg.enclk = false ∨ x.hw.chCfg.swRst = true ∨ x.hw.shBusy = true ∨
        x.hw.packetCnt.en = false ∨ x.hw.pktRem = 0 ∨ (x.hw.chCfg.txchOn = false ∧ x.hw.chCfg.rxchOn = false) ∨
        (x.hw.chCfg.txchOn = true ∧ x.hw.txf.length < x.hw.wb) ∨
        (s.params.shifterStalls = true ∧ x.hw.chCfg.rxchOn = true ∧
          x.fifoDepth - x.hw.rxf.length < x.hw.wb)) →
      exec (.shLoad c) s = .next s)

/-- R89, R35: SH_DONE ends the word on the wire: the word received (its own in loopback, else the peripheral's) is
pushed, or lost with RX_OVERRUN, or discarded; `pkt_rem` falls by one; the `Word` event is logged. Where R46 gives the
swap no result, or `pkt_rem` would pass below 0, that value alone is open and the step still ends the word (the model's
choice, log entries 12 and 13). Without a word on the wire, or with the clocks gated, nothing changes (log entry 2). -/
def Obligations.ShDoneEndsTheWord : Prop :=
  ∀ (s : State) (c : Byte) (x : Ctrl) (r : Word), s.ctrlAt c = some x →
    r = (if x.hw.modeCfg.loopback then x.hw.shWord
      else truncWord x.hw.wb (Config.periph x.id x.csHolder x.hw.wb x.hw.shWord s.busLog)) →
    (let event : BusEvent := .word x.id (8 * x.hw.wb) x.hw.chCfg.cpol x.hw.chCfg.cpha x.hw.clkCfg.div x.hw.shWord
       x.hw.shDefined r
     (x.clkOn = true → x.hw.shBusy = true → x.hw.pktRem ≠ 0 → ∀ h1 : Hw,
       (x.hw.chCfg.rxchOn = false ∧ h1 = x.hw ∨
        x.hw.chCfg.rxchOn = true ∧ x.hw.wb ≤ x.fifoDepth - x.hw.rxf.length ∧
          (∃ v, x.hw.swapCfg.swapRx r x.hw.wb = some v ∧ h1 = { x.hw with rxf := x.hw.rxf ++ leBytes x.hw.wb v }) ∨
        x.hw.chCfg.rxchOn = true ∧ x.fifoDepth - x.hw.rxf.length < x.hw.wb ∧
          h1 = (if x.hw.pendingClr.rxOverrun then x.hw
            else { x.hw with sticky := { x.hw.sticky with rxOverrun := true } })) →
       exec (.shDone c) s = .next { s.setCtrl c { x with hw := { h1 with
           pktRem := x.hw.pktRem - 1, shBusy := false } } with busLog := s.busLog ++ [event] }) ∧
     (x.clkOn = true → x.hw.shBusy = true → ∃ (h1 : Hw) (rem : BitVec 16) (n : Nat), exec (.shDone c) s =
         .next { s.setCtrl c { x with hw := { h1 with pktRem := rem, shBusy := false } } with
           busLog := s.busLog ++ [event], draws := s.draws + n } ∧
       (x.hw.pktRem ≠ 0 → rem = x.hw.pktRem - 1) ∧
       (x.hw.chCfg.rxchOn = false → h1 = x.hw) ∧
       (x.hw.chCfg.rxchOn = true → x.hw.wb ≤ x.fifoDepth - x.hw.rxf.length → ∃ bs, bs.length = x.hw.wb ∧
         h1 = { x.hw with rxf := x.hw.rxf ++ bs } ∧
         ∀ v, x.hw.swapCfg.swapRx r x.hw.wb = some v → bs = leBytes x.hw.wb v) ∧
       (x.hw.chCfg.rxchOn = true → x.fifoDepth - x.hw.rxf.length < x.hw.wb →
         h1 = (if x.hw.pendingClr.rxOverrun then x.hw
           else { x.hw with sticky := { x.hw.sticky with rxOverrun := true } })) ∧
       n = (if x.hw.chCfg.rxchOn = true ∧ x.hw.wb ≤ x.fifoDepth - x.hw.rxf.length ∧
           x.hw.swapCfg.swapRx r x.hw.wb = none then 1 else 0) + (if x.hw.pktRem = 0 then 1 else 0)) ∧
     ((x.clkOn = false ∨ x.hw.shBusy = false) → exec (.shDone c) s = .next s))

/-- R93, R94: the environment's steps. TICK advances time by the amount the environment chooses, of at least 1, and
changes nothing else; that its operand is the amount less one is the model's choice (log entry 27). No other
instruction changes the time but the composites XFER_POLL and XFER_DMA, whose schedule holds the environment's TICKs
up to a deadline that is waited for (log entry 25); none turns it back. ERR_INJECT sets the conditions of its set that
no clear bit masks; where the environment may not inject, the clocks are gated, no transaction runs or the set is
empty, it changes nothing (log entry 2). -/
def Obligations.EnvironmentSteps : Prop :=
  (∀ (s : State) (d : Nat), exec (.tick d) s = .next { s with now := s.now + (d + 1) }) ∧
  (∀ (i : Instr) (s u : State), (∀ d, i ≠ .tick d) → (∀ c, i ≠ .xferPoll c) → (∀ c, i ≠ .xferDma c) →
    exec i s = .next u → u.now = s.now) ∧
  (∀ (i : Instr) (s u : State), exec i s = .next u → s.now ≤ u.now) ∧
  (∀ (s : State) (c : Byte) (x : Ctrl) (m : Conds), s.ctrlAt c = some x →
    (s.params.spuriousErrors = true → x.clkOn = true → x.hw.inTxn = true → m.nonempty = true →
      exec (.errInject c m) s = .next (s.setCtrl c { x with hw := { x.hw with sticky :=
        ⟨x.hw.sticky.rxOverrun || (m.rxOverrun && !x.hw.pendingClr.rxOverrun),
         x.hw.sticky.rxUnderrun || (m.rxUnderrun && !x.hw.pendingClr.rxUnderrun),
         x.hw.sticky.txOverrun || (m.txOverrun && !x.hw.pendingClr.txOverrun),
         x.hw.sticky.txUnderrun || (m.txUnderrun && !x.hw.pendingClr.txUnderrun)⟩ } })) ∧
    ((s.params.spuriousErrors = false ∨ x.clkOn = false ∨ x.hw.inTxn = false ∨ m.nonempty = false) →
      exec (.errInject c m) s = .next s))

/-! ### Clock and format -/

/-- R100, R108: UnachievableRate is raised exactly for the request 0, a divider above 255, and a speed that rounds down
to 0 Hz; else the achieved speed never exceeds the request, is the largest divided speed that does not, is monotonic in
the request, and is a fixed point. -/
def Obligations.RateIsBestBelowRequest : Prop :=
  (∀ src target d a, rate src target = some (d, a) →
    a ≤ target ∧ d ≤ 255 ∧ a = src / (2 * (d + 1)) ∧
    (∀ e, e ≤ 255 → src / (2 * (e + 1)) ≤ target → src / (2 * (e + 1)) ≤ a) ∧
    (∃ d', rate src a = some (d', a))) ∧
  (∀ src t1 t2 d1 a1 d2 a2, t1 ≤ t2 → rate src t1 = some (d1, a1) → rate src t2 = some (d2, a2) →
    d2 ≤ d1 ∧ a1 ≤ a2) ∧
  (∀ src target, rate src target = none ↔
    target = 0 ∨ 255 < src / (2 * (target + 1)) ∨ src / (2 * (src / (2 * (target + 1)) + 1)) = 0)

/-- R103, R107, R109: in the sequencer state CONFIGURING, CONFIGURE of a legal width at an achievable speed programs
the divider, the format and the swap, empties both FIFOs and records the achieved speed, the mode and the width; where
it raises, before any register is written, nothing changes; and in any other state it does not run and changes nothing
(that it can be scheduled alone there at all is the model's choice, log entries 2, 3 and 24). -/
def Obligations.ConfigureProgramsFormat : Prop :=
  ∀ (s : State) (c : Byte) (x : Ctrl) (speed : Word) (m : SpiMode) (w : BitVec 6), s.ctrlAt c = some x →
    ((w = 8 ∨ w = 16 ∨ w = 32) → x.clkOn = true → x.seq.state = .configuring →
      ∀ d a, rate x.srcClk.toNat speed.toNat = some (d, a) →
      exec (.configure c speed m w) s = .next (s.setCtrl c { x with
        hw := { x.hw with
          clkCfg := ⟨BitVec.ofNat 8 d, true⟩
          chCfg := ⟨false, false, m.cpha, m.cpol, false, decide (30000000 ≤ a)⟩
          modeCfg := ⟨false, false, false, m.loop, widthCode w, widthCode w⟩
          swapCfg := swapVal w x.swapByte, txf := [], rxf := [] }
        curSpeed := BitVec.ofNat 32 a, curMode := m, curWidth := w, cfgValid := true })) ∧
    ((¬ (w = 8 ∨ w = 16 ∨ w = 32) ∨ rate x.srcClk.toNat speed.toNat = none) →
      exec (.configure c speed m w) s = .next s) ∧
    (x.seq.state ≠ .configuring → exec (.configure c speed m w) s = .next s)

/-- R106: BIND's checks in their order, each answered with nothing changed, and a BIND that passes them: the binding
with the achieved speed, the line driven inactive, the secure mark, the response. -/
def Obligations.BindRecordsAchievedSpeed : Prop :=
  ∀ (s : State) (c b : Byte) (a : BindArgs),
    let refuse (w : Word) : Prop :=
      exec (.bind .exact c b a) s = .next { s with outbox := s.outbox ++ [⟨.issuer, [w, 0#32]⟩] }
    (s.ctrlAt c = none → refuse 0x05030000#32) ∧
    (∀ x, s.ctrlAt c = some x →
      let bound : Prop := ∃ y, x.bindAt b = some y
      let lineTaken : Prop := a.linePresent = true ∧
        ∃ p ∈ s.ctrl, ∃ q ∈ p.2.bind, q.2.line = some a.lineId
      let legal : Prop := a.width = 8 ∨ a.width = 16 ∨ a.width = 32
      (bound → refuse 0x05020004#32) ∧
      (¬ bound → lineTaken → refuse 0x05020005#32) ∧
      (¬ bound → ¬ lineTaken → ¬ legal → refuse 0x01020000#32) ∧
      (¬ bound → ¬ lineTaken → legal → a.maxSpeed = 0 → refuse 0x01010000#32) ∧
      (¬ bound → ¬ lineTaken → legal → a.maxSpeed ≠ 0 → x.srcClk.toNat < 2 * a.maxSpeed.toNat →
        refuse 0x02010000#32) ∧
      (¬ bound → ¬ lineTaken → legal → a.maxSpeed ≠ 0 → ¬ x.srcClk.toNat < 2 * a.maxSpeed.toNat →
        (rate x.srcClk.toNat a.maxSpeed.toNat = none → refuse 0x01010000#32) ∧
        (∀ d v, rate x.srcClk.toNat a.maxSpeed.toNat = some (d, v) →
          ∃ t, exec (.bind .exact c b a) s = .next t ∧
            t = { s with ctrl := t.ctrl, csLine := t.csLine,
                         outbox := s.outbox ++ [⟨.issuer, [0#32, BitVec.ofNat 32 v]⟩] } ∧
            (∀ e, e ≠ c → t.ctrlAt e = s.ctrlAt e) ∧
            (∀ l, t.lineLevel l = if a.linePresent ∧ l = a.lineId then !a.activeLevel else s.lineLevel l) ∧
            ∃ y, t.ctrlAt c = some y ∧ y = { x with bind := y.bind, secure := x.secure || a.secureRouted } ∧
              (∀ e, e ≠ b → y.bindAt e = x.bindAt e) ∧
              y.bindAt b = some ⟨BitVec.ofNat 32 v, a.mode, a.width, if a.linePresent then some a.lineId else none,
                a.csMode, a.activeLevel, a.idleHold, a.fbDelay, a.secureRouted⟩)))

/-! ### Chip-select -/

/-- R116, R117, R91: the two micro-operations of the select and the native output's level. CS_ASSERT with no holder and
the clocks running drives a MANUAL line to its active level, or, without a line or in AUTO, writes `CS_REG`; the holder
and the event follow. CS_DEASSERT does nothing when nothing is held; else it drives the line to its inactive level or
sets `SIG_INACT`, keeping the other fields, forgets the holder and logs the event. With the clocks gated the
register forms are a fault of the model (R80, U7); that CS_ASSERT in its line form, which accesses no register, is one
too, since R116 asks for running clocks, is the model's choice (log entry 24), and so is that CS_ASSERT of an absent
binding, or with a holder, changes nothing. The native output is active as `SIG_INACT`, `AUTO`, a transaction
and `IDLE_HOLD` say, at the level of `ACTIVE_HIGH`, while the clocks run; gated, it is the level held (log entry 17). -/
def Obligations.ChipSelectOperations : Prop :=
  (∀ (s : State) (c b : Byte) (x : Ctrl) (y : Binding), s.ctrlAt c = some x → x.bindAt b = some y →
    x.csHolder = none →
    (∀ l, y.csMode = .manual → y.line = some l → x.clkOn = true → exec (.csAssert c b) s =
      .next { (s.setLine l y.activeLevel).setCtrl c { x with csHolder := some b } with
        busLog := s.busLog ++ [.csAssert x.id b (.line l)] }) ∧
    (y.csMode = .manual → y.line = none → x.clkOn = true → exec (.csAssert c b) s =
      .next { s.setCtrl c { x with csHolder := some b, hw := { x.hw with
          csReg := ⟨false, false, false, y.activeLevel⟩ } } with
        busLog := s.busLog ++ [.csAssert x.id b .native] }) ∧
    (y.csMode = .auto → x.clkOn = true → exec (.csAssert c b) s =
      .next { s.setCtrl c { x with csHolder := some b, hw := { x.hw with
          csReg := ⟨false, true, y.idleHold, y.activeLevel⟩ } } with
        busLog := s.busLog ++ [.csAssert x.id b .autoNative] }) ∧
    (x.clkOn = false → exec (.csAssert c b) s = .fault .registerAccessClockOff)) ∧
  (∀ (s : State) (c b : Byte) (x : Ctrl), s.ctrlAt c = some x → (x.csHolder ≠ none ∨ x.bindAt b = none) →
    exec (.csAssert c b) s = .next s) ∧
  (∀ (s : State) (c : Byte) (x : Ctrl), s.ctrlAt c = some x →
    (x.csHolder = none → exec (.csDeassert c) s = .next s) ∧
    (∀ b y, x.csHolder = some b → x.bindAt b = some y →
      (∀ l, y.csMode = .manual → y.line = some l → exec (.csDeassert c) s =
        .next { (s.setLine l (!y.activeLevel)).setCtrl c { x with csHolder := none } with
          busLog := s.busLog ++ [.csDeassert x.id b (.line l)] }) ∧
      (y.csMode = .manual → y.line = none → x.clkOn = true → exec (.csDeassert c) s =
        .next { s.setCtrl c { x with csHolder := none, hw := { x.hw with
            csReg := { x.hw.csReg with sigInact := true } } } with
          busLog := s.busLog ++ [.csDeassert x.id b .native] }) ∧
      (y.csMode = .auto → x.clkOn = true → exec (.csDeassert c) s =
        .next { s.setCtrl c { x with csHolder := none, hw := { x.hw with
            csReg := { x.hw.csReg with sigInact := true } } } with
          busLog := s.busLog ++ [.csDeassert x.id b .autoNative] }) ∧
      ((y.csMode = .auto ∨ y.line = none) → x.clkOn = false →
        exec (.csDeassert c) s = .fault .registerAccessClockOff))) ∧
  (∀ x : Ctrl,
    (let r := x.hw.csReg
     let inTxn : Prop := x.hw.shBusy = true ∨ (x.hw.packetCnt.en = true ∧ x.hw.pktRem ≠ 0 ∧
       (x.hw.chCfg.txchOn = true ∨ x.hw.chCfg.rxchOn = true))
     let active : Prop := r.sigInact = false ∧ (r.auto = false ∨ inTxn ∨ r.idleHold = true)
     (x.clkOn = true → active → x.nss = r.activeHigh) ∧ (x.clkOn = true → ¬ active → x.nss = !r.activeHigh) ∧
     (x.clkOn = false → x.nss = x.nssHeld)))

/-! ### The polling transport -/

/-- R132, R131: P_ARM programs the packet counter with the word count, fills `txf` with the whole transmit buffer,
switches the present directions on, sets the deadline and goes on to P_POLL. The first clause holds whatever the
serial engine holds; the second is the whole next state when the engine is as R132 says it is on entry. -/
def Obligations.PArmLoadsFifo : Prop :=
  ∀ (s : State) (c : Byte) (x : Ctrl) (t : Transfer), s.ctrlAt c = some x → x.seq.state = .transporting →
    x.seq.phase = .pArm → x.transfer = some t → x.clkOn = true →
    (let deadline := s.now + 1000 * max 100 (13 * ((t.len.toNat * 8000) / x.curSpeed.toNat) / 10)
     let wb := x.curWidth.toNat / 8
     (∃ h, exec (.pArm c) s = .next (s.setCtrl c { x with
       errLatch := ⟨false, false, false, false⟩, hw := h,
       seq := { x.seq with phase := .pPoll, deadline := deadline } })) ∧
     (x.hw.chCfg.swRst = false → x.hw.txf = [] → (wb = 1 ∨ wb = 2 ∨ wb = 4) → t.len.toNat % wb = 0 →
       t.len.toNat ≤ x.fifoDepth →
       exec (.pArm c) s = .next (s.setCtrl c { x with
         errLatch := ⟨false, false, false, false⟩
         hw := { x.hw with
           modeCfg := { x.hw.modeCfg with txdmaOn := false, rxdmaOn := false, burst4 := false }
           packetCnt := ⟨BitVec.ofNat 16 (t.len.toNat / wb), true⟩
           pktRem := BitVec.ofNat 16 (t.len.toNat / wb)
           txf := if t.txPresent then Memory.readBytes s.mem t.len.toNat t.tx else []
           chCfg := { x.hw.chCfg with txchOn := t.txPresent, rxchOn := t.rxPresent } }
         seq := { x.seq with phase := .pPoll, deadline := deadline } })))

/-- R133, R243: P_POLL looks once, in this order: a condition seen (then or before, in the latch) fails the Transfer
with Overrun or Underrun and is logged and cleared; completion goes on to P_DRAIN; a passed deadline fails with
Timeout; else nothing changes. -/
def Obligations.PPollLooksOnce : Prop :=
  ∀ (s : State) (c : Byte) (x : Ctrl) (t : Transfer), s.ctrlAt c = some x → x.seq.state = .transporting →
    x.seq.phase = .pPoll → x.transfer = some t → x.clkOn = true →
    (let l := x.errLatch.union x.hw.sticky
     let finished : Prop := if t.rxPresent then t.len.toNat ≤ x.hw.rxf.length else x.hw.txf = [] ∧ x.hw.shBusy = false
     (l.nonempty = true → exec (.pPoll c) s = .next { s.setCtrl c { x with
         errLatch := l
         hw := { x.hw with
           sticky := ⟨false, false, false, false⟩
           pendingClr := if x.hw.sticky.nonempty then ⟨false, false, false, false⟩ else x.hw.pendingClr }
         seq := { x.seq with
           err := (if l.rxOverrun || l.txOverrun then 0x03020000#32 else 0x03030000#32) |||
             put 0 (BitVec.ofNat 16 (x.seq.xi + 256 * l.nibble.toNat))
           phase := .none, state := .failed } } with
         errLog := s.errLog ++ x.hw.sticky.list.map fun k => ⟨x.id, k, x.hw.statusWord, s.now⟩ }) ∧
     (l.nonempty = false → finished →
       exec (.pPoll c) s = .next (s.setCtrl c { x with seq := { x.seq with phase := .pDrain } })) ∧
     (l.nonempty = false → ¬ finished → x.seq.deadline ≤ s.now →
       exec (.pPoll c) s = .next (s.setCtrl c { x with seq := { x.seq with
         err := 0x03010000#32 ||| put 0 (BitVec.ofNat 16 x.seq.xi), phase := .none, state := .failed } })) ∧
     (l.nonempty = false → ¬ finished → s.now < x.seq.deadline → exec (.pPoll c) s = .next (s.setCtrl c x)))

/-- R134, R179: P_DRAIN moves the Transfer's bytes from `rxf` to the receive buffer, ends the hardware transaction
and, with no condition seen, goes on to POST_DELAY; with one, the Transfer fails. Whatever the engine holds it
completes, and no byte outside the receive buffer changes. -/
def Obligations.PDrainStoresReceivedBytes : Prop :=
  ∀ (s : State) (c : Byte) (x : Ctrl) (t : Transfer), s.ctrlAt c = some x → x.seq.state = .transporting →
    x.seq.phase = .pDrain → x.transfer = some t → x.clkOn = true →
    (t.rxPresent = true → t.rx.toNat + t.len.toNat ≤ 2 ^ 32) →
    (let wb := x.curWidth.toNat / 8
     let l := x.errLatch.union x.hw.sticky
     (∃ u, exec (.pDrain c) s = .next u ∧
       ∀ a : Word, (t.rxPresent = false ∨ a.toNat < t.rx.toNat ∨ t.rx.toNat + t.len.toNat ≤ a.toNat) →
         Memory.read u.mem a = Memory.read s.mem a) ∧
     (x.hw.chCfg.swRst = false → (wb = 1 ∨ wb = 2 ∨ wb = 4) → t.len.toNat % wb = 0 →
       (t.rxPresent = true → t.len.toNat ≤ x.hw.rxf.length) →
       (l.nonempty = false → exec (.pDrain c) s = .next { s.setCtrl c { x with
           hw := { x.hw with
             rxf := if t.rxPresent then x.hw.rxf.drop t.len.toNat else x.hw.rxf
             chCfg := { x.hw.chCfg with txchOn := false, rxchOn := false }
             packetCnt := ⟨0, false⟩, pktRem := 0 }
           seq := { x.seq with
             phase := .none, delayUntil := s.now + t.delayUsecs.toNat, state := .postDelay } } with
           mem := if t.rxPresent then Memory.writeBytes s.mem t.rx (x.hw.rxf.take t.len.toNat) else s.mem }) ∧
       (l.nonempty = true → ∃ u y, exec (.pDrain c) s = .next u ∧ u.ctrlAt c = some y ∧ y.errLatch = l ∧
         y.seq = { x.seq with
           err := (if l.rxOverrun || l.txOverrun then 0x03020000#32 else 0x03030000#32) |||
             put 0 (BitVec.ofNat 16 (x.seq.xi + 256 * l.nibble.toNat))
           phase := .none, state := .failed })))

/-- R136, R42, R46: the composite XFER_POLL. Which steps of the serial engine and TICKs of the environment stand
between its phases is the model's choice (log entry 25). From any polling phase with the clocks running it ends in
POST_DELAY or failed. From P_ARM, with the format of the current width programmed, the engine as R132 says it is on
entry and no condition set, it ends in POST_DELAY, at the time it began. The bus log gains one `Word` event per word, in
buffer order: the words of the transmit buffer as it was before, swapped, or words nobody determines; each answered by
itself in loopback and else by the peripheral. The receive buffer holds the received words, swapped; in loopback, the
transmit buffer's bytes, even where the two overlap. No other byte of memory and no other controller changes; both FIFOs
are empty, both channels and DMA modes off, the packet counter 0. Where the engine cannot shift (`ENCLK` 0), the outcome
is Timeout, at the deadline, with no event and memory as it was. -/
def Obligations.PolledLoopbackEchoes : Prop :=
  (∀ (s : State) (c : Byte) (x : Ctrl) (t : Transfer), s.ctrlAt c = some x → x.seq.state = .transporting →
    (x.seq.phase = .pArm ∨ x.seq.phase = .pPoll ∨ x.seq.phase = .pDrain) → x.transfer = some t → x.clkOn = true →
    ∃ u y, exec (.xferPoll c) s = .next u ∧ u.ctrlAt c = some y ∧
      (y.seq.state = .postDelay ∨ y.seq.state = .failed)) ∧
  (∀ (s : State) (c : Byte) (x : Ctrl) (t : Transfer), s.ctrlAt c = some x → x.seq.state = .transporting →
    x.seq.phase = .pArm → x.transfer = some t → x.clkOn = true → (t.txPresent = true ∨ t.rxPresent = true) →
    (x.curWidth = 8 ∨ x.curWidth = 16 ∨ x.curWidth = 32) → t.len.toNat % (x.curWidth.toNat / 8) = 0 →
    t.len.toNat ≤ x.fifoDepth → x.fifoDepth ≤ 256 → x.hw.chCfg.swRst = false →
    x.hw.txf = [] → x.hw.rxf = [] → x.hw.shBusy = false → x.hw.sticky = ⟨false, false, false, false⟩ →
    (let wb := x.curWidth.toNat / 8
     let len := t.len.toNat
     let deadline := s.now + 1000 * max 100 (13 * ((len * 8000) / x.curSpeed.toNat) / 10)
     ((t.rxPresent = true → t.rx.toNat + len ≤ 2 ^ 32) →
       x.hw.clkCfg.enclk = true → x.hw.modeCfg.chTsz = widthCode x.curWidth →
       x.hw.swapCfg = swapVal x.curWidth x.swapByte →
       ∃ u y ws, exec (.xferPoll c) s = .next u ∧ u.ctrlAt c = some y ∧
         u = { s with ctrl := u.ctrl, mem := u.mem, draws := u.draws, busLog := s.busLog ++ ws } ∧
         (∀ d, d ≠ c → u.ctrlAt d = s.ctrlAt d) ∧
         y = { x with
           errLatch := ⟨false, false, false, false⟩
           hw := { x.hw with
             chCfg := { x.hw.chCfg with txchOn := false, rxchOn := false }
             modeCfg := { x.hw.modeCfg with txdmaOn := false, rxdmaOn := false, burst4 := false }
             packetCnt := ⟨0, false⟩, pktRem := 0, shWord := y.hw.shWord, shDefined := y.hw.shDefined }
           seq := { x.seq with
             state := .postDelay, phase := .none, deadline := deadline
             delayUntil := s.now + t.delayUsecs.toNat } } ∧
         ws.length = len / wb ∧
         (∀ k, k < len / wb → ∃ sent got,
           ws[k]? = some (.word x.id (8 * wb) x.hw.chCfg.cpol x.hw.chCfg.cpha x.hw.clkCfg.div sent t.txPresent got) ∧
           (t.txPresent = true →
             x.hw.swapCfg.swapTx (memRead s.mem (t.tx + BitVec.ofNat 32 (k * wb)) wb) wb = some sent) ∧
           got = (if x.hw.modeCfg.loopback then sent
             else truncWord wb (Config.periph x.id x.csHolder wb sent (s.busLog ++ ws.take k))) ∧
           (t.rxPresent = true →
             x.hw.swapCfg.swapRx got wb = some (memRead u.mem (t.rx + BitVec.ofNat 32 (k * wb)) wb))) ∧
         (t.txPresent = true → t.rxPresent = true → x.hw.modeCfg.loopback = true → ∀ i, i < len →
           Memory.read u.mem (t.rx + BitVec.ofNat 32 i) = Memory.read s.mem (t.tx + BitVec.ofNat 32 i)) ∧
         (∀ a : Word, (t.rxPresent = false ∨ a.toNat < t.rx.toNat ∨ t.rx.toNat + len ≤ a.toNat) →
           Memory.read u.mem a = Memory.read s.mem a)) ∧
     (0 < len → x.hw.clkCfg.enclk = false →
       ∃ u y, exec (.xferPoll c) s = .next u ∧ u.ctrlAt c = some y ∧
         u = { s with ctrl := u.ctrl, now := deadline } ∧ (∀ d, d ≠ c → u.ctrlAt d = s.ctrlAt d) ∧
         y.seq.state = .failed ∧ y.seq.phase = .none ∧
         y.seq.err = 0x03010000#32 ||| put 0 (BitVec.ofNat 16 x.seq.xi))))

/-! ### The DMA transport -/

/-- R148, R146, R50: D_MAP takes the next sub-transfer's size; a pre-mapped Transfer uses the caller's addresses
advanced by the offset; else each present buffer's range is mapped, transmit first, the answers becoming live mappings;
a refused mapping fails the Transfer with DmaMapFailed, a refused receive mapping after releasing the transmit mapping
just made. Of a failed Transfer's receive buffer no byte at or past the offset changes, and none at all in the first
sub-transfer (R52, log entry 14). What MAPPER answers is open: that the answers are those fixed in `mapTape` first and
then opaque values by the number of the draw, and that one whose range passes the top is none, is the model's choice
(log entry 9). That the sequencer owes nothing at D_MAP is part of the invariant `mapsRight` (R158). -/
def Obligations.DMapMapsSubTransfer : Prop :=
  ∀ (s : State) (c : Byte) (x : Ctrl) (t : Transfer), s.ctrlAt c = some x → x.seq.state = .transporting →
    x.seq.phase = .dMap → x.transfer = some t → x.seq.weMappedTx = false → x.seq.weMappedRx = false →
    (let n := min (t.len.toNat - x.seq.off) (65535 * (x.curWidth.toNat / 8))
     let off := BitVec.ofNat 32 x.seq.off
     let answer (k : Nat) (a : Word) (dir : MapDir) : Option Word :=
       ((s.mapTape[k]?).getD (Config.mapper (s.draws + (k - s.mapTape.length)) a n dir)).filter fun d =>
         decide (d.toNat + n ≤ 2 ^ 32)
     let asked (k : Nat) (u : State) : State :=
       { u with mapTape := s.mapTape.drop k, draws := s.draws + (k - s.mapTape.length) }
     let fails (k : Nat) (q : Seq) : Prop := ∃ u, exec (.dMap c) s = .next u ∧
       u = { (asked k s).setCtrl c { x with seq := { q with
         chunk := n, err := 0x03050000#32 ||| put 0 (BitVec.ofNat 16 x.seq.xi), phase := .none, state := .failed } } with
         mem := u.mem, draws := u.draws } ∧
       ((x.seq.off = 0 ∨ t.rxPresent = false) → u.mem = s.mem ∧ u.draws = (asked k s).draws) ∧
       (t.rx.toNat + x.seq.off ≤ 2 ^ 32 → ∀ a : Word, (a.toNat < t.rx.toNat ∨ t.rx.toNat + x.seq.off ≤ a.toNat) →
         Memory.read u.mem a = Memory.read s.mem a)
     let nothingOwed (q : Seq) : Seq :=
       { q with weMappedTx := false, weMappedRx := false, mapTx := none, mapRx := none }
     (t.premapped = true → exec (.dMap c) s = .next (s.setCtrl c { x with seq := { x.seq with
         chunk := n
         mapTx := if t.txPresent then some (t.txDma + off) else none
         mapRx := if t.rxPresent then some (t.rxDma + off) else none
         phase := .dArm } })) ∧
     (t.premapped = false → t.txPresent = true → t.rxPresent = true → ∀ d1, answer 0 (t.tx + off) .toDevice = some d1 →
       (∀ d2, answer 1 (t.rx + off) .fromDevice = some d2 →
         exec (.dMap c) s = .next { (asked 2 s).setCtrl c { x with seq := { x.seq with
             chunk := n, mapTx := some d1, weMappedTx := true, mapRx := some d2, weMappedRx := true,
             phase := .dArm } } with
           maps := ⟨x.id, .fromDevice, d2, t.rx + off, n⟩ :: ⟨x.id, .toDevice, d1, t.tx + off, n⟩ :: s.maps }) ∧
       (answer 1 (t.rx + off) .fromDevice = none → fails 2 (nothingOwed x.seq))) ∧
     (t.premapped = false → t.txPresent = true → t.rxPresent = false → ∀ d1,
       answer 0 (t.tx + off) .toDevice = some d1 →
       exec (.dMap c) s = .next { (asked 1 s).setCtrl c { x with seq := { x.seq with
           chunk := n, mapTx := some d1, weMappedTx := true, phase := .dArm } } with
         maps := ⟨x.id, .toDevice, d1, t.tx + off, n⟩ :: s.maps }) ∧
     (t.premapped = false → t.txPresent = false → t.rxPresent = true →
       (∀ d2, answer 0 (t.rx + off) .fromDevice = some d2 →
         exec (.dMap c) s = .next { (asked 1 s).setCtrl c { x with seq := { x.seq with
             chunk := n, mapRx := some d2, weMappedRx := true, phase := .dArm } } with
           maps := ⟨x.id, .fromDevice, d2, t.rx + off, n⟩ :: s.maps }) ∧
       (answer 0 (t.rx + off) .fromDevice = none → fails 1 (nothingOwed x.seq))) ∧
     (t.premapped = false → t.txPresent = true → answer 0 (t.tx + off) .toDevice = none → fails 1 x.seq))

/-- R149, R147, R131: D_ARM programs the format register, the packet counter and the channel enables for the present
directions, arms their channels with the sub-transfer's addresses, sizes and burst, sets the busy flags, and goes on
to D_WAIT; no other channel changes. -/
def Obligations.DArmArmsChannels : Prop :=
  ∀ (s : State) (c : Byte) (x : Ctrl) (t : Transfer), s.ctrlAt c = some x → x.seq.state = .transporting →
    x.seq.phase = .dArm → x.transfer = some t → x.clkOn = true → x.hw.chCfg.swRst = false → x.dmaRx ≠ x.dmaTx →
    (let n := x.seq.chunk
     let wb := x.curWidth.toNat / 8
     let burst := if n % (4 * wb) = 0 then 4 else 1
     ∃ u, exec (.dArm c) s = .next u ∧ u = { s.setCtrl c { x with
         errLatch := ⟨false, false, false, false⟩
         hw := { x.hw with
           modeCfg := { x.hw.modeCfg with
             burst4 := decide (burst = 4), txdmaOn := t.txPresent, rxdmaOn := t.rxPresent }
           packetCnt := ⟨BitVec.ofNat 16 (n / wb), true⟩, pktRem := BitVec.ofNat 16 (n / wb)
           chCfg := { x.hw.chCfg with txchOn := t.txPresent, rxchOn := t.rxPresent } }
         rxBusy := t.rxPresent, txBusy := t.txPresent, dmaDone := false
         seq := { x.seq with
           phase := .dWait
           deadline := s.now + 1000 * max 100 (13 * ((n * 8000) / x.curSpeed.toNat) / 10) } } with chan := u.chan } ∧
       ∀ k, u.chanAt k =
         if k = x.dmaRx ∧ t.rxPresent then
           ⟨(s.chanAt k).lessee, true, .rx, x.seq.mapRx.getD 0, n, burst, wb, false⟩
         else if k = x.dmaTx ∧ t.txPresent then
           ⟨(s.chanAt k).lessee, true, .tx, x.seq.mapTx.getD 0, n, burst, wb, false⟩
         else s.chanAt k)

/-- R154, R156, R158, R161: D_WAIT. With the completion released a transmit-only sub-transfer goes on to D_TXDRAIN with
a new deadline, and any other ends: hardware off, the mappings the engine made released and no other, then on to the
next sub-transfer or to POST_DELAY; or, with a condition seen, though every byte was moved, the Transfer fails with
Overrun or Underrun, the condition logged. With neither completion nor deadline nothing changes. With the deadline
passed the sub-transfer is given up: the channels unarmed and their leases kept, the flags cleared, the mappings
released, and the Transfer fails, with the condition latched where there is one and else with Timeout. -/
def Obligations.DWaitEndsSubTransfer : Prop :=
  ∀ (s : State) (c : Byte) (x : Ctrl) (t : Transfer), s.ctrlAt c = some x → x.seq.state = .transporting →
    x.seq.phase = .dWait → x.transfer = some t →
    (let n := x.seq.chunk
     let l := x.errLatch.union x.hw.sticky
     let conditionErr := (if l.rxOverrun || l.txOverrun then 0x03020000#32 else 0x03030000#32) |||
       put 0 (BitVec.ofNat 16 (x.seq.xi + 256 * l.nibble.toNat))
     let logged := s.errLog ++ x.hw.sticky.list.map fun k => ⟨x.id, k, x.hw.statusWord, s.now⟩
     let failed (err : Word) : Seq := { x.seq with
       mapTx := none, mapRx := none, weMappedTx := false, weMappedRx := false, phase := .none, state := .failed
       err := err }
     (x.dmaDone = true → t.rxPresent = false → exec (.dWait c) s = .next (s.setCtrl c { x with seq := { x.seq with
         deadline := s.now + 1000 * max 100 (13 * ((n * 8000) / x.curSpeed.toNat) / 10), phase := .dTxdrain } })) ∧
     (x.dmaDone = true → t.rxPresent = true → x.clkOn = true → x.hw.chCfg.swRst = false → l.nonempty = false →
       exec (.dWait c) s = .next { s.setCtrl c { x with
         hw := { x.hw with
           chCfg := { x.hw.chCfg with txchOn := false, rxchOn := false }
           modeCfg := { x.hw.modeCfg with txdmaOn := false, rxdmaOn := false, burst4 := false }
           packetCnt := ⟨0, false⟩, pktRem := 0 }
         seq := if x.seq.off + n < t.len.toNat then { x.seq with
             off := x.seq.off + n, mapTx := none, mapRx := none, weMappedTx := false, weMappedRx := false
             phase := .dMap }
           else { x.seq with
             off := x.seq.off + n, mapTx := none, mapRx := none, weMappedTx := false, weMappedRx := false
             phase := .none, delayUntil := s.now + t.delayUsecs.toNat, state := .postDelay } } with
         maps := x.released s.maps }) ∧
     (x.dmaDone = true → t.rxPresent = true → x.clkOn = true → x.hw.chCfg.swRst = false → l.nonempty = true →
       ∃ u y, exec (.dWait c) s = .next u ∧ u.ctrlAt c = some y ∧
         u = { s with ctrl := u.ctrl, mem := u.mem, draws := u.draws, errLog := logged, maps := x.released s.maps } ∧
         (∀ d, d ≠ c → u.ctrlAt d = s.ctrlAt d) ∧
         y.errLatch = l ∧ y.hw.sticky = ⟨false, false, false, false⟩ ∧ y.hw.pktRem = 0 ∧
         y.hw.chCfg = { x.hw.chCfg with txchOn := false, rxchOn := false } ∧ y.seq = failed conditionErr) ∧
     (x.dmaDone = false → s.now < x.seq.deadline → exec (.dWait c) s = .next s) ∧
     (x.dmaDone = false → x.seq.deadline ≤ s.now → x.clkOn = true → ∃ u y, exec (.dWait c) s = .next u ∧
       u.ctrlAt c = some y ∧
       u = { s with ctrl := u.ctrl, chan := u.chan, mem := u.mem, draws := u.draws, errLog := logged,
                    maps := x.released s.maps } ∧
       (∀ d, d ≠ c → u.ctrlAt d = s.ctrlAt d) ∧
       (∀ k, u.chanAt k = if (k = x.dmaRx ∨ k = x.dmaTx) ∧ (s.chanAt k).lessee = some x.id then
         { s.chanAt k with armed := false, rem := 0, notify := false } else s.chanAt k) ∧
       y.rxBusy = false ∧ y.txBusy = false ∧ y.dmaDone = false ∧ y.hw.sticky = ⟨false, false, false, false⟩ ∧
       y.seq = failed (if l.nonempty then conditionErr else 0x03010000#32 ||| put 0 (BitVec.ofNat 16 x.seq.xi))))

/-- R155, R156, R158, R161: D_TXDRAIN waits for `TX_DONE`: with it the sub-transfer ends as in D_WAIT, or fails there
with a condition seen; without it, nothing changes before the deadline, and after it the sub-transfer is given up, its
mappings released and its channels unarmed. -/
def Obligations.DTxdrainWaitsForBus : Prop :=
  ∀ (s : State) (c : Byte) (x : Ctrl) (t : Transfer), s.ctrlAt c = some x → x.seq.state = .transporting →
    x.seq.phase = .dTxdrain → x.transfer = some t → x.clkOn = true →
    (let n := x.seq.chunk
     let l := x.errLatch.union x.hw.sticky
     let drained : Prop := x.hw.txf = [] ∧ x.hw.shBusy = false
     let conditionErr := (if l.rxOverrun || l.txOverrun then 0x03020000#32 else 0x03030000#32) |||
       put 0 (BitVec.ofNat 16 (x.seq.xi + 256 * l.nibble.toNat))
     let logged := s.errLog ++ x.hw.sticky.list.map fun k => ⟨x.id, k, x.hw.statusWord, s.now⟩
     let failed (err : Word) : Seq := { x.seq with
       mapTx := none, mapRx := none, weMappedTx := false, weMappedRx := false, phase := .none, state := .failed
       err := err }
     (drained → x.hw.chCfg.swRst = false → l.nonempty = false →
       exec (.dTxdrain c) s = .next { s.setCtrl c { x with
         hw := { x.hw with
           chCfg := { x.hw.chCfg with txchOn := false, rxchOn := false }
           modeCfg := { x.hw.modeCfg with txdmaOn := false, rxdmaOn := false, burst4 := false }
           packetCnt := ⟨0, false⟩, pktRem := 0 }
         seq := if x.seq.off + n < t.len.toNat then { x.seq with
             off := x.seq.off + n, mapTx := none, mapRx := none, weMappedTx := false, weMappedRx := false
             phase := .dMap }
           else { x.seq with
             off := x.seq.off + n, mapTx := none, mapRx := none, weMappedTx := false, weMappedRx := false
             phase := .none, delayUntil := s.now + t.delayUsecs.toNat, state := .postDelay } } with
         maps := x.released s.maps }) ∧
     (drained → x.hw.chCfg.swRst = false → l.nonempty = true →
       ∃ u y, exec (.dTxdrain c) s = .next u ∧ u.ctrlAt c = some y ∧
         u = { s with ctrl := u.ctrl, mem := u.mem, draws := u.draws, errLog := logged, maps := x.released s.maps } ∧
         (∀ d, d ≠ c → u.ctrlAt d = s.ctrlAt d) ∧
         y.errLatch = l ∧ y.hw.sticky = ⟨false, false, false, false⟩ ∧ y.hw.pktRem = 0 ∧
         y.hw.chCfg = { x.hw.chCfg with txchOn := false, rxchOn := false } ∧ y.seq = failed conditionErr) ∧
     (¬ drained → s.now < x.seq.deadline → exec (.dTxdrain c) s = .next s) ∧
     (¬ drained → x.seq.deadline ≤ s.now → ∃ u y, exec (.dTxdrain c) s = .next u ∧ u.ctrlAt c = some y ∧
       u = { s with ctrl := u.ctrl, chan := u.chan, mem := u.mem, draws := u.draws, errLog := logged,
                    maps := x.released s.maps } ∧
       (∀ d, d ≠ c → u.ctrlAt d = s.ctrlAt d) ∧
       (∀ k, u.chanAt k = if (k = x.dmaRx ∨ k = x.dmaTx) ∧ (s.chanAt k).lessee = some x.id then
         { s.chanAt k with armed := false, rem := 0, notify := false } else s.chanAt k) ∧
       y.rxBusy = false ∧ y.txBusy = false ∧ y.dmaDone = false ∧ y.hw.sticky = ⟨false, false, false, false⟩ ∧
       y.seq = failed (if l.nonempty then conditionErr else 0x03010000#32 ||| put 0 (BitVec.ofNat 16 x.seq.xi))))

/-- R157: DMA_ABORT disarms the controller's two channels where it leases them, cancels their notifications, keeps
the leases, clears the busy flags and the completion, and touches nothing else. -/
def Obligations.DmaAbortDisarms : Prop :=
  ∀ (s : State) (c : Byte) (x : Ctrl), s.ctrlAt c = some x →
    ∃ u, exec (.dmaAbort c) s = .next u ∧
      u = { s.setCtrl c { x with rxBusy := false, txBusy := false, dmaDone := false } with chan := u.chan } ∧
      ∀ k, u.chanAt k =
        if (k = x.dmaRx ∨ k = x.dmaTx) ∧ (s.chanAt k).lessee = some x.id then
          { s.chanAt k with armed := false, rem := 0, notify := false }
        else s.chanAt k

/-- R150, R50: DMA_TX_BEAT, when enabled, moves one burst from the mapped memory to `txf` and advances the
descriptor, notifying at its end. A byte of the overlap, where R42 makes it a race, is a value nobody determines
(U9); which bytes those are is the model's reading (log entry 15).
Any device address outside every live range is a fault of the model (U8). A channel that is not armed for transmit with
bytes left, or without a lessee, the clocks, the DMA mode bit or room for a burst in `txf`, or in software reset, moves
nothing (log entry 2). -/
def Obligations.DmaTxBeatMovesBurst : Prop :=
  ∀ (s : State) (k c : Byte) (x : Ctrl), s.ctrlAt c = some x →
    (let ch := s.chanAt k
     let n := ch.burst * ch.wb
     (ch.lessee = some c → x.dmaTx = k → ch.armed = true → ch.dir = .tx → 0 < ch.rem → x.clkOn = true →
       x.hw.modeCfg.txdmaOn = true → x.hw.chCfg.swRst = false → n ≤ x.fifoDepth - x.hw.txf.length → ch.wb ≤ 4 →
       (∀ h : Nat → Word,
         (∀ i, i < n → s.translate (ch.addr + BitVec.ofNat 32 i) = some (h i) ∧ x.racy (h i) = false) →
         exec (.dmaTxBeat k) s = .next ((s.setChan k { ch with
             addr := ch.addr + BitVec.ofNat 32 n, rem := ch.rem - n,
             notify := ch.notify || decide (ch.rem - n = 0) }).setCtrl c { x with hw := { x.hw with
             txf := x.hw.txf ++ (List.range n).map fun i => Memory.read s.mem (h i) } })) ∧
       (∀ h : Nat → Word, (∀ i, i < n → s.translate (ch.addr + BitVec.ofNat 32 i) = some (h i)) →
         ∃ bs, exec (.dmaTxBeat k) s = .next { (s.setChan k { ch with
             addr := ch.addr + BitVec.ofNat 32 n, rem := ch.rem - n,
             notify := ch.notify || decide (ch.rem - n = 0) }).setCtrl c { x with hw := { x.hw with
             txf := x.hw.txf ++ bs } } with draws := s.draws + (List.range n).countP fun i => x.racy (h i) } ∧
           bs.length = n ∧ ∀ i, i < n → x.racy (h i) = false → bs[i]? = some (Memory.read s.mem (h i))) ∧
       (∀ i, i < n → s.translate (ch.addr + BitVec.ofNat 32 i) = none →
         exec (.dmaTxBeat k) s = .fault .deviceAccessUnmapped)) ∧
     (ch.lessee = some c → (ch.armed = false ∨ ch.dir ≠ .tx ∨ ch.rem = 0 ∨ x.clkOn = false ∨
         x.hw.modeCfg.txdmaOn = false ∨ x.hw.chCfg.swRst = true ∨ x.fifoDepth - x.hw.txf.length < n) →
       exec (.dmaTxBeat k) s = .next s) ∧
     (ch.lessee = none → exec (.dmaTxBeat k) s = .next s))

/-- R151, R50: DMA_RX_BEAT, when enabled, moves one burst from `rxf` to the mapped memory and advances the
descriptor, notifying at its end; no byte of memory changes but those the burst's device addresses stand for, and any
device address outside every live range is a fault of the model (U8). A channel that is not armed for receive with
bytes left, or without a lessee, the clocks, the DMA mode bit or a whole burst in `rxf`, moves nothing (log entry 2). -/
def Obligations.DmaRxBeatMovesBurst : Prop :=
  ∀ (s : State) (k c : Byte) (x : Ctrl), s.ctrlAt c = some x →
    (let ch := s.chanAt k
     let n := ch.burst * ch.wb
     (ch.lessee = some c → x.dmaRx = k → ch.armed = true → ch.dir = .rx → 0 < ch.rem → x.clkOn = true →
       x.hw.modeCfg.rxdmaOn = true → n ≤ x.hw.rxf.length → ch.wb ≤ 4 →
       (∀ h : Nat → Word, (∀ i, i < n → s.translate (ch.addr + BitVec.ofNat 32 i) = some (h i)) →
         ∃ u, exec (.dmaRxBeat k) s = .next u ∧
           u = { (s.setChan k { ch with
             addr := ch.addr + BitVec.ofNat 32 n, rem := ch.rem - n,
             notify := ch.notify || decide (ch.rem - n = 0) }).setCtrl c { x with hw := { x.hw with
             rxf := x.hw.rxf.drop n } } with mem := u.mem } ∧
           (∀ a : Word, (∀ i, i < n → h i ≠ a) → Memory.read u.mem a = Memory.read s.mem a) ∧
           ((∀ i j, i < n → j < n → h i = h j → i = j) →
             ∀ i b, i < n → x.hw.rxf[i]? = some b → Memory.read u.mem (h i) = b)) ∧
       (∀ i, i < n → s.translate (ch.addr + BitVec.ofNat 32 i) = none →
         exec (.dmaRxBeat k) s = .fault .deviceAccessUnmapped)) ∧
     (ch.lessee = some c → (ch.armed = false ∨ ch.dir ≠ .rx ∨ ch.rem = 0 ∨ x.clkOn = false ∨
         x.hw.modeCfg.rxdmaOn = false ∨ x.hw.rxf.length < n) → exec (.dmaRxBeat k) s = .next s) ∧
     (ch.lessee = none → exec (.dmaRxBeat k) s = .next s))

/-- R152, R153: a completion notification clears its channel and its busy flag, and releases the completion
primitive exactly when the other direction's flag is clear too. Without a notification the step is not enabled and
changes nothing (the model's choice, log entry 2). -/
def Obligations.CompletionNeedsBothDirections : Prop :=
  ∀ (s : State) (k c : Byte) (x : Ctrl), s.ctrlAt c = some x → (s.chanAt k).lessee = some c →
    ((s.chanAt k).notify = true → x.dmaRx ≠ x.dmaTx →
      (x.dmaTx = k → exec (.dmaTxDone k) s =
        .next ((s.setChan k { s.chanAt k with notify := false, armed := false }).setCtrl c { x with
          txBusy := false, dmaDone := x.dmaDone || !x.rxBusy })) ∧
      (x.dmaRx = k → exec (.dmaRxDone k) s =
        .next ((s.setChan k { s.chanAt k with notify := false, armed := false }).setCtrl c { x with
          rxBusy := false, dmaDone := x.dmaDone || !x.txBusy }))) ∧
    ((s.chanAt k).notify = false → exec (.dmaTxDone k) s = .next s ∧ exec (.dmaRxDone k) s = .next s)

/-- R160, R146 to R158: the contract of the composite XFER_DMA. From D_MAP, with the engine and the channels as R149
says they are on entry, the buffers inside the address space and not racing (R42), and the device addresses given (a
pre-mapped Transfer's live ranges, or MAPPER's answers fixed beforehand, one range for each sub-transfer and direction,
those of one sub-transfer apart), it ends in POST_DELAY with the whole length done, at the time it began. The bus log
gains one `Word` event per word, in buffer order: the words of the transmit buffer, swapped, or words nobody
determines; each answered by itself in loopback and else by the peripheral. The receive buffer holds the received
words, swapped; in loopback, the transmit buffer's bytes. No other byte of memory, no other controller and no other
channel changes; the FIFOs are empty, the channel enables, DMA-mode bits and counter 0, the busy flags clear, both
channels unarmed and still leased, and the live mappings those before. Which steps of the engine and the channels
stand between the phases is the model's choice (log entry 25), and so are the fixed answers (log entry 9). -/
def Obligations.XferDmaKeepsContract : Prop :=
  ∀ (s : State) (c : Byte) (x : Ctrl) (t : Transfer) (txAt rxAt : Nat → Word) (rest : List (Option Word)),
    s.ctrlAt c = some x → x.seq.state = .transporting → x.seq.phase = .dMap → x.seq.off = 0 →
    x.transfer = some t → s.readyForDma c x → (t.txPresent = true ∨ t.rxPresent = true) →
    (let wb := x.curWidth.toNat / 8
     let len := t.len.toNat
     let most := 65535 * wb
     let subs := (len + most - 1) / most
     0 < len → len % wb = 0 →
     (t.txPresent = true → t.tx.toNat + len ≤ 2 ^ 32) → (t.rxPresent = true → t.rx.toNat + len ≤ 2 ^ 32) →
     (t.txPresent = true → t.rxPresent = true → t.rx.toNat ≤ t.tx.toNat ∨ t.tx.toNat + len ≤ t.rx.toNat) →
     (t.premapped = true ∧ rest = s.mapTape ∧
        (∀ i, i < len →
          (t.txPresent = true → s.translate (t.txDma + BitVec.ofNat 32 i) = some (t.tx + BitVec.ofNat 32 i)) ∧
          (t.rxPresent = true → s.translate (t.rxDma + BitVec.ofNat 32 i) = some (t.rx + BitVec.ofNat 32 i))) ∨
      t.premapped = false ∧
        s.mapTape = ((List.range subs).flatMap fun j =>
          (if t.txPresent then [some (txAt j)] else []) ++ (if t.rxPresent then [some (rxAt j)] else [])) ++ rest ∧
        (∀ j, j < subs → let n := min (len - j * most) most
          (t.txPresent = true → (txAt j).toNat + n ≤ 2 ^ 32) ∧ (t.rxPresent = true → (rxAt j).toNat + n ≤ 2 ^ 32) ∧
          (t.txPresent = true → t.rxPresent = true →
            (txAt j).toNat + n ≤ (rxAt j).toNat ∨ (rxAt j).toNat + n ≤ (txAt j).toNat))) →
     ∃ u y ws, exec (.xferDma c) s = .next u ∧ u.ctrlAt c = some y ∧
       u = { s with ctrl := u.ctrl, chan := u.chan, mem := u.mem, draws := u.draws, mapTape := rest,
                    busLog := s.busLog ++ ws } ∧
       (∀ d, d ≠ c → u.ctrlAt d = s.ctrlAt d) ∧
       y = { x with
         errLatch := ⟨false, false, false, false⟩, rxBusy := false, txBusy := false, dmaDone := y.dmaDone
         hw := { x.hw with
           chCfg := { x.hw.chCfg with txchOn := false, rxchOn := false }
           modeCfg := { x.hw.modeCfg with txdmaOn := false, rxdmaOn := false, burst4 := false }
           packetCnt := ⟨0, false⟩, pktRem := 0, shWord := y.hw.shWord, shDefined := y.hw.shDefined }
         seq := { x.seq with
           state := .postDelay, phase := .none, off := len, chunk := y.seq.chunk, deadline := y.seq.deadline
           delayUntil := s.now + t.delayUsecs.toNat, mapTx := none, mapRx := none } } ∧
       (∀ k, (k = x.dmaRx ∨ k = x.dmaTx) →
         (u.chanAt k).lessee = some c ∧ (u.chanAt k).armed = false ∧ (u.chanAt k).notify = false) ∧
       (∀ k, k ≠ x.dmaRx → k ≠ x.dmaTx → u.chanAt k = s.chanAt k) ∧
       ws.length = len / wb ∧
       (∀ k, k < len / wb → ∃ sent got,
         ws[k]? = some (.word x.id (8 * wb) x.hw.chCfg.cpol x.hw.chCfg.cpha x.hw.clkCfg.div sent t.txPresent got) ∧
         (t.txPresent = true →
           x.hw.swapCfg.swapTx (memRead s.mem (t.tx + BitVec.ofNat 32 (k * wb)) wb) wb = some sent) ∧
         got = (if x.hw.modeCfg.loopback then sent
           else truncWord wb (Config.periph x.id x.csHolder wb sent (s.busLog ++ ws.take k))) ∧
         (t.rxPresent = true →
           x.hw.swapCfg.swapRx got wb = some (memRead u.mem (t.rx + BitVec.ofNat 32 (k * wb)) wb))) ∧
       (t.txPresent = true → t.rxPresent = true → x.hw.modeCfg.loopback = true → ∀ i, i < len →
         Memory.read u.mem (t.rx + BitVec.ofNat 32 i) = Memory.read s.mem (t.tx + BitVec.ofNat 32 i)) ∧
       (∀ a : Word, (t.rxPresent = false ∨ a.toNat < t.rx.toNat ∨ t.rx.toNat + len ≤ a.toNat) →
         Memory.read u.mem a = Memory.read s.mem a))

/-! ### The dispatcher -/

/-- R170, R220: a SUBMIT to a present binding that passes every check of R171 and finds the controller not suspended
is queued whole under a fresh tag, behind those that wait; from IDLE with nothing waiting it starts an activation.
Nothing is answered yet and no register is touched. -/
def Obligations.SubmitQueuesMessage : Prop :=
  ∀ (s : State) (c b : Byte) (x : Ctrl) (y : Binding) (ts : List Transfer), s.ctrlAt c = some x →
    x.bindAt b = some y → ts ≠ [] → prevalidate x.srcClk y 0 ts = none → x.suspended = false →
    (let starts : Prop := x.pstate = .idle ∧ x.waitq = [] ∧ x.actWait = false
     (starts → exec (.submit .exact c b ts) s = .next { s.setCtrl c { x with
         waitq := [⟨s.nextTag, b, ts⟩], acqK := 0, acqNext := s.now } with nextTag := s.nextTag + 1 }) ∧
     (¬ starts → exec (.submit .exact c b ts) s = .next { s.setCtrl c { x with
         waitq := x.waitq ++ [⟨s.nextTag, b, ts⟩] } with nextTag := s.nextTag + 1 }))

/-- R171, R172, R243: the first Transfer that fails a check decides a refused SUBMIT's answer, and within it the
first of: no buffer, a range past the top, an illegal width, a length that is no multiple of the word, an unachievable
speed; a passing SUBMIT to a suspended controller is answered ChannelUnavailable(2). An absent controller or binding is
answered BadHandle. Each answer has word 1 = 0 and a zero per Transfer, and nothing else changes. That a pre-mapped
Transfer's device address is checked only where its buffer is present is the model's reading of R171 (log entry 29). -/
def Obligations.SubmitRefusesInOrder : Prop :=
  ∀ (s : State) (c b : Byte) (ts : List Transfer), ts ≠ [] →
    (let refuse (w : Word) : Prop := exec (.submit .exact c b ts) s =
       .next { s with outbox := s.outbox ++ [⟨.issuer, w :: 0#32 :: List.replicate ts.length 0#32⟩] }
     (s.ctrlAt c = none → refuse 0x05030000#32) ∧
     (∀ x, s.ctrlAt c = some x →
       (x.bindAt b = none → refuse 0x05030000#32) ∧
       (∀ y, x.bindAt b = some y →
         (prevalidate x.srcClk y 0 ts = none → x.suspended = true → refuse 0x04010002#32) ∧
         (∀ i t, ts[i]? = some t → (∀ j u, j < i → ts[j]? = some u → checkTransfer x.srcClk y j u = none) →
           let w := if t.width = 0 then y.width else t.width
           let sp := if t.speed = 0 then y.maxSpeed else if t.speed.toNat ≤ y.maxSpeed.toNat then t.speed
             else y.maxSpeed
           let fits (a : Word) : Prop := a.toNat + t.len.toNat ≤ 2 ^ 32
           let c1 : Prop := t.txPresent = true ∨ t.rxPresent = true
           let c2 : Prop := (t.txPresent = true → fits t.tx ∧ (t.premapped = true → fits t.txDma)) ∧
             (t.rxPresent = true → fits t.rx ∧ (t.premapped = true → fits t.rxDma))
           let c3 : Prop := w = 8 ∨ w = 16 ∨ w = 32
           let c4 : Prop := t.len.toNat % (w.toNat / 8) = 0
           let idx := put 0 (BitVec.ofNat 16 i)
           (¬ c1 → refuse 0x05020006#32) ∧
           (c1 → ¬ c2 → refuse 0x05020007#32) ∧
           (c1 → c2 → ¬ c3 → refuse (0x01020000#32 ||| idx)) ∧
           (c1 → c2 → c3 → ¬ c4 → refuse (0x03040000#32 ||| idx)) ∧
           (c1 → c2 → c3 → c4 → rate x.srcClk.toNat sp.toNat = none → refuse (0x01010000#32 ||| idx))))))

/-- R173, R217: SEQ_START takes the waiting entry the schedule picks, whichever it is, and begins its service. With a
Message in service, outside ACTIVE, while suspended or suspending, or with no such entry, it is not enabled and changes
nothing (log entry 2). -/
def Obligations.SeqStartTakesAnyWaiter : Prop :=
  ∀ (s : State) (c : Byte) (x : Ctrl) (pick : Nat), s.ctrlAt c = some x →
    (∀ w : Waiter, x.seq.state = .idle → x.pstate = .active → x.suspended = false → x.waitq[pick]? = some w →
      exec (.seqStart c pick) s = .next (s.setCtrl c { x with
        waitq := x.waitq.eraseIdx pick, owner := some w.tag
        seq := { x.seq with
          b := w.b, msg := w.msg, msgStatus := .pending, xi := 0, off := 0, actual := 0, ncfg := 0, toggle := false,
          err := 0, phase := .none, transport := .none, state := .configuringDevice } })) ∧
    ((x.seq.state ≠ .idle ∨ x.pstate ≠ .active ∨ x.suspended = true ∨ x.waitq.length ≤ pick) →
      exec (.seqStart c pick) s = .next s)

/-- R174, R121: SEQ_CONFIG_DEVICE first releases a select another binding holds, then writes `FB_CLK` with the
Message's binding's delay. -/
def Obligations.SeqConfigDeviceFreesOther : Prop :=
  ∀ (s : State) (c : Byte) (x : Ctrl) (y : Binding), s.ctrlAt c = some x → x.seq.state = .configuringDevice →
    x.bindAt x.seq.b = some y → x.clkOn = true →
    ((x.csHolder = none ∨ x.csHolder = some x.seq.b) → exec (.seqConfigDevice c) s = .next (s.setCtrl c { x with
       hw := { x.hw with fbDelay := y.fbDelay }, seq := { x.seq with state := .selectCs } })) ∧
    (∀ h z, x.csHolder = some h → h ≠ x.seq.b → x.bindAt h = some z →
      (∀ l, z.csMode = .manual → z.line = some l → exec (.seqConfigDevice c) s =
        .next { (s.setLine l (!z.activeLevel)).setCtrl c { x with
            csHolder := none, hw := { x.hw with fbDelay := y.fbDelay }, seq := { x.seq with state := .selectCs } } with
          busLog := s.busLog ++ [.csDeassert x.id h (.line l)] }) ∧
      ((z.csMode = .auto ∨ z.line = none) → exec (.seqConfigDevice c) s =
        .next { s.setCtrl c { x with
            csHolder := none
            hw := { x.hw with fbDelay := y.fbDelay, csReg := { x.hw.csReg with sigInact := true } }
            seq := { x.seq with state := .selectCs } } with
          busLog := s.busLog ++ [.csDeassert x.id h (if z.csMode = .auto then .autoNative else .native)] }))

/-- R175, R124, R120: SEQ_SELECT_CS skips the assertion when the Message's binding already holds the select, so no
event is logged and no line moves; else it asserts. -/
def Obligations.SeqSelectCsSkipsHeldSelect : Prop :=
  ∀ (s : State) (c : Byte) (x : Ctrl) (y : Binding), s.ctrlAt c = some x → x.seq.state = .selectCs →
    x.bindAt x.seq.b = some y →
    (x.csHolder = some x.seq.b → exec (.seqSelectCs c) s = .next (s.setCtrl c { x with
       seq := { x.seq with off := 0, state := .configuring } })) ∧
    (x.csHolder = none → x.clkOn = true →
      (∀ l, y.csMode = .manual → y.line = some l → exec (.seqSelectCs c) s =
        .next { (s.setLine l y.activeLevel).setCtrl c { x with
            csHolder := some x.seq.b, seq := { x.seq with off := 0, state := .configuring } } with
          busLog := s.busLog ++ [.csAssert x.id x.seq.b (.line l)] }) ∧
      ((y.csMode = .auto ∨ y.line = none) → exec (.seqSelectCs c) s =
        .next { s.setCtrl c { x with
            csHolder := some x.seq.b
            hw := { x.hw with csReg := ⟨false, decide (y.csMode = .auto),
              decide (y.csMode = .auto) && y.idleHold, y.activeLevel⟩ }
            seq := { x.seq with off := 0, state := .configuring } } with
          busLog := s.busLog ++ [.csAssert x.id x.seq.b (if y.csMode = .auto then .autoNative else .native)] }))

/-- R176, R104, R105, R177, R101: SEQ_CONFIGURING reprograms the format only where the effective parameters differ
from those in force, writes the achieved speed back to the Transfer, and chooses the transport from the whole length:
none for 0, POLL up to half the FIFO, DMA above. -/
def Obligations.SeqConfiguringChoosesTransport : Prop :=
  ∀ (s : State) (c : Byte) (x : Ctrl) (t : Transfer) (y : Binding), s.ctrlAt c = some x →
    x.seq.state = .configuring → x.transfer = some t → x.bindAt x.seq.b = some y →
    (let sp := if t.speed = 0 then y.maxSpeed else if t.speed.toNat ≤ y.maxSpeed.toNat then t.speed else y.maxSpeed
     let w := if t.width = 0 then y.width else t.width
     let same : Prop := x.cfgValid = true ∧ sp = x.curSpeed ∧ y.mode = x.curMode ∧ w = x.curWidth
     let after (z : Ctrl) : Ctrl := { z with seq := { z.seq with
       msg := z.seq.msg.set z.seq.xi { t with speed := z.curSpeed }
       ncfg := z.seq.xi + 1
       transport := if t.len.toNat = 0 then .none else if t.len.toNat ≤ z.half then .poll else .dma
       phase := if t.len.toNat = 0 then .none else if t.len.toNat ≤ z.half then .pArm else .dMap
       state := if t.len.toNat = 0 then .postDelay else .transporting
       delayUntil := if t.len.toNat = 0 then s.now + t.delayUsecs.toNat else z.seq.delayUntil } }
     (same → exec (.seqConfiguring c) s = .next (s.setCtrl c (after x))) ∧
     (¬ same → (w = 8 ∨ w = 16 ∨ w = 32) → x.clkOn = true → ∀ d a, rate x.srcClk.toNat sp.toNat = some (d, a) →
       exec (.seqConfiguring c) s = .next (s.setCtrl c (after { x with
         hw := { x.hw with
           clkCfg := ⟨BitVec.ofNat 8 d, true⟩
           chCfg := ⟨false, false, y.mode.cpha, y.mode.cpol, false, decide (30000000 ≤ a)⟩
           modeCfg := ⟨false, false, false, y.mode.loop, widthCode w, widthCode w⟩
           swapCfg := swapVal w x.swapByte, txf := [], rxf := [] }
         curSpeed := BitVec.ofNat 32 a, curMode := y.mode, curWidth := w, cfgValid := true }))) ∧
     (¬ same → (w = 8 ∨ w = 16 ∨ w = 32) → rate x.srcClk.toNat sp.toNat = none →
       exec (.seqConfiguring c) s = .next (s.setCtrl c { x with seq := { x.seq with
         err := 0x01010000#32 ||| put 0 (BitVec.ofNat 16 x.seq.xi), phase := .none, state := .failed } })))

/-- R180, R94: SEQ_POST_DELAY waits out the delay and adds the Transfer's length to the Message's count. No rule states
a sum past 32 bits: that the count is then a value nobody determines and everything else is the same is the model's
choice (log entry 11). -/
def Obligations.SeqPostDelayCountsBytes : Prop :=
  ∀ (s : State) (c : Byte) (x : Ctrl) (t : Transfer), s.ctrlAt c = some x → x.seq.state = .postDelay →
    x.transfer = some t →
    (s.now < x.seq.delayUntil → exec (.seqPostDelay c) s = .next s) ∧
    (x.seq.delayUntil ≤ s.now → x.seq.actual.toNat + t.len.toNat < 2 ^ 32 →
      exec (.seqPostDelay c) s = .next (s.setCtrl c { x with seq := { x.seq with
        actual := x.seq.actual + t.len, state := .deselectCs } })) ∧
    (x.seq.delayUntil ≤ s.now → 2 ^ 32 ≤ x.seq.actual.toNat + t.len.toNat →
      ∃ v, exec (.seqPostDelay c) s = .next { s.setCtrl c { x with seq := { x.seq with
        actual := v, state := .deselectCs } } with draws := s.draws + 1 })

/-- R181, R123, R120: SEQ_ADVANCE goes on to the next Transfer or ends the Message. The select stays asserted after a
Transfer that is not the last and has no `cs_change`, and after a last one with `cs_change` (the toggle); it is released
after one that is not the last and has `cs_change`, and after a last one without. Where nothing is held there is nothing
to release. -/
def Obligations.SeqAdvanceLoopsOrEnds : Prop :=
  ∀ (s : State) (c : Byte) (x : Ctrl) (t : Transfer), s.ctrlAt c = some x →
    x.seq.state = .deselectCs → x.transfer = some t →
    (let more : Prop := x.seq.xi + 1 < x.seq.msg.length
     let on (q : Seq) : Seq := { q with xi := q.xi + 1, state := .selectCs }
     let finish (q : Seq) : Seq := { q with state := .completed }
     let keeps (f : Seq → Seq) : Prop := exec (.seqAdvance c) s = .next (s.setCtrl c { x with seq := f x.seq })
     let releases (f : Seq → Seq) : Prop :=
       (x.csHolder = none → keeps f) ∧
       (∀ b y, x.csHolder = some b → x.bindAt b = some y →
         (∀ l, y.csMode = .manual → y.line = some l → exec (.seqAdvance c) s =
           .next { (s.setLine l (!y.activeLevel)).setCtrl c { x with csHolder := none, seq := f x.seq } with
             busLog := s.busLog ++ [.csDeassert x.id b (.line l)] }) ∧
         ((y.csMode = .auto ∨ y.line = none) → x.clkOn = true → exec (.seqAdvance c) s =
           .next { s.setCtrl c { x with
               csHolder := none, hw := { x.hw with csReg := { x.hw.csReg with sigInact := true } }
               seq := f x.seq } with
             busLog := s.busLog ++ [.csDeassert x.id b (if y.csMode = .auto then .autoNative else .native)] }))
     (more → t.csChange = false → keeps on) ∧
     (more → t.csChange = true → releases on) ∧
     (¬ more → t.csChange = true → keeps fun q => { q with toggle := true, state := .completed }) ∧
     (¬ more → t.csChange = false → releases finish))

/-- R182, R184: SEQ_COMPLETE answers the Message's caller with OK, the byte count and every Transfer's achieved
speed, and returns to IDLE. -/
def Obligations.SeqCompleteAnswersCaller : Prop :=
  ∀ (s : State) (c : Byte) (x : Ctrl) (tag : Nat), s.ctrlAt c = some x → x.seq.state = .completed →
    x.owner = some tag →
    exec (.seqComplete c) s = .next { s.setCtrl c { x with
        owner := none, lastActivity := s.now, seq := { x.seq with msgStatus := .success, state := .idle } } with
      outbox := s.outbox ++ [⟨.caller tag, 0#32 :: x.seq.actual :: x.seq.msg.map fun t => t.speed⟩] }

/-- R183, R244, R200, R122, R117, R158: SEQ_FAIL, the one way back from a failure: pending conditions logged, both
channels unarmed, the mappings the engine still owes released, the select released whatever the mode (the line to its
inactive level, or `SIG_INACT`; its event), the engine flushed, the caller answered with the saved status word, the byte
count of the finished Transfers and the speeds of the configured ones, and the sequencer in IDLE. -/
def Obligations.SeqFailRecovers : Prop :=
  ∀ (s : State) (c : Byte) (x : Ctrl) (tag : Nat), s.ctrlAt c = some x → x.seq.state = .failed →
    x.owner = some tag → x.clkOn = true → (∀ b, x.csHolder = some b → (x.bindAt b).isSome = true) →
    ∃ u y h, exec (.seqFail c) s = .next u ∧ u.ctrlAt c = some y ∧
      u = { s with ctrl := u.ctrl, chan := u.chan, csLine := u.csLine, busLog := u.busLog, errLog := u.errLog,
                   maps := x.released s.maps, outbox := u.outbox } ∧
      (∀ d, d ≠ c → u.ctrlAt d = s.ctrlAt d) ∧
      u.outbox = s.outbox ++ [⟨.caller tag, x.seq.err :: x.seq.actual ::
        x.seq.msg.mapIdx fun i t => if i < x.seq.ncfg then t.speed else 0#32⟩] ∧
      u.errLog = s.errLog ++ x.hw.sticky.list.map (fun k => ⟨x.id, k, x.hw.statusWord, s.now⟩) ∧
      y = { x with
        owner := none, lastActivity := s.now, csHolder := none, cfgValid := false
        errLatch := ⟨false, false, false, false⟩, rxBusy := false, txBusy := false, dmaDone := false, hw := h
        seq := { x.seq with
          msgStatus := .error, toggle := false, state := .idle
          mapTx := none, mapRx := none, weMappedTx := false, weMappedRx := false } } ∧
      (h.sticky = ⟨false, false, false, false⟩ ∧ h.txf = [] ∧ h.rxf = [] ∧ h.shBusy = false ∧ h.pktRem = 0 ∧
        h.packetCnt = ⟨0, false⟩ ∧ h.clkCfg = x.hw.clkCfg ∧ h.intEn = x.hw.intEn ∧
        h.chCfg = ⟨false, false, x.hw.chCfg.cpha, x.hw.chCfg.cpol, false, false⟩ ∧
        h.modeCfg = { x.hw.modeCfg with txdmaOn := false, rxdmaOn := false }) ∧
      (∀ k, (k = x.dmaRx ∨ k = x.dmaTx) → (s.chanAt k).lessee = some x.id →
        u.chanAt k = { s.chanAt k with armed := false, rem := 0, notify := false }) ∧
      (∀ k, k ≠ x.dmaRx → k ≠ x.dmaTx → u.chanAt k = s.chanAt k) ∧
      (x.csHolder = none →
        u.busLog = s.busLog ∧ h.csReg = x.hw.csReg ∧ ∀ m, u.lineLevel m = s.lineLevel m) ∧
      (∀ b z, x.csHolder = some b → x.bindAt b = some z →
        (∀ l, z.csMode = .manual → z.line = some l →
          u.busLog = s.busLog ++ [.csDeassert x.id b (.line l)] ∧ h.csReg = x.hw.csReg ∧
          ∀ m, u.lineLevel m = if m = l then !z.activeLevel else s.lineLevel m) ∧
        ((z.csMode = .auto ∨ z.line = none) →
          u.busLog = s.busLog ++ [.csDeassert x.id b (if z.csMode = .auto then .autoNative else .native)] ∧
          h.csReg = { x.hw.csReg with sigInact := true } ∧ ∀ m, u.lineLevel m = s.lineLevel m))

/-! ### Error and recovery -/

/-- R198, R197, R241: ERR_ACK logs the conditions set, in the order RX_OVERRUN, RX_UNDERRUN, TX_OVERRUN, TX_UNDERRUN,
each with the one STATUS value read, latches them and clears them; ERR_IRQ does the same exactly when a condition is
pending and enabled with the clocks running, and is otherwise not enabled and changes nothing (the model's choice, log
entry 2). ERR_ACK with the clocks gated is a fault of the model (R80, U7; log entry 21). -/
def Obligations.ErrorAcknowledge : Prop :=
  ∀ (s : State) (c : Byte) (x : Ctrl), s.ctrlAt c = some x →
    (let acked : Out := .next { s.setCtrl c { x with
         errLatch := ⟨x.errLatch.rxOverrun || x.hw.sticky.rxOverrun, x.errLatch.rxUnderrun || x.hw.sticky.rxUnderrun,
           x.errLatch.txOverrun || x.hw.sticky.txOverrun, x.errLatch.txUnderrun || x.hw.sticky.txUnderrun⟩
         hw := { x.hw with pendingClr := ⟨false, false, false, false⟩, sticky := ⟨false, false, false, false⟩ } } with
       errLog := s.errLog ++ (([Cond.rxOverrun, .rxUnderrun, .txOverrun, .txUnderrun].filter fun k =>
         x.hw.sticky.has k).map fun k => ⟨x.id, k, x.hw.statusWord, s.now⟩) }
     let pending : Prop := (x.hw.sticky.rxOverrun && x.hw.intEn.rxOverrun) ||
       (x.hw.sticky.rxUnderrun && x.hw.intEn.rxUnderrun) ||
       (x.hw.sticky.txOverrun && x.hw.intEn.txOverrun) || (x.hw.sticky.txUnderrun && x.hw.intEn.txUnderrun)
     (x.clkOn = true → exec (.errAck c) s = acked) ∧
     (x.clkOn = false → exec (.errAck c) s = .fault .registerAccessClockOff) ∧
     (x.clkOn = true → pending → exec (.errIrq c) s = acked) ∧
     (¬ (x.clkOn = true ∧ pending) → exec (.errIrq c) s = .next s))

/-- R200: FLUSH_OP from any contents: the channel enables, the software-reset and the high-speed bit, the packet
counter, the DMA-mode bits, both FIFOs and the serial engine are cleared, the configuration is marked stale, the latch
emptied, and nothing else changes. -/
def Obligations.FlushOpClearsEngine : Prop :=
  ∀ (s : State) (c : Byte) (x : Ctrl), s.ctrlAt c = some x → x.clkOn = true →
    exec (.flushOp c) s = .next (s.setCtrl c { x with
      cfgValid := false, errLatch := ⟨false, false, false, false⟩
      hw := { x.hw with
        chCfg := ⟨false, false, x.hw.chCfg.cpha, x.hw.chCfg.cpol, false, false⟩
        packetCnt := ⟨0, false⟩, pktRem := 0, txf := [], rxf := [], shBusy := false
        modeCfg := { x.hw.modeCfg with txdmaOn := false, rxdmaOn := false } } })

/-- R202: a second flush right after the first leaves the same state; it finds `rxf` empty, the configuration stale
and the latch empty. -/
def Obligations.FlushIsIdempotent : Prop :=
  (∀ h : Hw, h.flush.flush = h.flush) ∧
  (∀ (s u : State) (c : Byte) (x : Ctrl), s.ctrlAt c = some x → exec (.flushOp c) s = .next u →
    exec (.flushOp c) u = .next u ∧
    ∃ y, u.ctrlAt c = some y ∧ y.hw.rxf = [] ∧ y.cfgValid = false ∧ y.errLatch = ⟨false, false, false, false⟩)

/-- R201: FLUSH is Malformed(1 or 2) in an ill-formed packet, BadHandle without the controller, Busy while a Message
is in service or waits, WrongState outside ACTIVE, and else flushes and answers OK; a held select stays held. -/
def Obligations.FlushCommand : Prop :=
  ∀ (s : State) (c : Byte),
    (∀ f w, (f = .mbzNonzero ∧ w = 0x05020001#32 ∨ f = .wrongLength ∧ w = 0x05020002#32) →
      exec (.flush f c) s = .next { s with outbox := s.outbox ++ [⟨.issuer, [w, 0#32]⟩] }) ∧
    (s.ctrlAt c = none → exec (.flush .exact c) s =
      .next { s with outbox := s.outbox ++ [⟨.issuer, [0x05030000#32, 0#32]⟩] }) ∧
    (∀ x, s.ctrlAt c = some x →
      ((x.seq.state ≠ .idle ∨ x.waitq ≠ []) → exec (.flush .exact c) s =
        .next { s with outbox := s.outbox ++ [⟨.issuer, [0x05040000#32, 0#32]⟩] }) ∧
      (x.seq.state = .idle → x.waitq = [] → x.pstate ≠ .active → exec (.flush .exact c) s =
        .next { s with outbox := s.outbox ++
          [⟨.issuer, [if x.pstate = .idle then 0x05050001#32 else 0x05050002#32, 0#32]⟩] }) ∧
      (x.seq.state = .idle → x.waitq = [] → x.pstate = .active → x.clkOn = true → exec (.flush .exact c) s =
        .next { s.setCtrl c { x with
            cfgValid := false, errLatch := ⟨false, false, false, false⟩
            hw := { x.hw with
              chCfg := ⟨false, false, x.hw.chCfg.cpha, x.hw.chCfg.cpol, false, false⟩
              packetCnt := ⟨0, false⟩, pktRem := 0, txf := [], rxf := [], shBusy := false
              modeCfg := { x.hw.modeCfg with txdmaOn := false, rxdmaOn := false } } } with
          outbox := s.outbox ++ [⟨.issuer, [0#32, 0#32]⟩] }))

/-! ### Power and lifecycle -/

/-- R212, R262: HW_INIT ends in one register state from every contents, `draw` values included; STATUS then reads
0x02000000. -/
def Obligations.HwInitGivesDefaults : Prop :=
  ∀ (s : State) (c : Byte) (x : Ctrl), s.ctrlAt c = some x → x.clkOn = true →
    ∃ h, exec (.hwInit c) s = .next (s.setCtrl c { x with
        cfgValid := false, errLatch := ⟨false, false, false, false⟩, hw := h }) ∧
      h.regRead .chCfg 4 = some 0#32 ∧ h.regRead .clkCfg 4 = some 0#32 ∧ h.regRead .modeCfg 4 = some 0#32 ∧
      h.regRead .csReg 4 = some 1#32 ∧ h.regRead .intEn 4 = some 0x3C#32 ∧
      h.regRead .status 4 = some 0x02000000#32 ∧ h.regRead .packetCnt 4 = some 0#32 ∧
      h.regRead .pendingClr 4 = some 0#32 ∧ h.regRead .swapCfg 4 = some 0#32 ∧ h.regRead .fbClk 4 = some 0#32 ∧
      h.txf = [] ∧ h.rxf = [] ∧ h.pktRem = 0 ∧ h.shBusy = false

/-- R210, R261, R262: NEW's checks in their order, each answered with nothing changed; and the controller it makes:
every context and sequencer register as R261 says, every register and FIFO of the serial engine as HW_INIT leaves it
(R262). -/
def Obligations.NewMakesController : Prop :=
  ∀ (s : State) (c : Byte) (a : NewArgs),
    (let refuse (w : Word) : Prop :=
       exec (.new .exact c a) s = .next { s with outbox := s.outbox ++ [⟨.issuer, [w, 0#32]⟩] }
     let inUse : Prop := ∃ x, s.ctrlAt c = some x
     let badBase : Prop := a.base.toNat % 4 ≠ 0 ∨ 2 ^ 32 < a.base.toNat + 48 ∨
       ∃ p ∈ s.ctrl, a.base.toNat < p.2.base.toNat + 48 ∧ p.2.base.toNat < a.base.toNat + 48
     let badDepth : Prop := a.fifoDepth.toNat % 16 ≠ 0 ∨ a.fifoDepth.toNat < 16 ∨ 256 < a.fifoDepth.toNat
     (inUse → refuse 0x05020008#32) ∧
     (¬ inUse → badBase → refuse 0x05020009#32) ∧
     (¬ inUse → ¬ badBase → a.sourceClock = 0 → refuse 0x0502000A#32) ∧
     (¬ inUse → ¬ badBase → a.sourceClock ≠ 0 → badDepth → refuse 0x0502000B#32) ∧
     (¬ inUse → ¬ badBase → a.sourceClock ≠ 0 → ¬ badDepth → a.dmaRx = a.dmaTx → refuse 0x0502000C#32) ∧
     (¬ inUse → ¬ badBase → a.sourceClock ≠ 0 → ¬ badDepth → a.dmaRx ≠ a.dmaTx →
       ∃ u x, exec (.new .exact c a) s = .next u ∧ u.ctrlAt c = some x ∧
         (∀ d, d ≠ c → u.ctrlAt d = s.ctrlAt d) ∧
         u = { s with ctrl := u.ctrl, draws := u.draws, outbox := s.outbox ++ [⟨.issuer, [0#32, 0#32]⟩] } ∧
         x.id = c ∧ x.base = a.base ∧ x.srcClk = a.sourceClock ∧ x.fifoDepth = a.fifoDepth.toNat ∧
         x.half = a.fifoDepth.toNat / 2 ∧ x.dmaRx = a.dmaRx ∧ x.dmaTx = a.dmaTx ∧ x.needsReinit = a.needsReinit ∧
         x.autosuspendMs = a.autosuspendMs.toNat ∧ x.swapByte = a.swapByte ∧ x.curSpeed = 0 ∧
         x.curMode = ⟨false, false, false⟩ ∧ x.curWidth = 8 ∧ x.cfgValid = false ∧ x.rxCh = false ∧ x.txCh = false ∧
         x.owner = none ∧ x.csHolder = none ∧ x.waitq = [] ∧ x.rxBusy = false ∧ x.txBusy = false ∧
         x.dmaDone = false ∧ x.errLatch = ⟨false, false, false, false⟩ ∧ x.suspended = false ∧ x.secure = false ∧
         x.actWait = false ∧ x.pstate = .idle ∧ x.clkOn = false ∧ x.lastActivity = s.now ∧ x.acqK = 0 ∧
         x.acqNext = 0 ∧ (∀ b, x.bindAt b = none) ∧
         x.seq = {
           state := .idle, phase := .none, xi := 0, off := 0, chunk := 0, transport := .none, deadline := 0
           delayUntil := 0, actual := 0, ncfg := 0, toggle := false, err := 0, mapTx := none, mapRx := none
           weMappedTx := false, weMappedRx := false
           b := 0, msg := [], msgStatus := .none } ∧
         x.hw = {
           chCfg := ⟨false, false, false, false, false, false⟩, clkCfg := ⟨0, false⟩
           modeCfg := ⟨false, false, false, false, 0, 0⟩, csReg := ⟨true, false, false, false⟩
           intEn := ⟨true, true, true, true⟩, sticky := ⟨false, false, false, false⟩, packetCnt := ⟨0, false⟩
           pendingClr := ⟨false, false, false, false⟩, swapCfg := ⟨false, false, false, false, false, false⟩
           fbDelay := 0, txf := [], rxf := [], pktRem := 0, shBusy := false
           shWord := x.hw.shWord, shDefined := x.hw.shDefined } ∧
         x.hw.statusWord = 0x02000000#32 ∧ x.nss = true))

/-- R211, R117: DESTROY is Malformed(1 or 2) in an ill-formed packet, BadHandle without the controller and Busy while
it is in use, and else releases a held select, frees the channels it leases, removes the controller and answers OK. Its
bindings go with it: every binding left, of which BIND looks for the line ids in use (R106), is another controller's. -/
def Obligations.DestroyRemovesController : Prop :=
  ∀ (s : State) (c : Byte),
    (∀ f w, (f = .mbzNonzero ∧ w = 0x05020001#32 ∨ f = .wrongLength ∧ w = 0x05020002#32) →
      exec (.destroy f c) s = .next { s with outbox := s.outbox ++ [⟨.issuer, [w, 0#32]⟩] }) ∧
    (s.ctrlAt c = none → exec (.destroy .exact c) s =
      .next { s with outbox := s.outbox ++ [⟨.issuer, [0x05030000#32, 0#32]⟩] }) ∧
    (∀ x, s.ctrlAt c = some x →
      let busy : Prop := x.seq.state ≠ .idle ∨ x.waitq ≠ [] ∨ x.actWait = true ∨
        (x.suspended = true ∧ x.pstate ≠ .suspended)
      (busy → exec (.destroy .exact c) s =
        .next { s with outbox := s.outbox ++ [⟨.issuer, [0x05040000#32, 0#32]⟩] }) ∧
      (¬ busy → ∃ u, exec (.destroy .exact c) s = .next u ∧ u.ctrlAt c = none ∧
        u = { s with ctrl := u.ctrl, chan := u.chan, csLine := u.csLine, busLog := u.busLog,
                     outbox := s.outbox ++ [⟨.issuer, [0#32, 0#32]⟩] } ∧
        (∀ d, d ≠ c → u.ctrlAt d = s.ctrlAt d) ∧ (∀ p ∈ u.ctrl, p.1 ≠ c.toNat ∧ p ∈ s.ctrl) ∧
        (∀ k, u.chanAt k = if (k = x.dmaRx ∨ k = x.dmaTx) ∧ (s.chanAt k).lessee = some c then
          { s.chanAt k with lessee := none } else s.chanAt k) ∧
        (x.csHolder = none → u.busLog = s.busLog ∧ ∀ l, u.lineLevel l = s.lineLevel l) ∧
        (∀ b y l, x.csHolder = some b → x.bindAt b = some y → y.csMode = .manual → y.line = some l →
          u.busLog = s.busLog ++ [.csDeassert x.id b (.line l)] ∧
          ∀ m, u.lineLevel m = if m = l then !y.activeLevel else s.lineLevel m) ∧
        (∀ b y, x.csHolder = some b → x.bindAt b = some y → (y.csMode = .auto ∨ y.line = none) →
          u.busLog = s.busLog ++ [.csDeassert x.id b (if y.csMode = .auto then .autoNative else .native)] ∧
          ∀ m, u.lineLevel m = s.lineLevel m)))

/-- R214, R221: ON_IDLE in each situation: Malformed(1 or 2) in an ill-formed packet, BadHandle without the
controller, OK where already IDLE, WrongState(2) in SUSPENDED, Busy while in use,
suspending or within the quiescent delay, and else the leases are freed and the clocks gated. -/
def Obligations.OnIdleGatesClocks : Prop :=
  ∀ (s : State) (c : Byte),
    (∀ f w, (f = .mbzNonzero ∧ w = 0x05020001#32 ∨ f = .wrongLength ∧ w = 0x05020002#32) →
      exec (.onIdle f c) s = .next { s with outbox := s.outbox ++ [⟨.issuer, [w, 0#32]⟩] }) ∧
    (s.ctrlAt c = none → exec (.onIdle .exact c) s =
      .next { s with outbox := s.outbox ++ [⟨.issuer, [0x05030000#32, 0#32]⟩] }) ∧
    ∀ x, s.ctrlAt c = some x →
    (let answer (w : Word) : Prop :=
       exec (.onIdle .exact c) s = .next { s with outbox := s.outbox ++ [⟨.issuer, [w, 0#32]⟩] }
     let inUse : Prop := x.seq.state ≠ .idle ∨ x.waitq ≠ [] ∨ x.suspended = true
     (x.pstate = .idle → x.suspended = false → answer 0#32) ∧
     (x.pstate = .suspended → answer 0x05050002#32) ∧
     (x.pstate ≠ .suspended → ¬ (x.pstate = .idle ∧ x.suspended = false) → inUse → answer 0x05040000#32) ∧
     (x.pstate = .active → ¬ inUse → s.now - x.lastActivity < 1000 * x.autosuspendMs → answer 0x05040000#32) ∧
     (x.pstate = .active → ¬ inUse → 1000 * x.autosuspendMs ≤ s.now - x.lastActivity →
       ∃ u, exec (.onIdle .exact c) s = .next u ∧
         u = { s.setCtrl c { x with
             rxCh := false, txCh := false, clkOn := false, nssHeld := x.hw.nss, pstate := .idle } with
           chan := u.chan, outbox := s.outbox ++ [⟨.issuer, [0#32, 0#32]⟩] } ∧
         ∀ k, u.chanAt k = if k = x.dmaRx ∨ k = x.dmaTx then { s.chanAt k with lessee := none } else s.chanAt k))

/-- R215, R220: ON_ACTIVE is Malformed(1 or 2) in an ill-formed packet, BadHandle without the controller,
WrongState(2) when suspended or suspending, OK in ACTIVE, Busy where one already waits, and else waits, starting an
activation where none is in progress; its response comes later. -/
def Obligations.OnActiveStartsActivation : Prop :=
  ∀ (s : State) (c : Byte),
    (∀ f w, (f = .mbzNonzero ∧ w = 0x05020001#32 ∨ f = .wrongLength ∧ w = 0x05020002#32) →
      exec (.onActive f c) s = .next { s with outbox := s.outbox ++ [⟨.issuer, [w, 0#32]⟩] }) ∧
    (s.ctrlAt c = none → exec (.onActive .exact c) s =
      .next { s with outbox := s.outbox ++ [⟨.issuer, [0x05030000#32, 0#32]⟩] }) ∧
    ∀ x, s.ctrlAt c = some x →
    (let answer (w : Word) : Prop :=
       exec (.onActive .exact c) s = .next { s with outbox := s.outbox ++ [⟨.issuer, [w, 0#32]⟩] }
     (x.suspended = true → answer 0x05050002#32) ∧
     (x.suspended = false → x.pstate = .active → answer 0#32) ∧
     (x.suspended = false → x.pstate ≠ .active → x.actWait = true → answer 0x05040000#32) ∧
     (x.suspended = false → x.pstate ≠ .active → x.actWait = false → x.waitq = [] →
       exec (.onActive .exact c) s = .next (s.setCtrl c { x with acqK := 0, acqNext := s.now, actWait := true })) ∧
     (x.suspended = false → x.pstate ≠ .active → x.actWait = false → x.waitq ≠ [] →
       exec (.onActive .exact c) s = .next (s.setCtrl c { x with actWait := true })))

/-- R216, R217: ACQ_ATTEMPT leases both channels or neither. With both free the controller becomes ACTIVE with its
clocks on and a waiting ON_ACTIVE is answered OK; else it tries again after the backoff, up to the retry limit; then it
gives up, answering the ON_ACTIVE and every waiting caller ChannelUnavailable(1), and stays IDLE. Outside IDLE, while
suspending, with a Message in service, with nothing that waits for an activation, or before the backoff is over, it
changes nothing (log entry 2). The retry counter has 8 bits (R13), and no rule states one more than 255: that it is then
a value nobody determines is the model's choice (log entry 23). -/
def Obligations.AcquisitionTakesBothOrNeither : Prop :=
  ∀ (s : State) (c : Byte) (x : Ctrl), s.ctrlAt c = some x → x.id = c →
    (let free : Prop := (s.chanAt x.dmaRx).lessee = none ∧ (s.chanAt x.dmaTx).lessee = none
     let told (w : Word) : List Response := if x.actWait then [⟨.onActive c, [w, 0#32]⟩] else []
     let enabled : Prop := x.pstate = .idle ∧ x.suspended = false ∧ x.seq.state = .idle ∧
       (x.waitq ≠ [] ∨ x.actWait = true) ∧ x.acqNext ≤ s.now
     (enabled → x.dmaRx ≠ x.dmaTx → free → ∃ u, exec (.acqAttempt c) s = .next u ∧
       u = { s.setCtrl c { x with
           rxCh := true, txCh := true, clkOn := true, pstate := .active, lastActivity := s.now, acqK := 0,
           actWait := false } with chan := u.chan, outbox := s.outbox ++ told 0#32 } ∧
       ∀ k, u.chanAt k = if k = x.dmaRx ∨ k = x.dmaTx then { s.chanAt k with lessee := some c } else s.chanAt k) ∧
     (enabled → ¬ free → x.acqK.toNat < s.params.acqRetryMax → x.acqK.toNat < 255 →
       exec (.acqAttempt c) s = .next (s.setCtrl c { x with
         acqK := x.acqK + 1, acqNext := s.now + (s.params.acqBackoffLessOne + 1) })) ∧
     (enabled → ¬ free → x.acqK.toNat < s.params.acqRetryMax → x.acqK = 255 →
       ∃ v, exec (.acqAttempt c) s = .next { s.setCtrl c { x with
         acqK := v, acqNext := s.now + (s.params.acqBackoffLessOne + 1) } with draws := s.draws + 1 }) ∧
     (enabled → ¬ free → s.params.acqRetryMax ≤ x.acqK.toNat → exec (.acqAttempt c) s = .next { s.setCtrl c { x with
         acqK := 0, acqNext := s.now, actWait := false, waitq := [] } with
       outbox := s.outbox ++ told 0x04010001#32 ++ x.waitq.map fun w =>
         ⟨.caller w.tag, 0x04010001#32 :: 0#32 :: List.replicate w.msg.length 0#32⟩ }) ∧
     (¬ enabled → exec (.acqAttempt c) s = .next s))

/-- R217, R172: ON_SUSPEND is Malformed(1 or 2) in an ill-formed packet and BadHandle without the controller; it raises
the suspended flag at once, answers WrongState(2) where it is up already, and is answered by SUSPEND_FINISH, which, with
the sequencer IDLE, fails every waiting caller and a waiting ON_ACTIVE with ChannelUnavailable(2), frees the leases and
gates the clocks of an ACTIVE controller, and enters SUSPENDED. Without the flag, in SUSPENDED, or with a Message in
service, SUSPEND_FINISH changes nothing (log entry 2). -/
def Obligations.SuspendFailsWaiters : Prop :=
  ∀ (s : State) (c : Byte),
    (∀ f w, (f = .mbzNonzero ∧ w = 0x05020001#32 ∨ f = .wrongLength ∧ w = 0x05020002#32) →
      exec (.onSuspend f c) s = .next { s with outbox := s.outbox ++ [⟨.issuer, [w, 0#32]⟩] }) ∧
    (s.ctrlAt c = none → exec (.onSuspend .exact c) s =
      .next { s with outbox := s.outbox ++ [⟨.issuer, [0x05030000#32, 0#32]⟩] }) ∧
    ∀ x, s.ctrlAt c = some x →
    (x.suspended = true → exec (.onSuspend .exact c) s =
      .next { s with outbox := s.outbox ++ [⟨.issuer, [0x05050002#32, 0#32]⟩] }) ∧
    (x.suspended = false → exec (.onSuspend .exact c) s = .next (s.setCtrl c { x with suspended := true })) ∧
    (x.id = c → x.suspended = true → x.pstate ≠ .suspended → x.seq.state = .idle →
      ∃ u, exec (.suspendFinish c) s = .next u ∧
        u = { s.setCtrl c (if x.pstate = .active then { x with
              waitq := [], actWait := false, acqK := 0, pstate := .suspended
              rxCh := false, txCh := false, clkOn := false, nssHeld := x.hw.nss }
            else { x with waitq := [], actWait := false, acqK := 0, pstate := .suspended }) with
          chan := u.chan
          outbox := s.outbox ++ (x.waitq.map fun w =>
              ⟨.caller w.tag, 0x04010002#32 :: 0#32 :: List.replicate w.msg.length 0#32⟩) ++
            (if x.actWait then [⟨.onActive c, [0x04010002#32, 0#32]⟩] else []) ++ [⟨.onSuspend c, [0#32, 0#32]⟩] } ∧
        ∀ k, u.chanAt k = if x.pstate = .active ∧ (k = x.dmaRx ∨ k = x.dmaTx) then
          { s.chanAt k with lessee := none } else s.chanAt k) ∧
    ((x.suspended = false ∨ x.pstate = .suspended ∨ x.seq.state ≠ .idle) → exec (.suspendFinish c) s = .next s)

/-- R218, R226, R263: ON_RESUME is Malformed(1 or 2) in an ill-formed packet, BadHandle without the controller and
WrongState outside SUSPENDED; else a secure controller's registers are left alone, a marked one's become the defaults of
HW_INIT, and any other's `CS_REG` gets `SIG_INACT`; every bound line goes inactive, the held select is forgotten with
its event, and the controller is IDLE with its configuration stale. A marked, not secure controller is then as R261 says
but for the bindings, the configuration registers and `last_activity` (R263, of every state that R38 and R213 describe);
that ON_RESUME writes the values which R218's steps do not list is read from R263 (log entry 31). Where a Message is in
service or a phase stands, which no run reaches in SUSPENDED, the sequencer is left alone (log entry 20). -/
def Obligations.OnResumeRestores : Prop :=
  ∀ (s : State) (c : Byte),
    (∀ f w, (f = .mbzNonzero ∧ w = 0x05020001#32 ∨ f = .wrongLength ∧ w = 0x05020002#32) →
      exec (.onResume f c) s = .next { s with outbox := s.outbox ++ [⟨.issuer, [w, 0#32]⟩] }) ∧
    (s.ctrlAt c = none → exec (.onResume .exact c) s =
      .next { s with outbox := s.outbox ++ [⟨.issuer, [0x05030000#32, 0#32]⟩] }) ∧
    ∀ x, s.ctrlAt c = some x →
    (x.pstate = .active → exec (.onResume .exact c) s =
      .next { s with outbox := s.outbox ++ [⟨.issuer, [0x05050000#32, 0#32]⟩] }) ∧
    (x.pstate = .idle → exec (.onResume .exact c) s =
      .next { s with outbox := s.outbox ++ [⟨.issuer, [0x05050001#32, 0#32]⟩] }) ∧
    (x.pstate = .suspended → x.clkOn = false → ∃ u y, exec (.onResume .exact c) s = .next u ∧ u.ctrlAt c = some y ∧
      u = { s with ctrl := u.ctrl, csLine := u.csLine, busLog := u.busLog,
                   outbox := s.outbox ++ [⟨.issuer, [0#32, 0#32]⟩] } ∧
      (∀ d, d ≠ c → u.ctrlAt d = s.ctrlAt d) ∧
      (x.secure = true ∨ x.needsReinit = false → y = { x with
        hw := y.hw, nssHeld := y.nssHeld, cfgValid := false, csHolder := none
        suspended := false, pstate := .idle, lastActivity := s.now }) ∧
      (x.secure = true → y.hw = x.hw) ∧
      (x.secure = false → x.needsReinit = false → y.hw = { x.hw with csReg := { x.hw.csReg with sigInact := true } }) ∧
      (x.secure = false → x.needsReinit = true →
        y = { x with
          hw := y.hw, nssHeld := y.nssHeld, errLatch := ⟨false, false, false, false⟩, cfgValid := false
          csHolder := none, suspended := false, pstate := .idle, lastActivity := s.now, curSpeed := 0
          curMode := ⟨false, false, false⟩, curWidth := 8, dmaDone := false, acqNext := 0, seq := y.seq } ∧
        (¬ (x.seq.state = .idle ∧ x.seq.phase = .none) → y.seq = x.seq) ∧
        (x.seq.state = .idle → x.seq.phase = .none → y.seq = {
          state := .idle, phase := .none, xi := 0, off := 0, chunk := 0, transport := .none, deadline := 0
          delayUntil := 0, actual := 0, ncfg := 0, toggle := false, err := 0, mapTx := none, mapRx := none
          weMappedTx := false, weMappedRx := false, b := 0, msg := [], msgStatus := .none }) ∧
        (s.ownersRight → s.clocksRight → s.leasesRight → s.busyRight → s.restRight →
          y.seq.state = .idle ∧ y.seq.phase = .none ∧ y.seq.msg = [] ∧ y.rxCh = false ∧ y.txCh = false ∧
          y.owner = none ∧ y.waitq = [] ∧ y.rxBusy = false ∧ y.txBusy = false ∧ y.actWait = false ∧ y.acqK = 0 ∧
          y.nss = true)) ∧
      (x.secure = false → x.needsReinit = true → y.hw = {
          chCfg := ⟨false, false, false, false, false, false⟩, clkCfg := ⟨0, false⟩
          modeCfg := ⟨false, false, false, false, 0, 0⟩, csReg := ⟨true, false, false, false⟩
          intEn := ⟨true, true, true, true⟩, sticky := ⟨false, false, false, false⟩, packetCnt := ⟨0, false⟩
          pendingClr := ⟨false, false, false, false⟩, swapCfg := ⟨false, false, false, false, false, false⟩
          fbDelay := 0, txf := [], rxf := [], pktRem := 0, shBusy := false
          shWord := x.hw.shWord, shDefined := x.hw.shDefined } ∧ y.hw.statusWord = 0x02000000#32) ∧
      y.nssHeld = (if x.secure then x.nssHeld else y.hw.nss) ∧
      (∀ l, (∀ p ∈ x.bind, p.2.line ≠ some l) → u.lineLevel l = s.lineLevel l) ∧
      (∀ p ∈ x.bind, ∀ l, p.2.line = some l → (∀ q ∈ x.bind, q.2.line = some l → q = p) →
        u.lineLevel l = !p.2.activeLevel) ∧
      (x.csHolder = none → u.busLog = s.busLog) ∧
      (∀ b z, x.csHolder = some b → x.bindAt b = some z →
        u.busLog = s.busLog ++ [.csDeassert x.id b (bindingSite z)]))

/-- R219: POWER_LOSS of a suspended, marked controller may leave anything in the serial engine that its FIFOs can
hold, and changes nothing else. Otherwise it is not enabled, and that it then changes nothing is the model's choice
(log entry 2). -/
def Obligations.PowerLossForgetsEngine : Prop :=
  ∀ (s : State) (c : Byte) (x : Ctrl), s.ctrlAt c = some x →
    (x.pstate = .suspended → x.needsReinit = true → ∃ h n, exec (.powerLoss c) s =
        .next { s.setCtrl c { x with hw := h } with draws := s.draws + n } ∧
      h.txf.length ≤ x.fifoDepth ∧ h.rxf.length ≤ x.fifoDepth) ∧
    (¬ (x.pstate = .suspended ∧ x.needsReinit = true) → exec (.powerLoss c) s = .next s)

/-! ### Whole-machine rules -/

/-- R80, U7, U8, D1: what can stop. No instruction is refused; only the accesses of DMA channels stop on an unmapped
address; and from a state that R38 item 4 describes, no instruction a rule schedules touches a register with the
clocks gated. A step of the sequencer, or a composite, asked for in another state or phase than its own (R173 to R183,
R186) does not stop: it changes nothing (the model's choice, log entry 2). -/
def Obligations.OnlyNamedStops : Prop :=
  (∀ (i : Instr) (s : State) (r : Refusal), exec i s ≠ .refused r) ∧
  (∀ (i : Instr) (s : State), exec i s = .fault .deviceAccessUnmapped →
    (∃ k, i = .dmaTxBeat k) ∨ (∃ k, i = .dmaRxBeat k) ∨ (∃ c, i = .xferDma c)) ∧
  (∀ (i : Instr) (s : State), s.clocksRight → microOp i = false → exec i s ≠ .fault .registerAccessClockOff) ∧
  (∀ (s : State) (c : Byte) (x : Ctrl), s.ctrlAt c = some x →
    (let idle (i : Instr) : Prop := exec i s = .next s
     let inPhase (p : Phase) : Prop := x.seq.state = .transporting ∧ x.seq.phase = p
     (x.seq.state ≠ .configuringDevice → idle (.seqConfigDevice c)) ∧
     (x.seq.state ≠ .selectCs → idle (.seqSelectCs c)) ∧ (x.seq.state ≠ .configuring → idle (.seqConfiguring c)) ∧
     (¬ inPhase .pArm → idle (.pArm c)) ∧ (¬ inPhase .pPoll → idle (.pPoll c)) ∧ (¬ inPhase .pDrain → idle (.pDrain c)) ∧
     (¬ inPhase .dMap → idle (.dMap c)) ∧ (¬ inPhase .dArm → idle (.dArm c)) ∧ (¬ inPhase .dWait → idle (.dWait c)) ∧
     (¬ inPhase .dTxdrain → idle (.dTxdrain c)) ∧
     (¬ (inPhase .pArm ∨ inPhase .pPoll ∨ inPhase .pDrain) → idle (.xferPoll c)) ∧
     (¬ (inPhase .dMap ∨ inPhase .dArm ∨ inPhase .dWait ∨ inPhase .dTxdrain) → idle (.xferDma c)) ∧
     (x.seq.state ≠ .postDelay → idle (.seqPostDelay c)) ∧ (x.seq.state ≠ .deselectCs → idle (.seqAdvance c)) ∧
     (x.seq.state ≠ .completed → idle (.seqComplete c)) ∧ (x.seq.state ≠ .failed → idle (.seqFail c))))

/-- R186, R213: whatever the instruction, the sequencer of a controller moves only by the step of its row of R186's
table, and as that row says: between states, between the phases of TRANSPORTING, into them and out of them; a composite
takes several rows of its own transport (R136, R160). Its power state moves only as R213 says, each transition by the
one step R213 names. -/
def Obligations.TransitionsFollowTables : Prop :=
  ∀ (i : Instr) (s u : State) (c : Byte) (x y : Ctrl), exec i s = .next u → s.ctrlAt c = some x →
    u.ctrlAt c = some y →
    (let oneStep : Prop := i ≠ .xferPoll c ∧ i ≠ .xferDma c
     ((x.seq.state ≠ y.seq.state ∨ x.seq.phase ≠ y.seq.phase) → rowStep c x.seq.state x.seq.phase i) ∧
     x.seq.state.mayBecome y.seq.state = true ∧
     (x.seq.state = .transporting → y.seq.state = .transporting →
       x.seq.phase.isPoll = y.seq.phase.isPoll ∧ x.seq.phase.isDma = y.seq.phase.isDma ∧
       (oneStep → x.seq.phase.mayBecome y.seq.phase = true)) ∧
     (x.seq.state = .transporting → y.seq.state ≠ .transporting →
       y.seq.phase = .none ∧ (oneStep → x.seq.phase.mayEndIn y.seq.state = true)) ∧
     (x.seq.state ≠ .transporting → y.seq.state = .transporting → y.seq.phase = .pArm ∨ y.seq.phase = .dMap) ∧
     x.pstate.mayBecome y.pstate = true ∧
     (x.pstate = .idle → y.pstate = .active → i = .acqAttempt c) ∧
     (x.pstate = .active → y.pstate = .idle → i = .onIdle .exact c) ∧
     (x.pstate ≠ .suspended → y.pstate = .suspended → i = .suspendFinish c) ∧
     (x.pstate = .suspended → y.pstate ≠ .suspended → i = .onResume .exact c))

/-- R12, R11, R115, R91: no instruction changes a configuration register of a controller that stands before and after
it, an instruction leaves every controller but the one it works on exactly as it was (XFER_DMA where the leases and the
clocks are as R38 says, since its channels work for whoever leases them), and the native select output of a controller
whose clocks are gated keeps the level it had when they were (ON_RESUME alone runs the clocks in between). -/
def Obligations.ControllersChangeOnlyAsNamed : Prop :=
  (∀ (i : Instr) (s u : State) (c : Byte) (x y : Ctrl), exec i s = .next u → s.ctrlAt c = some x →
    u.ctrlAt c = some y →
    y.id = x.id ∧ y.base = x.base ∧ y.srcClk = x.srcClk ∧ y.fifoDepth = x.fifoDepth ∧ y.half = x.half ∧
    y.dmaRx = x.dmaRx ∧ y.dmaTx = x.dmaTx ∧ y.needsReinit = x.needsReinit ∧ y.autosuspendMs = x.autosuspendMs ∧
    y.swapByte = x.swapByte) ∧
  (∀ (i : Instr) (s u : State) (d : Byte), exec i s = .next u →
    ((∀ c, i ≠ .xferDma c) ∨ s.leasesRight ∧ s.clocksRight) → target s i ≠ some d → u.ctrlAt d = s.ctrlAt d) ∧
  (∀ (i : Instr) (s u : State) (c : Byte) (x y : Ctrl), s.clocksRight → exec i s = .next u → s.ctrlAt c = some x →
    u.ctrlAt c = some y → y.clkOn = false → (∀ f, i ≠ .onResume f c) → y.nss = x.nss)

/-- R42, R48, R10, R52 items 3 and 4: an instruction that is none of P_DRAIN, D_MAP, D_WAIT, D_TXDRAIN, DMA_RX_BEAT and
the two composites changes no byte of memory; D_MAP, D_WAIT and D_TXDRAIN change none outside the receive buffer of the
Transfer in hand (P_DRAIN's, DMA_RX_BEAT's and the composites' frames stand in their own statements). A caller's store,
scheduled byte by byte, changes that byte alone, and inside a buffer of a Message that waits or is in service nothing:
that the schedule holds such stores, and that one into a borrowed buffer is dropped, is the model's choice (log entry
19). -/
def Obligations.MemoryFrame : Prop :=
  (∀ (i : Instr) (s u : State), exec i s = .next u → mayStore i = false →
    ∀ a, Memory.read u.mem a = Memory.read s.mem a) ∧
  (∀ (i : Instr) (s u : State) (c : Byte) (x : Ctrl) (t : Transfer), s.ctrlAt c = some x → x.transfer = some t →
    (i = .dMap c ∧ x.seq.off ≤ t.len.toNat ∨
      (i = .dWait c ∨ i = .dTxdrain c) ∧ x.seq.off + x.seq.chunk ≤ t.len.toNat) →
    exec i s = .next u → (t.rxPresent = true → t.rx.toNat + t.len.toNat ≤ 2 ^ 32) →
    ∀ a : Word, (t.rxPresent = false ∨ a.toNat < t.rx.toNat ∨ t.rx.toNat + t.len.toNat ≤ a.toNat) →
      Memory.read u.mem a = Memory.read s.mem a) ∧
  (∀ (s : State) (a : Word) (v : Byte) (rest : List Input), s.inbox = .callerWrite a v :: rest →
    (let within (base len : Word) : Prop := base.toNat ≤ a.toNat ∧ a.toNat < base.toNat + len.toNat
     let names (t : Transfer) : Prop :=
       (t.txPresent = true ∧ within t.tx t.len) ∨ (t.rxPresent = true ∧ within t.rx t.len)
     let lent : Prop := ∃ p ∈ s.ctrl,
       (∃ w ∈ p.2.waitq, ∃ t ∈ w.msg, names t) ∨ (p.2.owner ≠ none ∧ ∃ t ∈ p.2.seq.msg, names t)
     ∃ u, step s = .next u ∧ u = { s with inbox := rest, mem := u.mem } ∧ (lent → u.mem = s.mem) ∧
       (¬ lent → ∀ b, Memory.read u.mem b = if b = a then v else Memory.read s.mem b)))

/-- R44 (the model's form, log entry 6): every step keeps the canonical form of memory. -/
def Obligations.MemoryFormKept : Prop :=
  ∀ s u : State, s.memoryForm → step s = .next u → u.memoryForm

/-- R38 item 1: every step keeps both FIFOs within their capacity. -/
def Obligations.FifoBoundKept : Prop :=
  ∀ s u : State, s.fifosBounded → step s = .next u → u.fifosBounded

/-- R38 items 2, 4, 5, 6, 7, R213, R158, R14, R15: every step keeps: IDLE exactly without an owner; clocks exactly in
ACTIVE, service only in ACTIVE, SUSPENDED only with the flag; a select's holder is bound; a busy flag only in D_WAIT,
and the completion only with both clear; the mappings the engine made and has not released are exactly those the
sequencer owes, none outside a sub-transfer; and a Message that waits or is in service has its binding present and a
Transfer, in service that of its index, whose length the bytes moved, with those of a sub-transfer, never pass; in
SUSPENDED nothing waits and no retry is counted, and outside TRANSPORTING there is no phase (R14, R217, R263). -/
def Obligations.ControlInvariantKept : Prop :=
  (∀ s u : State, s.ownersRight → step s = .next u → u.ownersRight) ∧
  (∀ s u : State, s.clocksRight → step s = .next u → u.clocksRight) ∧
  (∀ s u : State, s.holderBound → step s = .next u → u.holderBound) ∧
  (∀ s u : State, s.busyRight → step s = .next u → u.busyRight) ∧
  (∀ s u : State, s.mapsRight → step s = .next u → u.mapsRight) ∧
  (∀ s u : State, s.serviceRight → step s = .next u → u.serviceRight) ∧
  (∀ s u : State, s.restRight → step s = .next u → u.restRight)

/-- R38 item 3, R216: every step keeps: the lease bits say what the pool says, exactly in ACTIVE, and no channel is
leased to a controller that does not name it. -/
def Obligations.LeaseInvariantKept : Prop :=
  ∀ s u : State, s.leasesRight → step s = .next u → u.leasesRight
end

