-- ==== Sys2Proof/Laws/Bits.lean ====
section
/-! SUPPORT. Laws of bit fields: what a bit of a built word is, and that each record of fields comes back from its
word (register words, command words, the bytes of a word). -/

namespace Sys2Proof

theorem getLsbD_put {n : Nat} (lo : Nat) (v : BitVec n) (i : Nat) :
    (put lo v).getLsbD i = (decide (i < 32) && decide (lo ≤ i) && v.getLsbD (i - lo)) := by
  simp only [put, BitVec.getLsbD_shiftLeft, BitVec.getLsbD_setWidth]
  by_cases h : lo ≤ i
  · have hn : ¬ i < lo := by omega
    by_cases h2 : i - lo < 32
    · simp [h, hn, h2]
    · have : ¬ i < 32 := by omega
      simp [this]
  · have hn : i < lo := by omega
    simp [h, hn]

theorem getLsbD_putBit (lo : Nat) (b : Bool) (i : Nat) :
    (putBit lo b).getLsbD i = (decide (i < 32) && decide (lo = i) && b) := by
  simp only [putBit, getLsbD_put, BitVec.getLsbD_ofBool]
  by_cases h : lo = i
  · subst h; simp
  · by_cases h2 : lo ≤ i
    · have : ¬ (i - lo = 0) := by omega
      simp [h, this]
    · simp [h, h2]

/-- The bytes of a word give the word back (R44). -/
theorem wordOfBytes_bytesOfWord (w : Word) :
    wordOfBytes (w.extractLsb' 0 8) (w.extractLsb' 8 8) (w.extractLsb' 16 8) (w.extractLsb' 24 8) = w := by
  apply BitVec.eq_of_getLsbD_eq; intro i hi
  simp only [wordOfBytes, BitVec.getLsbD_or, getLsbD_put, BitVec.getLsbD_extractLsb']
  by_cases h1 : i < 8 <;> by_cases h2 : i < 16 <;> by_cases h3 : i < 24 <;> grind

/-! ### Natural numbers as bytes (log entry 4) -/

@[simp] theorem natBytesUpTo_zero (n : Nat) : natBytesUpTo n 0 = [] := by cases n <;> rfl

theorem natBytesUpTo_pos {n v : Nat} (hv : v ≠ 0) :
    natBytesUpTo (n + 1) v = BitVec.ofNat 8 v :: natBytesUpTo n (v / 256) := by simp [natBytesUpTo, hv]

/-- As many bytes as the bound allows give the number back. -/
theorem leNat_natBytesUpTo (n v : Nat) (h : v ≤ n) : leNat (natBytesUpTo n v) = v := by
  induction n generalizing v with
  | zero => simp [Nat.le_zero.mp h, natBytesUpTo, leNat]
  | succ n ih =>
    by_cases hv : v = 0
    · simp [hv, leNat]
    · rw [natBytesUpTo_pos hv, leNat, ih _ (by omega), BitVec.toNat_ofNat]
      omega

@[simp] theorem leNat_natBytes (v : Nat) : leNat (natBytes v) = v := leNat_natBytesUpTo v v (Nat.le_refl v)

@[simp] theorem natShortest_nil : natShortest [] = true := rfl

theorem natShortest_cons (b : Byte) (bs : List Byte) :
    natShortest (b :: bs) = true ↔ (bs = [] → b ≠ 0) ∧ natShortest bs = true := by
  cases bs with
  | nil => simp [natShortest]
  | cons c bs => simp [natShortest, List.getLast?_cons_cons]

/-- A number's bytes end in no zero. -/
theorem natShortest_natBytesUpTo (n v : Nat) (h : v ≤ n) : natShortest (natBytesUpTo n v) = true := by
  induction n generalizing v with
  | zero => rfl
  | succ n ih =>
    by_cases hv : v = 0
    · simp [hv]
    · rw [natBytesUpTo_pos hv, natShortest_cons]
      refine ⟨fun hnil hb => ?_, ih _ (by omega)⟩
      have hq : v / 256 = 0 := by
        have := leNat_natBytesUpTo n (v / 256) (by omega)
        rwa [hnil, leNat, eq_comm] at this
      have := congrArg BitVec.toNat hb
      simp only [BitVec.toNat_ofNat] at this
      simp at this
      omega

@[simp] theorem natShortest_natBytes (v : Nat) : natShortest (natBytes v) = true :=
  natShortest_natBytesUpTo v v (Nat.le_refl v)

/-- Bytes that end in no zero are those of their number. -/
theorem natBytesUpTo_leNat (bs : List Byte) (h : natShortest bs = true) (n : Nat) (hn : leNat bs ≤ n) :
    natBytesUpTo n (leNat bs) = bs := by
  induction bs generalizing n with
  | nil => simp [leNat]
  | cons b bs ih =>
    rw [natShortest_cons] at h
    have hb := b.isLt
    have hpos : leNat (b :: bs) ≠ 0 := by
      intro h0
      simp only [leNat] at h0
      have hs : natBytesUpTo 0 (leNat bs) = bs := ih h.2 0 (by omega)
      exact h.1 hs.symm (BitVec.eq_of_toNat_eq (by simp; omega))
    obtain ⟨m, rfl⟩ : ∃ m, n = m + 1 := ⟨n - 1, by omega⟩
    have hq : leNat (b :: bs) / 256 = leNat bs := by simp only [leNat]; omega
    have hr : BitVec.ofNat 8 (leNat (b :: bs)) = b := by
      apply BitVec.eq_of_toNat_eq
      simp only [BitVec.toNat_ofNat, leNat]
      omega
    rw [natBytesUpTo_pos hpos, hq, hr, ih h.2 m (by simp only [leNat] at hn hpos; omega)]

theorem natBytes_leNat (bs : List Byte) (h : natShortest bs = true) : natBytes (leNat bs) = bs :=
  natBytesUpTo_leNat bs h _ (Nat.le_refl _)

/-- A header's fields are the ones it was built from (R61). -/
theorem header_fields (op c b n : Byte) :
    hdrOp (header op c b n) = op ∧ hdrC (header op c b n) = c ∧ hdrB (header op c b n) = b ∧
      hdrN (header op c b n) = n := by
  refine ⟨?_, ?_, ?_, ?_⟩ <;>
  · apply BitVec.eq_of_getLsbD_eq; intro i hi
    simp only [hdrOp, hdrC, hdrB, hdrN, header, BitVec.getLsbD_or, getLsbD_put, BitVec.getLsbD_extractLsb']
    grind

/-- A Transfer's eight words give it back (R65). -/
theorem transferOf_encodeTransfer (t : Transfer) (r : List Word) : transferOf (encodeTransfer t ++ r) = t := by
  cases t
  simp only [transferOf, encodeTransfer, wordAt, List.cons_append, List.getD_cons_zero, List.getD_cons_succ,
    Transfer.mk.injEq, true_and, and_true]
  refine ⟨?_, ?_, ?_, ?_, ?_, ?_⟩
  · apply BitVec.eq_of_getLsbD_eq; intro i hi
    simp only [BitVec.getLsbD_or, getLsbD_put, BitVec.getLsbD_extractLsb', getLsbD_putBit]
    grind
  · simp only [BitVec.getLsbD_or, getLsbD_put, getLsbD_putBit]; simp
  · simp only [BitVec.getLsbD_or, getLsbD_put, getLsbD_putBit]; simp
  · simp only [BitVec.getLsbD_or, getLsbD_put, getLsbD_putBit]; simp
  · simp only [BitVec.getLsbD_or, getLsbD_put, getLsbD_putBit]; simp
  · apply BitVec.eq_of_getLsbD_eq; intro i hi
    simp only [BitVec.getLsbD_or, getLsbD_put, BitVec.getLsbD_extractLsb', getLsbD_putBit]
    grind

/-- NEW's words give its operands back (R62). -/
theorem newArgsOf_encodeNew (w : Word) (a : NewArgs) : newArgsOf (w :: encodeNew a) = a := by
  cases a
  simp only [newArgsOf, encodeNew, wordAt, List.getD_cons_zero, List.getD_cons_succ, NewArgs.mk.injEq, true_and]
  refine ⟨?_, ?_, ?_, ?_, ?_, ?_⟩
  · apply BitVec.eq_of_getLsbD_eq; intro i hi
    simp only [BitVec.getLsbD_or, getLsbD_put, BitVec.getLsbD_extractLsb', getLsbD_putBit]
    grind
  · simp only [BitVec.getLsbD_or, getLsbD_put, getLsbD_putBit]; simp
  · simp only [BitVec.getLsbD_or, getLsbD_put, getLsbD_putBit]; simp
  all_goals
    apply BitVec.eq_of_getLsbD_eq; intro i hi
    simp only [BitVec.getLsbD_or, getLsbD_put, BitVec.getLsbD_extractLsb']
    grind

/-- BIND's words give its operands back (R64). -/
theorem bindArgsOf_encodeBind (w : Word) (a : BindArgs) : bindArgsOf (w :: encodeBind a) = a := by
  obtain ⟨sp, ⟨cpha, cpol, loop⟩, wd, lp, li, cm, al, fb, sr, ih⟩ := a
  simp only [bindArgsOf, encodeBind, wordAt, List.getD_cons_zero, List.getD_cons_succ, BindArgs.mk.injEq, true_and,
    SpiMode.mk.injEq]
  refine ⟨⟨?_, ?_, ?_⟩, ?_, ?_, ?_, ?_, ?_, ?_, ?_, ?_⟩
  · simp only [BitVec.getLsbD_or, getLsbD_put, getLsbD_putBit]; simp
  · simp only [BitVec.getLsbD_or, getLsbD_put, getLsbD_putBit]; simp
  · simp only [BitVec.getLsbD_or, getLsbD_put, getLsbD_putBit]; simp
  · apply BitVec.eq_of_getLsbD_eq; intro i hi
    simp only [BitVec.getLsbD_or, getLsbD_put, BitVec.getLsbD_extractLsb', getLsbD_putBit]
    grind
  · simp only [BitVec.getLsbD_or, getLsbD_put, getLsbD_putBit]; simp
  · apply BitVec.eq_of_getLsbD_eq; intro i hi
    simp only [BitVec.getLsbD_or, getLsbD_put, BitVec.getLsbD_extractLsb', getLsbD_putBit]
    grind
  · cases cm <;> simp only [BitVec.getLsbD_or, getLsbD_put, getLsbD_putBit, CsMode.bit] <;> simp
  · simp only [BitVec.getLsbD_or, getLsbD_put, getLsbD_putBit]; simp
  · apply BitVec.eq_of_getLsbD_eq; intro i hi
    simp only [BitVec.getLsbD_or, getLsbD_put, BitVec.getLsbD_extractLsb', getLsbD_putBit]
    grind
  · simp only [BitVec.getLsbD_or, getLsbD_put, getLsbD_putBit]; simp
  · simp only [BitVec.getLsbD_or, getLsbD_put, getLsbD_putBit]; simp

namespace Machine

/-! ### Register words (R22 to R32) -/

theorem ChCfg.ofWord_toWord (r : ChCfg) : ChCfg.ofWord r.toWord = r := by
  cases r; simp only [ChCfg.ofWord, ChCfg.toWord, BitVec.getLsbD_or, getLsbD_putBit]; simp

theorem ClkCfg.ofWord_toWord (r : ClkCfg) : ClkCfg.ofWord r.toWord = r := by
  cases r
  simp only [ClkCfg.ofWord, ClkCfg.toWord, ClkCfg.mk.injEq]
  refine ⟨?_, by simp only [BitVec.getLsbD_or, getLsbD_put, getLsbD_putBit]; simp⟩
  apply BitVec.eq_of_getLsbD_eq; intro i hi
  simp only [BitVec.getLsbD_or, getLsbD_put, BitVec.getLsbD_extractLsb', getLsbD_putBit]
  grind

theorem ModeCfg.ofWord_toWord (r : ModeCfg) : ModeCfg.ofWord r.toWord = r := by
  cases r
  simp only [ModeCfg.ofWord, ModeCfg.toWord, ModeCfg.mk.injEq]
  refine ⟨by simp only [BitVec.getLsbD_or, getLsbD_put, getLsbD_putBit]; simp,
    by simp only [BitVec.getLsbD_or, getLsbD_put, getLsbD_putBit]; simp,
    by simp only [BitVec.getLsbD_or, getLsbD_put, getLsbD_putBit]; simp,
    by simp only [BitVec.getLsbD_or, getLsbD_put, getLsbD_putBit]; simp, ?_, ?_⟩ <;>
  · apply BitVec.eq_of_getLsbD_eq; intro i hi
    simp only [BitVec.getLsbD_or, getLsbD_put, BitVec.getLsbD_extractLsb', getLsbD_putBit]
    grind

theorem CsReg.ofWord_toWord (r : CsReg) : CsReg.ofWord r.toWord = r := by
  cases r; simp only [CsReg.ofWord, CsReg.toWord, BitVec.getLsbD_or, getLsbD_putBit]; simp

theorem PacketCnt.ofWord_toWord (r : PacketCnt) : PacketCnt.ofWord r.toWord = r := by
  cases r
  simp only [PacketCnt.ofWord, PacketCnt.toWord, PacketCnt.mk.injEq]
  refine ⟨?_, by simp only [BitVec.getLsbD_or, getLsbD_put, getLsbD_putBit]; simp⟩
  apply BitVec.eq_of_getLsbD_eq; intro i hi
  simp only [BitVec.getLsbD_or, getLsbD_put, BitVec.getLsbD_extractLsb', getLsbD_putBit]
  grind

theorem SwapCfg.ofWord_toWord (r : SwapCfg) : SwapCfg.ofWord r.toWord = r := by
  cases r; simp only [SwapCfg.ofWord, SwapCfg.toWord, BitVec.getLsbD_or, getLsbD_putBit]; simp

theorem condsOfStatusBits_word (s : Conds) : condsOfStatusBits (condsStatusWord s) = s := by
  cases s; simp only [condsOfStatusBits, condsStatusWord, BitVec.getLsbD_or, getLsbD_putBit]; simp

theorem condsOfClrBits_word (s : Conds) : condsOfClrBits (condsClrWord s) = s := by
  cases s; simp only [condsOfClrBits, condsClrWord, BitVec.getLsbD_or, getLsbD_putBit]; simp

end Machine
end Sys2Proof
end

