-- ==== Sys2Proof/Laws/Tables.lean ====
section
/-! SUPPORT. Laws of the tables and of host memory: read after write, the write's frame, the canonical form. -/

namespace Sys2Proof.Machine

/-! ### Tables -/

@[simp] theorem Table.get?_nil {α : Type} (n : Nat) : Table.get? ([] : List (Nat × α)) n = none := rfl

theorem Table.get?_set {α : Type} (t : List (Nat × α)) (n m : Nat) (v : α) :
    Table.get? (Table.set t n v) m = if n = m then some v else Table.get? t m := by
  induction t with
  | nil => rfl
  | cons h t ih =>
    obtain ⟨k, x⟩ := h
    simp only [Table.set]
    split
    · rfl
    · split
      · subst n
        simp only [Table.get?]
        split <;> rfl
      · simp only [Table.get?, ih]
        split <;> split <;> first | rfl | omega

@[simp] theorem Table.get?_set_self {α : Type} (t : List (Nat × α)) (n : Nat) (v : α) :
    Table.get? (Table.set t n v) n = some v := by simp [Table.get?_set]

theorem Table.get?_set_ne {α : Type} (t : List (Nat × α)) (n m : Nat) (v : α) (h : n ≠ m) :
    Table.get? (Table.set t n v) m = Table.get? t m := by simp [Table.get?_set, h]

/-- A second write to the same key replaces the first. -/
theorem Table.set_set {α : Type} (t : List (Nat × α)) (n : Nat) (v w : α) :
    Table.set (Table.set t n v) n w = Table.set t n w := by
  induction t with
  | nil => simp [Table.set]
  | cons h t ih =>
    obtain ⟨k, x⟩ := h
    by_cases h1 : n < k
    · simp [Table.set, h1]
    · by_cases h2 : n = k
      · subst h2; simp [Table.set]
      · simp [Table.set, h1, h2, ih]

theorem Table.get?_erase {α : Type} (t : List (Nat × α)) (n m : Nat) :
    Table.get? (Table.erase t n) m = if n = m then none else Table.get? t m := by
  induction t with
  | nil => simp [Table.erase]
  | cons h t ih =>
    obtain ⟨k, x⟩ := h
    simp only [Table.erase]
    split
    · subst k
      simp only [ih, Table.get?]
      split <;> rfl
    · simp only [Table.get?, ih]
      split <;> split <;> first | rfl | omega

theorem Table.above_trans {α : Type} {n k : Nat} (t : List (Nat × α)) (h : n < k) (ht : Table.above k t = true) :
    Table.above n t = true := by
  induction t with
  | nil => rfl
  | cons x t ih =>
    simp only [Table.above, Bool.and_eq_true, decide_eq_true_eq] at ht ⊢
    exact ⟨by omega, ih ht.2⟩

theorem Table.above_set {α : Type} {n k : Nat} (t : List (Nat × α)) (v : α) (h : n < k)
    (ht : Table.above n t = true) : Table.above n (Table.set t k v) = true := by
  induction t with
  | nil => simp [Table.set, Table.above, h]
  | cons x t ih =>
    simp only [Table.above, Bool.and_eq_true, decide_eq_true_eq] at ht
    simp only [Table.set]
    split
    · simp [Table.above, h, ht]
    · split
      · simp [Table.above, h, ht]
      · simp [Table.above, ht.1, ih ht.2]

theorem Table.above_erase {α : Type} {n k : Nat} (t : List (Nat × α)) (ht : Table.above n t = true) :
    Table.above n (Table.erase t k) = true := by
  induction t with
  | nil => rfl
  | cons x t ih =>
    simp only [Table.above, Bool.and_eq_true, decide_eq_true_eq] at ht
    simp only [Table.erase]
    split
    · exact ih ht.2
    · simp [Table.above, ht.1, ih ht.2]

theorem Table.sorted_set {α : Type} (t : List (Nat × α)) (n : Nat) (v : α) (ht : Table.sorted t = true) :
    Table.sorted (Table.set t n v) = true := by
  induction t with
  | nil => rfl
  | cons x t ih =>
    simp only [Table.sorted, Bool.and_eq_true] at ht
    simp only [Table.set]
    split
    · rename_i h
      simp [Table.sorted, Table.above, h, ht, Table.above_trans t h ht.1]
    · split
      · subst n
        simp [Table.sorted, ht]
      · have hlt : x.1 < n := by omega
        simp [Table.sorted, ih ht.2, Table.above_set t v hlt ht.1]

theorem Table.sorted_erase {α : Type} (t : List (Nat × α)) (n : Nat) (ht : Table.sorted t = true) :
    Table.sorted (Table.erase t n) = true := by
  induction t with
  | nil => rfl
  | cons x t ih =>
    simp only [Table.sorted, Bool.and_eq_true] at ht
    simp only [Table.erase]
    split
    · exact ih ht.2
    · simp [Table.sorted, ih ht.2, Table.above_erase t ht.1]

/-- A predicate of all entries survives a write that meets it. -/
theorem Table.all_set {α : Type} (p : Nat × α → Bool) (t : List (Nat × α)) (n : Nat) (v : α)
    (ht : t.all p = true) (hv : p (n, v) = true) : (Table.set t n v).all p = true := by
  induction t with
  | nil => simp [Table.set, hv]
  | cons x t ih =>
    simp only [List.all_cons, Bool.and_eq_true] at ht
    simp only [Table.set]
    split
    · simp only [List.all_cons, hv, Bool.true_and, Bool.and_eq_true]; exact ht
    · split
      · simp only [List.all_cons, hv, Bool.true_and]; exact ht.2
      · simp only [List.all_cons, Bool.and_eq_true]; exact ⟨ht.1, ih ht.2⟩

theorem Table.all_erase {α : Type} (p : Nat × α → Bool) (t : List (Nat × α)) (n : Nat)
    (ht : t.all p = true) : (Table.erase t n).all p = true := by
  induction t with
  | nil => rfl
  | cons x t ih =>
    simp only [List.all_cons, Bool.and_eq_true] at ht
    simp only [Table.erase]
    split
    · exact ih ht.2
    · simp only [List.all_cons, Bool.and_eq_true]; exact ⟨ht.1, ih ht.2⟩

/-! ### Memory -/

theorem Memory.read_write (m : List Host.Cell) (a b : Word) (v : Byte) :
    Memory.read (Memory.write m a v) b = if a = b then v else Memory.read m b := by
  have hab : a.toNat = b.toNat ↔ a = b := BitVec.toNat_inj
  unfold Memory.read Memory.write
  split
  · rename_i h
    rw [Table.get?_erase]
    simp only [hab]
    split <;> simp [h]
  · rw [Table.get?_set]
    simp only [hab]
    split <;> simp

@[simp] theorem Memory.read_write_self (m : List Host.Cell) (a : Word) (v : Byte) :
    Memory.read (Memory.write m a v) a = v := by simp [Memory.read_write]

theorem Memory.read_write_ne (m : List Host.Cell) (a b : Word) (v : Byte) (h : a ≠ b) :
    Memory.read (Memory.write m a v) b = Memory.read m b := by simp [Memory.read_write, h]

@[simp] theorem Memory.wf_nil : Memory.wf [] = true := rfl

/-- A write keeps the canonical form. -/
theorem Memory.wf_write (m : List Host.Cell) (a : Word) (v : Byte) (h : Memory.wf m = true) :
    Memory.wf (Memory.write m a v) = true := by
  simp only [Memory.wf, Bool.and_eq_true] at h ⊢
  unfold Memory.write
  split
  · exact ⟨Table.sorted_erase m _ h.1, Table.all_erase _ m _ h.2⟩
  · rename_i hv
    refine ⟨Table.sorted_set m _ v h.1, Table.all_set _ m _ v h.2 ?_⟩
    have := a.isLt
    simp only [Bool.and_eq_true, decide_eq_true_eq]
    exact ⟨hv, this⟩

theorem Memory.wf_writeBytes (bs : List Byte) (m : List Host.Cell) (a : Word) (h : Memory.wf m = true) :
    Memory.wf (Memory.writeBytes m a bs) = true := by
  induction bs generalizing m a with
  | nil => exact h
  | cons b bs ih => exact ih _ _ (Memory.wf_write m a b h)

theorem Memory.wf_memWrite (m : List Host.Cell) (a : Word) (n : Nat) (v : Word) (h : Memory.wf m = true) :
    Memory.wf (memWrite m a n v) = true := Memory.wf_writeBytes _ m a h

@[simp] theorem Memory.length_readBytes (m : List Host.Cell) (n : Nat) (a : Word) :
    (Memory.readBytes m n a).length = n := by
  induction n generalizing a with
  | zero => rfl
  | succ n ih => simp [Memory.readBytes, ih]

@[simp] theorem length_leBytesNat (n v : Nat) : (leBytesNat n v).length = n := by
  induction n generalizing v with
  | zero => rfl
  | succ n ih => simp [leBytesNat, ih]

@[simp] theorem length_leBytes (n : Nat) (v : Word) : (leBytes n v).length = n := length_leBytesNat n _

/-- The bytes outside `a … a + n - 1` survive a store of `n` bytes at `a` that does not pass the top. -/
theorem Memory.read_writeBytes_outside (bs : List Byte) (m : List Host.Cell) (a b : Word)
    (ha : a.toNat + bs.length ≤ Config.addrSpace)
    (h : b.toNat < a.toNat ∨ a.toNat + bs.length ≤ b.toNat) :
    Memory.read (Memory.writeBytes m a bs) b = Memory.read m b := by
  induction bs generalizing m a with
  | nil => rfl
  | cons x bs ih =>
    simp only [List.length_cons, Config.addrSpace] at ha h
    have hb := b.isLt
    simp only [Memory.writeBytes]
    by_cases hw : a.toNat + 1 < 4294967296
    · have ha1 : (a + 1).toNat = a.toNat + 1 := by
        rw [BitVec.toNat_add]; simp; omega
      rw [ih (Memory.write m a x) (a + 1) (by rw [ha1, Config.addrSpace]; omega) (by rw [ha1]; omega)]
      exact Memory.read_write_ne m a b x (by intro hab; subst hab; omega)
    · have hbs : bs = [] := by
        apply List.eq_nil_of_length_eq_zero
        omega
      subst hbs
      simp only [Memory.writeBytes]
      exact Memory.read_write_ne m a b x (by intro hab; subst hab; simp at h)

end Sys2Proof.Machine
end

