-- ==== Sys2Proof/Laws/State.lean ====
section
/-! SUPPORT. One lemma per field per update of the state (each true by `rfl`), and what the views and the lookups
give back. -/

namespace Sys2Proof.Machine

/-! ### Updates of the state: the fields they leave alone -/

section
variable (s : State)

@[simp] theorem State.setCtrl_now (c : Byte) (x : Ctrl) : (s.setCtrl c x).now = s.now := rfl
@[simp] theorem State.setCtrl_mem (c : Byte) (x : Ctrl) : (s.setCtrl c x).mem = s.mem := rfl
@[simp] theorem State.setCtrl_chan (c : Byte) (x : Ctrl) : (s.setCtrl c x).chan = s.chan := rfl
@[simp] theorem State.setCtrl_csLine (c : Byte) (x : Ctrl) : (s.setCtrl c x).csLine = s.csLine := rfl
@[simp] theorem State.setCtrl_busLog (c : Byte) (x : Ctrl) : (s.setCtrl c x).busLog = s.busLog := rfl
@[simp] theorem State.setCtrl_errLog (c : Byte) (x : Ctrl) : (s.setCtrl c x).errLog = s.errLog := rfl
@[simp] theorem State.setCtrl_outbox (c : Byte) (x : Ctrl) : (s.setCtrl c x).outbox = s.outbox := rfl
@[simp] theorem State.setCtrl_inbox (c : Byte) (x : Ctrl) : (s.setCtrl c x).inbox = s.inbox := rfl
@[simp] theorem State.setCtrl_maps (c : Byte) (x : Ctrl) : (s.setCtrl c x).maps = s.maps := rfl
@[simp] theorem State.setCtrl_mapTape (c : Byte) (x : Ctrl) : (s.setCtrl c x).mapTape = s.mapTape := rfl
@[simp] theorem State.setCtrl_nextTag (c : Byte) (x : Ctrl) : (s.setCtrl c x).nextTag = s.nextTag := rfl
@[simp] theorem State.setCtrl_draws (c : Byte) (x : Ctrl) : (s.setCtrl c x).draws = s.draws := rfl
@[simp] theorem State.setCtrl_params (c : Byte) (x : Ctrl) : (s.setCtrl c x).params = s.params := rfl

@[simp] theorem State.setChan_now (k : Byte) (ch : Chan) : (s.setChan k ch).now = s.now := rfl
@[simp] theorem State.setChan_mem (k : Byte) (ch : Chan) : (s.setChan k ch).mem = s.mem := rfl
@[simp] theorem State.setChan_csLine (k : Byte) (ch : Chan) : (s.setChan k ch).csLine = s.csLine := rfl
@[simp] theorem State.setChan_ctrl (k : Byte) (ch : Chan) : (s.setChan k ch).ctrl = s.ctrl := rfl
@[simp] theorem State.setChan_busLog (k : Byte) (ch : Chan) : (s.setChan k ch).busLog = s.busLog := rfl
@[simp] theorem State.setChan_errLog (k : Byte) (ch : Chan) : (s.setChan k ch).errLog = s.errLog := rfl
@[simp] theorem State.setChan_outbox (k : Byte) (ch : Chan) : (s.setChan k ch).outbox = s.outbox := rfl
@[simp] theorem State.setChan_inbox (k : Byte) (ch : Chan) : (s.setChan k ch).inbox = s.inbox := rfl
@[simp] theorem State.setChan_maps (k : Byte) (ch : Chan) : (s.setChan k ch).maps = s.maps := rfl
@[simp] theorem State.setChan_mapTape (k : Byte) (ch : Chan) : (s.setChan k ch).mapTape = s.mapTape := rfl
@[simp] theorem State.setChan_nextTag (k : Byte) (ch : Chan) : (s.setChan k ch).nextTag = s.nextTag := rfl
@[simp] theorem State.setChan_draws (k : Byte) (ch : Chan) : (s.setChan k ch).draws = s.draws := rfl
@[simp] theorem State.setChan_params (k : Byte) (ch : Chan) : (s.setChan k ch).params = s.params := rfl

@[simp] theorem State.setLessee_now (k : Byte) (l : Option Byte) : (s.setLessee k l).now = s.now := rfl
@[simp] theorem State.setLessee_mem (k : Byte) (l : Option Byte) : (s.setLessee k l).mem = s.mem := rfl
@[simp] theorem State.setLessee_csLine (k : Byte) (l : Option Byte) : (s.setLessee k l).csLine = s.csLine := rfl
@[simp] theorem State.setLessee_ctrl (k : Byte) (l : Option Byte) : (s.setLessee k l).ctrl = s.ctrl := rfl
@[simp] theorem State.setLessee_busLog (k : Byte) (l : Option Byte) : (s.setLessee k l).busLog = s.busLog := rfl
@[simp] theorem State.setLessee_errLog (k : Byte) (l : Option Byte) : (s.setLessee k l).errLog = s.errLog := rfl
@[simp] theorem State.setLessee_outbox (k : Byte) (l : Option Byte) : (s.setLessee k l).outbox = s.outbox := rfl
@[simp] theorem State.setLessee_inbox (k : Byte) (l : Option Byte) : (s.setLessee k l).inbox = s.inbox := rfl
@[simp] theorem State.setLessee_maps (k : Byte) (l : Option Byte) : (s.setLessee k l).maps = s.maps := rfl
@[simp] theorem State.setLessee_mapTape (k : Byte) (l : Option Byte) : (s.setLessee k l).mapTape = s.mapTape := rfl
@[simp] theorem State.setLessee_nextTag (k : Byte) (l : Option Byte) : (s.setLessee k l).nextTag = s.nextTag := rfl
@[simp] theorem State.setLessee_draws (k : Byte) (l : Option Byte) : (s.setLessee k l).draws = s.draws := rfl
@[simp] theorem State.setLessee_params (k : Byte) (l : Option Byte) : (s.setLessee k l).params = s.params := rfl

@[simp] theorem State.setLine_now (l : Byte) (b : Bool) : (s.setLine l b).now = s.now := rfl
@[simp] theorem State.setLine_mem (l : Byte) (b : Bool) : (s.setLine l b).mem = s.mem := rfl
@[simp] theorem State.setLine_chan (l : Byte) (b : Bool) : (s.setLine l b).chan = s.chan := rfl
@[simp] theorem State.setLine_ctrl (l : Byte) (b : Bool) : (s.setLine l b).ctrl = s.ctrl := rfl
@[simp] theorem State.setLine_busLog (l : Byte) (b : Bool) : (s.setLine l b).busLog = s.busLog := rfl
@[simp] theorem State.setLine_errLog (l : Byte) (b : Bool) : (s.setLine l b).errLog = s.errLog := rfl
@[simp] theorem State.setLine_outbox (l : Byte) (b : Bool) : (s.setLine l b).outbox = s.outbox := rfl
@[simp] theorem State.setLine_inbox (l : Byte) (b : Bool) : (s.setLine l b).inbox = s.inbox := rfl
@[simp] theorem State.setLine_maps (l : Byte) (b : Bool) : (s.setLine l b).maps = s.maps := rfl
@[simp] theorem State.setLine_mapTape (l : Byte) (b : Bool) : (s.setLine l b).mapTape = s.mapTape := rfl
@[simp] theorem State.setLine_nextTag (l : Byte) (b : Bool) : (s.setLine l b).nextTag = s.nextTag := rfl
@[simp] theorem State.setLine_draws (l : Byte) (b : Bool) : (s.setLine l b).draws = s.draws := rfl
@[simp] theorem State.setLine_params (l : Byte) (b : Bool) : (s.setLine l b).params = s.params := rfl

@[simp] theorem State.respond_now (d : Recipient) (ws : List Word) : (s.respond d ws).now = s.now := rfl
@[simp] theorem State.respond_mem (d : Recipient) (ws : List Word) : (s.respond d ws).mem = s.mem := rfl
@[simp] theorem State.respond_chan (d : Recipient) (ws : List Word) : (s.respond d ws).chan = s.chan := rfl
@[simp] theorem State.respond_csLine (d : Recipient) (ws : List Word) : (s.respond d ws).csLine = s.csLine := rfl
@[simp] theorem State.respond_ctrl (d : Recipient) (ws : List Word) : (s.respond d ws).ctrl = s.ctrl := rfl
@[simp] theorem State.respond_busLog (d : Recipient) (ws : List Word) : (s.respond d ws).busLog = s.busLog := rfl
@[simp] theorem State.respond_errLog (d : Recipient) (ws : List Word) : (s.respond d ws).errLog = s.errLog := rfl
@[simp] theorem State.respond_inbox (d : Recipient) (ws : List Word) : (s.respond d ws).inbox = s.inbox := rfl
@[simp] theorem State.respond_maps (d : Recipient) (ws : List Word) : (s.respond d ws).maps = s.maps := rfl
@[simp] theorem State.respond_mapTape (d : Recipient) (ws : List Word) : (s.respond d ws).mapTape = s.mapTape := rfl
@[simp] theorem State.respond_nextTag (d : Recipient) (ws : List Word) : (s.respond d ws).nextTag = s.nextTag := rfl
@[simp] theorem State.respond_draws (d : Recipient) (ws : List Word) : (s.respond d ws).draws = s.draws := rfl
@[simp] theorem State.respond_params (d : Recipient) (ws : List Word) : (s.respond d ws).params = s.params := rfl

@[simp] theorem State.answer_now (k : ErrKind) (i : Nat) (w : Word) : (s.answer k i w).now = s.now := rfl
@[simp] theorem State.answer_mem (k : ErrKind) (i : Nat) (w : Word) : (s.answer k i w).mem = s.mem := rfl
@[simp] theorem State.answer_chan (k : ErrKind) (i : Nat) (w : Word) : (s.answer k i w).chan = s.chan := rfl
@[simp] theorem State.answer_csLine (k : ErrKind) (i : Nat) (w : Word) : (s.answer k i w).csLine = s.csLine := rfl
@[simp] theorem State.answer_ctrl (k : ErrKind) (i : Nat) (w : Word) : (s.answer k i w).ctrl = s.ctrl := rfl
@[simp] theorem State.answer_busLog (k : ErrKind) (i : Nat) (w : Word) : (s.answer k i w).busLog = s.busLog := rfl
@[simp] theorem State.answer_errLog (k : ErrKind) (i : Nat) (w : Word) : (s.answer k i w).errLog = s.errLog := rfl
@[simp] theorem State.answer_inbox (k : ErrKind) (i : Nat) (w : Word) : (s.answer k i w).inbox = s.inbox := rfl
@[simp] theorem State.answer_maps (k : ErrKind) (i : Nat) (w : Word) : (s.answer k i w).maps = s.maps := rfl
@[simp] theorem State.answer_mapTape (k : ErrKind) (i : Nat) (w : Word) : (s.answer k i w).mapTape = s.mapTape := rfl
@[simp] theorem State.answer_nextTag (k : ErrKind) (i : Nat) (w : Word) : (s.answer k i w).nextTag = s.nextTag := rfl
@[simp] theorem State.answer_draws (k : ErrKind) (i : Nat) (w : Word) : (s.answer k i w).draws = s.draws := rfl
@[simp] theorem State.answer_params (k : ErrKind) (i : Nat) (w : Word) : (s.answer k i w).params = s.params := rfl

@[simp] theorem State.drew_now (n : Nat) : (s.drew n).now = s.now := rfl
@[simp] theorem State.drew_mem (n : Nat) : (s.drew n).mem = s.mem := rfl
@[simp] theorem State.drew_chan (n : Nat) : (s.drew n).chan = s.chan := rfl
@[simp] theorem State.drew_csLine (n : Nat) : (s.drew n).csLine = s.csLine := rfl
@[simp] theorem State.drew_ctrl (n : Nat) : (s.drew n).ctrl = s.ctrl := rfl
@[simp] theorem State.drew_busLog (n : Nat) : (s.drew n).busLog = s.busLog := rfl
@[simp] theorem State.drew_errLog (n : Nat) : (s.drew n).errLog = s.errLog := rfl
@[simp] theorem State.drew_outbox (n : Nat) : (s.drew n).outbox = s.outbox := rfl
@[simp] theorem State.drew_inbox (n : Nat) : (s.drew n).inbox = s.inbox := rfl
@[simp] theorem State.drew_maps (n : Nat) : (s.drew n).maps = s.maps := rfl
@[simp] theorem State.drew_mapTape (n : Nat) : (s.drew n).mapTape = s.mapTape := rfl
@[simp] theorem State.drew_nextTag (n : Nat) : (s.drew n).nextTag = s.nextTag := rfl
@[simp] theorem State.drew_params (n : Nat) : (s.drew n).params = s.params := rfl

@[simp] theorem State.pushBus_now (e : BusEvent) : (s.pushBus e).now = s.now := rfl
@[simp] theorem State.pushBus_mem (e : BusEvent) : (s.pushBus e).mem = s.mem := rfl
@[simp] theorem State.pushBus_chan (e : BusEvent) : (s.pushBus e).chan = s.chan := rfl
@[simp] theorem State.pushBus_csLine (e : BusEvent) : (s.pushBus e).csLine = s.csLine := rfl
@[simp] theorem State.pushBus_ctrl (e : BusEvent) : (s.pushBus e).ctrl = s.ctrl := rfl
@[simp] theorem State.pushBus_errLog (e : BusEvent) : (s.pushBus e).errLog = s.errLog := rfl
@[simp] theorem State.pushBus_outbox (e : BusEvent) : (s.pushBus e).outbox = s.outbox := rfl
@[simp] theorem State.pushBus_inbox (e : BusEvent) : (s.pushBus e).inbox = s.inbox := rfl
@[simp] theorem State.pushBus_maps (e : BusEvent) : (s.pushBus e).maps = s.maps := rfl
@[simp] theorem State.pushBus_mapTape (e : BusEvent) : (s.pushBus e).mapTape = s.mapTape := rfl
@[simp] theorem State.pushBus_nextTag (e : BusEvent) : (s.pushBus e).nextTag = s.nextTag := rfl
@[simp] theorem State.pushBus_draws (e : BusEvent) : (s.pushBus e).draws = s.draws := rfl
@[simp] theorem State.pushBus_params (e : BusEvent) : (s.pushBus e).params = s.params := rfl

@[simp] theorem State.addMapping_now (m : Mapping) : (s.addMapping m).now = s.now := rfl
@[simp] theorem State.addMapping_mem (m : Mapping) : (s.addMapping m).mem = s.mem := rfl
@[simp] theorem State.addMapping_chan (m : Mapping) : (s.addMapping m).chan = s.chan := rfl
@[simp] theorem State.addMapping_csLine (m : Mapping) : (s.addMapping m).csLine = s.csLine := rfl
@[simp] theorem State.addMapping_ctrl (m : Mapping) : (s.addMapping m).ctrl = s.ctrl := rfl
@[simp] theorem State.addMapping_busLog (m : Mapping) : (s.addMapping m).busLog = s.busLog := rfl
@[simp] theorem State.addMapping_errLog (m : Mapping) : (s.addMapping m).errLog = s.errLog := rfl
@[simp] theorem State.addMapping_outbox (m : Mapping) : (s.addMapping m).outbox = s.outbox := rfl
@[simp] theorem State.addMapping_inbox (m : Mapping) : (s.addMapping m).inbox = s.inbox := rfl
@[simp] theorem State.addMapping_mapTape (m : Mapping) : (s.addMapping m).mapTape = s.mapTape := rfl
@[simp] theorem State.addMapping_nextTag (m : Mapping) : (s.addMapping m).nextTag = s.nextTag := rfl
@[simp] theorem State.addMapping_draws (m : Mapping) : (s.addMapping m).draws = s.draws := rfl
@[simp] theorem State.addMapping_params (m : Mapping) : (s.addMapping m).params = s.params := rfl

@[simp] theorem State.unmap_now (c : Byte) (dir : MapDir) (d : Word) : (s.unmap c dir d).now = s.now := rfl
@[simp] theorem State.unmap_mem (c : Byte) (dir : MapDir) (d : Word) : (s.unmap c dir d).mem = s.mem := rfl
@[simp] theorem State.unmap_chan (c : Byte) (dir : MapDir) (d : Word) : (s.unmap c dir d).chan = s.chan := rfl
@[simp] theorem State.unmap_csLine (c : Byte) (dir : MapDir) (d : Word) : (s.unmap c dir d).csLine = s.csLine := rfl
@[simp] theorem State.unmap_ctrl (c : Byte) (dir : MapDir) (d : Word) : (s.unmap c dir d).ctrl = s.ctrl := rfl
@[simp] theorem State.unmap_busLog (c : Byte) (dir : MapDir) (d : Word) : (s.unmap c dir d).busLog = s.busLog := rfl
@[simp] theorem State.unmap_errLog (c : Byte) (dir : MapDir) (d : Word) : (s.unmap c dir d).errLog = s.errLog := rfl
@[simp] theorem State.unmap_outbox (c : Byte) (dir : MapDir) (d : Word) : (s.unmap c dir d).outbox = s.outbox := rfl
@[simp] theorem State.unmap_inbox (c : Byte) (dir : MapDir) (d : Word) : (s.unmap c dir d).inbox = s.inbox := rfl
@[simp] theorem State.unmap_mapTape (c : Byte) (dir : MapDir) (d : Word) : (s.unmap c dir d).mapTape = s.mapTape := rfl
@[simp] theorem State.unmap_nextTag (c : Byte) (dir : MapDir) (d : Word) : (s.unmap c dir d).nextTag = s.nextTag := rfl
@[simp] theorem State.unmap_draws (c : Byte) (dir : MapDir) (d : Word) : (s.unmap c dir d).draws = s.draws := rfl
@[simp] theorem State.unmap_params (c : Byte) (dir : MapDir) (d : Word) : (s.unmap c dir d).params = s.params := rfl

@[simp] theorem State.schedule_now (e : Encoded) : (s.schedule e).now = s.now := rfl
@[simp] theorem State.schedule_mem (e : Encoded) : (s.schedule e).mem = s.mem := rfl
@[simp] theorem State.schedule_chan (e : Encoded) : (s.schedule e).chan = s.chan := rfl
@[simp] theorem State.schedule_csLine (e : Encoded) : (s.schedule e).csLine = s.csLine := rfl
@[simp] theorem State.schedule_ctrl (e : Encoded) : (s.schedule e).ctrl = s.ctrl := rfl
@[simp] theorem State.schedule_busLog (e : Encoded) : (s.schedule e).busLog = s.busLog := rfl
@[simp] theorem State.schedule_errLog (e : Encoded) : (s.schedule e).errLog = s.errLog := rfl
@[simp] theorem State.schedule_outbox (e : Encoded) : (s.schedule e).outbox = s.outbox := rfl
@[simp] theorem State.schedule_maps (e : Encoded) : (s.schedule e).maps = s.maps := rfl
@[simp] theorem State.schedule_mapTape (e : Encoded) : (s.schedule e).mapTape = s.mapTape := rfl
@[simp] theorem State.schedule_nextTag (e : Encoded) : (s.schedule e).nextTag = s.nextTag := rfl
@[simp] theorem State.schedule_draws (e : Encoded) : (s.schedule e).draws = s.draws := rfl
@[simp] theorem State.schedule_params (e : Encoded) : (s.schedule e).params = s.params := rfl

/-! ### Updates of the state: the field they change -/

@[simp] theorem State.setCtrl_ctrl (c : Byte) (x : Ctrl) : (s.setCtrl c x).ctrl = Table.set s.ctrl c.toNat x := rfl
@[simp] theorem State.setLine_csLine (l : Byte) (b : Bool) :
    (s.setLine l b).csLine = Table.set s.csLine l.toNat b := rfl
@[simp] theorem State.respond_outbox (d : Recipient) (ws : List Word) :
    (s.respond d ws).outbox = s.outbox ++ [⟨d, ws⟩] := rfl
@[simp] theorem State.answer_outbox (k : ErrKind) (i : Nat) (w : Word) :
    (s.answer k i w).outbox = s.outbox ++ [⟨.issuer, [statusWord k i, w]⟩] := rfl
@[simp] theorem State.drew_draws (n : Nat) : (s.drew n).draws = s.draws + n := rfl
@[simp] theorem State.pushBus_busLog (e : BusEvent) : (s.pushBus e).busLog = s.busLog ++ [e] := rfl
@[simp] theorem State.addMapping_maps (m : Mapping) : (s.addMapping m).maps = m :: s.maps := rfl
@[simp] theorem State.schedule_inbox (e : Encoded) : (s.schedule e).inbox = .encoded e :: s.inbox := rfl

/-! ### Lookups after updates -/

theorem State.ctrlAt_setCtrl (c d : Byte) (x : Ctrl) :
    (s.setCtrl c x).ctrlAt d = if c = d then some x else s.ctrlAt d := by
  simp only [State.ctrlAt, State.setCtrl_ctrl, Table.get?_set, BitVec.toNat_inj]

@[simp] theorem State.ctrlAt_setCtrl_self (c : Byte) (x : Ctrl) : (s.setCtrl c x).ctrlAt c = some x := by
  simp [State.ctrlAt_setCtrl]

theorem State.ctrlAt_setCtrl_ne (c d : Byte) (x : Ctrl) (h : c ≠ d) : (s.setCtrl c x).ctrlAt d = s.ctrlAt d := by
  simp [State.ctrlAt_setCtrl, h]

theorem State.chanAt_setChan (k j : Byte) (ch : Chan) :
    (s.setChan k ch).chanAt j = if k = j then ch else s.chanAt j := by
  unfold State.chanAt State.setChan
  by_cases h : ch = Chan.free
  · simp only [h, if_true, Table.get?_erase, BitVec.toNat_inj]
    split <;> simp
  · simp only [h, if_false, Table.get?_set, BitVec.toNat_inj]
    split <;> simp

@[simp] theorem State.chanAt_setChan_self (k : Byte) (ch : Chan) : (s.setChan k ch).chanAt k = ch := by
  simp [State.chanAt_setChan]

theorem State.chanAt_setLessee (k j : Byte) (l : Option Byte) :
    (s.setLessee k l).chanAt j = if k = j then { s.chanAt k with lessee := l } else s.chanAt j := by
  simp [State.setLessee, State.chanAt_setChan]

theorem State.lineLevel_setLine (l m : Byte) (b : Bool) :
    (s.setLine l b).lineLevel m = if l = m then b else s.lineLevel m := by
  simp only [State.lineLevel, State.setLine_csLine, Table.get?_set, BitVec.toNat_inj]
  split <;> simp

/-- The abort of one channel leaves every lease as it was (R157). -/
theorem State.lessee_abortChan (o k j : Byte) : ((s.abortChan o k).chanAt j).lessee = (s.chanAt j).lessee := by
  unfold State.abortChan
  split
  · rw [State.chanAt_setChan]
    split
    · subst j; rfl
    · rfl
  · rfl

end

/-! ### Views -/

section
variable (v : View)

@[simp] theorem View.commit_now : v.commit.now = v.st.now := rfl
@[simp] theorem View.commit_mem : v.commit.mem = v.st.mem := rfl
@[simp] theorem View.commit_chan : v.commit.chan = v.st.chan := rfl
@[simp] theorem View.commit_csLine : v.commit.csLine = v.st.csLine := rfl
@[simp] theorem View.commit_busLog : v.commit.busLog = v.st.busLog := rfl
@[simp] theorem View.commit_errLog : v.commit.errLog = v.st.errLog := rfl
@[simp] theorem View.commit_outbox : v.commit.outbox = v.st.outbox := rfl
@[simp] theorem View.commit_inbox : v.commit.inbox = v.st.inbox := rfl
@[simp] theorem View.commit_maps : v.commit.maps = v.st.maps := rfl
@[simp] theorem View.commit_mapTape : v.commit.mapTape = v.st.mapTape := rfl
@[simp] theorem View.commit_nextTag : v.commit.nextTag = v.st.nextTag := rfl
@[simp] theorem View.commit_draws : v.commit.draws = v.st.draws := rfl
@[simp] theorem View.commit_params : v.commit.params = v.st.params := rfl
@[simp] theorem View.commit_ctrl : v.commit.ctrl = Table.set v.st.ctrl v.key.toNat v.c := rfl

@[simp] theorem View.commit_ctrlAt : v.commit.ctrlAt v.key = some v.c := by simp [State.ctrlAt]

theorem View.commit_ctrlAt_ne (d : Byte) (h : v.key ≠ d) : v.commit.ctrlAt d = v.st.ctrlAt d := by
  simp only [State.ctrlAt, View.commit_ctrl]
  exact Table.get?_set_ne _ _ _ _ fun e => h (BitVec.toNat_inj.mp e)

@[simp] theorem View.commit_chanAt (k : Byte) : v.commit.chanAt k = v.st.chanAt k := rfl
@[simp] theorem View.commit_lineLevel (l : Byte) : v.commit.lineLevel l = v.st.lineLevel l := rfl

@[simp] theorem View.onHw_st (f : Hw → Hw) : (v.onHw f).st = v.st := rfl
@[simp] theorem View.onHw_key (f : Hw → Hw) : (v.onHw f).key = v.key := rfl
@[simp] theorem View.onHw_c (f : Hw → Hw) : (v.onHw f).c = { v.c with hw := f v.c.hw } := rfl
@[simp] theorem View.onSeq_st (f : Seq → Seq) : (v.onSeq f).st = v.st := rfl
@[simp] theorem View.onSeq_key (f : Seq → Seq) : (v.onSeq f).key = v.key := rfl
@[simp] theorem View.onSeq_c (f : Seq → Seq) : (v.onSeq f).c = { v.c with seq := f v.c.seq } := rfl

end

/-- Work on a present controller. -/
theorem State.withCtrl_some (s : State) (c : Byte) (x : Ctrl) (k : View → Out) (h : s.ctrlAt c = some x) :
    s.withCtrl c k = k ⟨s, c, x⟩ := by simp [State.withCtrl, h]

/-- Work on the Transfer in hand of a present controller whose step is enabled. -/
theorem State.withTransfer_some (s : State) (c : Byte) (x : Ctrl) (t : Transfer) (e : Ctrl → Bool)
    (k : View → Transfer → Out) (h : s.ctrlAt c = some x) (he : e x = true) (ht : x.transfer = some t) :
    s.withTransfer c e k = k ⟨s, c, x⟩ t := by simp [State.withTransfer, State.withCtrl, h, he, ht]

/-- Registers are there while the clocks run (R80). -/
@[simp] theorem View.clocked_on (v : View) (k : Out) (h : v.c.clkOn = true) : v.clocked k = k := by
  simp [View.clocked, h]

/-- What a command's form leaves to its meaning (R70, R73, R236). -/
@[simp] theorem State.checkForm_exact (s : State) (n : Nat) (k : Out) : s.checkForm .exact n k = k := rfl

theorem State.withHandle_some (s : State) (c : Byte) (x : Ctrl) (k : Ctrl → Out) (h : s.ctrlAt c = some x) :
    s.withHandle c k = k x := by simp [State.withHandle, h]

end Sys2Proof.Machine
end

