-- ==== Sys2Proof/Laws/Hw.lean ====
section
/-! SUPPORT. What each sequence of register accesses leaves in the serial engine: one lemma per shared operation,
which later proofs cite instead of unfolding it. -/

namespace Sys2Proof.Machine

/-! ### Words and bytes (R44) -/

theorem leNat_lt (bs : List Byte) : leNat bs < 256 ^ bs.length := by
  induction bs with
  | nil => simp [leNat]
  | cons b bs ih =>
    have := b.isLt
    simp only [leNat, List.length_cons, Nat.pow_succ]
    omega

/-- The bytes of a number's bytes are those bytes. -/
theorem leBytesNat_leNat (bs : List Byte) : leBytesNat bs.length (leNat bs) = bs := by
  induction bs with
  | nil => rfl
  | cons b bs ih =>
    have hb := b.isLt
    have h1 : (leNat (b :: bs)) / 256 = leNat bs := by simp only [leNat]; omega
    have h2 : BitVec.ofNat 8 (leNat (b :: bs)) = b := by
      apply BitVec.eq_of_toNat_eq
      simp only [BitVec.toNat_ofNat, leNat]
      omega
    simp only [List.length_cons, leBytesNat, h1, h2, ih]

/-- Up to four bytes survive the trip through a word (R44). -/
theorem leBytes_leWord (bs : List Byte) (h : bs.length ≤ 4) : leBytes bs.length (leWord bs) = bs := by
  have hlt := leNat_lt bs
  have h4 : (256 : Nat) ^ bs.length ≤ 256 ^ 4 := Nat.pow_le_pow_right (by decide) h
  have hw : (leWord bs).toNat = leNat bs := by
    simp only [leWord, BitVec.toNat_ofNat]
    exact Nat.mod_eq_of_lt (Nat.lt_of_lt_of_le hlt h4)
  simp only [leBytes, hw, leBytesNat_leNat]

/-- A word read from memory has the bytes that stand there (R44). -/
theorem leBytes_memRead (m : List Host.Cell) (a : Word) (n : Nat) (h : n ≤ 4) :
    leBytes n (memRead m a n) = Memory.readBytes m n a := by
  have := leBytes_leWord (Memory.readBytes m n a) (by simpa using h)
  simpa [memRead] using this

theorem Memory.readBytes_add (m : List Host.Cell) (j k : Nat) (a : Word) :
    Memory.readBytes m (j + k) a = Memory.readBytes m j a ++ Memory.readBytes m k (a + BitVec.ofNat 32 j) := by
  induction j generalizing a with
  | zero => simp [Memory.readBytes]
  | succ j ih =>
    rw [show j + 1 + k = (j + k) + 1 by omega]
    have hj : a + BitVec.ofNat 32 (j + 1) = a + 1 + BitVec.ofNat 32 j := by
      rw [show BitVec.ofNat 32 (j + 1) = BitVec.ofNat 32 j + 1#32 by simp [BitVec.ofNat_add]]
      rw [BitVec.add_comm (BitVec.ofNat 32 j), ← BitVec.add_assoc]
      rfl
    simp only [Memory.readBytes, ih, List.cons_append, hj]

/-! ### Single register writes -/

/-- A change of format that may happen touches the two FIFOs and nothing else (R96). -/
theorem Hw.ite_formatChanged (p : Prop) [Decidable p] (h : Hw) :
    (if p then h else h.formatChanged) =
      { h with txf := if p then h.txf else [], rxf := if p then h.rxf else [] } := by
  split <;> rfl

/-- A write of `CH_CFG` without a soft reset and with the format unchanged stores the fields (R81). -/
theorem Hw.putChCfg_plain (h : Hw) (r : ChCfg) (hs : r.swRst = false) (hp : r.cpha = h.chCfg.cpha)
    (ho : r.cpol = h.chCfg.cpol) : h.putChCfg r = { h with chCfg := r } := by
  simp [Hw.putChCfg, hs, hp, ho]

/-- A write of `MODE_CFG` that keeps the two sizes stores the fields (R83). -/
theorem Hw.putModeCfg_plain (h : Hw) (r : ModeCfg) (hb : r.busTsz = h.modeCfg.busTsz)
    (hc : r.chTsz = h.modeCfg.chTsz) : h.putModeCfg r = { h with modeCfg := r } := by
  simp [Hw.putModeCfg, hb, hc]

/-- The pulse on `PENDING_CLR` clears the conditions it names and leaves the register 0 (R87). -/
theorem Hw.putPendingClr_pulse (h : Hw) (m : Conds) :
    (h.putPendingClr m).putPendingClr Conds.empty = { h with pendingClr := Conds.empty, sticky := h.sticky.diff m } := by
  simp [Hw.putPendingClr, Conds.diff, Conds.empty]

@[simp] theorem Conds.diff_self (m : Conds) : m.diff m = Conds.empty := by
  cases m; simp [Conds.diff, Conds.empty]

/-! ### Flush, defaults, configuration (R200, R212, R103) -/

/-- The drain loop empties `rxf` and touches nothing else (R200 item 4). -/
theorem Hw.drainRx_length (h : Hw) (n : Nat) (hn : h.rxf.length ≤ n) : Hw.drainRx n h = { h with rxf := [] } := by
  induction n generalizing h with
  | zero =>
    have : h.rxf = [] := List.eq_nil_of_length_eq_zero (by omega)
    simp only [Hw.drainRx]
    cases h; simp_all
  | succ n ih =>
    simp only [Hw.drainRx]
    by_cases he : h.rxf.isEmpty = true
    · have : h.rxf = [] := by simpa using he
      simp only [he, if_true]
      cases h; simp_all
    · have hl : 1 ≤ h.rxf.length := by
        cases hx : h.rxf with
        | nil => simp [hx] at he
        | cons x xs => simp
      have hp : h.popRx 1 = { h with rxf := h.rxf.drop 1 } := by simp [Hw.popRx, hl]
      simp only [he, hp]
      rw [ih _ (by simp; omega)]
      simp

theorem Hw.drainRx_self (h : Hw) : Hw.drainRx h.rxf.length h = { h with rxf := [] } :=
  Hw.drainRx_length h _ (Nat.le_refl _)

/-- FLUSH_OP's registers afterwards (R200). -/
theorem Hw.flush_eq (h : Hw) : h.flush = { h with
    chCfg := { h.chCfg with txchOn := false, rxchOn := false, swRst := false, hsEn := false }
    packetCnt := ⟨0, false⟩, pktRem := 0, txf := [], rxf := [], shBusy := false
    modeCfg := { h.modeCfg with txdmaOn := false, rxdmaOn := false } } := by
  simp only [Hw.flush, Hw.drainRx_self]
  cases hb : h.chCfg.swRst <;>
    simp [Hw.putChCfg, Hw.softReset, Hw.putPacketCnt, Hw.putModeCfg]

/-- HW_INIT's registers afterwards: the same from every contents, but for the idle shifter's word (R212, R262). -/
theorem Hw.init_eq (h : Hw) : h.init = { h with
    clkCfg := ⟨0, false⟩
    chCfg := ⟨false, false, false, false, false, false⟩
    modeCfg := ⟨false, false, false, false, 0, 0⟩
    csReg := ⟨true, false, false, false⟩
    intEn := Conds.all, sticky := Conds.empty, pendingClr := Conds.empty
    packetCnt := ⟨0, false⟩, pktRem := 0
    swapCfg := ⟨false, false, false, false, false, false⟩
    fbDelay := 0, txf := [], rxf := [], shBusy := false } := by
  simp [Hw.init, Hw.flush_eq, Hw.putFbClk, Hw.putSwapCfg, Hw.putPacketCnt, Hw.putPendingClr, Hw.putIntEn,
    Hw.putCsReg, Hw.putModeCfg, Hw.putChCfg, Hw.putClkCfg, Hw.ite_formatChanged, Conds.diff, Conds.all, Conds.empty]

/-- CONFIGURE's registers afterwards (R103). -/
theorem Hw.configure_eq (h : Hw) (d : Nat) (hs : Bool) (m : SpiMode) (w : BitVec 6) (b : Bool) :
    h.configure d hs m w b = { h with
      clkCfg := ⟨BitVec.ofNat 8 d, true⟩
      chCfg := ⟨false, false, m.cpha, m.cpol, false, hs⟩
      modeCfg := ⟨false, false, false, m.loop, widthCode w, widthCode w⟩
      swapCfg := swapVal w b, txf := [], rxf := [] } := by
  simp [Hw.configure, Hw.putSwapCfg, Hw.putModeCfg, Hw.putChCfg, Hw.putClkCfg, Hw.ite_formatChanged]
  rfl

/-! ### Arming and ending a hardware transaction (R132, R134, R149, R156) -/

/-- A write of `TX_DATA` that has room pushes its bytes (R84). -/
theorem Hw.writeTxData_room (h : Hw) (depth n : Nat) (v : Word) (hs : h.chCfg.swRst = false)
    (hr : h.txf.length + n ≤ depth) : h.writeTxData depth n v = { h with txf := h.txf ++ leBytes n v } := by
  have : ¬ depth - h.txf.length < n := by omega
  simp [Hw.writeTxData, hs, this]

/-- P_ARM's pushes with room for all of them move the buffer's bytes into `txf` in order (R132, R84). -/
theorem Hw.pushWords_room (m : List Host.Cell) (depth wb k : Nat) (a : Word) (h : Hw) (hw : wb ≤ 4)
    (hs : h.chCfg.swRst = false) (hr : h.txf.length + k * wb ≤ depth) :
    Hw.pushWords m depth wb k a h = { h with txf := h.txf ++ Memory.readBytes m (k * wb) a } := by
  induction k generalizing a h with
  | zero => simp [Hw.pushWords, Memory.readBytes]
  | succ k ih =>
    have hk : (k + 1) * wb = wb + k * wb := by rw [Nat.add_mul]; omega
    simp only [Hw.pushWords]
    rw [Hw.writeTxData_room h depth wb _ hs (by omega), leBytes_memRead m a wb hw]
    rw [ih _ { h with txf := h.txf ++ Memory.readBytes m wb a } hs (by simp; omega)]
    rw [hk, Memory.readBytes_add]
    simp [List.append_assoc]

/-- The registers after P_ARM of a Transfer that fits `txf` (R132). -/
theorem Hw.pArm_eq (h : Hw) (m : List Host.Cell) (depth wb : Nat) (t : Transfer) (hw : wb ≤ 4)
    (hs : h.chCfg.swRst = false) (hr : h.txf.length + t.len.toNat / wb * wb ≤ depth) :
    h.pArm m depth wb t = { h with
      modeCfg := { h.modeCfg with txdmaOn := false, rxdmaOn := false, burst4 := false }
      packetCnt := ⟨BitVec.ofNat 16 (t.len.toNat / wb), true⟩
      pktRem := BitVec.ofNat 16 (t.len.toNat / wb)
      txf := if t.txPresent then h.txf ++ Memory.readBytes m (t.len.toNat / wb * wb) t.tx else h.txf
      chCfg := { h.chCfg with txchOn := t.txPresent, rxchOn := t.rxPresent } } := by
  unfold Hw.pArm
  cases ht : t.txPresent
  · simp [Hw.putModeCfg, Hw.putPacketCnt, Hw.putChCfg, hs]
  · simp only [if_true]
    rw [Hw.pushWords_room m depth wb _ t.tx _ hw (by simpa [Hw.putModeCfg, Hw.putPacketCnt] using hs)
      (by simpa [Hw.putModeCfg, Hw.putPacketCnt] using hr)]
    simp [Hw.putModeCfg, Hw.putPacketCnt, Hw.putChCfg, hs]

/-- The registers after D_ARM (R149). -/
theorem Hw.dArm_eq (h : Hw) (n wb : Nat) (t : Transfer) (hs : h.chCfg.swRst = false) :
    h.dArm n wb t = { h with
      modeCfg := { h.modeCfg with
        burst4 := decide (burstOf n wb = 4), txdmaOn := t.txPresent, rxdmaOn := t.rxPresent }
      packetCnt := ⟨BitVec.ofNat 16 (n / wb), true⟩
      pktRem := BitVec.ofNat 16 (n / wb)
      chCfg := { h.chCfg with txchOn := t.txPresent, rxchOn := t.rxPresent } } := by
  simp [Hw.dArm, Hw.putModeCfg, Hw.putPacketCnt, Hw.putChCfg, hs]

/-- The registers after D_EPILOG (R156). -/
theorem Hw.dEpilog_eq (h : Hw) (hs : h.chCfg.swRst = false) :
    h.dEpilog = { h with
      chCfg := { h.chCfg with txchOn := false, rxchOn := false }
      modeCfg := { h.modeCfg with txdmaOn := false, rxdmaOn := false, burst4 := false }
      packetCnt := ⟨0, false⟩, pktRem := 0 } := by
  simp [Hw.dEpilog, Hw.channelsOff, Hw.putModeCfg, Hw.putPacketCnt, Hw.putChCfg, hs]

/-! ### Views -/

/-- FLUSH_OP (R200). -/
theorem View.flushOp_c (v : View) :
    v.flushOp.c = { v.c with hw := v.c.hw.flush, cfgValid := false, errLatch := Conds.empty } := rfl

@[simp] theorem View.flushOp_st (v : View) : v.flushOp.st = v.st := rfl
@[simp] theorem View.flushOp_key (v : View) : v.flushOp.key = v.key := rfl
@[simp] theorem View.hwInit_st (v : View) : v.hwInit.st = v.st := rfl
@[simp] theorem View.hwInit_key (v : View) : v.hwInit.key = v.key := rfl

/-- ERR_ACK's effect on the controller (R198). -/
theorem View.errAck_c (v : View) : v.errAck.c = { v.c with
    errLatch := v.c.errLatch.union v.c.hw.sticky
    hw := { v.c.hw with pendingClr := Conds.empty, sticky := Conds.empty } } := by
  simp [View.errAck, Hw.putPendingClr_pulse]

@[simp] theorem View.errAck_key (v : View) : v.errAck.key = v.key := rfl

@[simp] theorem View.checkStatus_key (v : View) : v.checkStatus.key = v.key := by
  unfold View.checkStatus; split <;> rfl

/-- `check_status` leaves no condition set (R196). -/
theorem View.checkStatus_sticky (v : View) : v.checkStatus.c.hw.sticky = Conds.empty := by
  unfold View.checkStatus
  split
  · simp [View.errAck_c]
  · rename_i h
    cases hs : v.c.hw.sticky
    simp_all [Conds.nonempty, Conds.empty]

/-- `check_status` on the latch: every condition seen is in it (R196, R198). -/
theorem View.checkStatus_errLatch (v : View) :
    v.checkStatus.c.errLatch = v.c.errLatch.union v.c.hw.sticky := by
  unfold View.checkStatus
  split
  · simp [View.errAck_c]
  · rename_i h
    cases hs : v.c.hw.sticky
    cases hl : v.c.errLatch
    simp_all [Conds.nonempty, Conds.union]

end Sys2Proof.Machine
end

