-- ==== Sys2Proof/Laws/Ops.lean ====
section
/-! SUPPORT. What each shared operation can do, said once: the forgetting of bytes, the failure path, chip-select,
the abort, unmapping, configuration, the accesses of a DMA channel, the composites' sequencing, the retry counter, the
re-initialisation on resume. -/

namespace Sys2Proof.Machine

/-! ### Memory (R44, R52) -/

/-- Forgetting bytes changes memory and the count of draws only. -/
theorem State.forget_eq (n : Nat) (a : Word) (s : State) : State.forget n a s =
    { s with mem := (State.forget n a s).mem, draws := (State.forget n a s).draws } := by
  induction n generalizing a s with
  | zero => rfl
  | succ n ih => rw [State.forget, ih]

theorem State.wf_forget (n : Nat) (a : Word) (s : State) (h : Memory.wf s.mem = true) :
    Memory.wf (State.forget n a s).mem = true := by
  induction n generalizing a s with
  | zero => exact h
  | succ n ih => exact ih _ _ (Memory.wf_write _ _ _ h)

/-- Forgetting `n` bytes from `a` upward changes no byte outside them. -/
theorem State.read_forget_outside (n : Nat) (a b : Word) (s : State) (h : a.toNat + n ≤ 2 ^ 32)
    (hb : b.toNat < a.toNat ∨ a.toNat + n ≤ b.toNat) :
    Memory.read (State.forget n a s).mem b = Memory.read s.mem b := by
  induction n generalizing a s with
  | zero => rfl
  | succ n ih =>
    have hab : a ≠ b := by rintro rfl; omega
    rw [State.forget]
    by_cases hn : n = 0
    · subst hn; exact Memory.read_write_ne _ _ _ _ hab
    · have ha : (a + 1).toNat = a.toNat + 1 := by
        rw [BitVec.toNat_add]
        have h1 : (1 : Word).toNat = 1 := rfl
        have := a.isLt
        rw [h1]
        omega
      rw [ih _ _ (by omega) (by omega)]
      exact Memory.read_write_ne _ _ _ _ hab

theorem State.wf_callerWrite (s : State) (a : Word) (v : Byte) (h : Memory.wf s.mem = true) :
    Memory.wf (s.callerWrite a v).mem = true := by
  unfold State.callerWrite
  split
  · exact h
  · exact Memory.wf_write _ _ _ h

/-- Memory at power-on has its form (R260; log entry 6). -/
theorem State.wf_reset : Memory.wf State.reset.mem = true := rfl

/-! ### The failure path (R183, R244) -/

/-- `fail(K)` touches the sequencer registers, the memory of the failing Transfer's receive buffer and the draws. -/
theorem View.fail_c (v : View) (k : ErrKind) (n : Nat) : (v.fail k n).c = { v.c with seq := { v.c.seq with
    err := statusWord k (failInfo k v.c.seq.xi v.c.errLatch), phase := .none, state := .failed } } := by
  unfold View.fail View.forgetRx
  split
  · rfl
  · split <;> rfl

@[simp] theorem View.fail_key (v : View) (k : ErrKind) (n : Nat) : (v.fail k n).key = v.key := by
  unfold View.fail View.forgetRx
  split
  · rfl
  · split <;> rfl

theorem View.fail_st (v : View) (k : ErrKind) (n : Nat) :
    (v.fail k n).st = { v.st with mem := (v.fail k n).st.mem, draws := (v.fail k n).st.draws } := by
  unfold View.fail View.forgetRx
  split
  · rfl
  · split
    · exact State.forget_eq _ _ _
    · rfl

/-- A failure with nothing written leaves memory alone. -/
@[simp] theorem View.fail_zero_st (v : View) (k : ErrKind) : (v.fail k 0).st = v.st := by
  unfold View.fail View.forgetRx
  split
  · rfl
  · split <;> rfl

theorem View.wf_fail (v : View) (k : ErrKind) (n : Nat) (h : Memory.wf v.st.mem = true) :
    Memory.wf (v.fail k n).st.mem = true := by
  unfold View.fail View.forgetRx
  split
  · exact h
  · split
    · exact State.wf_forget _ _ _ h
    · exact h

/-! ### Errors (R196, R198) -/

theorem View.errAck_st (v : View) : v.errAck.st = { v.st with
    errLog := v.st.errLog ++ v.c.hw.sticky.list.map fun x => ⟨v.c.id, x, v.c.hw.statusWord, v.st.now⟩ } := rfl

theorem View.checkStatus_st (v : View) : v.checkStatus.st = { v.st with errLog := v.checkStatus.st.errLog } := by
  unfold View.checkStatus
  split <;> rfl

/-- `check_status` changes the latch, `PENDING_CLR` and the sticky bits of the controller only. -/
theorem View.checkStatus_c (v : View) : v.checkStatus.c = { v.c with
    errLatch := v.checkStatus.c.errLatch
    hw := { v.c.hw with pendingClr := v.checkStatus.c.hw.pendingClr, sticky := v.checkStatus.c.hw.sticky } } := by
  unfold View.checkStatus
  split
  · rw [View.errAck_c]
  · rfl

/-! ### Chip-select (R116, R117) -/

@[simp] theorem View.csDeassert_key (v : View) : v.csDeassert.key = v.key := by
  unfold View.csDeassert View.deassertBinding
  split
  · rfl
  · split
    · rfl
    · dsimp only; split <;> rfl

/-- CS_DEASSERT changes `CS_REG` and the holder of the controller only. -/
theorem View.csDeassert_c (v : View) : v.csDeassert.c = { v.c with
    csHolder := v.csDeassert.c.csHolder, hw := { v.c.hw with csReg := v.csDeassert.c.hw.csReg } } := by
  unfold View.csDeassert View.deassertBinding
  split
  · rfl
  · split
    · rfl
    · dsimp only; split <;> rfl

/-- CS_DEASSERT changes the select lines and the bus log of the shared state only. -/
theorem View.csDeassert_st (v : View) : v.csDeassert.st = { v.st with
    csLine := v.csDeassert.st.csLine, busLog := v.csDeassert.st.busLog } := by
  unfold View.csDeassert View.deassertBinding
  split
  · rfl
  · split
    · rfl
    · dsimp only; split <;> rfl

/-- After CS_DEASSERT nothing is held, provided the holder was bound (R38 item 7). -/
theorem View.csDeassert_holder (v : View) (h : ∀ b, v.c.csHolder = some b → (v.c.bindAt b).isSome = true) :
    v.csDeassert.c.csHolder = none := by
  unfold View.csDeassert View.deassertBinding
  split
  · assumption
  · rename_i b hb
    have := h b hb
    split
    · simp_all
    · rfl

@[simp] theorem View.csAssert_key (v : View) (b : Byte) : (v.csAssert b).key = v.key := by
  unfold View.csAssert View.assertBinding
  split
  · rfl
  · dsimp only; split <;> rfl

/-- CS_ASSERT changes `CS_REG` and the holder of the controller only. -/
theorem View.csAssert_c (v : View) (b : Byte) : (v.csAssert b).c = { v.c with
    csHolder := (v.csAssert b).c.csHolder, hw := { v.c.hw with csReg := (v.csAssert b).c.hw.csReg } } := by
  unfold View.csAssert View.assertBinding
  split
  · rfl
  · dsimp only; split <;> rfl

theorem View.csAssert_st (v : View) (b : Byte) : (v.csAssert b).st = { v.st with
    csLine := (v.csAssert b).st.csLine, busLog := (v.csAssert b).st.busLog } := by
  unfold View.csAssert View.assertBinding
  split
  · rfl
  · dsimp only; split <;> rfl

/-! ### DMA: abort, unmap, device accesses (R50, R157, R158) -/

theorem State.abortChan_eq (s : State) (o k : Byte) :
    s.abortChan o k = { s with chan := (s.abortChan o k).chan } := by
  unfold State.abortChan; split <;> rfl

theorem State.chanAt_abortChan (s : State) (o k j : Byte) : (s.abortChan o k).chanAt j =
    if j = k ∧ (s.chanAt k).lessee = some o then { s.chanAt k with armed := false, rem := 0, notify := false }
    else s.chanAt j := by
  unfold State.abortChan
  split
  · rename_i h
    rw [State.chanAt_setChan]
    by_cases hj : k = j
    · simp [hj ▸ h, hj]
    · have : ¬ j = k := fun e => hj e.symm
      simp [hj, this]
  · rename_i h; simp [h]

theorem View.dmaAbort_st (v : View) : v.dmaAbort.st = { v.st with chan := v.dmaAbort.st.chan } := by
  unfold View.dmaAbort
  dsimp only
  rw [State.abortChan_eq, State.abortChan_eq v.st]

@[simp] theorem View.dmaAbort_key (v : View) : v.dmaAbort.key = v.key := rfl

theorem View.dmaAbort_c (v : View) :
    v.dmaAbort.c = { v.c with rxBusy := false, txBusy := false, dmaDone := false } := rfl

/-- `unmap_owed` ends mappings and clears the sequencer's record of them; nothing else changes. -/
theorem View.unmapOwed_c (v : View) : v.unmapOwed.c = { v.c with seq := { v.c.seq with
    weMappedTx := false, weMappedRx := false, mapTx := none, mapRx := none } } := by
  unfold View.unmapOwed View.unmapRx View.unmapTx
  split <;> split <;> rfl

@[simp] theorem View.unmapOwed_key (v : View) : v.unmapOwed.key = v.key := by
  unfold View.unmapOwed View.unmapRx View.unmapTx
  split <;> split <;> rfl

theorem View.unmapOwed_st (v : View) : v.unmapOwed.st = { v.st with maps := v.unmapOwed.st.maps } := by
  unfold View.unmapOwed View.unmapRx View.unmapTx
  split <;> split <;> rfl

/-- A controller that owes no unmapping releases none. -/
theorem View.unmapOwed_none (v : View) (ht : v.c.seq.weMappedTx = false) (hr : v.c.seq.weMappedRx = false) :
    v.unmapOwed.st = v.st := by
  simp [View.unmapOwed, View.unmapRx, View.unmapTx, ht, hr]

/-- What `unmap_owed` leaves live (R158). -/
theorem View.unmapOwed_maps (v : View) : v.unmapOwed.st.maps = v.c.released v.st.maps := by
  have keep (ms : List Mapping) : ms.eraseP (fun _ => false) = ms := List.eraseP_of_forall_not (by simp)
  have tx : v.unmapTx.st.maps = if v.c.seq.weMappedTx then v.st.maps.eraseP fun m =>
      decide (m.ctrl = v.c.id) && decide (m.dir = .toDevice) && decide (some m.dev = v.c.seq.mapTx)
      else v.st.maps := by
    unfold View.unmapTx
    cases v.c.seq.weMappedTx <;> cases v.c.seq.mapTx <;> simp [State.unmap, keep]
  have c : v.unmapTx.c = v.c := by unfold View.unmapTx; split <;> rfl
  show v.unmapTx.unmapRx.st.maps = _
  unfold View.unmapRx Ctrl.released
  dsimp only
  rw [c, ← tx]
  cases v.c.seq.weMappedRx <;> cases v.c.seq.mapRx <;> simp [State.unmap, keep]

/-- A request to MAPPER uses up the fixed answer, or makes a draw; nothing else changes (log entry 9). -/
theorem State.mapAsked_eq (s : State) : s.mapAsked =
    { s with mapTape := s.mapTape.drop 1, draws := s.draws + (1 - s.mapTape.length) } := by
  unfold State.mapAsked
  split <;> rename_i h
  · simp [State.drew, h]
  · simp [h]

/-- The answer is the fixed one, or else a free value, where its range fits the device's address space. -/
theorem State.mapAnswer_eq (s : State) (a : Word) (n : Nat) (dir : MapDir) : s.mapAnswer a n dir =
    ((s.mapTape[0]?).getD (Config.mapper s.draws a n dir)).filter fun d => rangeOk d n := by
  unfold State.mapAnswer
  split <;> rename_i h <;> simp [h]

/-- A read of `RX_DATA` changes `rxf`, a sticky bit and the count of draws only (R85). -/
theorem View.readRx_c (v : View) (n : Nat) : (v.readRx n).2.c = { v.c with hw := v.c.hw.popRx n } := by
  unfold View.readRx; split <;> rfl

@[simp] theorem View.readRx_key (v : View) (n : Nat) : (v.readRx n).2.key = v.key := by
  unfold View.readRx; split <;> rfl

theorem View.readRx_st (v : View) (n : Nat) : (v.readRx n).2.st = { v.st with draws := (v.readRx n).2.st.draws } := by
  unfold View.readRx; split <;> rfl

theorem Hw.popRx_length (h : Hw) (n : Nat) : (h.popRx n).rxf.length ≤ h.rxf.length := by
  unfold Hw.popRx
  split
  · simp
  · unfold Hw.setStatus; split <;> exact Nat.le_refl _

/-- A write of `TX_DATA` never passes the capacity (R84, R38 item 1). -/
theorem Hw.writeTxData_length (h : Hw) (depth n : Nat) (v : Word) (hl : h.txf.length ≤ depth) :
    (h.writeTxData depth n v).txf.length ≤ depth := by
  unfold Hw.writeTxData
  split
  · exact hl
  · split
    · unfold Hw.setStatus; split <;> exact hl
    · simp only [List.length_append, length_leBytes]; omega

/-- A device write changes memory only, and keeps its form (R50). -/
theorem View.devWrite_some (d : Word) (bs : List Byte) (v w : View) (h : View.devWrite d bs v = some w) :
    w.key = v.key ∧ w.c = v.c ∧ w.st = { v.st with mem := w.st.mem } ∧
      (Memory.wf v.st.mem = true → Memory.wf w.st.mem = true) := by
  induction bs generalizing d v with
  | nil =>
    simp only [View.devWrite, Option.some.injEq] at h
    subst h; exact ⟨rfl, rfl, rfl, id⟩
  | cons b bs ih =>
    simp only [View.devWrite] at h
    split at h
    · cases h
    · obtain ⟨h1, h2, h3, h4⟩ := ih _ _ h
      exact ⟨h1, h2, h3, fun hw => h4 (Memory.wf_write _ _ _ hw)⟩

/-- A device read takes draws and nothing else (R50, R42). -/
theorem View.devRead_some (n : Nat) (d : Word) (v w : View) (bs : List Byte)
    (h : View.devRead n d v = some (bs, w)) :
    w.key = v.key ∧ w.c = v.c ∧ w.st = { v.st with draws := w.st.draws } ∧ bs.length = n := by
  induction n generalizing d v bs with
  | zero =>
    simp only [View.devRead, Option.some.injEq, Prod.mk.injEq] at h
    obtain ⟨rfl, rfl⟩ := h; exact ⟨rfl, rfl, rfl, rfl⟩
  | succ n ih =>
    simp only [View.devRead] at h
    split at h
    · cases h
    · rename_i b v1 hb
      split at h
      · cases h
      · rename_i bs' v2 hr
        simp only [Option.some.injEq, Prod.mk.injEq] at h
        obtain ⟨rfl, rfl⟩ := h
        obtain ⟨h1, h2, h3, h4⟩ := ih _ _ _ hr
        simp only [View.devReadByte] at hb
        split at hb
        · cases hb
        · split at hb <;>
          · simp only [Option.some.injEq, Prod.mk.injEq] at hb
            obtain ⟨-, rfl⟩ := hb
            exact ⟨h1, h2, h3, by simp [h4]⟩

/-! ### Configuration (R103) -/

/-- CONFIGURE either writes nothing, or programs the format and empties the FIFOs. -/
theorem View.configure_ok (v w : View) (sp : Word) (m : SpiMode) (wd : BitVec 6)
    (h : v.configure sp m wd = .ok w) : w.st = v.st ∧ w.key = v.key ∧ widthOk wd = true ∧
      ∃ d a, rate v.c.srcClk.toNat sp.toNat = some (d, a) ∧ w.c = { v.c with
        hw := v.c.hw.configure d (decide (Config.hsThresholdHz ≤ a)) m wd v.c.swapByte
        curSpeed := BitVec.ofNat 32 a, curMode := m, curWidth := wd, cfgValid := true } := by
  unfold View.configure at h
  split at h
  · cases h
  · rename_i hw
    split at h
    · cases h
    · rename_i d a hr
      cases h
      exact ⟨rfl, rfl, by simpa using hw, d, a, hr, rfl⟩

/-! ### Composites (R136, R160; log entry 25) -/

/-- Steps one after another end in a state exactly when each does. -/
theorem andThen_next {o : Out} {k : State → Out} {u : State} :
    andThen o k = .next u ↔ ∃ s, o = .next s ∧ k s = .next u := by
  cases o <;> simp [andThen]

/-- Bringing the time to a deadline changes the time only. -/
theorem State.untilDeadline_eq (s : State) (c : Byte) (p : Phase) :
    s.untilDeadline c p = { s with now := (s.untilDeadline c p).now } := by
  unfold State.untilDeadline
  split
  · rfl
  · split <;> rfl

/-- It never turns the time back. -/
theorem State.le_untilDeadline (s : State) (c : Byte) (p : Phase) : s.now ≤ (s.untilDeadline c p).now := by
  unfold State.untilDeadline
  split
  · exact Nat.le_refl _
  · split
    · exact Nat.le_max_left _ _
    · exact Nat.le_refl _

/-- A waiting step repeated is a look at once and a look no earlier. -/
theorem lookUntilDeadline_next {c : Byte} {p : Phase} {look : State → Out} {s u : State} :
    lookUntilDeadline c p look s = .next u ↔
      ∃ s1, look s = .next s1 ∧ look (s1.untilDeadline c p) = .next u := andThen_next

/-- A composite goes on exactly while its controller is there and transporting. -/
theorem State.whileTransporting_next {s u : State} {c : Byte} {k : State → Out} :
    s.whileTransporting c k = .next u ↔
      ((∃ x, s.ctrlAt c = some x ∧ x.seq.state = .transporting) ∧ k s = .next u) ∨
      ((∀ x, s.ctrlAt c = some x → x.seq.state ≠ .transporting) ∧ u = s) := by
  unfold State.whileTransporting
  cases h : s.ctrlAt c with
  | none => simp [eq_comm]
  | some x => by_cases hx : x.seq.state = .transporting <;> simp [Ctrl.inState, hx, @eq_comm _ u]

/-! ### The retry counter (R13, R216; log entry 23) -/

/-- Counting a retry changes the counter, and past 255 the count of draws. -/
theorem View.countRetry_c (v : View) : v.countRetry.c = { v.c with acqK := v.countRetry.c.acqK } := by
  unfold View.countRetry
  split <;> rfl

theorem View.countRetry_st (v : View) : v.countRetry.st = { v.st with draws := v.countRetry.st.draws } := by
  unfold View.countRetry
  split <;> rfl

@[simp] theorem View.countRetry_key (v : View) : v.countRetry.key = v.key := by
  unfold View.countRetry
  split <;> rfl

/-- Below 255 the counter is one more. -/
theorem View.countRetry_acqK (v : View) (h : v.c.acqK.toNat < 255) :
    v.countRetry = { v with c := { v.c with acqK := v.c.acqK + 1 } } := by
  unfold View.countRetry
  exact if_pos (by omega)

/-! ### Re-initialisation on resume (R218, R263) -/

@[simp] theorem Seq.renewed_state (q : Seq) : q.renewed.state = q.state := by
  unfold Seq.renewed
  split
  · next h => exact h.1.symm
  · rfl

@[simp] theorem Seq.renewed_phase (q : Seq) : q.renewed.phase = q.phase := by
  unfold Seq.renewed
  split
  · next h => exact h.2.symm
  · rfl

/-- At rest the sequencer is as NEW leaves it (R261). -/
theorem Seq.renewed_rest (q : Seq) (hs : q.state = .idle) (hp : q.phase = .none) : q.renewed = Seq.fresh :=
  if_pos ⟨hs, hp⟩

/-- In service it is left alone. -/
theorem Seq.renewed_serving (q : Seq) (h : q.state ≠ .idle) : q.renewed = q := if_neg fun e => h e.1

/-- The re-initialisation writes one controller's registers and nothing else. -/
@[simp] theorem View.reinit_st (v : View) : v.reinit.st = v.st := rfl
@[simp] theorem View.reinit_key (v : View) : v.reinit.key = v.key := rfl
theorem View.reinit_c (v : View) : v.reinit.c = { v.c with
    hw := v.c.hw.init, cfgValid := false, errLatch := Conds.empty, curSpeed := 0, curMode := ⟨false, false, false⟩
    curWidth := 8, dmaDone := false, acqNext := 0, seq := v.c.seq.renewed } := by
  simp only [View.reinit, View.hwInit, Ctrl.renewed]

/-! ### Responses (R216, R217) -/

theorem State.answerWaiters_eq (s : State) (k : ErrKind) (info : Nat) (ws : List Waiter) :
    s.answerWaiters k info ws = { s with outbox := s.outbox ++ ws.map fun w =>
      ⟨.caller w.tag, zeroOutcome k info w.msg.length⟩ } := by
  induction ws generalizing s with
  | nil => simp [State.answerWaiters]
  | cons w ws ih => simp [State.answerWaiters, ih, State.respond]

theorem reportedSpeeds_eq (n : Nat) (ts : List Transfer) :
    reportedSpeeds n ts = ts.mapIdx fun i t => if i < n then t.speed else 0 := by
  induction ts generalizing n with
  | nil => simp [reportedSpeeds]
  | cons t ts ih =>
    cases n with
    | zero => simp [reportedSpeeds, ih, List.mapIdx_cons]
    | succ n => simp [reportedSpeeds, ih, List.mapIdx_cons]

end Sys2Proof.Machine
end

