-- ==== Sys2Proof/Laws/PerInstr.lean ====
section
/-! SUPPORT. The per-instruction family `Layout`: every instruction's encoding carries the opcode or the tag of its
row (R62 to R67, R72) and has the length its header or tag implies (R73; log entry 4). -/

namespace Sys2Proof.Laws.Layout

/-- The opcode (R62 to R67) or the step tag (R72) of an instruction's row. -/
def rowCode : Instr → Nat
  | .new _ _ _ => 0x01
  | .destroy _ _ => 0x02
  | .bind _ _ _ _ => 0x03
  | .submit _ _ _ _ => 0x04
  | .onSuspend _ _ => 0x05
  | .onResume _ _ => 0x06
  | .onIdle _ _ => 0x07
  | .onActive _ _ => 0x08
  | .flush _ _ => 0x09
  | .seqStart _ _ => 0x10
  | .seqConfigDevice _ => 0x11
  | .seqSelectCs _ => 0x12
  | .seqConfiguring _ => 0x13
  | .pArm _ => 0x14
  | .pPoll _ => 0x15
  | .pDrain _ => 0x16
  | .dMap _ => 0x17
  | .dArm _ => 0x18
  | .dWait _ => 0x19
  | .dTxdrain _ => 0x1A
  | .seqPostDelay _ => 0x1B
  | .seqAdvance _ => 0x1C
  | .seqComplete _ => 0x1D
  | .seqFail _ => 0x1E
  | .configure _ _ _ _ => 0x20
  | .csAssert _ _ => 0x21
  | .csDeassert _ => 0x22
  | .errAck _ => 0x23
  | .flushOp _ => 0x24
  | .hwInit _ => 0x25
  | .dmaAbort _ => 0x26
  | .xferPoll _ => 0x27
  | .xferDma _ => 0x28
  | .shLoad _ => 0x30
  | .shDone _ => 0x31
  | .dmaTxBeat _ => 0x32
  | .dmaRxBeat _ => 0x33
  | .dmaTxDone _ => 0x34
  | .dmaRxDone _ => 0x35
  | .errIrq _ => 0x36
  | .errInject _ _ => 0x37
  | .powerLoss _ => 0x38
  | .tick _ => 0x39
  | .acqAttempt _ => 0x3A
  | .suspendFinish _ => 0x3B

/-- A packet starts with the row's opcode and has the length its header implies; step bytes are the row's tag, as
many operand bytes as log entry 4 gives it and, where a natural number ends them, the bytes of that number. -/
def rightLayout (code : Nat) (number : List Byte) : Encoded → Prop
  | .packet ws => (hdrOp (wordAt ws 0)).toNat = code ∧ ws.length = impliedLength (wordAt ws 0)
  | .tag bs => ∃ ops, bs = BitVec.ofNat 8 code :: ops ++ number ∧ ops.length = operandBytes code

/-- The bytes of the natural number that ends an instruction's operands: SEQ_START's pick, TICK's amount. -/
def numberOf : Instr → List Byte
  | .seqStart _ p => natBytes p
  | .tick d => natBytes d
  | .new _ _ _ => []
  | .destroy _ _ => []
  | .bind _ _ _ _ => []
  | .submit _ _ _ _ => []
  | .onSuspend _ _ => []
  | .onResume _ _ => []
  | .onIdle _ _ => []
  | .onActive _ _ => []
  | .flush _ _ => []
  | .seqConfigDevice _ => []
  | .seqSelectCs _ => []
  | .seqConfiguring _ => []
  | .pArm _ => []
  | .pPoll _ => []
  | .pDrain _ => []
  | .dMap _ => []
  | .dArm _ => []
  | .dWait _ => []
  | .dTxdrain _ => []
  | .seqPostDelay _ => []
  | .seqAdvance _ => []
  | .seqComplete _ => []
  | .seqFail _ => []
  | .configure _ _ _ _ => []
  | .csAssert _ _ => []
  | .csDeassert _ => []
  | .errAck _ => []
  | .flushOp _ => []
  | .hwInit _ => []
  | .dmaAbort _ => []
  | .xferPoll _ => []
  | .xferDma _ => []
  | .shLoad _ => []
  | .shDone _ => []
  | .dmaTxBeat _ => []
  | .dmaRxBeat _ => []
  | .dmaTxDone _ => []
  | .dmaRxDone _ => []
  | .errIrq _ => []
  | .errInject _ _ => []
  | .powerLoss _ => []
  | .acqAttempt _ => []
  | .suspendFinish _ => []

/-- The family's statement. -/
def Statement (i : Instr) : Prop := i.wellFormed = true → rightLayout (rowCode i) (numberOf i) (encode i)

/-- The length a header implies, from its `op` and `n` (R73). -/
theorem impliedLength_header (op c b n : Byte) : impliedLength (header op c b n) =
    match op.toNat with
    | 1 => 5
    | 3 => 4
    | 4 => 1 + 8 * n.toNat
    | 2 => 1
    | 5 => 1
    | 6 => 1
    | 7 => 1
    | 8 => 1
    | 9 => 1
    | _ => 0 := by
  obtain ⟨e, -, -, en⟩ := header_fields op c b n
  rw [impliedLength, e, en] <;> rfl

/-- A packet of a one-word command. -/
theorem oneWord (op c : Byte) (h : op.toNat = 2 ∨ op.toNat = 5 ∨ op.toNat = 6 ∨ op.toNat = 7 ∨ op.toNat = 8 ∨
    op.toNat = 9) : rightLayout op.toNat [] (.packet [header op c 0 0]) := by
  have e : hdrOp (header op c 0 0) = op := (header_fields op c 0 0).1
  refine ⟨congrArg BitVec.toNat e, ?_⟩
  simp only [wordAt, List.getD_cons_zero, impliedLength_header, List.length_singleton]
  rcases h with h | h | h | h | h | h <;> simp [h]

theorem length_encodeTransfers (ts : List Transfer) : (encodeTransfers ts).length = 8 * ts.length := by
  induction ts with
  | nil => rfl
  | cons t ts ih => simp [encodeTransfers, encodeTransfer, ih]; omega

theorem new (f : PacketForm) (c : Byte) (a : NewArgs) : Statement (.new f c a) := fun _ => by
  exact ⟨congrArg BitVec.toNat (header_fields 1 c 0 0).1, (impliedLength_header 1 c 0 0).symm⟩

theorem destroy (f : PacketForm) (c : Byte) : Statement (.destroy f c) := fun _ => oneWord 2 c (by decide)

theorem bind (f : PacketForm) (c b : Byte) (a : BindArgs) : Statement (.bind f c b a) := fun _ => by
  exact ⟨congrArg BitVec.toNat (header_fields 3 c b 0).1, (impliedLength_header 3 c b 0).symm⟩

theorem submit (f : PacketForm) (c b : Byte) (ts : List Transfer) : Statement (.submit f c b ts) := fun h => by
  have hl : ts.length ≤ 255 := by
    simp only [Instr.wellFormed, countOk, Bool.and_eq_true, decide_eq_true_eq] at h
    exact h.2.2
  refine ⟨congrArg BitVec.toNat (header_fields 4 c b (BitVec.ofNat 8 ts.length)).1, ?_⟩
  refine Eq.trans ?_ (impliedLength_header 4 c b (BitVec.ofNat 8 ts.length)).symm
  change _ = 1 + 8 * (BitVec.ofNat 8 ts.length).toNat
  simp only [List.length_cons, length_encodeTransfers, BitVec.toNat_ofNat]
  omega

theorem onSuspend (f : PacketForm) (c : Byte) : Statement (.onSuspend f c) := fun _ => oneWord 5 c (by decide)
theorem onResume (f : PacketForm) (c : Byte) : Statement (.onResume f c) := fun _ => oneWord 6 c (by decide)
theorem onIdle (f : PacketForm) (c : Byte) : Statement (.onIdle f c) := fun _ => oneWord 7 c (by decide)
theorem onActive (f : PacketForm) (c : Byte) : Statement (.onActive f c) := fun _ => oneWord 8 c (by decide)
theorem flush (f : PacketForm) (c : Byte) : Statement (.flush f c) := fun _ => oneWord 9 c (by decide)
theorem seqStart (c : Byte) (p : Nat) : Statement (.seqStart c p) := fun _ => ⟨[c], rfl, rfl⟩
theorem seqConfigDevice (c : Byte) : Statement (.seqConfigDevice c) := fun _ => ⟨_, (List.append_nil _).symm, rfl⟩
theorem seqSelectCs (c : Byte) : Statement (.seqSelectCs c) := fun _ => ⟨_, (List.append_nil _).symm, rfl⟩
theorem seqConfiguring (c : Byte) : Statement (.seqConfiguring c) := fun _ => ⟨_, (List.append_nil _).symm, rfl⟩
theorem pArm (c : Byte) : Statement (.pArm c) := fun _ => ⟨_, (List.append_nil _).symm, rfl⟩
theorem pPoll (c : Byte) : Statement (.pPoll c) := fun _ => ⟨_, (List.append_nil _).symm, rfl⟩
theorem pDrain (c : Byte) : Statement (.pDrain c) := fun _ => ⟨_, (List.append_nil _).symm, rfl⟩
theorem dMap (c : Byte) : Statement (.dMap c) := fun _ => ⟨_, (List.append_nil _).symm, rfl⟩
theorem dArm (c : Byte) : Statement (.dArm c) := fun _ => ⟨_, (List.append_nil _).symm, rfl⟩
theorem dWait (c : Byte) : Statement (.dWait c) := fun _ => ⟨_, (List.append_nil _).symm, rfl⟩
theorem dTxdrain (c : Byte) : Statement (.dTxdrain c) := fun _ => ⟨_, (List.append_nil _).symm, rfl⟩
theorem seqPostDelay (c : Byte) : Statement (.seqPostDelay c) := fun _ => ⟨_, (List.append_nil _).symm, rfl⟩
theorem seqAdvance (c : Byte) : Statement (.seqAdvance c) := fun _ => ⟨_, (List.append_nil _).symm, rfl⟩
theorem seqComplete (c : Byte) : Statement (.seqComplete c) := fun _ => ⟨_, (List.append_nil _).symm, rfl⟩
theorem seqFail (c : Byte) : Statement (.seqFail c) := fun _ => ⟨_, (List.append_nil _).symm, rfl⟩
theorem configure (c : Byte) (sp : Word) (m : SpiMode) (w : BitVec 6) : Statement (.configure c sp m w) :=
  fun _ => ⟨_, (List.append_nil _).symm, rfl⟩
theorem csAssert (c b : Byte) : Statement (.csAssert c b) := fun _ => ⟨_, (List.append_nil _).symm, rfl⟩
theorem csDeassert (c : Byte) : Statement (.csDeassert c) := fun _ => ⟨_, (List.append_nil _).symm, rfl⟩
theorem errAck (c : Byte) : Statement (.errAck c) := fun _ => ⟨_, (List.append_nil _).symm, rfl⟩
theorem flushOp (c : Byte) : Statement (.flushOp c) := fun _ => ⟨_, (List.append_nil _).symm, rfl⟩
theorem hwInit (c : Byte) : Statement (.hwInit c) := fun _ => ⟨_, (List.append_nil _).symm, rfl⟩
theorem dmaAbort (c : Byte) : Statement (.dmaAbort c) := fun _ => ⟨_, (List.append_nil _).symm, rfl⟩
theorem xferPoll (c : Byte) : Statement (.xferPoll c) := fun _ => ⟨_, (List.append_nil _).symm, rfl⟩
theorem xferDma (c : Byte) : Statement (.xferDma c) := fun _ => ⟨_, (List.append_nil _).symm, rfl⟩
theorem shLoad (c : Byte) : Statement (.shLoad c) := fun _ => ⟨_, (List.append_nil _).symm, rfl⟩
theorem shDone (c : Byte) : Statement (.shDone c) := fun _ => ⟨_, (List.append_nil _).symm, rfl⟩
theorem dmaTxBeat (k : Byte) : Statement (.dmaTxBeat k) := fun _ => ⟨_, (List.append_nil _).symm, rfl⟩
theorem dmaRxBeat (k : Byte) : Statement (.dmaRxBeat k) := fun _ => ⟨_, (List.append_nil _).symm, rfl⟩
theorem dmaTxDone (k : Byte) : Statement (.dmaTxDone k) := fun _ => ⟨_, (List.append_nil _).symm, rfl⟩
theorem dmaRxDone (k : Byte) : Statement (.dmaRxDone k) := fun _ => ⟨_, (List.append_nil _).symm, rfl⟩
theorem errIrq (c : Byte) : Statement (.errIrq c) := fun _ => ⟨_, (List.append_nil _).symm, rfl⟩
theorem errInject (c : Byte) (m : Conds) : Statement (.errInject c m) := fun _ => ⟨_, (List.append_nil _).symm, rfl⟩
theorem powerLoss (c : Byte) : Statement (.powerLoss c) := fun _ => ⟨_, (List.append_nil _).symm, rfl⟩
theorem tick (d : Nat) : Statement (.tick d) := fun _ => ⟨[], rfl, rfl⟩
theorem acqAttempt (c : Byte) : Statement (.acqAttempt c) := fun _ => ⟨_, (List.append_nil _).symm, rfl⟩
theorem suspendFinish (c : Byte) : Statement (.suspendFinish c) := fun _ => ⟨_, (List.append_nil _).symm, rfl⟩

end Sys2Proof.Laws.Layout
end

