-- ==== Sys2Proof/Tests/Slice0.lean ====
section
/-! SUPPORT. The model's own tests. The expected values are those of `95_test_vectors.md` (V-ENC, V-BIND, V-RATE,
V-CONFIG, V-WORD, V-STATUS, V-PORT, V-CS, V-DARM, V-PREVAL, V-ERRACK, V-FLUSH, V-INIT, V-ACQ, V-IDLE, P1, P2, P5) or
hand calculation from the rule a test names. Each `witness_…` theorem gives, for the obligation it names, concrete
states and operands that meet the hypotheses of every clause together. -/

namespace Sys2Proof.Tests

open Sys2Proof Sys2Proof.Machine

/-! ### Small states -/

/-- The binding 1 of S0: 1 MHz, loopback, width 8, line 3, MANUAL, active low. -/
def lineBinding : Binding := ⟨1000000, ⟨false, false, true⟩, 8, some 3, .manual, false, false, 0, false⟩

/-- MANUAL without a line, active low; feedback delay 2. -/
def nativeBinding : Binding := ⟨1000000, ⟨false, false, true⟩, 8, none, .manual, false, false, 2, false⟩

/-- AUTO without a line, active high, idle hold 1. -/
def autoBinding : Binding := ⟨1000000, ⟨false, false, true⟩, 8, none, .auto, true, true, 0, false⟩

/-- The serial engine right after HW_INIT (R262). -/
def hwDefault : Hw :=
  ⟨⟨false, false, false, false, false, false⟩, ⟨0, false⟩, ⟨false, false, false, false, 0, 0⟩,
    ⟨true, false, false, false⟩, ⟨true, true, true, true⟩, ⟨false, false, false, false⟩, ⟨0, false⟩,
    ⟨false, false, false, false⟩, ⟨false, false, false, false, false, false⟩, 0, [], [], 0, false, 0, false⟩

/-- The serial engine after CONFIGURE(1 MHz, mode 4, width 8) (V-CONFIG). -/
def hwLoop : Hw := { hwDefault with clkCfg := ⟨49, true⟩, modeCfg := ⟨false, false, false, true, 0, 0⟩ }

/-- The operands of S0's NEW. -/
def newArgs0 : NewArgs := ⟨0x10000000, 100000000, 64, true, false, 0, 1, 100⟩

/-- Controller 0 of S0, with three bindings. -/
def ctrl0 : Ctrl :=
  { Ctrl.fresh 0 newArgs0 hwDefault 0 with
    clkOn := false, bind := [(1, lineBinding), (2, nativeBinding), (3, autoBinding)] }

/-- Controller 0 with its clocks on and both leases. -/
def live : Ctrl :=
  { ctrl0 with
    clkOn := true, pstate := .active, rxCh := true, txCh := true, hw := hwLoop, curSpeed := 1000000,
    curMode := ⟨false, false, true⟩, curWidth := 8, cfgValid := true }

/-- The Transfer of P1: two bytes from 0x1000 to 0x2000. -/
def t1 : Transfer := ⟨0x1000, 0x2000, 2, 0, 0, true, true, false, false, 0, 0, 0⟩

/-- Controller 0 with a Message of P1's Transfer in service for caller 4 under binding `b`. -/
def serving (b : Byte) (t : Transfer) (st : SeqState) (ph : Phase) : Ctrl :=
  { live with
    owner := some 4
    seq := { Seq.fresh with state := st, phase := ph, b := b, msg := [t], msgStatus := .pending } }

/-- A state with controller 0; memory holds P1's two bytes; channels 0 and 1 are leased to it. -/
def st (x : Ctrl) : State :=
  { State.reset with
    ctrl := [(0, x)], mem := [(0x1000, 0xA5), (0x1001, 0x5A)], csLine := [(3, true)], now := 7
    chan := [(0, { Chan.free with lessee := some 0 }), (1, { Chan.free with lessee := some 0 })]
    params := ⟨false, false, 3, 999⟩ }

/-- The same with both channels free. -/
def stFree (x : Ctrl) : State := { st x with chan := [] }

/-- What controller 0 is after an outcome. -/
def ctrlOf {α : Type} (o : Out) (f : Ctrl → α) : Option α :=
  match o with
  | .next s => (s.ctrlAt 0).map f
  | .fault _ => none
  | .refused _ => none

/-- What the state is after an outcome. -/
def stateOf {α : Type} (o : Out) (f : State → α) : Option α :=
  match o with
  | .next s => some (f s)
  | .fault _ => none
  | .refused _ => none

/-- The fault an outcome is. -/
def faultOf (o : Out) : Option Fault :=
  match o with
  | .next _ => none
  | .fault e => some e
  | .refused _ => none

/-- The words of the responses after an outcome. -/
def answers (o : Out) : Option (List (List Word)) := stateOf o fun s => s.outbox.map fun r => r.words

/-! ### Well-formedness refuses each ill-formed term -/

theorem test_wf_refuses_inexact_form :
    (Instr.new .mbzNonzero 0 newArgs0).wellFormed = false ∧ (Instr.destroy .wrongLength 0).wellFormed = false ∧
    (Instr.submit .wrongLength 0 1 [t1]).wellFormed = false ∧ (Instr.onSuspend .mbzNonzero 0).wellFormed = false ∧
    (Instr.onResume .mbzNonzero 0).wellFormed = false ∧ (Instr.onIdle .wrongLength 0).wellFormed = false ∧
    (Instr.onActive .wrongLength 0).wellFormed = false ∧ (Instr.flush .mbzNonzero 0).wellFormed = false := by decide

theorem test_wf_refuses_line_without_presence :
    (Instr.bind .exact 0 1 ⟨1, ⟨false, false, false⟩, 8, false, 3, .manual, false, 0, false, false⟩).wellFormed =
      false := by decide

theorem test_wf_refuses_no_transfers : (Instr.submit .exact 0 1 []).wellFormed = false := by decide

theorem test_wf_refuses_too_many_transfers :
    (Instr.submit .exact 0 1 (List.replicate 256 t1)).wellFormed = false := by
  simp only [Instr.wellFormed, countOk, List.length_replicate]
  decide

theorem test_wf_refuses_no_conditions : (Instr.errInject 0 ⟨false, false, false, false⟩).wellFormed = false := by
  decide

/-! ### Words written out from the encodings of R61 to R67, R72 (log entry 4 for a step's operand bytes) -/

/-- Header op 0x01, then base, clock, word 3 (depth 64, reinit bit 16), word 4 (rx 0, tx 1, autosuspend 100). -/
theorem test_decode_new :
    decode (.packet [0x01000000, 0x10000000, 0x05F5E100, 0x00010040, 0x00640100]) = .ok (.new .exact 0 newArgs0) ∧
    decode (.packet [0x01020000, 4, 1, 0x00020100, 0xFFFF0201]) =
      .ok (.new .exact 2 ⟨4, 1, 256, false, true, 1, 2, 0xFFFF⟩) ∧
    decode (.packet [0x01010000, 0x10000030, 0x05F5E100, 0x00000240, 0x00640302]) =
      .ok (.new .mbzNonzero 1 ⟨0x10000030, 100000000, 64, false, false, 2, 3, 100⟩) := by decide

/-- Word 3 encodings of V-BIND: line 4 MANUAL high; line 5 AUTO low; no line AUTO high hold 1. -/
theorem test_decode_bind :
    decode (.packet [0x03000100, 0x000F4240, 0x00000803, 0x00000609]) =
      .ok (.bind .exact 0 1 ⟨1000000, ⟨true, true, false⟩, 8, true, 4, .manual, true, 0, false, false⟩) ∧
    decode (.packet [0x03000100, 0x000F4240, 0x00001004, 0x0000000B]) =
      .ok (.bind .exact 0 1 ⟨1000000, ⟨false, false, true⟩, 16, true, 5, .auto, false, 0, false, false⟩) ∧
    decode (.packet [0x03000100, 0x000F4240, 0x00002000, 0x00004400]) =
      .ok (.bind .exact 0 1 ⟨1000000, ⟨false, false, false⟩, 32, false, 0, .auto, true, 0, false, true⟩) ∧
    decode (.packet [0x03000100, 1, 0x00000800, 0x00003800]) =
      .ok (.bind .exact 0 1 ⟨1, ⟨false, false, false⟩, 8, false, 0, .auto, false, 3, true, false⟩) := by decide

/-- Transfer word 4: width override bits 5:0, tx 8, rx 9, cs_change 10, premapped 11, delay 31:16. -/
theorem test_decode_submit :
    decode (.packet [0x04000101, 0x1000, 0x2000, 2, 0, 0x300, 0, 0, 0]) = .ok (.submit .exact 0 1 [t1]) ∧
    decode (.packet [0x04000101, 1, 2, 3, 4, 0x00320D10, 5, 6, 0]) =
      .ok (.submit .exact 0 1 [⟨1, 2, 3, 4, 16, true, false, true, true, 50, 5, 6⟩]) ∧
    decode (.packet [0x04000101, 1, 2, 3, 4, 0x300, 5, 6, 7]) =
      .ok (.submit .mbzNonzero 0 1 [⟨1, 2, 3, 4, 0, true, true, false, false, 0, 5, 6⟩]) ∧
    decode (.packet [0x04000100]) = .ok (.submit .exact 0 1 []) := by decide

theorem test_decode_plain_commands :
    decode (.packet [0x02070000]) = .ok (.destroy .exact 7) ∧
    decode (.packet [0x02000100]) = .ok (.destroy .mbzNonzero 0) ∧
    decode (.packet [0x02000000, 0]) = .ok (.destroy .wrongLength 0) ∧
    decode (.packet [0x05000000]) = .ok (.onSuspend .exact 0) ∧
    decode (.packet [0x06000000]) = .ok (.onResume .exact 0) ∧
    decode (.packet [0x07000000]) = .ok (.onIdle .exact 0) ∧
    decode (.packet [0x08000000]) = .ok (.onActive .exact 0) ∧
    decode (.packet [0x09070000]) = .ok (.flush .exact 7) := by decide

theorem test_decode_sequencer_steps :
    decode (.tag [0x10, 1, 2]) = .ok (.seqStart 1 2) ∧ decode (.tag [0x11, 1]) = .ok (.seqConfigDevice 1) ∧
    decode (.tag [0x12, 1]) = .ok (.seqSelectCs 1) ∧ decode (.tag [0x13, 1]) = .ok (.seqConfiguring 1) ∧
    decode (.tag [0x14, 1]) = .ok (.pArm 1) ∧ decode (.tag [0x15, 1]) = .ok (.pPoll 1) ∧
    decode (.tag [0x16, 1]) = .ok (.pDrain 1) ∧ decode (.tag [0x17, 1]) = .ok (.dMap 1) ∧
    decode (.tag [0x18, 1]) = .ok (.dArm 1) ∧ decode (.tag [0x19, 1]) = .ok (.dWait 1) ∧
    decode (.tag [0x1A, 1]) = .ok (.dTxdrain 1) ∧ decode (.tag [0x1B, 1]) = .ok (.seqPostDelay 1) ∧
    decode (.tag [0x1C, 1]) = .ok (.seqAdvance 1) ∧ decode (.tag [0x1D, 1]) = .ok (.seqComplete 1) ∧
    decode (.tag [0x1E, 1]) = .ok (.seqFail 1) := by decide

theorem test_decode_micro_operations :
    decode (.tag [0x20, 0, 0x40, 0x42, 0x0F, 0, 5, 16]) =
      .ok (.configure 0 1000000 ⟨true, false, true⟩ 16) ∧
    decode (.tag [0x21, 0, 3]) = .ok (.csAssert 0 3) ∧ decode (.tag [0x22, 0]) = .ok (.csDeassert 0) ∧
    decode (.tag [0x23, 0]) = .ok (.errAck 0) ∧ decode (.tag [0x24, 0]) = .ok (.flushOp 0) ∧
    decode (.tag [0x25, 0]) = .ok (.hwInit 0) ∧ decode (.tag [0x26, 0]) = .ok (.dmaAbort 0) ∧
    decode (.tag [0x27, 0]) = .ok (.xferPoll 0) ∧ decode (.tag [0x28, 0]) = .ok (.xferDma 0) := by decide

theorem test_decode_engine_and_environment_steps :
    decode (.tag [0x30, 2]) = .ok (.shLoad 2) ∧ decode (.tag [0x31, 2]) = .ok (.shDone 2) ∧
    decode (.tag [0x32, 2]) = .ok (.dmaTxBeat 2) ∧ decode (.tag [0x33, 2]) = .ok (.dmaRxBeat 2) ∧
    decode (.tag [0x34, 2]) = .ok (.dmaTxDone 2) ∧ decode (.tag [0x35, 2]) = .ok (.dmaRxDone 2) ∧
    decode (.tag [0x36, 2]) = .ok (.errIrq 2) ∧ decode (.tag [0x37, 2, 9]) = .ok (.errInject 2 ⟨true, false, false, true⟩) ∧
    decode (.tag [0x38, 2]) = .ok (.powerLoss 2) ∧ decode (.tag [0x39, 0, 1]) = .ok (.tick 256) ∧
    decode (.tag [0x3A, 2]) = .ok (.acqAttempt 2) ∧ decode (.tag [0x3B, 2]) = .ok (.suspendFinish 2) := by decide

/-- Opcodes 0x00, 0x0A, 0xFF are reserved (V-ENC); so are the tags R72 does not list. -/
theorem test_decode_rejects_by_name :
    decode (.packet [0x00000000]) = .error .unknownOpcode ∧ decode (.packet [0x0A000000]) = .error .unknownOpcode ∧
    decode (.packet [0xFF123456]) = .error .unknownOpcode ∧ decode (.packet []) = .error .emptyPacket ∧
    decode (.tag [0x1F, 0]) = .error .unknownTag ∧ decode (.tag [0x29, 0]) = .error .unknownTag ∧
    decode (.tag [0x3C, 0]) = .error .unknownTag ∧ decode (.tag [0x30]) = .error .stepOperandLength ∧
    decode (.tag [0x37, 0, 0x10]) = .error .stepOperandReserved := by decide

/-- Log entry 4: a number's bytes are as few as carry it, so 0 has none and a last byte of 0 is refused. -/
theorem test_decode_natural_operands :
    decode (.tag [0x39]) = .ok (.tick 0) ∧ decode (.tag [0x39, 0]) = .error .stepOperandReserved ∧
    decode (.tag [0x39, 0, 0, 0, 0, 1]) = .ok (.tick 0x100000000) ∧ decode (.tag [0x10, 7]) = .ok (.seqStart 7 0) ∧
    decode (.tag [0x10]) = .error .stepOperandLength ∧ decode (.tag [0x10, 7, 1, 0]) = .error .stepOperandReserved := by
  decide

/-- V-ENC, R236: the must-be-zero check comes before the length check. -/
theorem test_command_port_order :
    answers (step { st live with inbox := [.encoded (.packet [0x02000001, 0])] }) = some [[0x05020001, 0]] ∧
    answers (step { st live with inbox := [.encoded (.packet [0x02000000, 0])] }) = some [[0x05020002, 0]] := by decide

/-! ### Pure computations -/

/-- V-RATE. -/
theorem test_rate :
    rate 100000000 1000000 = some (49, 1000000) ∧ rate 100000000 1020408 = some (48, 1020408) ∧
    rate 100000000 3000000 = some (16, 2941176) ∧ rate 100000000 195312 = some (255, 195312) ∧
    rate 100000000 195311 = none ∧ rate 26000000 10000000 = some (1, 6500000) ∧ rate 1 1 = none ∧
    rate 512 1 = some (128, 1) ∧ rate 1024 1 = none ∧ rate 100000000 0 = none := by decide

/-- V-DEADLINE; V-CHUNK. -/
theorem test_deadline_chunk_burst :
    deadlineMs 2 1000000 = 100 ∧ deadlineMs 9750 1000000 = 101 ∧ deadlineMs 65535 1000000 = 681 ∧
    chunkOf 65536 0 1 = 65535 ∧ chunkOf 65536 65535 1 = 1 ∧ burstOf 33 1 = 1 ∧ burstOf 64 1 = 4 ∧
    burstOf 48 4 = 4 := by decide

/-- V-WORD. -/
theorem test_byte_order_and_swap :
    leWord [0x12, 0x34] = 0x3412 ∧ (swapVal 16 false).swapTx 0x3412 2 = some 0x3412 ∧
    (swapVal 16 true).swapTx 0x3412 2 = some 0x1234 ∧ leWord [0x11, 0x22, 0x33, 0x44] = 0x44332211 ∧
    (swapVal 32 true).swapTx 0x44332211 4 = some 0x11223344 ∧ (swapVal 8 true).swapTx 0xA5 1 = some 0xA5 := by decide

/-- V-STATUS. -/
theorem test_status_word :
    hwDefault.statusWord = 0x02000000 ∧ { hwDefault with rxf := [1, 2] }.statusWord = 0x02010000 ∧
    { hwDefault with txf := [1, 2] }.statusWord = 0x00000080 ∧
    { hwDefault with
      txf := [1, 2, 3, 4, 5], rxf := [1, 2, 3], shBusy := true, sticky := ⟨true, false, false, false⟩ }.statusWord =
      0x00018160 ∧
    { hwDefault with rxf := List.replicate 16 0, sticky := ⟨true, false, false, false⟩ }.statusWord = 0x02080020 := by
  decide

/-- V-PORT. -/
theorem test_data_ports :
    (hwDefault.writeTxData 64 2 0x3412).txf = [0x12, 0x34] ∧
    ({ hwDefault with txf := List.replicate 16 7 }.writeTxData 16 1 5).sticky.txOverrun = true ∧
    ({ hwDefault with txf := List.replicate 16 7 }.writeTxData 16 1 5).txf = List.replicate 16 7 ∧
    { hwDefault with rxf := [0x12, 0x34] }.rxValue 2 = some 0x3412 ∧
    ({ hwDefault with rxf := [0x12, 0x34] }.popRx 2).rxf = [] ∧
    { hwDefault with rxf := [0x12] }.rxValue 2 = none ∧
    ({ hwDefault with rxf := [0x12] }.popRx 2).sticky.rxUnderrun = true ∧
    ({ hwDefault with rxf := [0x12] }.popRx 2).rxf = [0x12] := by decide

/-! ### Commands -/

/-- S0's NEW (V-INIT); a second one of controller 0 (V-ENC). -/
theorem test_new :
    answers (exec (.new .exact 0 newArgs0) { st live with ctrl := [] }) = some [[0, 0]] ∧
    ctrlOf (exec (.new .exact 0 newArgs0) { st live with ctrl := [] }) (fun x => (x.half, x.pstate, x.clkOn)) =
      some (32, .idle, false) ∧
    answers (exec (.new .exact 0 newArgs0) (st live)) = some [[0x05020008, 0]] := by decide

/-- V-INIT: the registers NEW leaves, whatever they held before. -/
theorem test_new_registers (n d : Nat) :
    (Hw.drawn n d).init.regRead .csReg 4 = some 1 ∧ (Hw.drawn n d).init.regRead .intEn 4 = some 0x3C ∧
    (Hw.drawn n d).init.regRead .status 4 = some 0x02000000 := by
  rw [Hw.init_eq]
  simp only [Hw.regRead, Hw.statusWord, Hw.txDone]
  decide

/-- V-ENC: base, clock, depth and channel errors of a NEW beside controller 0. -/
theorem test_new_refusals :
    answers (exec (.new .exact 1 { newArgs0 with base := 0x10000002 }) (st live)) = some [[0x05020009, 0]] ∧
    answers (exec (.new .exact 1 { newArgs0 with base := 0x10000020 }) (st live)) = some [[0x05020009, 0]] ∧
    answers (exec (.new .exact 1 { newArgs0 with base := 0x10000030, sourceClock := 0 }) (st live)) =
      some [[0x0502000A, 0]] ∧
    answers (exec (.new .exact 1 { newArgs0 with base := 0x10000030, fifoDepth := 40 }) (st live)) =
      some [[0x0502000B, 0]] ∧
    answers (exec (.new .exact 1 { newArgs0 with base := 0x10000030, dmaTx := 0 }) (st live)) =
      some [[0x0502000C, 0]] := by decide

/-- The operands of S0's BIND, of the speed, the width and the line given. -/
def bindArgs (speed : Word) (width : BitVec 6) (line : Byte) : BindArgs :=
  ⟨speed, ⟨false, false, true⟩, width, true, line, .manual, false, 0, false, false⟩

/-- V-BIND. -/
theorem test_bind :
    answers (exec (.bind .exact 0 4 (bindArgs 3000000 8 9)) (st ctrl0)) = some [[0, 0x002CE0F8]] ∧
    stateOf (exec (.bind .exact 0 4 (bindArgs 3000000 8 9)) (st ctrl0)) (fun s => s.lineLevel 9) = some true ∧
    answers (exec (.bind .exact 0 4 (bindArgs 50000001 8 9)) (st ctrl0)) = some [[0x02010000, 0]] ∧
    answers (exec (.bind .exact 0 4 (bindArgs 195311 8 9)) (st ctrl0)) = some [[0x01010000, 0]] := by decide

theorem test_bind_refusals :
    answers (exec (.bind .exact 0 4 (bindArgs 50000001 12 9)) (st ctrl0)) = some [[0x01020000, 0]] ∧
    answers (exec (.bind .exact 0 1 (bindArgs 1000000 8 4)) (st ctrl0)) = some [[0x05020004, 0]] ∧
    answers (exec (.bind .exact 0 4 (bindArgs 1000000 8 3)) (st ctrl0)) = some [[0x05020005, 0]] ∧
    answers (exec (.bind .exact 7 4 (bindArgs 1000000 8 9)) (st ctrl0)) = some [[0x05030000, 0]] := by decide

/-- P1's SUBMIT is queued and starts an activation (R170, R220). -/
theorem test_submit :
    ctrlOf (exec (.submit .exact 0 1 [t1]) (st ctrl0)) (fun x => (x.waitq, x.acqNext)) = some ([⟨0, 1, [t1]⟩], 7) ∧
    answers (exec (.submit .exact 0 1 [t1]) (st ctrl0)) = some [] := by decide

/-- V-PREVAL. -/
theorem test_submit_prevalidation :
    answers (exec (.submit .exact 0 1 [{ t1 with txPresent := false, rxPresent := false }]) (st ctrl0)) =
      some [[0x05020006, 0, 0]] ∧
    answers (exec (.submit .exact 0 1 [{ t1 with tx := 0xFFFFFFFF }]) (st ctrl0)) = some [[0x05020007, 0, 0]] ∧
    answers (exec (.submit .exact 0 1 [{ t1 with width := 12 }]) (st ctrl0)) = some [[0x01020000, 0, 0]] ∧
    answers (exec (.submit .exact 0 1 [{ t1 with width := 16, len := 3 }]) (st ctrl0)) =
      some [[0x03040000, 0, 0]] ∧
    answers (exec (.submit .exact 0 1 [t1, { t1 with speed := 100000 }]) (st ctrl0)) =
      some [[0x01010001, 0, 0, 0]] ∧
    answers (exec (.submit .exact 0 1 [{ t1 with tx := 0xFFFFFFFE, speed := 60000000 }]) (st ctrl0)) = some [] := by
  decide

/-- V-DESTROY: Busy with a Message waiting; else the held select is released and the controller gone. -/
theorem test_destroy :
    answers (exec (.destroy .exact 0) (st { live with waitq := [⟨0, 1, [t1]⟩] })) = some [[0x05040000, 0]] ∧
    stateOf (exec (.destroy .exact 0) (st { live with csHolder := some 1 }))
      (fun s => ((s.ctrlAt 0).isSome, s.busLog, (s.chanAt 0).lessee, s.lineLevel 3)) =
      some (false, [.csDeassert 0 1 (.line 3)], none, true) := by decide

/-- P5 steps 2, 3 and 5. -/
theorem test_suspend_and_resume :
    ctrlOf (exec (.onSuspend .exact 0) (st live)) (fun x => x.suspended) = some true ∧
    answers (exec (.suspendFinish 0) (st { ctrl0 with suspended := true, waitq := [⟨0, 1, [t1]⟩] })) =
      some [[0x04010002, 0, 0], [0, 0]] ∧
    ctrlOf (exec (.suspendFinish 0) (st { live with suspended := true })) (fun x => (x.pstate, x.clkOn)) =
      some (.suspended, false) ∧
    ctrlOf (exec (.onResume .exact 0) (st { ctrl0 with pstate := .suspended, suspended := true, cfgValid := true }))
      (fun x => (x.pstate, x.suspended, x.cfgValid, x.clkOn)) = some (.idle, false, false, false) ∧
    answers (exec (.onResume .exact 0) (st live)) = some [[0x05050000, 0]] := by decide

/-- Controller 0 suspended after it served a Message by DMA and lost its registers. -/
def suspendedCtrl : Ctrl :=
  { ctrl0 with
    pstate := .suspended, suspended := true, curSpeed := 1000000, curMode := ⟨false, false, true⟩, curWidth := 16
    acqNext := 5, dmaDone := true, csHolder := some 1, hw := { hwLoop with txf := [1], shBusy := true }
    seq := { Seq.fresh with
             xi := 1, off := 2, chunk := 2, transport := .dma, actual := 2, ncfg := 1, b := 1
             msg := [t1], msgStatus := .success } }

/-- P5's end state after step 5: as S0 except `last_activity` (R263). -/
theorem test_resume_as_new :
    ctrlOf (exec (.onResume .exact 0) (st suspendedCtrl)) (fun x => x) = some { ctrl0 with lastActivity := 7 } := by
  decide

/-- R226: a secure-routed controller's registers are not restored. -/
theorem test_resume_secure :
    ctrlOf (exec (.onResume .exact 0)
      (st { ctrl0 with pstate := .suspended, suspended := true, secure := true, hw := hwLoop }))
      (fun x => x.hw.clkCfg) = some ⟨49, true⟩ := by decide

/-- V-IDLE: at 99_999, at 100_000, in IDLE, in SUSPENDED. -/
theorem test_on_idle :
    answers (exec (.onIdle .exact 0) { st live with now := 99999 }) = some [[0x05040000, 0]] ∧
    answers (exec (.onIdle .exact 0) { st live with now := 100000 }) = some [[0, 0]] ∧
    stateOf (exec (.onIdle .exact 0) { st live with now := 100000 })
      (fun s => (s.chanAt 0 = Chan.free ∧ s.chanAt 1 = Chan.free : Bool)) = some true ∧
    answers (exec (.onIdle .exact 0) (st ctrl0)) = some [[0, 0]] ∧
    answers (exec (.onIdle .exact 0) (st { ctrl0 with pstate := .suspended, suspended := true })) =
      some [[0x05050002, 0]] := by decide

/-- V-ACTIVE. -/
theorem test_on_active :
    ctrlOf (exec (.onActive .exact 0) (st ctrl0)) (fun x => x.actWait) = some true ∧
    answers (exec (.onActive .exact 0) (st live)) = some [[0, 0]] ∧
    answers (exec (.acqAttempt 0) (stFree { ctrl0 with actWait := true })) = some [[0, 0]] := by decide

/-- V-ACQ: the first failed attempt, and the one that gives up. -/
theorem test_acq_attempt :
    ctrlOf (exec (.acqAttempt 0)
      { stFree { ctrl0 with waitq := [⟨0, 1, [t1]⟩] } with chan := [(0, { Chan.free with lessee := some 5 })] })
      (fun x => (x.acqK, x.acqNext, x.pstate)) = some (1, 1007, .idle) ∧
    answers (exec (.acqAttempt 0)
      { stFree { ctrl0 with waitq := [⟨0, 1, [t1]⟩], acqK := 3 } with
        chan := [(0, { Chan.free with lessee := some 5 })] }) = some [[0x04010001, 0, 0]] := by decide

/-- V-ENC, V-FLUSH. -/
theorem test_flush :
    answers (exec (.flush .exact 0) (st ctrl0)) = some [[0x05050001, 0]] ∧
    answers (exec (.flush .exact 7) (st ctrl0)) = some [[0x05030000, 0]] ∧
    answers (exec (.flush .exact 0) (st live)) = some [[0, 0]] ∧
    answers (exec (.flush .exact 0) (st { live with waitq := [⟨0, 1, [t1]⟩] })) = some [[0x05040000, 0]] := by decide

/-! ### Steps of the sequencer -/

theorem test_seq_start :
    ctrlOf (exec (.seqStart 0 1) (st { live with waitq := [⟨0, 1, [t1]⟩, ⟨5, 2, [t1, t1]⟩] }))
      (fun x => (x.owner, x.seq.b, x.seq.state, x.waitq)) =
      some (some 5, 2, .configuringDevice, [⟨0, 1, [t1]⟩]) := by decide

/-- V-TOGGLE (R121): the other binding's select is released first; `FB_CLK` takes the new binding's delay. -/
theorem test_seq_config_device :
    stateOf (exec (.seqConfigDevice 0) (st { serving 2 t1 .configuringDevice .none with csHolder := some 1 }))
      (fun s => (s.busLog, s.lineLevel 3)) = some ([.csDeassert 0 1 (.line 3)], true) ∧
    ctrlOf (exec (.seqConfigDevice 0) (st (serving 2 t1 .configuringDevice .none)))
      (fun x => (x.hw.fbDelay, x.seq.state)) = some (2, .selectCs) := by decide

/-- P1 and P2: the select is asserted once, and not again while held. -/
theorem test_seq_select_cs :
    stateOf (exec (.seqSelectCs 0) (st (serving 1 t1 .selectCs .none)))
      (fun s => (s.busLog, s.lineLevel 3)) = some ([.csAssert 0 1 (.line 3)], false) ∧
    stateOf (exec (.seqSelectCs 0) (st { serving 1 t1 .selectCs .none with csHolder := some 1 }))
      (fun s => s.busLog) = some [] := by decide

/-- P1: from a stale configuration CONFIGURE runs and polling is chosen; 33 bytes go by DMA (P3); 0 by nothing. -/
theorem test_seq_configuring :
    ctrlOf (exec (.seqConfiguring 0) (st { serving 1 t1 .configuring .none with cfgValid := false, hw := hwDefault }))
      (fun x => (x.hw.clkCfg.toWord, x.hw.modeCfg.toWord, x.seq.transport, x.seq.phase)) =
      some (0x131, 0x8, .poll, .pArm) ∧
    ctrlOf (exec (.seqConfiguring 0) (st (serving 1 { t1 with len := 33 } .configuring .none)))
      (fun x => (x.seq.transport, x.seq.phase)) = some (.dma, .dMap) ∧
    ctrlOf (exec (.seqConfiguring 0) (st (serving 1 { t1 with len := 0 } .configuring .none)))
      (fun x => (x.seq.transport, x.seq.state)) = some (.none, .postDelay) := by decide

/-- V-DELAY: 50 microseconds from 1_000. -/
theorem test_seq_post_delay :
    ctrlOf (exec (.seqPostDelay 0)
      { st { serving 1 t1 .postDelay .none with seq := { (serving 1 t1 .postDelay .none).seq with delayUntil := 1050 } }
        with now := 1049 }) (fun x => x.seq.state) = some .postDelay ∧
    ctrlOf (exec (.seqPostDelay 0)
      { st { serving 1 t1 .postDelay .none with seq := { (serving 1 t1 .postDelay .none).seq with delayUntil := 1050 } }
        with now := 1050 }) (fun x => (x.seq.state, x.seq.actual)) = some (.deselectCs, 2) := by decide

/-- P1 and P2: the last Transfer releases the select, or, with `cs_change`, keeps it and sets the toggle. -/
theorem test_seq_advance :
    stateOf (exec (.seqAdvance 0) (st { serving 1 t1 .deselectCs .none with csHolder := some 1 }))
      (fun s => s.busLog) = some [.csDeassert 0 1 (.line 3)] ∧
    ctrlOf (exec (.seqAdvance 0)
      (st { serving 1 { t1 with csChange := true } .deselectCs .none with csHolder := some 1 }))
      (fun x => (x.csHolder, x.seq.toggle, x.seq.state)) = some (some 1, true, .completed) := by decide

theorem test_seq_complete :
    answers (exec (.seqComplete 0) (st { serving 1 { t1 with speed := 1000000 } .completed .none with
      seq := { (serving 1 { t1 with speed := 1000000 } .completed .none).seq with actual := 2 } })) =
      some [[0, 2, 0x000F4240]] := by decide

/-- P6's end: the saved status word is answered, the select released, the FIFO emptied. -/
theorem test_seq_fail :
    answers (exec (.seqFail 0) (st { serving 1 t1 .failed .none with
      seq := { (serving 1 { t1 with speed := 1000000 } .failed .none).seq with err := 0x03010000, ncfg := 1 } })) =
      some [[0x03010000, 0, 0x000F4240]] ∧
    ctrlOf (exec (.seqFail 0) (st { serving 1 t1 .failed .none with
      csHolder := some 1, hw := { hwLoop with txf := [0xA5, 0x5A] } }))
      (fun x => (x.csHolder, x.hw.txf, x.cfgValid, x.seq.state)) = some (none, [], false, .idle) := by decide

/-! ### Micro-operations -/

/-- V-CONFIG: (50 MHz, mode 3, width 16, BYTE) and (1 MHz, mode 4, width 32, NONE). -/
theorem test_configure :
    ctrlOf (exec (.configure 0 50000000 ⟨true, true, false⟩ 16)
      (st { serving 1 t1 .configuring .none with hw := hwDefault, swapByte := true }))
      (fun x => (x.hw.clkCfg.toWord, x.hw.chCfg.toWord, x.hw.modeCfg.toWord, x.hw.swapCfg.toWord)) =
      some (0x100, 0x4C, 0x20020000, 0x55) ∧
    ctrlOf (exec (.configure 0 1000000 ⟨false, false, true⟩ 32)
      (st { serving 1 t1 .configuring .none with hw := hwDefault }))
      (fun x => (x.hw.clkCfg.toWord, x.hw.chCfg.toWord, x.hw.modeCfg.toWord, x.curSpeed)) =
      some (0x131, 0, 0x40040008, 1000000) := by decide

/-- R109: in no other state than CONFIGURING; in mid-Transfer nothing is emptied. -/
theorem test_configure_only_in_configuring :
    ctrlOf (exec (.configure 0 50000000 ⟨true, true, false⟩ 16)
      (st { serving 1 t1 .transporting .pPoll with hw := { hwLoop with txf := [0xA5] } }))
      (fun x => (x.hw.txf, x.curWidth)) = some ([0xA5], 8) := by decide

/-- V-CS. -/
theorem test_cs_assert :
    stateOf (exec (.csAssert 0 1) (st live)) (fun s => s.lineLevel 3) = some false ∧
    ctrlOf (exec (.csAssert 0 2) (st live)) (fun x => x.hw.csReg.toWord) = some 0x0 ∧
    ctrlOf (exec (.csAssert 0 3) (st live)) (fun x => x.hw.csReg.toWord) = some 0xE := by decide

theorem test_cs_deassert :
    stateOf (exec (.csDeassert 0) (st { live with csHolder := some 1 })) (fun s => s.lineLevel 3) = some true ∧
    ctrlOf (exec (.csDeassert 0)
      (st { live with csHolder := some 3, hw := { hwLoop with csReg := ⟨false, true, true, true⟩ } }))
      (fun x => x.hw.csReg.toWord) = some 0xF ∧
    stateOf (exec (.csDeassert 0) (st live)) (fun s => s.busLog) = some [] := by decide

/-- V-ERRACK, rows 0x20 and 0x14 (here `TX_DONE` is 1, so the snapshot has bit 25 too). -/
theorem test_err_ack :
    stateOf (exec (.errAck 0) (st { live with hw := { hwLoop with sticky := ⟨false, true, false, true⟩ } }))
      (fun s => s.errLog) =
      some [⟨0, .rxUnderrun, 0x02000014, 7⟩, ⟨0, .txUnderrun, 0x02000014, 7⟩] ∧
    ctrlOf (exec (.errAck 0) (st { live with hw := { hwLoop with sticky := ⟨false, true, false, true⟩ } }))
      (fun x => (x.errLatch.nibble, x.hw.sticky.nonempty)) = some (0b1010, false) ∧
    statusWord .overrun (failInfo .overrun 0 ⟨true, false, true, false⟩) = 0x03020500 ∧
    statusWord .underrun (failInfo .underrun 2 ⟨false, true, false, true⟩) = 0x03030A02 := by decide

/-- A masked condition does not enable ERR_IRQ (R241). -/
theorem test_err_irq :
    stateOf (exec (.errIrq 0) (st { live with hw := { hwLoop with sticky := ⟨true, false, false, false⟩ } }))
      (fun s => s.errLog.length) = some 1 ∧
    stateOf (exec (.errIrq 0) (st { live with hw := { hwLoop with
      sticky := ⟨true, false, false, false⟩, intEn := ⟨false, true, true, true⟩ } }))
      (fun s => s.errLog.length) = some 0 := by decide

/-- V-FLUSH. -/
theorem test_flush_op :
    ctrlOf (exec (.flushOp 0) (st { live with hw := { hwLoop with
      chCfg := ⟨true, true, false, false, false, true⟩, modeCfg := ⟨true, true, true, true, 0, 0⟩,
      packetCnt := ⟨32, true⟩, txf := [1, 2, 3], rxf := [1, 2, 3, 4, 5] }, errLatch := ⟨true, false, false, false⟩ }))
      (fun x => (x.hw.chCfg.toWord + x.hw.packetCnt.toWord, x.hw.modeCfg.toWord, x.hw.txf ++ x.hw.rxf, x.cfgValid)) =
      some (0, 9, [], false) := by decide

/-- V-INIT. -/
theorem test_hw_init :
    ctrlOf (exec (.hwInit 0) (st { live with hw := { hwLoop with
      txf := [1], rxf := [2], pktRem := 9, shBusy := true, sticky := ⟨true, true, true, true⟩ } }))
      (fun x => (x.hw.csReg.toWord, condsStatusWord x.hw.intEn, x.hw.clkCfg.toWord, x.hw.statusWord)) =
      some (0x1, 0x3C, 0, 0x02000000) := by decide

theorem test_dma_abort :
    stateOf (exec (.dmaAbort 0) { st { live with rxBusy := true } with
      chan := [(0, ⟨some 0, true, .rx, 0x2000, 5, 1, 1, true⟩), (1, ⟨some 9, true, .tx, 0x1000, 5, 1, 1, false⟩)] })
      (fun s => (s.chanAt 0, (s.chanAt 1).armed)) =
      some (⟨some 0, false, .rx, 0x2000, 0, 1, 1, false⟩, true) := by decide

/-- P1 by the composite: the two bytes arrive, and two `Word` events are logged. -/
theorem test_xfer_poll :
    stateOf (exec (.xferPoll 0) (st (serving 1 t1 .transporting .pArm)))
      (fun s => (Memory.read s.mem 0x2000, Memory.read s.mem 0x2001, s.busLog)) =
      some (0xA5, 0x5A, [.word 0 8 false false 49 0xA5 true 0xA5, .word 0 8 false false 49 0x5A true 0x5A]) := by
  decide

/-- P6 by the composite: with the engine unable to shift, Timeout, 100 ms after 7. -/
theorem test_xfer_poll_timeout :
    stateOf (exec (.xferPoll 0)
      (st { serving 1 t1 .transporting .pArm with hw := { hwLoop with clkCfg := ⟨49, false⟩ } }))
      (fun s => (s.now, (s.ctrlAt 0).map fun x => (x.seq.state, x.seq.err))) =
      some (100007, some (.failed, 0x03010000)) := by decide

/-- P1's bytes by DMA, pre-mapped at 0x9000 and 0xA000. -/
theorem test_xfer_dma :
    stateOf (exec (.xferDma 0)
      (st (serving 1 { t1 with premapped := true, txDma := 0x9000, rxDma := 0xA000 } .transporting .dMap)))
      (fun s => (Memory.read s.mem 0x2000, Memory.read s.mem 0x2001, s.busLog.length)) = some (0xA5, 0x5A, 2) := by
  decide

/-- A mapping refused ends the composite in FAILED with DmaMapFailed (R148). -/
theorem test_xfer_dma_refused :
    ctrlOf (exec (.xferDma 0) { st (serving 1 t1 .transporting .dMap) with mapTape := [some 0x9000, none] })
      (fun x => (x.seq.state, x.seq.err)) = some (.failed, 0x03050000) := by decide

/-! ### Steps of the transports, the engine, the channels -/

theorem test_p_arm :
    ctrlOf (exec (.pArm 0) (st (serving 1 t1 .transporting .pArm)))
      (fun x => (x.hw.txf, x.hw.packetCnt.toWord, x.hw.chCfg.toWord, x.seq.deadline)) =
      some ([0xA5, 0x5A], 0x10002, 0x3, 100007) := by decide

/-- P1: `rxf` at 2 bytes completes; P6: at the deadline, Timeout. -/
theorem test_p_poll :
    ctrlOf (exec (.pPoll 0) (st { serving 1 t1 .transporting .pPoll with hw := { hwLoop with rxf := [0xA5, 0x5A] } }))
      (fun x => x.seq.phase) = some .pDrain ∧
    ctrlOf (exec (.pPoll 0) (st { serving 1 t1 .transporting .pPoll with hw := { hwLoop with rxf := [0xA5] } }))
      (fun x => (x.seq.state, x.seq.err)) = some (.failed, 0x03010000) := by decide

theorem test_p_drain :
    stateOf (exec (.pDrain 0)
      (st { serving 1 t1 .transporting .pDrain with hw := { hwLoop with rxf := [0xA5, 0x5A] } }))
      (fun s => (Memory.read s.mem 0x2000, Memory.read s.mem 0x2001)) = some (0xA5, 0x5A) ∧
    ctrlOf (exec (.pDrain 0)
      (st { serving 1 t1 .transporting .pDrain with hw := { hwLoop with rxf := [0xA5, 0x5A] } }))
      (fun x => (x.hw.packetCnt.toWord, x.hw.chCfg.toWord, x.seq.state)) = some (0, 0, .postDelay) := by decide

/-- Both mappings granted; the transmit mapping refused (R148). -/
theorem test_d_map :
    stateOf (exec (.dMap 0) { st (serving 1 t1 .transporting .dMap) with mapTape := [some 0x9000, some 0xA000] })
      (fun s => s.maps) = some [⟨0, .fromDevice, 0xA000, 0x2000, 2⟩, ⟨0, .toDevice, 0x9000, 0x1000, 2⟩] ∧
    ctrlOf (exec (.dMap 0) { st (serving 1 t1 .transporting .dMap) with mapTape := [none] })
      (fun x => (x.seq.state, x.seq.err)) = some (.failed, 0x03050000) := by decide

/-- P3 (V-DARM): chunk 33, burst 1. -/
theorem test_d_arm :
    ctrlOf (exec (.dArm 0) (st { serving 1 { t1 with len := 33 } .transporting .dArm with
      seq := { (serving 1 { t1 with len := 33 } .transporting .dArm).seq with
        chunk := 33, mapTx := some 0x9000, mapRx := some 0xA000 } }))
      (fun x => (x.hw.modeCfg.toWord, x.hw.packetCnt.toWord, x.hw.chCfg.toWord, x.seq.deadline)) =
      some (0xE, 0x10021, 0x3, 100007) := by decide

/-- R154: completion with a receive direction ends the sub-transfer; without, TX_DONE is waited for. -/
theorem test_d_wait :
    ctrlOf (exec (.dWait 0) (st { serving 1 t1 .transporting .dWait with
      dmaDone := true, seq := { (serving 1 t1 .transporting .dWait).seq with chunk := 2 } }))
      (fun x => (x.seq.off, x.seq.state)) = some (2, .postDelay) ∧
    ctrlOf (exec (.dWait 0) (st { serving 1 { t1 with rxPresent := false } .transporting .dWait with dmaDone := true }))
      (fun x => x.seq.phase) = some .dTxdrain := by decide

theorem test_d_txdrain :
    ctrlOf (exec (.dTxdrain 0) (st { serving 1 { t1 with rxPresent := false } .transporting .dTxdrain with
      seq := { (serving 1 { t1 with rxPresent := false } .transporting .dTxdrain).seq with chunk := 2 } }))
      (fun x => x.seq.state) = some .postDelay ∧
    ctrlOf (exec (.dTxdrain 0) (st { serving 1 { t1 with rxPresent := false } .transporting .dTxdrain with
      hw := { hwLoop with txf := [1] } })) (fun x => x.seq.err) = some 0x03010000 := by decide

/-- The engine with a two-byte loopback transaction of 8-bit words running, both directions on. -/
def hwRunning : Hw :=
  { hwLoop with
    chCfg := ⟨true, true, false, false, false, false⟩, packetCnt := ⟨2, true⟩, pktRem := 2, txf := [0xA5, 0x5A] }

theorem test_sh_load :
    ctrlOf (exec (.shLoad 0) (st { live with hw := hwRunning })) (fun x => (x.hw.shWord, x.hw.txf, x.hw.shBusy)) =
      some (0xA5, [0x5A], true) := by decide

/-- P7: with `rxf` full the word is lost and RX_OVERRUN set. -/
theorem test_sh_done :
    ctrlOf (exec (.shDone 0) (st { live with hw := { hwRunning with shBusy := true, shWord := 0xA5 } }))
      (fun x => (x.hw.rxf, x.hw.pktRem, x.hw.shBusy)) = some ([0xA5], 1, false) ∧
    ctrlOf (exec (.shDone 0) (st { live with
      fifoDepth := 16, hw := { hwRunning with shBusy := true, rxf := List.replicate 16 0 } }))
      (fun x => (x.hw.rxf.length, x.hw.sticky.rxOverrun, x.hw.pktRem)) = some (16, true, 1) := by decide

/-- Channel 1 armed for two beats of one byte from device address 0x9000, mapped to 0x1000. -/
def txBeatState : State :=
  { st { live with hw := { hwLoop with modeCfg := ⟨false, true, true, true, 0, 0⟩ } } with
    chan := [(0, { Chan.free with lessee := some 0 }), (1, ⟨some 0, true, .tx, 0x9000, 2, 1, 1, false⟩)]
    maps := [⟨0, .toDevice, 0x9000, 0x1000, 2⟩] }

theorem test_dma_tx_beat :
    ctrlOf (exec (.dmaTxBeat 1) txBeatState) (fun x => x.hw.txf) = some [0xA5] ∧
    stateOf (exec (.dmaTxBeat 1) txBeatState) (fun s => s.chanAt 1) =
      some ⟨some 0, true, .tx, 0x9001, 1, 1, 1, false⟩ := by decide

/-- Channel 0 armed for one beat of one byte to device address 0xA000, mapped to 0x2000. -/
def rxBeatState : State :=
  { st { live with hw := { hwLoop with modeCfg := ⟨false, true, true, true, 0, 0⟩, rxf := [0xA5] } } with
    chan := [(0, ⟨some 0, true, .rx, 0xA000, 1, 1, 1, false⟩), (1, { Chan.free with lessee := some 0 })]
    maps := [⟨0, .fromDevice, 0xA000, 0x2000, 2⟩] }

theorem test_dma_rx_beat :
    stateOf (exec (.dmaRxBeat 0) rxBeatState) (fun s => (Memory.read s.mem 0x2000, (s.chanAt 0).notify)) =
      some (0xA5, true) ∧
    faultOf (exec (.dmaRxBeat 0) { rxBeatState with maps := [] }) = some .deviceAccessUnmapped := by decide

/-- P7: the transmit notification alone does not release the completion (R152). -/
theorem test_dma_done :
    ctrlOf (exec (.dmaTxDone 1) { st { live with txBusy := true, rxBusy := true } with
      chan := [(1, ⟨some 0, true, .tx, 0, 0, 1, 1, true⟩)] }) (fun x => (x.txBusy, x.dmaDone)) = some (false, false) ∧
    ctrlOf (exec (.dmaRxDone 0) { st { live with rxBusy := true } with
      chan := [(0, ⟨some 0, true, .rx, 0, 0, 1, 1, true⟩)] }) (fun x => (x.rxBusy, x.dmaDone)) =
      some (false, true) := by decide

theorem test_err_inject :
    ctrlOf (exec (.errInject 0 ⟨true, false, false, false⟩)
      { st { live with hw := hwRunning } with params := ⟨false, true, 3, 999⟩ }) (fun x => x.hw.sticky.rxOverrun) =
      some true ∧
    ctrlOf (exec (.errInject 0 ⟨true, false, false, false⟩) (st { live with hw := hwRunning }))
      (fun x => x.hw.sticky.rxOverrun) = some false := by decide

theorem test_tick : stateOf (exec (.tick 999) (st live)) (fun s => s.now) = some 1007 := by decide

theorem test_power_loss :
    stateOf (exec (.powerLoss 0) (st { ctrl0 with pstate := .suspended, suspended := true })) (fun s => s.draws) =
      some 16 ∧
    stateOf (exec (.powerLoss 0) (st live)) (fun s => s) = some (st live) := by decide

/-! ### Witnesses: the hypotheses of each obligation, clause by clause, met by concrete states and operands -/

/-- The outcome is a next state. -/
def runs (o : Out) : Bool := (stateOf o fun _ => true) = some true

/-- A state with an encoded input scheduled. -/
def scheduled (e : Encoded) : State := { st live with inbox := [.encoded e] }

theorem witness_DecodeEncodeRoundTrip :
    (Instr.submit .exact 255 255 [t1]).wellFormed = true ∧
    (Instr.bind .exact 0 1 (bindArgs 1000000 8 255)).wellFormed = true ∧
    (Instr.errInject 0 ⟨false, false, false, true⟩).wellFormed = true := by decide

theorem witness_EncodingsAreUnique :
    decode (.packet [0x09030000]) = .ok (.flush .exact 3) ∧ (Instr.flush .exact 3).wellFormed = true ∧
    decode (.tag [0x39, 255, 255, 255, 255]) = .ok (.tick 0xFFFFFFFF) ∧ (Instr.tick 0xFFFFFFFF).wellFormed = true ∧
    decode (.tag [0x10, 0, 255]) = .ok (.seqStart 0 255) ∧ (Instr.seqStart 0 255).wellFormed = true := by
  decide

theorem witness_StepRunsDecodedInstruction :
    (scheduled (.tag [0x26, 0])).inbox = [.encoded (.tag [0x26, 0])] ∧ decode (.tag [0x26, 0]) = .ok (.dmaAbort 0) ∧
    decodeTableWord 8 0x39 = some (.tick 0) ∧ decodeTableWord 32 0x09000000 = some (.flush .exact 0) := by decide

theorem witness_PowerOnIsQuiet : State.reset.inbox = [] ∧ (st live).inbox = [] := by decide

/-- Reserved opcodes at the ends of the range; a nonzero must-be-zero field in the header, in NEW's body, in BIND's
line id without a line and in a SUBMIT's second Transfer; one together with a wrong length; a wrong length alone; a
SUBMIT of none. -/
theorem witness_CommandPortAnswers :
    (scheduled (.packet [0x00000000])).inbox = [.encoded (.packet [0x00000000])] ∧ hdrOp 0x00000000 = 0 ∧
    0x0A ≤ (hdrOp 0x0A000000).toNat ∧ 0x0A ≤ (hdrOp 0xFF123456).toNat ∧
    (let w : Word := 0x02000001
     1 ≤ w.toNat / 2 ^ 24 ∧ w.toNat / 2 ^ 24 ≤ 9 ∧ w.toNat / 2 ^ 24 ≠ 4 ∧ w.toNat % 2 ^ 8 ≠ 0) ∧
    (0x01010000 : Word).toNat / 2 ^ 24 = 1 ∧ (0x00000240 : Word) &&& 0xFFFCFE00 ≠ 0 ∧
    (let w : Word := 0x00000600
     w &&& 0xFFFF8000 = 0 ∧ w &&& 1 = 0 ∧ w &&& 0x1FE = 0 ∧ (w ||| 8) &&& 0x1FE ≠ 0) ∧
    (let w : Word := 0x04000102
     w.toNat / 2 ^ 24 = 4 ∧ 1 < w.toNat % 2 ^ 8 ∧ (0x340 : Word) &&& 0xF0C0 ≠ 0) ∧
    ([0x02000000, 0] : List Word).length ≠ 1 ∧ ([0x04000101] : List Word).length ≠ 1 + 8 * 1 ∧
    (0x04000100 : Word).toNat / 2 ^ 24 = 4 ∧ (0x04000100 : Word).toNat % 2 ^ 8 = 0 := by decide

theorem witness_RegisterReadsBackWrite :
    { hwDefault with txf := List.replicate 256 0, rxf := List.replicate 256 0 }.txf.length ≤ 256 ∧
    { hwDefault with txf := List.replicate 256 0, rxf := List.replicate 256 0 }.rxf.length ≤ 256 := by
  simp only [List.length_replicate]
  decide

theorem witness_RegisterAccessesMoveFifos :
    { hwDefault with chCfg := ⟨false, false, false, false, true, false⟩ }.chCfg.swRst = true ∧
    hwDefault.chCfg.swRst = false ∧ 64 - hwDefault.txf.length < 65 ∧ 4 ≤ 64 - hwDefault.txf.length ∧
    0 ≤ hwDefault.rxf.length ∧ hwDefault.rxf.length < 1 ∧ Reg.clkCfg ≠ .txData ∧
    (hwDefault.regWrite 64 .clkCfg 4 1).clkCfg.div ≠ hwDefault.clkCfg.div ∧
    (hwDefault.regWrite 64 .clkCfg 4 0x100).clkCfg.div = hwDefault.clkCfg.div := by decide

/-- The last four bytes of memory. -/
theorem witness_MemoryIsLittleEndian :
    4 ≤ 4 ∧ (0xFFFFFFFC : Word).toNat + 4 ≤ 2 ^ 32 ∧ (0xFFFFFFFB : Word).toNat < (0xFFFFFFFC : Word).toNat := by decide

/-- Receive only: no transmit direction. -/
def hwReceiving : Hw := { hwRunning with chCfg := ⟨false, true, false, false, false, false⟩, txf := [] }

/-- Both directions on; a swap R46 gives no result for; receive only; each reason not to be enabled that is not one
field's value: no direction on, too few bytes, no room where the engine stalls. -/
theorem witness_ShLoadStartsOneWord :
    ((st { live with hw := hwRunning }).ctrlAt 0 = some { live with hw := hwRunning } ∧ hwRunning.clkCfg.enclk = true ∧
      hwRunning.chCfg.swRst = false ∧ hwRunning.shBusy = false ∧ hwRunning.packetCnt.en = true ∧
      0 < hwRunning.pktRem.toNat ∧ hwRunning.wb ≤ 64 - hwRunning.rxf.length ∧ hwRunning.chCfg.txchOn = true ∧
      hwRunning.wb ≤ hwRunning.txf.length ∧ hwRunning.swapCfg.swapTx 0xA5 hwRunning.wb = some 0xA5) ∧
    (let h := { hwRunning with
       modeCfg := ⟨false, false, false, true, 1, 1⟩, swapCfg := ⟨true, false, false, false, false, false⟩ }
     h.wb ≤ h.txf.length ∧ h.chCfg.txchOn = true ∧ h.swapCfg.swapTx (leWord (h.txf.take h.wb)) h.wb = none) ∧
    ((st { live with hw := hwReceiving }).ctrlAt 0 = some { live with hw := hwReceiving } ∧
      hwReceiving.clkCfg.enclk = true ∧ hwReceiving.chCfg.swRst = false ∧ hwReceiving.shBusy = false ∧
      hwReceiving.packetCnt.en = true ∧ 0 < hwReceiving.pktRem.toNat ∧ hwReceiving.chCfg.txchOn = false ∧
      hwReceiving.chCfg.rxchOn = true ∧ live.clkOn = true) ∧
    (hwDefault.chCfg.txchOn = false ∧ hwDefault.chCfg.rxchOn = false) ∧ ctrl0.clkOn = false ∧
    { hwRunning with txf := [] }.txf.length < hwRunning.wb ∧
    (({ st live with params := ⟨true, false, 3, 999⟩ } : State).params.shifterStalls = true ∧
      16 - (List.replicate 16 (0 : Byte)).length < hwRunning.wb) := by decide

/-- A word on the wire: received, lost with a full `rxf`, discarded; with a swap R46 gives no result for; with
`pkt_rem` 0; none on the wire; the clocks gated. -/
theorem witness_ShDoneEndsTheWord :
    (let h := { hwRunning with shBusy := true, shWord := 0xA5 }
     (st { live with hw := h }).ctrlAt 0 = some { live with hw := h } ∧ h.shBusy = true ∧ h.pktRem ≠ 0 ∧
     h.modeCfg.loopback = true ∧ h.chCfg.rxchOn = true ∧ h.wb ≤ 64 - h.rxf.length ∧
     h.swapCfg.swapRx 0xA5 h.wb = some 0xA5) ∧
    (let h := { hwRunning with shBusy := true, rxf := List.replicate 16 0 }
     h.shBusy = true ∧ h.pktRem ≠ 0 ∧ h.chCfg.rxchOn = true ∧ 16 - h.rxf.length < h.wb) ∧
    (let h := { hwRunning with shBusy := true, chCfg := ⟨true, false, false, false, false, false⟩ }
     h.shBusy = true ∧ h.pktRem ≠ 0 ∧ h.chCfg.rxchOn = false) ∧
    (let h := { hwRunning with
       shBusy := true, modeCfg := ⟨false, false, false, true, 1, 1⟩
       swapCfg := ⟨false, false, false, true, false, false⟩ }
     h.shBusy = true ∧ h.swapCfg.swapRx 0xA5 h.wb = none) ∧
    { hwRunning with shBusy := true, pktRem := 0 }.pktRem = 0 ∧ hwRunning.shBusy = false ∧ ctrl0.clkOn = false := by
  decide

theorem witness_EnvironmentSteps :
    (let s := { st { live with hw := hwRunning } with params := ⟨false, true, 3, 999⟩ }
     s.ctrlAt 0 = some { live with hw := hwRunning } ∧ s.params.spuriousErrors = true ∧ live.clkOn = true ∧
     hwRunning.inTxn = true) ∧ Conds.nonempty ⟨true, false, false, false⟩ = true ∧
    (st live).params.spuriousErrors = false ∧ hwDefault.inTxn = false ∧
    Conds.nonempty ⟨false, false, false, false⟩ = false ∧
    runs (exec (.dWait 0) (st live)) = true ∧ runs (exec (.xferPoll 0) (st live)) = true ∧
    (∀ d, Instr.dWait 0 ≠ .tick d) ∧ (∀ c, Instr.dWait 0 ≠ .xferPoll c) ∧ (∀ c, Instr.dWait 0 ≠ .xferDma c) :=
  ⟨by decide, rfl, rfl, rfl, rfl, rfl, rfl, nofun, nofun, nofun⟩

/-- The slowest rate (divider 255) and the fastest (divider 0); each way to have none, and the value next to it. -/
theorem witness_RateIsBestBelowRequest :
    rate 100000000 195312 = some (255, 195312) ∧ rate 100000000 60000000 = some (0, 50000000) ∧ 195312 ≤ 60000000 ∧
    rate 100000000 0 = none ∧ rate 100000000 195311 = none ∧ rate 1 1 = none ∧ rate 2 1 = some (0, 1) := by
  decide

theorem witness_ConfigureProgramsFormat :
    (let x := serving 1 t1 .configuring .none
     (st x).ctrlAt 0 = some x ∧ x.clkOn = true ∧ x.seq.state = .configuring ∧
      rate x.srcClk.toNat (50000000 : Word).toNat = some (0, 50000000)) ∧
    ((12 : BitVec 6) ≠ 8 ∧ (12 : BitVec 6) ≠ 16 ∧ (12 : BitVec 6) ≠ 32) ∧
    rate live.srcClk.toNat (195311 : Word).toNat = none ∧
    (serving 1 t1 .transporting .pPoll).seq.state ≠ .configuring := by decide

/-- S0's controller without it, with the binding there, and, for the later checks, without binding 4: a line taken,
width 12, speed 0, too fast (50_000_001), too slow (195_311), and the slowest and fastest BIND that pass. -/
theorem witness_BindRecordsAchievedSpeed :
    (st ctrl0).ctrlAt 7 = none ∧ (st ctrl0).ctrlAt 0 = some ctrl0 ∧ ctrl0.bindAt 1 = some lineBinding ∧
    ctrl0.bindAt 4 = none ∧ (bindArgs 1 8 3).linePresent = true ∧
    (∃ p ∈ (st ctrl0).ctrl, ∃ q ∈ p.2.bind, q.2.line = some 3) ∧
    (¬ ∃ p ∈ (st ctrl0).ctrl, ∃ q ∈ p.2.bind, q.2.line = some 9) ∧
    ctrl0.srcClk.toNat < 2 * (50000001 : Word).toNat ∧ ¬ ctrl0.srcClk.toNat < 2 * (50000000 : Word).toNat ∧
    rate ctrl0.srcClk.toNat (195311 : Word).toNat = none ∧
    rate ctrl0.srcClk.toNat (195312 : Word).toNat = some (255, 195312) ∧
    rate ctrl0.srcClk.toNat (50000000 : Word).toNat = some (0, 50000000) := by decide

/-- The level: active for each of its three reasons, inactive for each of its two, and held. -/
theorem witness_ChipSelectOperations :
    ((st live).ctrlAt 0 = some live ∧ live.clkOn = true ∧ live.csHolder = none ∧
    live.bindAt 1 = some lineBinding ∧ lineBinding.csMode = .manual ∧ lineBinding.line = some 3 ∧
    live.bindAt 2 = some nativeBinding ∧ nativeBinding.csMode = .manual ∧ nativeBinding.line = none ∧
    live.bindAt 3 = some autoBinding ∧ autoBinding.csMode = .auto ∧ live.bindAt 9 = none) ∧
    ((st { live with csHolder := some 3 }).ctrlAt 0 = some { live with csHolder := some 3 } ∧
    (st { ctrl0 with csHolder := some 2 }).ctrlAt 0 = some { ctrl0 with csHolder := some 2 } ∧
    (st ctrl0).ctrlAt 0 = some ctrl0 ∧ ctrl0.bindAt 1 = some lineBinding ∧ ctrl0.csHolder = none ∧
    ctrl0.clkOn = false) ∧
    (CsReg.mk false false false false).auto = false ∧ hwRunning.shBusy = false ∧ hwRunning.packetCnt.en = true ∧
    hwRunning.pktRem ≠ 0 ∧ hwRunning.chCfg.txchOn = true ∧ (CsReg.mk false true true true).idleHold = true ∧
    (CsReg.mk true false false false).sigInact = true ∧ hwDefault.packetCnt.en = false := by decide

/-- P1's Transfer at P_ARM, and one as long as the FIFO. -/
theorem witness_PArmLoadsFifo :
    (let x := serving 1 t1 .transporting .pArm
     (st x).ctrlAt 0 = some x ∧ x.seq.state = .transporting ∧ x.seq.phase = .pArm ∧ x.transfer = some t1 ∧
     x.clkOn = true ∧ x.hw.chCfg.swRst = false ∧ x.hw.txf = [] ∧ x.curWidth.toNat / 8 = 1 ∧ t1.len.toNat % 1 = 0 ∧
     t1.len.toNat ≤ x.fifoDepth) ∧
    (let x := serving 1 { t1 with len := 64 } .transporting .pArm
     x.transfer = some { t1 with len := 64 } ∧ 64 ≤ x.fifoDepth) := by decide

/-- A condition set; completion; at the deadline; one microsecond before it. -/
theorem witness_PPollLooksOnce :
    (let x := serving 1 t1 .transporting .pPoll
     (st x).ctrlAt 0 = some x ∧ x.seq.state = .transporting ∧ x.seq.phase = .pPoll ∧ x.transfer = some t1 ∧
     x.clkOn = true ∧ (x.errLatch.union x.hw.sticky).nonempty = false ∧ ¬ t1.len.toNat ≤ x.hw.rxf.length ∧
     x.seq.deadline ≤ (st x).now) ∧
    (let y := serving 1 t1 .transporting .pPoll
     let x := { y with seq := { y.seq with deadline := 8 } }
     x.transfer = some t1 ∧ ¬ t1.len.toNat ≤ x.hw.rxf.length ∧ (st x).now < x.seq.deadline) ∧
    (let x := { serving 1 t1 .transporting .pPoll with hw := { hwLoop with rxf := [1, 2] } }
     x.transfer = some t1 ∧ (x.errLatch.union x.hw.sticky).nonempty = false ∧ t1.len.toNat ≤ x.hw.rxf.length) ∧
    (let x := { serving 1 t1 .transporting .pPoll with errLatch := ⟨false, true, false, false⟩ }
     x.transfer = some t1 ∧ (x.errLatch.union x.hw.sticky).nonempty = true) := by decide

/-- Received bytes to store; a condition set; transmit-only, whatever `rx` is. -/
theorem witness_PDrainStoresReceivedBytes :
    (let x := { serving 1 t1 .transporting .pDrain with hw := { hwLoop with rxf := [1, 2] } }
     (st x).ctrlAt 0 = some x ∧ x.seq.state = .transporting ∧ x.seq.phase = .pDrain ∧ x.transfer = some t1 ∧
     x.clkOn = true ∧ t1.rx.toNat + t1.len.toNat ≤ 2 ^ 32 ∧ x.hw.chCfg.swRst = false ∧ x.curWidth.toNat / 8 = 1 ∧
     t1.len.toNat % 1 = 0 ∧ t1.len.toNat ≤ x.hw.rxf.length ∧ (x.errLatch.union x.hw.sticky).nonempty = false) ∧
    (let x := { serving 1 t1 .transporting .pDrain with
        hw := { hwLoop with rxf := [1, 2], sticky := ⟨true, false, false, false⟩ } }
     x.transfer = some t1 ∧ t1.len.toNat ≤ x.hw.rxf.length ∧ (x.errLatch.union x.hw.sticky).nonempty = true) ∧
    (let t := { t1 with rxPresent := false, rx := 0xFFFFFFFF }
     let x := serving 1 t .transporting .pDrain
     (st x).ctrlAt 0 = some x ∧ x.transfer = some t ∧ (t.rxPresent = true → t.rx.toNat + t.len.toNat ≤ 2 ^ 32) ∧
     (t.rxPresent = true → t.len.toNat ≤ x.hw.rxf.length) ∧ x.hw.chCfg.swRst = false) := by
  decide

/-- The phases; loopback; transmit-only; receive-only without loopback, at the top of memory, in swapped words of 32
bits; overlapping buffers; the engine with `ENCLK` 0. -/
theorem witness_PolledLoopbackEchoes :
    (let x := serving 1 t1 .transporting .pArm
     (st x).ctrlAt 0 = some x ∧ x.seq.state = .transporting ∧ x.seq.phase = .pArm ∧ x.transfer = some t1 ∧
     x.clkOn = true ∧ t1.txPresent = true ∧ t1.rxPresent = true ∧ x.curWidth = 8 ∧
     t1.len.toNat % (x.curWidth.toNat / 8) = 0 ∧ t1.len.toNat ≤ x.fifoDepth ∧ x.fifoDepth ≤ 256 ∧
     t1.rx.toNat + t1.len.toNat ≤ 2 ^ 32 ∧ x.hw.chCfg.swRst = false ∧ x.hw.clkCfg.enclk = true ∧
     x.hw.modeCfg.loopback = true ∧ x.hw.modeCfg.chTsz = widthCode x.curWidth) ∧
    (let x := serving 1 t1 .transporting .pArm
     x.hw.swapCfg = swapVal x.curWidth x.swapByte ∧ x.hw.txf = [] ∧ x.hw.rxf = [] ∧ x.hw.shBusy = false ∧
     x.hw.sticky = ⟨false, false, false, false⟩) ∧
    (let t := { t1 with rxPresent := false, rx := 0xFFFFFFFF }
     let x := serving 1 t .transporting .pArm
     (st x).ctrlAt 0 = some x ∧ x.transfer = some t ∧ t.txPresent = true ∧
     (t.rxPresent = true → t.rx.toNat + t.len.toNat ≤ 2 ^ 32)) ∧
    (let t := { t1 with txPresent := false, rx := 0xFFFFFFF8, len := 8 }
     let x := { serving 1 t .transporting .pArm with
       curWidth := 32, swapByte := true
       hw := { hwLoop with
         modeCfg := ⟨false, false, false, false, 2, 2⟩, swapCfg := ⟨true, true, true, true, true, true⟩ } }
     (st x).ctrlAt 0 = some x ∧ x.transfer = some t ∧ t.rxPresent = true ∧ t.rx.toNat + t.len.toNat ≤ 2 ^ 32 ∧
     t.len.toNat % (x.curWidth.toNat / 8) = 0 ∧ x.hw.modeCfg.loopback = false ∧
     x.hw.modeCfg.chTsz = widthCode x.curWidth ∧ x.hw.swapCfg = swapVal x.curWidth x.swapByte) ∧
    (let t := { t1 with rx := 0x1001 }
     (serving 1 t .transporting .pArm).transfer = some t ∧ t.txPresent = true ∧ t.rxPresent = true) ∧
    (let x := { serving 1 t1 .transporting .pArm with hw := { hwLoop with clkCfg := ⟨49, false⟩ } }
     (st x).ctrlAt 0 = some x ∧ x.transfer = some t1 ∧ 0 < t1.len.toNat ∧ x.hw.clkCfg.enclk = false ∧
     x.hw.chCfg.swRst = false ∧ x.hw.txf = [] ∧ x.hw.rxf = [] ∧ x.hw.shBusy = false) := by decide

/-- Pre-mapped; both directions with answers up to the top of the device space; each direction alone; a refusal of
the first, of the second and of a receive-only mapping, in the first sub-transfer and in the second (offset 65535 of
65536 bytes). -/
theorem witness_DMapMapsSubTransfer :
    (let t := { t1 with premapped := true }
     let x := serving 1 t .transporting .dMap
     (st x).ctrlAt 0 = some x ∧ x.seq.state = .transporting ∧ x.seq.phase = .dMap ∧ x.transfer = some t ∧
     t.premapped = true ∧ x.seq.weMappedTx = false ∧ x.seq.weMappedRx = false) ∧
    (let x := serving 1 t1 .transporting .dMap
     let s := { st x with mapTape := [some 0x9000, some 0xFFFFFFFE] }
     s.ctrlAt 0 = some x ∧ x.transfer = some t1 ∧ t1.premapped = false ∧ t1.txPresent = true ∧ t1.rxPresent = true ∧
     (0x9000 : Word).toNat + 2 ≤ 2 ^ 32 ∧ (0xFFFFFFFE : Word).toNat + 2 ≤ 2 ^ 32) ∧
    (let t := { t1 with rxPresent := false }
     (serving 1 t .transporting .dMap).transfer = some t ∧ t.txPresent = true ∧ t.rxPresent = false) ∧
    (let t := { t1 with txPresent := false }
     (serving 1 t .transporting .dMap).transfer = some t ∧ t.txPresent = false ∧ t.rxPresent = true) ∧
    ¬ (0xFFFFFFFF : Word).toNat + 2 ≤ 2 ^ 32 ∧
    ({ st live with mapTape := [none] }).mapTape[0]? = some none ∧
    ({ st live with mapTape := [some 0x9000, none] }).mapTape[1]? = some none ∧
    (let t := { t1 with len := 65536 }
     let y := serving 1 t .transporting .dMap
     let x := { y with seq := { y.seq with off := 65535, chunk := 65535 } }
     (st x).ctrlAt 0 = some x ∧ x.transfer = some t ∧ x.seq.weMappedTx = false ∧
     t.rx.toNat + x.seq.off ≤ 2 ^ 32 ∧ (0x1FFF : Word).toNat < t.rx.toNat) := by decide

theorem witness_DArmArmsChannels :
    (let x := serving 1 t1 .transporting .dArm
     (st x).ctrlAt 0 = some x ∧ x.seq.state = .transporting ∧ x.seq.phase = .dArm ∧ x.transfer = some t1 ∧
     x.clkOn = true ∧ x.hw.chCfg.swRst = false ∧ x.dmaRx ≠ x.dmaTx) := by decide

/-- Controller 0 in a phase of a sub-transfer with both buffers mapped by the engine. -/
def mappedCtrl (ph : Phase) : Ctrl :=
  let y := serving 1 t1 .transporting ph
  { y with seq := { y.seq with
    chunk := 2, mapTx := some 0x9000, mapRx := some 0xA000, weMappedTx := true, weMappedRx := true } }

/-- The state with it and its two mappings, one step scheduled. -/
def mappedState (ph : Phase) : State :=
  { st (mappedCtrl ph) with
    maps := [⟨0, .fromDevice, 0xA000, 0x2000, 2⟩, ⟨0, .toDevice, 0x9000, 0x1000, 2⟩]
    inbox := [.encoded (.tag [0x19, 0])] }

/-- Transmit-only; ended, with and without mappings of the engine's own; a condition latched; given up, with and
without a condition; still waiting. -/
theorem witness_DWaitEndsSubTransfer :
    (let t := { t1 with rxPresent := false }
     let x := { serving 1 t .transporting .dWait with dmaDone := true }
     (st x).ctrlAt 0 = some x ∧ x.transfer = some t ∧ x.dmaDone = true ∧ t.rxPresent = false) ∧
    (let x := { serving 1 t1 .transporting .dWait with dmaDone := true }
     (st x).ctrlAt 0 = some x ∧ x.seq.state = .transporting ∧ x.seq.phase = .dWait ∧ x.transfer = some t1 ∧
     t1.rxPresent = true ∧ x.clkOn = true ∧ x.hw.chCfg.swRst = false ∧
     (x.errLatch.union x.hw.sticky).nonempty = false) ∧
    (let x := { mappedCtrl .dWait with dmaDone := true }
     let s := { mappedState .dWait with ctrl := [(0, x)] }
     s.ctrlAt 0 = some x ∧ x.transfer = some t1 ∧ x.seq.weMappedTx = true ∧ x.released s.maps = []) ∧
    (let x := { serving 1 t1 .transporting .dWait with dmaDone := true, errLatch := ⟨true, false, false, false⟩ }
     (st x).ctrlAt 0 = some x ∧ x.transfer = some t1 ∧ (x.errLatch.union x.hw.sticky).nonempty = true) ∧
    (let x := serving 1 t1 .transporting .dWait
     x.dmaDone = false ∧ x.seq.deadline ≤ (st x).now ∧ x.clkOn = true ∧ ((st x).chanAt 0).lessee = some x.id) ∧
    (let y := serving 1 t1 .transporting .dWait
     let x := { y with seq := { y.seq with deadline := 8 } }
     x.dmaDone = false ∧ x.transfer = some t1 ∧ (st x).now < x.seq.deadline) := by decide

theorem witness_DTxdrainWaitsForBus :
    (let t := { t1 with rxPresent := false }
     let x := serving 1 t .transporting .dTxdrain
     (st x).ctrlAt 0 = some x ∧ x.seq.state = .transporting ∧ x.seq.phase = .dTxdrain ∧ x.transfer = some t ∧
     x.clkOn = true ∧ (x.hw.txf = [] ∧ x.hw.shBusy = false) ∧ x.hw.chCfg.swRst = false ∧
     (x.errLatch.union x.hw.sticky).nonempty = false) ∧
    (let x := mappedCtrl .dTxdrain
     (mappedState .dTxdrain).ctrlAt 0 = some x ∧ x.transfer = some t1 ∧ x.released (mappedState .dTxdrain).maps = []) ∧
    (let x := { mappedCtrl .dTxdrain with errLatch := ⟨false, true, false, false⟩ }
     x.transfer = some t1 ∧ (x.errLatch.union x.hw.sticky).nonempty = true) ∧
    (let t := { t1 with rxPresent := false }
     let x := { serving 1 t .transporting .dTxdrain with hw := { hwLoop with txf := [1] } }
     x.transfer = some t ∧ ¬ (x.hw.txf = [] ∧ x.hw.shBusy = false) ∧ x.seq.deadline ≤ (st x).now ∧
     ((st x).chanAt 1).lessee = some x.id) ∧
    (let t := { t1 with rxPresent := false }
     let y := serving 1 t .transporting .dTxdrain
     let x := { y with seq := { y.seq with deadline := 8 }, hw := { hwLoop with txf := [1] } }
     x.transfer = some t ∧ ¬ (x.hw.txf = [] ∧ x.hw.shBusy = false) ∧ (st x).now < x.seq.deadline) := by decide

theorem witness_DmaAbortDisarms : (st live).ctrlAt 0 = some live := by decide

/-- Channel 1 armed for one beat of two bytes, the second in the receive buffer of the Transfer in hand; the
argument is how many bytes are mapped. -/
def racyBeatState (mapped : Nat) : State :=
  { st { serving 1 { t1 with rx := 0x1001 } .transporting .dWait with
      hw := { hwLoop with modeCfg := ⟨false, true, true, true, 0, 0⟩ } } with
    chan := [(0, { Chan.free with lessee := some 0 }), (1, ⟨some 0, true, .tx, 0x9000, 2, 1, 2, false⟩)]
    maps := [⟨0, .toDevice, 0x9000, 0x1000, mapped⟩] }

/-- U9: both bytes are pushed, and one of them is drawn. -/
theorem test_dma_tx_beat_racy :
    ctrlOf (exec (.dmaTxBeat 1) (racyBeatState 2)) (fun x => x.hw.txf.length) = some 2 ∧
    stateOf (exec (.dmaTxBeat 1) (racyBeatState 2)) (fun s => s.draws) = some 1 := by decide

/-- One byte; a racy byte; the second address of a burst unmapped; not enabled. -/
theorem witness_DmaTxBeatMovesBurst :
    (let s := txBeatState
     let x := { live with hw := { hwLoop with modeCfg := ⟨false, true, true, true, 0, 0⟩ } }
     let ch := s.chanAt 1
     s.ctrlAt 0 = some x ∧ ch.lessee = some 0 ∧ x.dmaTx = 1 ∧ ch.armed = true ∧ ch.dir = .tx ∧ 0 < ch.rem ∧
     x.clkOn = true ∧ x.hw.modeCfg.txdmaOn = true ∧ x.hw.chCfg.swRst = false ∧
     ch.burst * ch.wb ≤ x.fifoDepth - x.hw.txf.length ∧ ch.wb ≤ 4 ∧
     (∀ i, i < ch.burst * ch.wb → s.translate (ch.addr + BitVec.ofNat 32 i) = some 0x1000 ∧ x.racy 0x1000 = false)) ∧
    (let s := racyBeatState 2
     let ch := s.chanAt 1
     ch.burst * ch.wb = 2 ∧ ch.wb ≤ 4 ∧
     (∀ i, i < 2 → s.translate (ch.addr + BitVec.ofNat 32 i) = some (0x1000 + BitVec.ofNat 32 i)) ∧
     ∃ x, s.ctrlAt 0 = some x ∧ x.racy 0x1000 = false ∧ x.racy 0x1001 = true) ∧
    (racyBeatState 1).translate 0x9000 = some 0x1000 ∧ (racyBeatState 1).translate 0x9001 = none ∧
    { txBeatState with maps := [] }.translate 0x9000 = none ∧
    ((st live).chanAt 1).lessee = some 0 ∧ ((st live).chanAt 1).armed = false ∧
    16 - (List.replicate 16 (0 : Byte)).length < 1 * 1 ∧ ((stFree live).chanAt 1).lessee = none := by
  refine ⟨by decide, ⟨rfl, by decide, by decide, _, rfl, rfl, rfl⟩, by decide⟩

theorem witness_DmaRxBeatMovesBurst :
    (let s := rxBeatState
     let x := { live with hw := { hwLoop with modeCfg := ⟨false, true, true, true, 0, 0⟩, rxf := [0xA5] } }
     let ch := s.chanAt 0
     s.ctrlAt 0 = some x ∧ ch.lessee = some 0 ∧ x.dmaRx = 0 ∧ ch.armed = true ∧ ch.dir = .rx ∧ 0 < ch.rem ∧
     x.clkOn = true ∧ x.hw.modeCfg.rxdmaOn = true ∧ ch.burst * ch.wb ≤ x.hw.rxf.length ∧ ch.wb ≤ 4 ∧
     (∀ i, i < ch.burst * ch.wb → s.translate (ch.addr + BitVec.ofNat 32 i) = some 0x2000)) ∧
    { rxBeatState with maps := [] }.translate 0xA000 = none ∧ rxBeatState.translate 0xA001 = some 0x2001 ∧
    rxBeatState.translate 0xA002 = none ∧
    ((st live).chanAt 0).lessee = some 0 ∧ ((st live).chanAt 0).armed = false ∧ hwLoop.rxf.length < 1 * 1 ∧
    ((stFree live).chanAt 0).lessee = none := by decide

theorem witness_CompletionNeedsBothDirections :
    (let s := { st live with chan := [(1, ⟨some 0, true, .tx, 0, 0, 1, 1, true⟩)] }
     s.ctrlAt 0 = some live ∧ (s.chanAt 1).lessee = some 0 ∧ (s.chanAt 1).notify = true ∧ live.dmaRx ≠ live.dmaTx ∧
     live.dmaTx = 1) ∧
    (let s := { st live with chan := [(0, ⟨some 0, true, .rx, 0, 0, 1, 1, true⟩)] }
     s.ctrlAt 0 = some live ∧ (s.chanAt 0).lessee = some 0 ∧ (s.chanAt 0).notify = true ∧ live.dmaRx = 0) ∧
    ((st live).chanAt 0).lessee = some 0 ∧ ((st live).chanAt 0).notify = false := by decide

/-- The state of XFER_DMA's contract: one Transfer at D_MAP, MAPPER's answers fixed. -/
def dmaState (t : Transfer) (tape : List (Option Word)) : State :=
  { st (serving 1 t .transporting .dMap) with mapTape := tape }

theorem dmaState_ready (t : Transfer) (tape : List (Option Word)) :
    (dmaState t tape).readyForDma 0 (serving 1 t .transporting .dMap) :=
  ⟨rfl, rfl, .inl rfl, (by decide : 16 ≤ newArgs0.fifoDepth.toNat), (by decide : newArgs0.fifoDepth.toNat ≤ 256), rfl,
    rfl, rfl, rfl, rfl, rfl, rfl, rfl, rfl, rfl, (by decide : newArgs0.dmaRx ≠ newArgs0.dmaTx), by
    rintro k (rfl | rfl) <;> exact ⟨rfl, rfl, rfl⟩⟩

/-- Pre-mapped at 0x9000 and 0xA000; mapped there; a transmit-only Transfer of 65536 bytes in two sub-transfers, the
second at the top of the device space. -/
theorem witness_XferDmaKeepsContract :
    (let t := { t1 with premapped := true, txDma := 0x9000, rxDma := 0xA000 }
     let x := serving 1 t .transporting .dMap
     let s := dmaState t []
     (s.ctrlAt 0 = some x ∧ x.seq.state = .transporting ∧ x.seq.phase = .dMap ∧ x.seq.off = 0 ∧
      x.transfer = some t ∧ t.txPresent = true ∧ t.rxPresent = true ∧ 0 < t.len.toNat ∧
      t.len.toNat % (x.curWidth.toNat / 8) = 0 ∧ t.tx.toNat + t.len.toNat ≤ 2 ^ 32 ∧
      t.rx.toNat + t.len.toNat ≤ 2 ^ 32 ∧ t.tx.toNat + t.len.toNat ≤ t.rx.toNat ∧ t.premapped = true ∧
      s.mapTape = [] ∧ x.hw.modeCfg.loopback = true ∧
      ∀ i, i < t.len.toNat → s.translate (t.txDma + BitVec.ofNat 32 i) = some (t.tx + BitVec.ofNat 32 i) ∧
        s.translate (t.rxDma + BitVec.ofNat 32 i) = some (t.rx + BitVec.ofNat 32 i)) ∧ s.readyForDma 0 x) ∧
    (let x := serving 1 t1 .transporting .dMap
     let s := dmaState t1 [some 0x9000, some 0xA000]
     (s.ctrlAt 0 = some x ∧ x.transfer = some t1 ∧ t1.premapped = false ∧ (2 + 65535 * 1 - 1) / (65535 * 1) = 1 ∧
      s.mapTape = ((List.range 1).flatMap fun _ => [some 0x9000] ++ [some 0xA000]) ++ [] ∧
      (0x9000 : Word).toNat + min (2 - 0 * 65535) 65535 ≤ (0xA000 : Word).toNat ∧
      (0xA000 : Word).toNat + 2 ≤ 2 ^ 32) ∧ s.readyForDma 0 x) ∧
    (let t := { t1 with len := 65536, rxPresent := false }
     let x := serving 1 t .transporting .dMap
     let s := dmaState t [some 0x9000, some 0xFFFFFFFF, none]
     (s.ctrlAt 0 = some x ∧ x.transfer = some t ∧ (65536 + 65535 * 1 - 1) / (65535 * 1) = 2 ∧
      s.mapTape = ((List.range 2).flatMap fun j => [some (if j = 0 then 0x9000 else 0xFFFFFFFF)] ++ []) ++ [none] ∧
      (0x9000 : Word).toNat + min (65536 - 0 * 65535) 65535 ≤ 2 ^ 32 ∧
      (0xFFFFFFFF : Word).toNat + min (65536 - 1 * 65535) 65535 ≤ 2 ^ 32) ∧ s.readyForDma 0 x) :=
  ⟨⟨by decide, dmaState_ready _ _⟩, ⟨by decide, dmaState_ready _ _⟩, ⟨by decide, dmaState_ready _ _⟩⟩

/-- From IDLE with nothing waiting, and in ACTIVE. -/
theorem witness_SubmitQueuesMessage :
    ((st ctrl0).ctrlAt 0 = some ctrl0 ∧ ctrl0.bindAt 1 = some lineBinding ∧ [t1] ≠ [] ∧
      prevalidate ctrl0.srcClk lineBinding 0 [t1] = none ∧ ctrl0.suspended = false ∧ ctrl0.pstate = .idle ∧
      ctrl0.waitq = [] ∧ ctrl0.actWait = false) ∧
    ((st live).ctrlAt 0 = some live ∧ live.bindAt 1 = some lineBinding ∧ live.suspended = false ∧
      live.pstate = .active) := by decide

/-- Each check's first failure at index 1, behind a Transfer that passes; a passing SUBMIT to a suspended controller;
an absent controller; an absent binding. -/
theorem witness_SubmitRefusesInOrder :
    (st ctrl0).ctrlAt 7 = none ∧ (st ctrl0).ctrlAt 0 = some ctrl0 ∧ ctrl0.bindAt 9 = none ∧
    ctrl0.bindAt 1 = some lineBinding ∧ prevalidate ctrl0.srcClk lineBinding 0 [t1] = none ∧
    (st { ctrl0 with suspended := true }).ctrlAt 0 = some { ctrl0 with suspended := true } ∧
    checkTransfer ctrl0.srcClk lineBinding 0 t1 = none ∧
    ([t1, { t1 with tx := 0xFFFFFFFF }] : List Transfer)[1]? = some { t1 with tx := 0xFFFFFFFF } ∧
    (t1.txPresent = true ∧ (0xFFFFFFFE : Word).toNat + 2 ≤ 2 ^ 32 ∧ ¬ (0xFFFFFFFF : Word).toNat + 2 ≤ 2 ^ 32) ∧
    ((12 : BitVec 6) ≠ 8 ∧ (12 : BitVec 6) ≠ 16 ∧ (12 : BitVec 6) ≠ 32) ∧ 3 % ((16 : BitVec 6).toNat / 8) ≠ 0 ∧
    rate ctrl0.srcClk.toNat (100000 : Word).toNat = none := by decide

/-- The last of two waiting entries; an index past them; and each other reason not to be enabled. -/
theorem witness_SeqStartTakesAnyWaiter :
    (let x := { live with waitq := [⟨0, 1, [t1]⟩, ⟨5, 2, [t1]⟩] }
     (st x).ctrlAt 0 = some x ∧ x.seq.state = .idle ∧ x.pstate = .active ∧ x.suspended = false ∧
     x.waitq[1]? = some ⟨5, 2, [t1]⟩ ∧ x.waitq.length ≤ 2) ∧
    (serving 1 t1 .failed .none).seq.state ≠ .idle ∧ ctrl0.pstate ≠ .active ∧
    { live with suspended := true }.suspended = true := by decide

theorem witness_SeqConfigDeviceFreesOther :
    (let x := serving 2 t1 .configuringDevice .none
     (st x).ctrlAt 0 = some x ∧ x.seq.state = .configuringDevice ∧ x.bindAt x.seq.b = some nativeBinding ∧
     x.clkOn = true ∧ x.csHolder = none) ∧
    (let x := { serving 2 t1 .configuringDevice .none with csHolder := some 1 }
     (1 : Byte) ≠ x.seq.b ∧ x.bindAt 1 = some lineBinding ∧ lineBinding.csMode = .manual ∧
     lineBinding.line = some 3) ∧
    (let x := { serving 2 t1 .configuringDevice .none with csHolder := some 3 }
     (3 : Byte) ≠ x.seq.b ∧ x.bindAt 3 = some autoBinding ∧ autoBinding.csMode = .auto) := by decide

theorem witness_SeqSelectCsSkipsHeldSelect :
    (let x := { serving 1 t1 .selectCs .none with csHolder := some 1 }
     (st x).ctrlAt 0 = some x ∧ x.seq.state = .selectCs ∧ x.bindAt x.seq.b = some lineBinding ∧
     x.csHolder = some x.seq.b) ∧
    (let x := serving 1 t1 .selectCs .none
     x.csHolder = none ∧ x.clkOn = true ∧ x.bindAt x.seq.b = some lineBinding ∧ lineBinding.csMode = .manual ∧
     lineBinding.line = some 3) ∧
    (let x := serving 3 t1 .selectCs .none
     x.csHolder = none ∧ x.bindAt x.seq.b = some autoBinding ∧ autoBinding.csMode = .auto) := by decide

/-- The configuration in force; a stale one; a stale one whose request has no rate. -/
theorem witness_SeqConfiguringChoosesTransport :
    (let x := serving 1 t1 .configuring .none
     (st x).ctrlAt 0 = some x ∧ x.seq.state = .configuring ∧ x.transfer = some t1 ∧
     x.bindAt x.seq.b = some lineBinding ∧ x.cfgValid = true ∧ lineBinding.maxSpeed = x.curSpeed ∧
     lineBinding.mode = x.curMode ∧ lineBinding.width = x.curWidth) ∧
    (let x := { serving 1 t1 .configuring .none with cfgValid := false }
     x.clkOn = true ∧ rate x.srcClk.toNat lineBinding.maxSpeed.toNat = some (49, 1000000)) ∧
    (let t := { t1 with speed := 100000 }
     let x := serving 1 t .configuring .none
     x.transfer = some t ∧ t.speed.toNat ≤ lineBinding.maxSpeed.toNat ∧ t.speed ≠ x.curSpeed ∧
     rate x.srcClk.toNat t.speed.toNat = none) := by decide

theorem witness_SeqPostDelayCountsBytes :
    (let x := serving 1 t1 .postDelay .none
     (st x).ctrlAt 0 = some x ∧ x.seq.state = .postDelay ∧ x.transfer = some t1 ∧ x.seq.delayUntil ≤ (st x).now ∧
     x.seq.actual.toNat + t1.len.toNat < 2 ^ 32) ∧
    (let y := serving 1 t1 .postDelay .none
     let x := { y with seq := { y.seq with delayUntil := 8 } }
     x.transfer = some t1 ∧ (st x).now < x.seq.delayUntil) ∧
    (let y := serving 1 t1 .postDelay .none
     let x := { y with seq := { y.seq with actual := 0xFFFFFFFE } }
     x.transfer = some t1 ∧ 2 ^ 32 ≤ x.seq.actual.toNat + t1.len.toNat) := by decide

/-- Each of the four clauses, the releasing ones with a line, with a register and with nothing held. -/
theorem witness_SeqAdvanceLoopsOrEnds :
    (let x := { serving 1 t1 .deselectCs .none with csHolder := some 1 }
     (st x).ctrlAt 0 = some x ∧ x.seq.state = .deselectCs ∧ x.transfer = some t1 ∧ x.csHolder = some 1 ∧
     x.bindAt 1 = some lineBinding ∧ ¬ x.seq.xi + 1 < x.seq.msg.length ∧ t1.csChange = false ∧
     lineBinding.csMode = .manual ∧ lineBinding.line = some 3) ∧
    (let t := { t1 with csChange := true }
     let y := serving 3 t .deselectCs .none
     let x := { y with csHolder := some 3, seq := { y.seq with msg := [t, t1] } }
     x.transfer = some t ∧ x.bindAt 3 = some autoBinding ∧ x.seq.xi + 1 < x.seq.msg.length ∧ t.csChange = true ∧
     autoBinding.csMode = .auto ∧ x.clkOn = true) ∧
    (let y := serving 1 t1 .deselectCs .none
     let x := { y with seq := { y.seq with msg := [t1, t1] } }
     x.transfer = some t1 ∧ x.seq.xi + 1 < x.seq.msg.length ∧ t1.csChange = false ∧ x.csHolder = none) ∧
    (let t := { t1 with csChange := true }
     let x := serving 1 t .deselectCs .none
     x.transfer = some t ∧ ¬ x.seq.xi + 1 < x.seq.msg.length ∧ t.csChange = true) := by decide

theorem witness_SeqCompleteAnswersCaller :
    (let x := serving 1 t1 .completed .none
     (st x).ctrlAt 0 = some x ∧ x.seq.state = .completed ∧ x.owner = some 4) := by decide

/-- A select held on a line, in a register, and none; mappings still owed. -/
theorem witness_SeqFailRecovers :
    (let x := { serving 1 t1 .failed .none with csHolder := some 1 }
     (st x).ctrlAt 0 = some x ∧ x.seq.state = .failed ∧ x.owner = some 4 ∧ x.clkOn = true ∧ x.csHolder = some 1 ∧
     x.bindAt 1 = some lineBinding ∧ lineBinding.csMode = .manual ∧ lineBinding.line = some 3 ∧
     ((st x).chanAt 0).lessee = some x.id) ∧
    (let x := { serving 3 t1 .failed .none with csHolder := some 3 }
     (st x).ctrlAt 0 = some x ∧ x.bindAt 3 = some autoBinding ∧ autoBinding.csMode = .auto) ∧
    (let y := mappedCtrl .none
     let x := { y with seq := { y.seq with state := .failed } }
     x.csHolder = none ∧ x.owner = some 4 ∧ x.clkOn = true ∧ x.seq.weMappedTx = true ∧
     x.released (mappedState .none).maps = []) := by decide

/-- Clocks on with a pending, enabled condition; clocks off; clocks on with a masked one. -/
theorem witness_ErrorAcknowledge :
    (let h := { hwLoop with sticky := ⟨true, false, false, false⟩ }
     (st { live with hw := h }).ctrlAt 0 = some { live with hw := h } ∧ live.clkOn = true ∧
     (h.sticky.rxOverrun && h.intEn.rxOverrun) = true) ∧
    (st ctrl0).ctrlAt 0 = some ctrl0 ∧ ctrl0.clkOn = false ∧
    (let h := { hwLoop with sticky := ⟨true, false, false, false⟩, intEn := ⟨false, true, true, true⟩ }
     (h.sticky.inter h.intEn).nonempty = false) := by decide

theorem witness_FlushOpClearsEngine : (st live).ctrlAt 0 = some live ∧ live.clkOn = true := by decide

theorem witness_FlushIsIdempotent : (st live).ctrlAt 0 = some live ∧ runs (exec (.flushOp 0) (st live)) = true := by
  decide

theorem witness_FlushCommand :
    (st live).ctrlAt 7 = none ∧ (st live).ctrlAt 0 = some live ∧ live.seq.state = .idle ∧ live.waitq = [] ∧
    live.pstate = .active ∧ live.clkOn = true ∧ (st ctrl0).ctrlAt 0 = some ctrl0 ∧ ctrl0.pstate ≠ .active ∧
    (serving 1 t1 .failed .none).seq.state ≠ .idle ∧ { live with waitq := [⟨0, 1, [t1]⟩] }.waitq ≠ [] := by decide

theorem witness_HwInitGivesDefaults : (st live).ctrlAt 0 = some live ∧ live.clkOn = true := by decide

/-- Beside controller 0 at 0x10000000: the window just above its own, and one 4 bytes below that; the last window of
the address space; depths 16 and 256, and 8, 40 and 272. -/
theorem witness_NewMakesController :
    (st live).ctrlAt 0 = some live ∧ (st live).ctrlAt 1 = none ∧
    (∀ p ∈ (st live).ctrl, ¬ (0x10000030 < p.2.base.toNat + 48 ∧ p.2.base.toNat < 0x10000030 + 48)) ∧
    (∃ p ∈ (st live).ctrl, 0x1000002C < p.2.base.toNat + 48 ∧ p.2.base.toNat < 0x1000002C + 48) ∧
    (0xFFFFFFD0 : Word).toNat % 4 = 0 ∧ ¬ 2 ^ 32 < (0xFFFFFFD0 : Word).toNat + 48 ∧
    2 ^ 32 < (0xFFFFFFD4 : Word).toNat + 48 ∧
    (16 : BitVec 9).toNat % 16 = 0 ∧ (256 : BitVec 9).toNat % 16 = 0 ∧ ¬ 256 < (256 : BitVec 9).toNat ∧
    (40 : BitVec 9).toNat % 16 ≠ 0 ∧ (8 : BitVec 9).toNat < 16 ∧ 256 < (272 : BitVec 9).toNat := by decide

/-- A select held on a line, in a register, and none. -/
theorem witness_DestroyRemovesController :
    (st live).ctrlAt 7 = none ∧ { live with waitq := [⟨0, 1, [t1]⟩] }.waitq ≠ [] ∧
    (let x := { live with csHolder := some 1 }
     (st x).ctrlAt 0 = some x ∧ x.seq.state = .idle ∧ x.waitq = [] ∧ x.actWait = false ∧ x.suspended = false ∧
     x.csHolder = some 1 ∧ x.bindAt 1 = some lineBinding ∧ lineBinding.csMode = .manual ∧
     lineBinding.line = some 3) ∧
    (let x := { live with csHolder := some 3 }
     (st x).ctrlAt 0 = some x ∧ x.csHolder = some 3 ∧ x.bindAt 3 = some autoBinding ∧ autoBinding.csMode = .auto) ∧
    live.csHolder = none := by decide

/-- IDLE; SUSPENDED; in service; ACTIVE at 99_999 and at 100_000 microseconds. -/
theorem witness_OnIdleGatesClocks :
    ((st ctrl0).ctrlAt 0 = some ctrl0 ∧ ctrl0.pstate = .idle ∧ ctrl0.suspended = false) ∧
    { ctrl0 with pstate := .suspended, suspended := true }.pstate = .suspended ∧
    ((serving 1 t1 .failed .none).pstate ≠ .suspended ∧ (serving 1 t1 .failed .none).seq.state ≠ .idle) ∧
    (live.pstate = .active ∧ live.seq.state = .idle ∧ live.waitq = [] ∧ live.suspended = false ∧
      99999 - live.lastActivity < 1000 * live.autosuspendMs ∧ 1000 * live.autosuspendMs ≤ 100000 - live.lastActivity) := by
  decide

theorem witness_OnActiveStartsActivation :
    { ctrl0 with suspended := true }.suspended = true ∧ (live.suspended = false ∧ live.pstate = .active) ∧
    (ctrl0.suspended = false ∧ ctrl0.pstate ≠ .active ∧ ctrl0.actWait = false ∧ ctrl0.waitq = []) ∧
    { ctrl0 with actWait := true }.actWait = true ∧ { ctrl0 with waitq := [⟨0, 1, [t1]⟩] }.waitq ≠ [] := by decide

/-- Both channels free; one leased elsewhere at the last retry and past it, and with the counter at 254 and at 255;
not enabled. -/
theorem witness_AcquisitionTakesBothOrNeither :
    (let x := { ctrl0 with actWait := true }
     (stFree x).ctrlAt 0 = some x ∧ x.id = 0 ∧ x.pstate = .idle ∧ x.suspended = false ∧ x.seq.state = .idle ∧
     x.actWait = true ∧ x.acqNext ≤ (stFree x).now ∧ x.dmaRx ≠ x.dmaTx ∧
     ((stFree x).chanAt x.dmaRx).lessee = none ∧ ((stFree x).chanAt x.dmaTx).lessee = none) ∧
    (let s := { stFree ctrl0 with chan := [(0, { Chan.free with lessee := some 5 })] }
     ¬ ((s.chanAt ctrl0.dmaRx).lessee = none ∧ (s.chanAt ctrl0.dmaTx).lessee = none) ∧
     (2 : BitVec 8).toNat < s.params.acqRetryMax ∧ s.params.acqRetryMax ≤ (3 : BitVec 8).toNat) ∧
    (let s := { stFree ctrl0 with params := ⟨false, false, 300, 999⟩ }
     (254 : BitVec 8).toNat < s.params.acqRetryMax ∧ (254 : BitVec 8).toNat < 255 ∧
     (255 : BitVec 8).toNat < s.params.acqRetryMax) ∧
    live.pstate ≠ .idle := by decide

/-- Log entry 23: a retry at 254 counts to 255. -/
theorem test_acq_counter :
    ctrlOf (exec (.acqAttempt 0)
      { stFree { ctrl0 with actWait := true, acqK := 254 } with
        chan := [(0, { Chan.free with lessee := some 5 })], params := ⟨false, false, 300, 999⟩ })
      (fun x => (x.acqK, x.pstate)) = some (255, .idle) := by decide

theorem witness_SuspendFailsWaiters :
    (st live).ctrlAt 7 = none ∧
    (let x := { live with suspended := true, waitq := [⟨0, 1, [t1]⟩], actWait := true }
     (st x).ctrlAt 0 = some x ∧ x.id = 0 ∧ x.suspended = true ∧ x.pstate ≠ .suspended ∧ x.seq.state = .idle ∧
     x.pstate = .active) ∧
    (let x := { ctrl0 with suspended := true }
     (st x).ctrlAt 0 = some x ∧ x.suspended = true ∧ x.pstate ≠ .suspended ∧ x.pstate ≠ .active) ∧
    (st live).ctrlAt 0 = some live ∧ live.suspended = false ∧
    { ctrl0 with pstate := .suspended, suspended := true }.pstate = .suspended ∧
    (serving 1 t1 .failed .none).seq.state ≠ .idle := by decide

/-- Unmarked, marked and secure-routed; with a select held. -/
theorem witness_OnResumeRestores :
    (st live).ctrlAt 7 = none ∧ ((st live).ctrlAt 0 = some live ∧ live.pstate = .active) ∧ ctrl0.pstate = .idle ∧
    (let x := { ctrl0 with pstate := .suspended, suspended := true, csHolder := some 1 }
     (st x).ctrlAt 0 = some x ∧ x.pstate = .suspended ∧ x.clkOn = false ∧ x.secure = false ∧ x.needsReinit = true ∧
     x.csHolder = some 1 ∧ x.bindAt 1 = some lineBinding ∧
     (∃ p ∈ x.bind, p.2.line = some 3 ∧ ∀ q ∈ x.bind, q.2.line = some 3 → q = p)) ∧
    { ctrl0 with needsReinit := false }.needsReinit = false ∧ { ctrl0 with secure := true }.secure = true ∧
    (suspendedCtrl.seq.state = .idle ∧ suspendedCtrl.seq.phase = .none ∧ suspendedCtrl.secure = false ∧
      suspendedCtrl.needsReinit = true) ∧ (serving 1 t1 .failed .none).seq.state ≠ .idle := by decide

theorem witness_PowerLossForgetsEngine :
    (let x := { ctrl0 with pstate := .suspended, suspended := true }
     (st x).ctrlAt 0 = some x ∧ x.pstate = .suspended ∧ x.needsReinit = true) ∧
    (st live).ctrlAt 0 = some live ∧ ¬ (live.pstate = .suspended ∧ live.needsReinit = true) := by decide

/-- `st x` has no controller but controller 0. -/
theorem st_only {x y : Ctrl} {c : Byte} (h : (st x).ctrlAt c = some y) : c = 0 ∧ y = x := by
  simp only [st, State.ctrlAt, Table.get?] at h
  split at h
  · next hc => exact ⟨BitVec.eq_of_toNat_eq hc.symm, (Option.some.inj h).symm⟩
  · cases h

theorem st_live_clocksRight : (st live).clocksRight := by
  intro c x h
  obtain ⟨rfl, rfl⟩ := st_only h
  decide

theorem witness_OnlyNamedStops :
    (st live).clocksRight ∧ microOp (.errIrq 0) = false ∧
    exec (.dmaRxBeat 0) { rxBeatState with maps := [] } = .fault .deviceAccessUnmapped ∧
    (st live).ctrlAt 0 = some live ∧ live.seq.state ≠ .configuringDevice ∧
    (serving 1 t1 .transporting .dMap).seq.phase ≠ .pArm :=
  ⟨st_live_clocksRight, rfl, rfl, by decide⟩

/-- A phase moved, entered and left, by a step and by a composite; each transition of the power state. -/
theorem witness_TransitionsFollowTables :
    (st live).ctrlAt 0 = some live ∧
    ctrlOf (exec (.pArm 0) (st (serving 1 t1 .transporting .pArm))) (fun y => y.seq.phase) = some .pPoll ∧
    ctrlOf (exec (.seqConfiguring 0) (st (serving 1 t1 .configuring .none))) (fun y => (y.seq.state, y.seq.phase)) =
      some (.transporting, .pArm) ∧
    ctrlOf (exec (.dWait 0) (mappedState .dWait)) (fun y => (y.seq.state, y.seq.phase)) = some (.failed, .none) ∧
    ctrlOf (exec (.xferPoll 0) (st (serving 1 t1 .transporting .pArm))) (fun y => (y.seq.state, y.seq.phase)) =
      some (.postDelay, .none) ∧
    ctrlOf (exec (.onIdle .exact 0) { st live with now := 100000 }) (fun y => y.pstate) = some .idle ∧
    ctrlOf (exec (.acqAttempt 0) (stFree { ctrl0 with actWait := true })) (fun y => y.pstate) = some .active ∧
    ctrlOf (exec (.suspendFinish 0) (st { live with suspended := true })) (fun y => y.pstate) = some .suspended ∧
    ctrlOf (exec (.onResume .exact 0) (st { ctrl0 with pstate := .suspended, suspended := true }))
      (fun y => y.pstate) = some .idle ∧
    live.pstate = .active ∧ ctrl0.pstate = .idle := by decide

/-- Controller 0 at D_MAP of a pre-mapped Transfer. -/
def premappedCtrl : Ctrl :=
  serving 1 { t1 with premapped := true, txDma := 0x9000, rxDma := 0xA000 } .transporting .dMap

/-- An idle controller 1 with channels of its own. -/
def ctrl1 : Ctrl := { ctrl0 with id := 1, dmaRx := 2, dmaTx := 3 }

def pairState : State := { st premappedCtrl with ctrl := [(0, premappedCtrl), (1, ctrl1)] }

theorem pairState_only {c : Byte} {z : Ctrl} (h : pairState.ctrlAt c = some z) :
    c = 0 ∧ z = premappedCtrl ∨ c = 1 ∧ z = ctrl1 := by
  simp only [pairState, State.ctrlAt, Table.get?] at h
  split at h
  · next hc => exact .inl ⟨BitVec.eq_of_toNat_eq hc.symm, (Option.some.inj h).symm⟩
  · split at h
    · next hc => exact .inr ⟨BitVec.eq_of_toNat_eq hc.symm, (Option.some.inj h).symm⟩
    · cases h

theorem pairState_clocksRight : pairState.clocksRight := by
  intro c x h
  obtain ⟨rfl, rfl⟩ | ⟨rfl, rfl⟩ := pairState_only h <;> decide

theorem pairState_leasesRight : pairState.leasesRight := by
  refine ⟨fun c x h => ?_, fun k c h => ?_⟩
  · obtain ⟨rfl, rfl⟩ | ⟨rfl, rfl⟩ := pairState_only h <;> decide
  · simp only [pairState, st, State.chanAt, Table.get?] at h
    split at h
    · next hk => exact ⟨premappedCtrl, by cases h; rfl, Or.inl (BitVec.eq_of_toNat_eq hk.symm)⟩
    · split at h
      · next hk => exact ⟨premappedCtrl, by cases h; rfl, Or.inr (BitVec.eq_of_toNat_eq hk.symm)⟩
      · cases h

/-- XFER_DMA beside a second controller, that the second clause says is left alone. -/
theorem witness_ControllersChangeOnlyAsNamed_xferDma :
    (pairState.leasesRight ∧ pairState.clocksRight) ∧ runs (exec (.xferDma 0) pairState) = true ∧
    target pairState (.xferDma 0) ≠ some 1 ∧
    pairState.ctrlAt 1 = some ctrl1 :=
  ⟨⟨pairState_leasesRight, pairState_clocksRight⟩, by decide⟩

/-- The second clause beside a second controller; the third with the clocks gated throughout. -/
theorem witness_ControllersChangeOnlyAsNamed :
    ctrlOf (exec (.flushOp 0) (st live)) (fun y => y.id) = some 0 ∧
    (let s := { st live with ctrl := [(0, live), (1, { ctrl0 with id := 1 })] }
     runs (exec (.flushOp 0) s) = true ∧ target s (.flushOp 0) ≠ some 1) ∧ (∀ c, Instr.flushOp 0 ≠ .xferDma c) ∧
    (st ctrl0).clocksRight ∧ (st ctrl0).ctrlAt 0 = some ctrl0 ∧
    ctrlOf (exec (.onActive .exact 0) (st ctrl0)) (fun y => y.clkOn) = some false ∧
    (∀ f, Instr.onActive .exact 0 ≠ .onResume f 0) := by
  refine ⟨by decide, by decide, nofun, fun c x h => ?_, by decide, by decide, nofun⟩
  obtain ⟨rfl, rfl⟩ := st_only h
  decide

/-- D_WAIT; D_MAP of a second sub-transfer, the last one's chunk still there; transmit-only, whatever `rx`
is; a caller's store inside a buffer in service and outside every one. -/
theorem witness_MemoryFrame :
    (mayStore (.pArm 0) = false ∧ runs (exec (.pArm 0) (st (serving 1 t1 .transporting .pArm))) = true) ∧
    (let y := serving 1 t1 .transporting .dWait
     let x := { y with seq := { y.seq with chunk := 2 } }
     (st x).ctrlAt 0 = some x ∧ x.transfer = some t1 ∧ runs (exec (.dWait 0) (st x)) = true ∧
     t1.rx.toNat + t1.len.toNat ≤ 2 ^ 32 ∧ x.seq.off + x.seq.chunk ≤ t1.len.toNat ∧
     (0x1FFF : Word).toNat < t1.rx.toNat ∧ t1.rx.toNat + t1.len.toNat ≤ (0x2002 : Word).toNat) ∧
    (let t := { t1 with len := 65536 }
     let y := serving 1 t .transporting .dMap
     let x := { y with seq := { y.seq with off := 65535, chunk := 65535 } }
     let s := { st x with mapTape := [some 0x9000, some 0xA000] }
     s.ctrlAt 0 = some x ∧ x.transfer = some t ∧ x.seq.off ≤ t.len.toNat ∧ runs (exec (.dMap 0) s) = true ∧
     t.rx.toNat + t.len.toNat ≤ 2 ^ 32) ∧
    (let t := { t1 with rxPresent := false, rx := 0xFFFFFFFF }
     let x := serving 1 t .transporting .dTxdrain
     (st x).ctrlAt 0 = some x ∧ x.transfer = some t ∧ runs (exec (.dTxdrain 0) (st x)) = true ∧
     (t.rxPresent = true → t.rx.toNat + t.len.toNat ≤ 2 ^ 32)) ∧
    (let s := { st (serving 1 t1 .failed .none) with inbox := [.callerWrite 0x1001 7] }
     s.inbox = [.callerWrite 0x1001 7] ∧ ∃ p ∈ s.ctrl, p.2.owner ≠ none ∧ ∃ t ∈ p.2.seq.msg,
       t.txPresent = true ∧ t.tx.toNat ≤ 0x1001 ∧ 0x1001 < t.tx.toNat + t.len.toNat) ∧
    (let s := { st live with inbox := [.callerWrite 0x1002 7] }
     s.inbox = [.callerWrite 0x1002 7] ∧ ∀ p ∈ s.ctrl, p.2.waitq = [] ∧ p.2.owner = none) := by decide

/-- A step that stores, from a memory in canonical form. -/
theorem witness_MemoryFormKept :
    (let s := { st { serving 1 t1 .transporting .pDrain with hw := { hwLoop with rxf := [0, 2] } } with
       inbox := [.encoded (.tag [0x16, 0])] }
     s.memoryForm ∧ runs (step s) = true) := ⟨rfl, rfl⟩

theorem scheduled_only {e : Encoded} {y : Ctrl} {c : Byte} (h : (scheduled e).ctrlAt c = some y) : c = 0 ∧ y = live :=
  st_only (x := live) h

theorem witness_FifoBoundKept : (scheduled (.tag [0x24, 0])).fifosBounded ∧ runs (step (scheduled (.tag [0x24, 0]))) := by
  refine ⟨fun c x h => ?_, rfl⟩
  obtain ⟨rfl, rfl⟩ := scheduled_only h
  decide

theorem witness_ControlInvariantKept :
    (scheduled (.tag [0x24, 0])).ownersRight ∧ (scheduled (.tag [0x24, 0])).clocksRight ∧
    (scheduled (.tag [0x24, 0])).holderBound ∧ (scheduled (.tag [0x24, 0])).busyRight ∧
    runs (step (scheduled (.tag [0x24, 0]))) := by
  refine ⟨fun c x h => ?_, fun c x h => ?_, fun c x b h hb => ?_, fun c x h => ?_, rfl⟩
  · obtain ⟨rfl, rfl⟩ := scheduled_only h
    decide
  · obtain ⟨rfl, rfl⟩ := scheduled_only h
    decide
  · obtain ⟨rfl, rfl⟩ := scheduled_only h
    cases hb
  · obtain ⟨rfl, rfl⟩ := scheduled_only h
    decide

/-- The last invariant with both mappings live, before the D_WAIT that gives up and releases them. -/
theorem witness_ControlInvariantKept_maps :
    (mappedState .dWait).mapsRight ∧ runs (step (mappedState .dWait)) := by
  refine ⟨⟨fun c h => ?_, fun c x h => ?_⟩, rfl⟩
  · have h0 : ¬ 0#8 = c := by
      rintro rfl
      cases h
    simp [State.mappedAt, mappedState, h0]
  · obtain ⟨rfl, rfl⟩ := st_only (x := mappedCtrl .dWait) h
    decide

/-- A suspended controller with no channel leased, ON_RESUME scheduled. -/
def suspendedState : State :=
  { stFree suspendedCtrl with inbox := [.encoded (.packet [0x06000000])] }

/-- The last clause of OnResumeRestores: a suspended state with all its invariants. -/
theorem witness_OnResumeRestores_invariants :
    suspendedState.ownersRight ∧ suspendedState.clocksRight ∧ suspendedState.leasesRight ∧ suspendedState.busyRight ∧
    suspendedState.restRight ∧ suspendedState.ctrlAt 0 = some suspendedCtrl ∧ runs (step suspendedState) := by
  refine ⟨fun c x h => ?_, fun c x h => ?_, ⟨fun c x h => ?_, nofun⟩, fun c x h => ?_, fun c x h => ?_, rfl, rfl⟩ <;>
  · obtain ⟨rfl, rfl⟩ := st_only (x := suspendedCtrl) h
    decide

/-- Outside TRANSPORTING, and in D_WAIT. -/
theorem witness_ControlInvariantKept_rest :
    (scheduled (.tag [0x24, 0])).restRight ∧ runs (step (scheduled (.tag [0x24, 0]))) ∧
    (mappedState .dWait).restRight := by
  refine ⟨fun c x h => ?_, rfl, fun c x h => ?_⟩
  · obtain ⟨rfl, rfl⟩ := scheduled_only h
    decide
  · obtain ⟨rfl, rfl⟩ := st_only (x := mappedCtrl .dWait) h
    decide

/-- Service in a sub-transfer whose bytes end at the Transfer's length; nothing in service. -/
theorem witness_ControlInvariantKept_service :
    (mappedState .dWait).serviceRight ∧ runs (step (mappedState .dWait)) ∧
    (scheduled (.tag [0x24, 0])).serviceRight := by
  refine ⟨fun c x h => ?_, rfl, fun c x h => ?_⟩
  · obtain ⟨rfl, rfl⟩ := st_only (x := mappedCtrl .dWait) h
    exact ⟨nofun, fun _ => ⟨rfl, t1, rfl, fun _ => by decide, fun _ _ => by decide⟩⟩
  · obtain ⟨rfl, rfl⟩ := scheduled_only h
    exact ⟨nofun, fun hs => absurd rfl hs⟩

theorem witness_LeaseInvariantKept :
    (scheduled (.tag [0x24, 0])).leasesRight ∧ runs (step (scheduled (.tag [0x24, 0]))) := by
  refine ⟨⟨fun c x h => ?_, fun k c h => ?_⟩, rfl⟩
  · obtain ⟨rfl, rfl⟩ := scheduled_only h
    decide
  · simp only [scheduled, st, State.chanAt, Table.get?] at h
    split at h
    · next hk => exact ⟨live, by cases h; rfl, Or.inl (BitVec.eq_of_toNat_eq hk.symm)⟩
    · split at h
      · next hk => exact ⟨live, by cases h; rfl, Or.inr (BitVec.eq_of_toNat_eq hk.symm)⟩
      · cases h

end Sys2Proof.Tests
end

section
/-! PROOFS. How an instruction's meaning is taken apart: one rule for each of the model's ways to sequence outcomes, so
that no later proof unfolds them. -/

namespace Sys2Proof.Machine

/-- Every next state of the outcome has the property; a stop has none to speak of. -/
def Ends (P : State → Prop) (o : Out) : Prop := ∀ u, o = .next u → P u

namespace Ends
variable {P Q : State → Prop} {s : State} {c : Byte}

theorem next (h : P s) : Ends P (.next s) := by
  intro u hu
  cases hu
  exact h

theorem mono {o : Out} (h : Ends Q o) (hQ : ∀ u, Q u → P u) : Ends P o := fun u hu => hQ u (h u hu)

theorem ite {p : Prop} [Decidable p] {a b : Out} (ha : p → Ends P a) (hb : ¬ p → Ends P b) :
    Ends P (if p then a else b) := by
  split
  · next hp => exact ha hp
  · next hp => exact hb hp

theorem clocked {v : View} {k : Out} (h : Ends P k) : Ends P (v.clocked k) := by
  unfold View.clocked
  split
  · exact h
  · nofun

theorem deassertClocked {v : View} {k : View → Out} (h : Ends P (k v.csDeassert)) : Ends P (v.deassertClocked k) := by
  unfold View.deassertClocked
  split
  · exact clocked h
  · exact h

theorem andThen {o : Out} {k : State → Out} (ho : Ends Q o) (hk : ∀ s, Q s → Ends P (k s)) :
    Ends P (andThen o k) := by
  intro u hu
  obtain ⟨s, hs, hu⟩ := andThen_next.mp hu
  exact hk s (ho s hs) u hu

theorem withCtrl {k : View → Out} (hs : P s) (hk : ∀ x, s.ctrlAt c = some x → Ends P (k ⟨s, c, x⟩)) :
    Ends P (s.withCtrl c k) := by
  unfold State.withCtrl
  split
  · exact next hs
  · next x hx => exact hk x hx

theorem withTransfer {e : Ctrl → Bool} {k : View → Transfer → Out} (hs : P s)
    (hk : ∀ x t, s.ctrlAt c = some x → e x = true → x.transfer = some t → Ends P (k ⟨s, c, x⟩ t)) :
    Ends P (s.withTransfer c e k) :=
  withCtrl hs fun x hx => ite (fun he => by
    dsimp only at he ⊢
    split
    · exact next hs
    · next t ht => exact hk x t hx he ht) fun _ => next hs

theorem withBinding {e : Ctrl → Bool} {k : View → Binding → Out} (hs : P s)
    (hk : ∀ x b, s.ctrlAt c = some x → e x = true → x.bindAt x.seq.b = some b → Ends P (k ⟨s, c, x⟩ b)) :
    Ends P (s.withBinding c e k) :=
  withCtrl hs fun x hx => ite (fun he => by
    dsimp only at he ⊢
    split
    · exact next hs
    · next b hb => exact hk x b hx he hb) fun _ => next hs

theorem withOwner {e : Ctrl → Bool} {k : View → Nat → Out} (hs : P s)
    (hk : ∀ x tag, s.ctrlAt c = some x → e x = true → x.owner = some tag → Ends P (k ⟨s, c, x⟩ tag)) :
    Ends P (s.withOwner c e k) :=
  withCtrl hs fun x hx => ite (fun he => by
    dsimp only at he ⊢
    split
    · exact next hs
    · next tag ht => exact hk x tag hx he ht) fun _ => next hs

theorem withLessee {k : Byte} {k' : View → Out} (hs : P s)
    (hk : ∀ c x, (s.chanAt k).lessee = some c → s.ctrlAt c = some x → Ends P (k' ⟨s, c, x⟩)) :
    Ends P (s.withLessee k k') := by
  unfold State.withLessee
  split
  · exact next hs
  · next c hc => exact withCtrl hs fun x hx => hk c x hc hx

theorem withHandle {k : Ctrl → Out} (hs : P (s.answer .badHandle 0 0))
    (hk : ∀ x, s.ctrlAt c = some x → Ends P (k x)) : Ends P (s.withHandle c k) := by
  unfold State.withHandle
  split
  · exact next hs
  · next x hx => exact hk x hx

/-- A command of another form than its layout's is answered; else its meaning runs. -/
theorem checkForm {f : PacketForm} {n : Nat} {k : Out} (hs : ∀ d ws, P (s.respond d ws))
    (hk : f = .exact → Ends P k) : Ends P (s.checkForm f n k) := by
  cases f
  · exact hk rfl
  · exact next (hs _ _)
  · exact next (hs _ _)

end Ends

end Sys2Proof.Machine
end

section
/-! PROOFS. What a step can do to the state, said once. The shared state changes in ways that no invariant reads
(`State.Keeps`); a controller moves by the writers of R13 and R14 (`Ctrl.Move`); an instruction's work on one controller
is a run of such moves (`View.Move`). -/

namespace Sys2Proof.Machine

/-! ### The shared state -/

/-- The controllers, the live mappings and the leases are as they were; memory too, where no store is allowed. -/
structure State.Keeps (stores : Bool) (s u : State) : Prop where
  ctrl : u.ctrl = s.ctrl
  maps : u.maps = s.maps
  lessee (k : Byte) : (u.chanAt k).lessee = (s.chanAt k).lessee
  mem (h : stores = false) : u.mem = s.mem

namespace State.Keeps
variable {b : Bool} {s u w : State}

/-- Only fields that no invariant reads have changed. -/
theorem of_eq (hctrl : u.ctrl = s.ctrl := by rfl) (hmaps : u.maps = s.maps := by rfl)
    (hchan : u.chan = s.chan := by rfl)
    (hmem : u.mem = s.mem := by rfl) : s.Keeps b u :=
  ⟨hctrl, hmaps, fun k => by rw [State.chanAt, State.chanAt, hchan], fun _ => hmem⟩

/-- Only those fields and memory have. -/
theorem of_store (hctrl : u.ctrl = s.ctrl := by rfl) (hmaps : u.maps = s.maps := by rfl)
    (hchan : u.chan = s.chan := by rfl) : s.Keeps true u :=
  ⟨hctrl, hmaps, fun k => by rw [State.chanAt, State.chanAt, hchan], nofun⟩

theorem refl (s : State) : s.Keeps b s := .of_eq

theorem trans (h : s.Keeps b u) (h' : u.Keeps b w) : s.Keeps b w :=
  ⟨h'.ctrl.trans h.ctrl, h'.maps.trans h.maps, fun k => (h'.lessee k).trans (h.lessee k),
    fun e => (h'.mem e).trans (h.mem e)⟩

/-- A channel is given another descriptor under the same lease. -/
theorem setChan (s : State) (k : Byte) (ch : Chan) (h : ch.lessee = (s.chanAt k).lessee) :
    s.Keeps b (s.setChan k ch) where
  ctrl := rfl
  maps := rfl
  lessee j := by
    rw [State.chanAt_setChan]
    split
    · next e => exact e ▸ h
    · rfl
  mem _ := rfl

theorem abortChan (s : State) (o k : Byte) : s.Keeps b (s.abortChan o k) where
  ctrl := by rw [State.abortChan_eq]
  maps := by rw [State.abortChan_eq]
  lessee := State.lessee_abortChan s o k
  mem _ := by rw [State.abortChan_eq]

theorem respond (s : State) (d : Recipient) (ws : List Word) : s.Keeps b (s.respond d ws) :=
  .of_eq

theorem answer (s : State) (k : ErrKind) (i : Nat) (w : Word) : s.Keeps b (s.answer k i w) := respond s _ _

theorem answerWaiters (s : State) (k : ErrKind) (i : Nat) (ws : List Waiter) : s.Keeps b (s.answerWaiters k i ws) := by
  rw [State.answerWaiters_eq]
  exact .of_eq

theorem answerActive (s : State) (c : Byte) (x : Ctrl) (k : ErrKind) (i : Nat) :
    s.Keeps b (s.answerActive c x k i) := by
  unfold State.answerActive
  split
  · exact respond s _ _
  · exact refl s

theorem drew (s : State) (n : Nat) : s.Keeps b (s.drew n) := .of_eq

theorem linesInactive (s : State) (bs : List (Nat × Binding)) : s.Keeps b (s.linesInactive bs) := by
  induction bs generalizing s with
  | nil => exact refl s
  | cons p bs ih =>
    unfold State.linesInactive
    split
    · exact ih s
    · next l _ => exact trans (u := s.setLine l _) .of_eq (ih _)

end State.Keeps

/-! ### The FIFOs of a serial engine (R38 item 1) -/

/-- Neither FIFO passes the capacity. -/
def Hw.Fits (h : Hw) (depth : Nat) : Prop := h.txf.length ≤ depth ∧ h.rxf.length ≤ depth

namespace Hw.Fits
variable {h : Hw} {d : Nat}

theorem formatChanged (h : Hw) : h.formatChanged.Fits d := ⟨Nat.zero_le _, Nat.zero_le _⟩

theorem ite_formatChanged {p : Prop} [Decidable p] (hf : h.Fits d) : (if p then h else h.formatChanged).Fits d := by
  split
  · exact hf
  · exact formatChanged h

theorem putChCfg (hf : h.Fits d) (r : ChCfg) : (h.putChCfg r).Fits d := by
  refine ite_formatChanged ?_
  split
  · exact ⟨Nat.zero_le _, hf.2⟩
  · exact hf

theorem putModeCfg (hf : h.Fits d) (r : ModeCfg) : (h.putModeCfg r).Fits d :=
  ite_formatChanged (h := { h with modeCfg := r }) hf

theorem putPacketCnt (hf : h.Fits d) (r : PacketCnt) : (h.putPacketCnt r).Fits d := hf

theorem setStatus (hf : h.Fits d) (x : Cond) : (h.setStatus x).Fits d := by
  unfold Hw.setStatus
  split
  · exact hf
  · exact hf

theorem writeTxData (hf : h.Fits d) (n : Nat) (v : Word) : (h.writeTxData d n v).Fits d := by
  refine ⟨Hw.writeTxData_length h d n v hf.1, ?_⟩
  unfold Hw.writeTxData
  split
  · exact hf.2
  · split
    · exact (hf.setStatus _).2
    · exact hf.2

theorem popRx (hf : h.Fits d) (n : Nat) : (h.popRx n).Fits d := by
  refine ⟨?_, Nat.le_trans (Hw.popRx_length h n) hf.2⟩
  unfold Hw.popRx
  split
  · exact hf.1
  · exact (hf.setStatus _).1

theorem pushWords (m : List Host.Cell) (wb k : Nat) (a : Word) (hf : h.Fits d) :
    (Hw.pushWords m d wb k a h).Fits d := by
  induction k generalizing a h with
  | zero => exact hf
  | succ k ih => exact ih _ (hf.writeTxData wb _)

theorem pArm (hf : h.Fits d) (m : List Host.Cell) (wb : Nat) (t : Transfer) : (h.pArm m d wb t).Fits d := by
  refine putChCfg ?_ _
  split
  · exact pushWords m wb _ _ ((hf.putModeCfg _).putPacketCnt _)
  · exact (hf.putModeCfg _).putPacketCnt _

theorem dArm (hf : h.Fits d) (n wb : Nat) (t : Transfer) : (h.dArm n wb t).Fits d :=
  ((hf.putModeCfg _).putPacketCnt _).putChCfg _

theorem dEpilog (hf : h.Fits d) : h.dEpilog.Fits d := ((hf.putChCfg _).putModeCfg _).putPacketCnt _

theorem flush (h : Hw) : h.flush.Fits d := by
  rw [Hw.flush_eq]
  exact ⟨Nat.zero_le _, Nat.zero_le _⟩

theorem init (h : Hw) : h.init.Fits d := flush _

theorem configure (h : Hw) (n : Nat) (hs : Bool) (m : SpiMode) (w : BitVec 6) (sb : Bool) :
    (h.configure n hs m w sb).Fits d := formatChanged _

theorem drawn (n d : Nat) : (Hw.drawn n d).Fits d := ⟨List.length_take_le _ _, List.length_take_le _ _⟩

end Hw.Fits

/-! ### One controller -/

/-- The phases between D_MAP and the end of a sub-transfer, in which unmapping may be owed (R158). -/
def Seq.InSubTransfer (q : Seq) : Prop :=
  q.state = .transporting ∧ (q.phase = .dArm ∨ q.phase = .dWait ∨ q.phase = .dTxdrain)

/-- The sequencer waits for the channels (R154). -/
def Seq.InWait (q : Seq) : Prop := q.state = .transporting ∧ q.phase = .dWait

/-- The sequencer has a Transfer in hand, and the bytes moved, with those of a sub-transfer, do not pass its length
(R14, R15). -/
def Ctrl.TransferFits (x : Ctrl) : Prop :=
  ∃ t, x.transfer = some t ∧ (x.seq.state ≠ .selectCs → x.seq.off ≤ t.len.toNat) ∧
    (x.seq.InSubTransfer → x.seq.off + x.seq.chunk ≤ t.len.toNat)

/-- In service the sequencer goes on to the registers `q`: the Message stays in service under its binding, the wait for
the channels ends only with both busy flags clear, and the offsets stay right (R178 to R181, R186). -/
structure Ctrl.Proceeds (x : Ctrl) (q : Seq) : Prop where
  serving : x.seq.state ≠ .idle
  served : q.state ≠ .idle
  phase : q.state ≠ .transporting → q.phase = .none ∨ x.seq.state ≠ .transporting ∧ q.phase = x.seq.phase
  waits : x.seq.InWait → q.InWait ∨ x.dmaDone = true ∨ x.rxBusy = false ∧ x.txBusy = false
  binding : q.b = x.seq.b
  transfer : x.TransferFits → Ctrl.TransferFits { x with seq := q }

/-- What the sequencer owes stays as it was, and a sub-transfer ends only with nothing owed (R158). -/
structure Seq.OwesAs (q q' : Seq) : Prop where
  weMappedTx : q'.weMappedTx = q.weMappedTx
  weMappedRx : q'.weMappedRx = q.weMappedRx
  mapTx : q'.mapTx = q.mapTx
  mapRx : q'.mapRx = q.mapRx
  ends : q.InSubTransfer → q'.InSubTransfer ∨ q.weMappedTx = false ∧ q.weMappedRx = false

/-- The ways a controller moves with its power state, its leases and the live mappings as they were: one constructor for
each group of registers that R13 and R14 let the same steps write. -/
inductive Ctrl.Move : Ctrl → Ctrl → Prop where
  /-- The serial engine, the latch and the programmed format. -/
  | engine (x : Ctrl) (h : Hw) (l : Conds) (sp : Word) (m : SpiMode) (w : BitVec 6) (v : Bool)
      (hf : x.hw.Fits x.fifoDepth → h.Fits x.fifoDepth) :
      Move x { x with hw := h, errLatch := l, curSpeed := sp, curMode := m, curWidth := w, cfgValid := v }
  /-- The select's holder, and `CS_REG` (R116, R117). -/
  | select (x : Ctrl) (o : Option Byte) (r : CsReg) (ho : ∀ b, o = some b → (x.bindAt b).isSome = true) :
      Move x { x with csHolder := o, hw := { x.hw with csReg := r } }
  /-- The busy flags and the completion (R152, R153, R157): a flag only falls. -/
  | release (x : Ctrl) (r t d : Bool) (hr : r = true → x.rxBusy = true) (ht : t = true → x.txBusy = true)
      (hd : d = true → x.dmaDone = true ∨ r = false ∧ t = false) :
      Move x { x with rxBusy := r, txBusy := t, dmaDone := d }
  /-- D_ARM's registers (R149). -/
  | arm (x : Ctrl) (r t : Bool) (deadline : Nat) (h : x.inPhase .dArm = true) :
      Move x { x with
        rxBusy := r, txBusy := t, dmaDone := false, seq := { x.seq with deadline := deadline, phase := .dWait } }
  /-- A step of the sequencer in service. -/
  | proceed (x : Ctrl) (q : Seq) (h : x.Proceeds q) (ho : x.seq.OwesAs q) : Move x { x with seq := q }
  /-- SEQ_START (R173). -/
  | start (x : Ctrl) (i : Nat) (w : Waiter) (h : x.startEnabled = true) (hw : x.waitq[i]? = some w) :
      Move x { x with
        waitq := x.waitq.eraseIdx i, owner := some w.tag
        seq := { x.seq with
          b := w.b, msg := w.msg, msgStatus := .pending, xi := 0, off := 0, actual := 0, ncfg := 0, toggle := false,
          err := 0, phase := .none, transport := .none, state := .configuringDevice } }
  /-- SEQ_COMPLETE and SEQ_FAIL (R182, R183). -/
  | finish (x : Ctrl) (ms : MsgStatus) (tg : Bool) (now : Nat) (h : x.seq.state ≠ .transporting) :
      Move x { x with
        owner := none, lastActivity := now, seq := { x.seq with msgStatus := ms, toggle := tg, state := .idle } }
  /-- The waiting Messages, the retries and the waiting ON_ACTIVE (R170, R215, R216), outside SUSPENDED. -/
  | queue (x : Ctrl) (ws : List Waiter) (k : BitVec 8) (n : Nat) (a : Bool)
      (hw : ∀ w ∈ ws, w ∈ x.waitq ∨ (x.bindAt w.b).isSome = true ∧ w.msg ≠ [])
      (hs : x.pstate ≠ .suspended ∨ x.suspended = false) :
      Move x { x with waitq := ws, acqK := k, acqNext := n, actWait := a }
  /-- BIND (R106). -/
  | bind (x : Ctrl) (b : Byte) (bd : Binding) (sec : Bool) (h : x.bindAt b = none) :
      Move x { x with bind := Table.set x.bind b.toNat bd, secure := sec }
  /-- ON_SUSPEND (R217). -/
  | suspend (x : Ctrl) : Move x { x with suspended := true }

/-- A run of moves. -/
abbrev Ctrl.Moves : Ctrl → Ctrl → Prop := Relation.ReflTransGen Ctrl.Move

/-! ### A controller at work -/

/-- One piece of an instruction's work on a controller: moves with the shared state kept; `unmap_owed` of a Message in
service (R158); D_MAP (R148). -/
inductive View.Move (stores : Bool) (v : View) : View → Prop where
  | work (w : View) (key : w.key = v.key) (st : v.st.Keeps stores w.st) (c : v.c.Moves w.c) : View.Move stores v w
  | unmapOwed (h : v.c.seq.state ≠ .idle) : View.Move stores v v.unmapOwed
  | dMap (t : Transfer) (hs : stores = true) (h : v.c.inPhase .dMap = true) (ht : v.c.transfer = some t) :
      View.Move stores v (v.dMap t)

/-- A run of such pieces. -/
abbrev View.Moves (stores : Bool) : View → View → Prop := Relation.ReflTransGen (View.Move stores)

/-- The power state, the clocks and the leases of one controller change, each by the instruction that R213 names. -/
inductive View.PowerMove : Instr → View → View → Prop where
  | acquire (v : View) (h : v.c.acqEnabled v.st.now = true) (hf : v.st.leasesFree v.c = true) :
      PowerMove (.acqAttempt v.key) v v.acquire
  | idle (v : View) (hp : v.c.pstate = .active) (hq : v.c.seq.state = .idle) (hs : v.c.suspended = false) :
      PowerMove (.onIdle .exact v.key) v
        ⟨v.st.freeLeases v.c, v.key, { v.c.quiesce with pstate := .idle }⟩
  | suspend (v : View) (h : v.c.suspendFinishEnabled = true) : PowerMove (.suspendFinish v.key) v v.suspendFinish
  | resume (v : View) (h : v.c.pstate = .suspended) : PowerMove (.onResume .exact v.key) v v.resume

/-! ### The whole state -/

/-- The shared state is kept, or one of the controllers `C` works. -/
inductive State.Change (stores : Bool) (C : Byte → Prop) (s : State) : State → Prop where
  | keep (u : State) (h : s.Keeps stores u) : State.Change stores C s u
  | work (c : Byte) (x : Ctrl) (w : View) (hC : C c) (hx : s.ctrlAt c = some x)
      (h : View.Moves stores ⟨s, c, x⟩ w) :
      State.Change stores C s w.commit

/-- A run of such changes: a single step's work, or that of a composite. -/
abbrev State.Works (stores : Bool) (C : Byte → Prop) : State → State → Prop :=
  Relation.ReflTransGen (State.Change stores C)

/-- The controllers an instruction may work on: its target, and for XFER_DMA the lessees of its controller's channels
(R162; log entry 25). -/
def touches (s : State) (i : Instr) (c : Byte) : Prop :=
  target s i = some c ∨ ∃ e x, i = .xferDma e ∧ s.ctrlAt e = some x ∧ x.seq.state = .transporting ∧
    ((s.chanAt x.dmaTx).lessee = some c ∨ (s.chanAt x.dmaRx).lessee = some c)

/-- All that an instruction can do. -/
inductive Effect (i : Instr) (s : State) : State → Prop where
  | works (u : State) (h : s.Works (mayStore i) (touches s i) u) : Effect i s u
  | power (c : Byte) (x : Ctrl) (w : View) (st : State) (hx : s.ctrlAt c = some x)
      (h : View.PowerMove i ⟨s, c, x⟩ w)
      (hst : w.st.Keeps false st) : Effect i s { w with st := st }.commit
  | created (c : Byte) (a : NewArgs) (hi : i = .new .exact c a) (hx : s.ctrlAt c = none) (hd : a.dmaRx ≠ a.dmaTx) :
      Effect i s (s.newDone c a)
  | destroyed (c : Byte) (x : Ctrl) (hi : i = .destroy .exact c) (hx : s.ctrlAt c = some x)
      (hb : x.destroyBusy = false) : Effect i s (s.destroyDone c x)

end Sys2Proof.Machine
end

section
/-! PROOFS. The shared operations as runs of moves: the serial engine, chip-select, errors and the failure path, the
sequencer's transitions, the two transports. -/

namespace Sys2Proof.Machine

@[simp] theorem Ctrl.inPhase_iff (x : Ctrl) (p : Phase) :
    x.inPhase p = true ↔ x.seq.state = .transporting ∧ x.seq.phase = p := by simp [Ctrl.inPhase]

@[simp] theorem Ctrl.inState_iff (x : Ctrl) (q : SeqState) : x.inState q = true ↔ x.seq.state = q := by
  simp [Ctrl.inState]

variable {b : Bool}

/-! ### The serial engine (R81 to R96, R134, R197 to R200, R212) -/

/-- A controller makes one move while the shared state is kept. -/
theorem View.Moves.ctrl {v : View} {st : State} {y : Ctrl} (hst : v.st.Keeps b st) (h : v.c.Move y) :
    v.Moves b ⟨st, v.key, y⟩ := .single (.work _ rfl hst (.single h))

theorem View.Moves.shared {v : View} {st : State} (hst : v.st.Keeps b st) : v.Moves b { v with st := st } :=
  .single (.work _ rfl hst .refl)

/-- Registers and FIFOs are written. -/
theorem View.Moves.hw {v : View} {st : State} {h : Hw} (hst : v.st.Keeps b st)
    (hf : v.c.hw.Fits v.c.fifoDepth → h.Fits v.c.fifoDepth) : v.Moves b ⟨st, v.key, { v.c with hw := h }⟩ :=
  .ctrl hst (.engine v.c h v.c.errLatch v.c.curSpeed v.c.curMode v.c.curWidth v.c.cfgValid hf)

theorem View.Moves.onHw {v : View} {f : Hw → Hw}
    (hf : v.c.hw.Fits v.c.fifoDepth → (f v.c.hw).Fits v.c.fifoDepth) : v.Moves b (v.onHw f) := .hw (.refl _) hf

theorem View.errAck_moves (v : View) : v.Moves b v.errAck :=
  .ctrl .of_eq (.engine v.c _ _ _ _ _ _ id)

theorem View.checkStatus_moves (v : View) : v.Moves b v.checkStatus := by
  unfold View.checkStatus
  split
  · exact v.errAck_moves
  · exact .refl

theorem View.flushOp_moves (v : View) : v.Moves b v.flushOp :=
  .ctrl (.refl _) (.engine v.c _ _ _ _ _ _ fun _ => Hw.Fits.flush _)

theorem View.hwInit_moves (v : View) : v.Moves b v.hwInit :=
  .ctrl (.refl _) (.engine v.c _ _ _ _ _ _ fun _ => Hw.Fits.init _)

theorem View.configure_moves {v w : View} {sp : Word} {m : SpiMode} {wd : BitVec 6}
    (h : v.configure sp m wd = .ok w) : v.Moves b w := by
  obtain ⟨hst, hkey, -, d, a, -, hc⟩ := View.configure_ok v w sp m wd h
  refine .single (.work w hkey (hst ▸ .refl _) ?_)
  rw [hc]
  exact .single (.engine v.c _ _ _ _ _ _ fun _ => Hw.Fits.configure _ _ _ _ _ _)

theorem View.shLoad_moves (v : View) : v.Moves b v.shLoad := by
  have drop (h : v.c.hw.Fits v.c.fifoDepth) : (v.c.hw.txf.drop v.c.hw.wb).length ≤ v.c.fifoDepth :=
    Nat.le_trans (by simp) h.1
  unfold View.shLoad
  dsimp only
  split
  · split
    · exact .hw (.refl _) fun h => ⟨drop h, h.2⟩
    · exact .hw (.drew _ _) fun h => ⟨drop h, h.2⟩
  · exact .hw (.drew _ _) id

/-- SH_DONE pushes a word only where it has room (R89). -/
theorem View.receive_moves (v : View) (r : Word) : v.Moves b (v.receive r) := by
  have push (w : Word) (hr : v.c.hw.wb ≤ v.c.fifoDepth - v.c.hw.rxf.length) (h : v.c.hw.Fits v.c.fifoDepth) :
      (v.c.hw.rxf ++ leBytes v.c.hw.wb w).length ≤ v.c.fifoDepth := by
    have := h.2
    simp only [List.length_append, length_leBytes]
    omega
  unfold View.receive
  dsimp only
  split
  · split
    · next hr =>
      split
      · next w _ => exact .hw (.refl _) fun h => ⟨h.1, push w hr h⟩
      · exact .hw (.drew _ _) fun h => ⟨h.1, push _ hr h⟩
    · exact .hw (.refl _) fun h => h.setStatus _
  · exact .refl

theorem View.countDown_moves (v : View) : v.Moves b v.countDown := by
  unfold View.countDown
  split
  · exact .hw (.drew _ _) id
  · exact .hw (.refl _) id

theorem View.shDone_moves (v : View) : v.Moves b v.shDone :=
  ((v.receive_moves _).trans (View.countDown_moves _)).trans (View.Moves.shared .of_eq)

/-! ### Chip-select (R116, R117) -/

theorem View.csAssert_moves (v : View) (k : Byte) : v.Moves b (v.csAssert k) := by
  unfold View.csAssert
  split
  · exact .refl
  · next x hx =>
    have bound (j : Byte) (e : some k = some j) : (v.c.bindAt j).isSome = true := by
      cases e
      exact hx ▸ rfl
    unfold View.assertBinding
    dsimp only
    split <;> exact .ctrl .of_eq (.select v.c _ _ bound)

theorem View.csDeassert_moves (v : View) : v.Moves b v.csDeassert := by
  unfold View.csDeassert
  split
  · exact .refl
  · split
    · exact .refl
    · unfold View.deassertBinding
      dsimp only
      split <;> exact .ctrl .of_eq (.select v.c none _ nofun)

/-! ### The sequencer (R173 to R183) -/

/-- The Message, the Transfer in hand, its offsets and what is owed for it are as they were. -/
structure Seq.SameTransfer (q q' : Seq) : Prop where
  binding : q'.b = q.b
  msg : q'.msg = q.msg
  xi : q'.xi = q.xi
  off : q'.off = q.off
  chunk : q'.chunk = q.chunk
  weMappedTx : q'.weMappedTx = q.weMappedTx
  weMappedRx : q'.weMappedRx = q.weMappedRx
  mapTx : q'.mapTx = q.mapTx
  mapRx : q'.mapRx = q.mapRx

theorem Seq.SameTransfer.owesAs {q q' : Seq} (h : q.SameTransfer q')
    (hends : q.InSubTransfer → q'.InSubTransfer ∨ q.weMappedTx = false ∧ q.weMappedRx = false) : q.OwesAs q' :=
  ⟨h.weMappedTx, h.weMappedRx, h.mapTx, h.mapRx, hends⟩

/-- The sequencer goes to another state or phase of the same Transfer. -/
theorem Ctrl.Proceeds.goto {x : Ctrl} {q : Seq} (hs : x.seq.state ≠ .idle) (hsel : x.seq.state ≠ .selectCs)
    (hq : q.state ≠ .idle)
    (hp : q.state ≠ .transporting → q.phase = .none ∨ x.seq.state ≠ .transporting ∧ q.phase = x.seq.phase)
    (hw : x.seq.InWait → q.InWait ∨ x.dmaDone = true ∨ x.rxBusy = false ∧ x.txBusy = false)
    (hin : q.InSubTransfer → x.seq.InSubTransfer) (h : x.seq.SameTransfer q) : x.Proceeds q where
  serving := hs
  served := hq
  phase := hp
  waits := hw
  binding := h.binding
  transfer := by
    rintro ⟨t, ht, hoff, hchunk⟩
    refine ⟨t, ?_, fun _ => ?_, fun hi => ?_⟩
    · simpa [Ctrl.transfer, h.msg, h.xi] using ht
    · simpa [h.off] using hoff hsel
    · simpa [h.off, h.chunk] using hchunk (hin hi)

theorem Seq.not_inSubTransfer_of_state {q : Seq} (h : q.state ≠ .transporting) : ¬ q.InSubTransfer := fun e => h e.1

theorem Seq.InWait.inSubTransfer {q : Seq} (h : q.InWait) : q.InSubTransfer := ⟨h.1, .inr (.inl h.2)⟩

/-- The sequencer may leave its Transfer: nothing is owed and no channel is waited for. -/
structure Ctrl.Settled (x : Ctrl) : Prop where
  serving : x.seq.state = .configuring ∨ x.seq.state = .transporting
  waits : x.seq.InWait → x.dmaDone = true ∨ x.rxBusy = false ∧ x.txBusy = false
  owes : x.seq.InSubTransfer → x.seq.weMappedTx = false ∧ x.seq.weMappedRx = false

theorem Ctrl.Settled.of_not_inSubTransfer {x : Ctrl} (hs : x.seq.state = .configuring ∨ x.seq.state = .transporting)
    (h : ¬ x.seq.InSubTransfer) : x.Settled := ⟨hs, fun e => absurd e.inSubTransfer h, fun e => absurd e h⟩

theorem Ctrl.Settled.checkStatus {v : View} (h : v.c.Settled) : v.checkStatus.c.Settled := by
  rw [View.checkStatus_c]
  exact ⟨h.serving, h.waits, h.owes⟩

/-- A settled sequencer may leave for the states after a transfer. -/
theorem Ctrl.Settled.leave {x : Ctrl} (h : x.Settled) {q : Seq} (hq : q.state = .postDelay ∨ q.state = .failed)
    (hp : q.phase = .none) (hsame : x.seq.SameTransfer q := by constructor <;> rfl) : x.Move { x with seq := q } := by
  have hout : q.state ≠ .transporting := by rcases hq with e | e <;> rw [e] <;> nofun
  refine .proceed _ _ (.goto ?_ ?_ ?_ (fun _ => .inl hp) (fun e => .inr (h.waits e))
    (fun e => absurd e (Seq.not_inSubTransfer_of_state hout)) hsame) (hsame.owesAs fun e => .inr (h.owes e))
  · rcases h.serving with e | e <;> rw [e] <;> nofun
  · rcases h.serving with e | e <;> rw [e] <;> nofun
  · rcases hq with e | e <;> rw [e] <;> nofun

/-- `fail(K)` of a settled sequencer (R183, R244); with nothing written it stores nothing. -/
theorem View.fail_moves {v : View} {k : ErrKind} {n : Nat} (h : v.c.Settled) (hb : b = true ∨ n = 0) :
    v.Moves b (v.fail k n) := by
  refine .single (.work _ (v.fail_key k n) ?_ ?_)
  · rw [View.fail_st]
    refine ⟨rfl, rfl, fun _ => rfl, fun e => ?_⟩
    rcases hb with hb | rfl
    · simp [hb] at e
    · simp
  · rw [View.fail_c]
    exact .single (h.leave (.inr rfl) rfl)

theorem View.enterPostDelay_moves {v : View} (h : v.c.Settled) (t : Transfer) : v.Moves b (v.enterPostDelay t) :=
  .ctrl (.refl _) (h.leave (.inl rfl) rfl)

/-- A step of the sequencer in service, outside the sub-transfers: the states and phases before and after it. -/
def Seq.GoesTo (q q' : Seq) : Prop :=
  q.state ≠ .idle ∧ q.state ≠ .selectCs ∧ ¬ q.InSubTransfer ∧ q'.state ≠ .idle ∧ ¬ q'.InSubTransfer ∧
  (q'.state ≠ .transporting → q'.phase = .none ∨ q.state ≠ .transporting ∧ q'.phase = q.phase)

theorem View.Moves.onSeq {v : View} {f : Seq → Seq} (h : v.c.seq.GoesTo (f v.c.seq))
    (hsame : v.c.seq.SameTransfer (f v.c.seq) := by constructor <;> rfl) : v.Moves b (v.onSeq f) := by
  obtain ⟨hs, hsel, hout, hq, hin, hp⟩ := h
  exact .ctrl (.refl _) (.proceed _ _
    (.goto hs hsel hq hp (fun e => absurd e.inSubTransfer hout) (fun e => absurd e hin) hsame)
    (hsame.owesAs fun e => absurd e hout))

theorem View.deselectOther_moves (v : View) : v.Moves b v.deselectOther := by
  unfold View.deselectOther
  split
  · exact .refl
  · split
    · exact .refl
    · exact v.csDeassert_moves

end Sys2Proof.Machine
end

section
/-! PROOFS. The steps of the sequencer and of the transports as runs of moves. -/

namespace Sys2Proof.Machine

variable {b : Bool}

/-! ### What the shared operations leave of the sequencer -/

@[simp] theorem View.checkStatus_seq (v : View) : v.checkStatus.c.seq = v.c.seq := by rw [View.checkStatus_c]

@[simp] theorem View.csDeassert_seq (v : View) : v.csDeassert.c.seq = v.c.seq := by rw [View.csDeassert_c]

@[simp] theorem View.csAssert_seq (v : View) (k : Byte) : (v.csAssert k).c.seq = v.c.seq := by rw [View.csAssert_c]

@[simp] theorem View.deselectOther_seq (v : View) : v.deselectOther.c.seq = v.c.seq := by
  unfold View.deselectOther
  split
  · rfl
  · split
    · rfl
    · exact v.csDeassert_seq

theorem View.configure_seq {v w : View} {sp : Word} {m : SpiMode} {wd : BitVec 6}
    (h : v.configure sp m wd = .ok w) : w.c.seq = v.c.seq := by
  obtain ⟨-, -, -, d, a, -, hc⟩ := View.configure_ok v w sp m wd h
  rw [hc]

theorem Ctrl.transfer_congr {x y : Ctrl} (h : y.seq = x.seq) : y.transfer = x.transfer := by
  simp [Ctrl.transfer, h]

/-! ### Outside the transports (R174 to R183) -/

theorem View.configDevice_moves {v : View} (h : v.c.seq.state = .configuringDevice) (x : Binding) :
    v.Moves b (v.configDevice x) :=
  v.deselectOther_moves.trans
    (.trans (View.Moves.onHw id) (View.Moves.onSeq (by simp [Seq.GoesTo, Seq.InSubTransfer, h])))

/-- SELECT_CS ends with the offset of the next Transfer at 0 (R175). -/
theorem View.selected_moves {v : View} (h : v.c.seq.state = .selectCs) : v.Moves b v.selected := by
  refine .ctrl (.refl _) (.proceed v.c _ ⟨by simp [h], by simp, fun _ => .inr ⟨by simp [h], rfl⟩,
    fun e => ?_, rfl, ?_⟩
    ⟨rfl, rfl, rfl, rfl, fun e => ?_⟩)
  · simp [Seq.InWait, h] at e
  · rintro ⟨t, ht, -, -⟩
    exact ⟨t, ht, fun _ => Nat.zero_le _, fun e => absurd e.1 (by simp)⟩
  · simp [Seq.InSubTransfer, h] at e

/-- The speed written back leaves the Transfer's length (R176). -/
theorem View.speedWritten_moves {v : View} {t : Transfer} (h : v.c.seq.state = .configuring)
    (ht : v.c.transfer = some t) (sp : Word) (tr : Transport) :
    v.Moves b (v.onSeq fun q => { q with
      msg := q.msg.set q.xi { t with speed := sp }, ncfg := q.xi + 1, transport := tr }) := by
  have hlt : v.c.seq.xi < v.c.seq.msg.length := (List.getElem?_eq_some_iff.mp ht).1
  refine .ctrl (.refl _) (.proceed v.c _ ⟨by simp [h], by simp [h], fun _ => .inr ⟨by simp [h], rfl⟩,
    .inl, rfl, ?_⟩
    ⟨rfl, rfl, rfl, rfl, .inl⟩)
  rintro ⟨t', ht', hoff, hchunk⟩
  cases ht.symm.trans ht'
  exact ⟨{ t with speed := sp }, by simp [Ctrl.transfer, hlt], hoff, hchunk⟩

theorem View.configured_moves {v : View} {t : Transfer} (h : v.c.seq.state = .configuring)
    (ht : v.c.transfer = some t) : v.Moves b (v.configured t) := by
  unfold View.configured
  dsimp only
  refine (View.speedWritten_moves (b := b) h ht v.c.curSpeed (transportOf t.len.toNat v.c.half)).trans ?_
  split
  · exact View.enterPostDelay_moves (.of_not_inSubTransfer (.inl (by simp [h])) (by simp [Seq.InSubTransfer, h])) t
  · exact View.Moves.onSeq (by simp [Seq.GoesTo, Seq.InSubTransfer, h])
  · exact View.Moves.onSeq (by simp [Seq.GoesTo, Seq.InSubTransfer, h])

theorem View.accumulate_moves {v : View} (h : v.c.seq.state = .postDelay) (t : Transfer) :
    v.Moves b (v.accumulate t) := by
  unfold View.accumulate
  split
  · exact View.Moves.onSeq (by simp [Seq.GoesTo, Seq.InSubTransfer, h])
  · exact (View.Moves.onSeq (by simp [Seq.GoesTo, Seq.InSubTransfer, h])).trans (View.Moves.shared (.drew _ _))

theorem View.accumulate_state (v : View) (t : Transfer) : (v.accumulate t).c.seq.state = v.c.seq.state := by
  unfold View.accumulate
  split <;> rfl

theorem View.postDelay_moves {v : View} (h : v.c.seq.state = .postDelay) (t : Transfer) :
    v.Moves b ((v.accumulate t).onSeq fun q => { q with state := .deselectCs }) :=
  (View.accumulate_moves h t).trans
    (View.Moves.onSeq (by simp [Seq.GoesTo, Seq.InSubTransfer, View.accumulate_state, h]))

/-- SEQ_ADVANCE goes to the next Transfer where there is one (R181). -/
theorem View.nextTransfer_moves {v : View} (h : v.c.seq.state = .deselectCs)
    (hn : v.c.seq.xi + 1 < v.c.seq.msg.length) : v.Moves b v.nextTransfer := by
  refine .ctrl (.refl _) (.proceed v.c _ ⟨by simp [h], by simp, fun _ => .inr ⟨by simp [h], rfl⟩,
    fun e => ?_, rfl, ?_⟩
    ⟨rfl, rfl, rfl, rfl, fun e => ?_⟩)
  · simp [Seq.InWait, h] at e
  · rintro -
    exact ⟨_, List.getElem?_eq_getElem hn, fun e => absurd rfl e, fun e => absurd e.1 (by simp)⟩
  · simp [Seq.InSubTransfer, h] at e

/-! ### Polling (R132 to R134) -/

theorem View.pArm_moves {v : View} (h : v.c.inPhase .pArm = true) (t : Transfer) : v.Moves b (v.pArm t) := by
  obtain ⟨hs, hp⟩ := (v.c.inPhase_iff _).mp h
  exact (View.Moves.ctrl (.refl _)
      (.engine v.c (v.c.hw.pArm v.st.mem v.c.fifoDepth v.c.wb t) Conds.empty v.c.curSpeed v.c.curMode v.c.curWidth
        v.c.cfgValid fun hf => hf.pArm _ _ _)).trans
    (View.Moves.onSeq (f := fun q => { q with
        deadline := v.st.now + deadlineUs t.len.toNat v.c.curSpeed.toNat, phase := .pPoll })
      (by simp [Seq.GoesTo, Seq.InSubTransfer, hs, hp]))

theorem View.pPoll_moves {v : View} (h : v.c.inPhase .pPoll = true) (t : Transfer) : v.Moves b (v.pPoll t) := by
  obtain ⟨hs, hp⟩ := (v.c.inPhase_iff _).mp h
  have settled : v.checkStatus.c.Settled :=
    .checkStatus (.of_not_inSubTransfer (.inr hs) (by simp [Seq.InSubTransfer, hp]))
  unfold View.pPoll
  dsimp only
  refine v.checkStatus_moves.trans ?_
  split
  · exact View.fail_moves settled (.inr rfl)
  · split
    · exact View.Moves.onSeq (by simp [Seq.GoesTo, Seq.InSubTransfer, hs, hp])
    · split
      · exact View.fail_moves settled (.inr rfl)
      · exact .refl

theorem View.validateStatus_moves {v : View} (h : v.c.Settled) (t : Transfer) (n : Nat) :
    v.Moves true (v.validateStatus t n) := by
  unfold View.validateStatus
  dsimp only
  refine v.checkStatus_moves.trans ?_
  split
  · exact View.fail_moves h.checkStatus (.inl rfl)
  · exact View.enterPostDelay_moves h.checkStatus t

theorem View.drainWord_moves (v : View) (wb : Nat) (a : Word) : v.Moves true (v.drainWord wb a) := by
  refine .single (.work _ (v.readRx_key wb) ?_ ?_)
  · unfold View.drainWord
    dsimp only
    rw [View.readRx_st]
    exact .of_store
  · unfold View.drainWord
    dsimp only
    rw [View.readRx_c]
    exact .single (.engine v.c _ _ _ _ _ _ fun hf => hf.popRx wb)

theorem View.drainWord_seq (v : View) (wb : Nat) (a : Word) : (v.drainWord wb a).c.seq = v.c.seq := by
  unfold View.drainWord
  dsimp only
  rw [View.readRx_c]

theorem View.drainWords_moves (wb k : Nat) (a : Word) (v : View) : v.Moves true (View.drainWords wb k a v) := by
  induction k generalizing a v with
  | zero => exact .refl
  | succ k ih => exact (v.drainWord_moves wb a).trans (ih _ _)

@[simp] theorem View.drainWords_seq (wb k : Nat) (a : Word) (v : View) :
    (View.drainWords wb k a v).c.seq = v.c.seq := by
  induction k generalizing a v with
  | zero => rfl
  | succ k ih => exact (ih _ _).trans (v.drainWord_seq wb a)

/-- P_DRAIN's words, where the Transfer receives (R134). -/
theorem View.drained_moves (v : View) (t : Transfer) : v.Moves true
    (if t.rxPresent then View.drainWords v.c.wb (t.len.toNat / v.c.wb) t.rx v else v) := by
  split
  · exact View.drainWords_moves _ _ _ v
  · exact .refl

theorem View.drained_seq (v : View) (t : Transfer) :
    (if t.rxPresent then View.drainWords v.c.wb (t.len.toNat / v.c.wb) t.rx v else v).c.seq = v.c.seq := by
  split
  · exact View.drainWords_seq _ _ _ v
  · rfl

theorem View.pDrain_moves {v : View} (h : v.c.inPhase .pDrain = true) (t : Transfer) : v.Moves true (v.pDrain t) := by
  obtain ⟨hs, hp⟩ := (v.c.inPhase_iff _).mp h
  unfold View.pDrain
  dsimp only
  refine (v.drained_moves t).trans (.trans (View.Moves.onHw fun hf => (hf.putChCfg _).putPacketCnt _)
    (.trans (View.Moves.onSeq ?_) (View.validateStatus_moves (.of_not_inSubTransfer (.inr ?_) ?_) t _)))
  · simp [Seq.GoesTo, Seq.InSubTransfer, View.drained_seq, hs, hp]
  · simp [View.drained_seq, hs]
  · simp [Seq.InSubTransfer]

/-! ### DMA (R149, R154 to R161) -/

theorem View.dmaAbort_moves (v : View) : v.Moves b v.dmaAbort :=
  .ctrl ((State.Keeps.abortChan _ _ _).trans (.abortChan _ _ _)) (.release v.c _ _ _ nofun nofun nofun)

theorem View.armChannels_keeps (v : View) (t : Transfer) : v.st.Keeps b (v.armChannels t) := by
  have rx : v.st.Keeps b (if t.rxPresent then v.st.setChan v.c.dmaRx ((v.st.chanAt v.c.dmaRx).arm .rx
      (v.c.seq.mapRx.getD 0) v.c.seq.chunk (burstOf v.c.seq.chunk v.c.wb) v.c.wb) else v.st) := by
    split
    · exact .setChan _ _ _ rfl
    · exact .refl _
  unfold View.armChannels
  dsimp only
  split
  · exact rx.trans (.setChan _ _ _ rfl)
  · exact rx

theorem View.dArm_moves {v : View} (h : v.c.inPhase .dArm = true) (t : Transfer) : v.Moves b (v.dArm t) :=
  (View.Moves.ctrl (v.armChannels_keeps t)
      (.engine v.c (v.c.hw.dArm v.c.seq.chunk v.c.wb t) Conds.empty v.c.curSpeed v.c.curMode v.c.curWidth v.c.cfgValid
        fun hf => hf.dArm _ _ _)).trans
    (View.Moves.ctrl (.refl _)
      (.arm _ t.rxPresent t.txPresent (v.st.now + deadlineUs v.c.seq.chunk v.c.curSpeed.toNat) h))

/-- `unmap_owed` settles a sequencer that waits for no channel (R158). -/
theorem View.unmapOwed_settled {v : View} (hs : v.c.seq.state = .transporting)
    (hw : v.c.seq.InWait → v.c.dmaDone = true ∨ v.c.rxBusy = false ∧ v.c.txBusy = false) :
    v.unmapOwed.c.Settled := by
  rw [View.unmapOwed_c]
  exact ⟨.inr hs, hw, fun _ => ⟨rfl, rfl⟩⟩

/-- A sub-transfer's bytes are counted as the sequencer leaves it (R156). -/
theorem Ctrl.Settled.advance {x : Ctrl} (h : x.Settled) (hi : x.seq.InSubTransfer) {q : Seq}
    (hq : q.state = .transporting ∧ q.phase = .dMap ∨ q.state = .postDelay ∧ q.phase = .none) (hb : q.b = x.seq.b)
    (hm : q.msg = x.seq.msg) (hx : q.xi = x.seq.xi) (ho : q.off = x.seq.off + x.seq.chunk)
    (htx : q.weMappedTx = x.seq.weMappedTx) (hrx : q.weMappedRx = x.seq.weMappedRx) (hmt : q.mapTx = x.seq.mapTx)
    (hmr : q.mapRx = x.seq.mapRx) : x.Move { x with seq := q } := by
  have hout : ¬ q.InSubTransfer := by
    rcases hq with ⟨hs, hp⟩ | ⟨hs, hp⟩ <;> simp [Seq.InSubTransfer, hs, hp]
  refine .proceed _ _ ⟨by simp [hi.1], ?_, ?_, fun e => .inr (h.waits e), hb, ?_⟩
    ⟨htx, hrx, hmt, hmr, fun e => .inr (h.owes e)⟩
  · rcases hq with ⟨hs, -⟩ | ⟨hs, -⟩ <;> simp [hs]
  · rcases hq with ⟨hs, -⟩ | ⟨-, hp⟩
    · exact fun e => absurd hs e
    · exact fun _ => .inl hp
  · rintro ⟨t, ht, -, hchunk⟩
    refine ⟨t, ?_, fun _ => ?_, fun e => absurd e hout⟩
    · simpa [Ctrl.transfer, hm, hx] using ht
    · simpa [ho] using hchunk hi

theorem View.dEpilog_moves {v : View} (hi : v.c.seq.InSubTransfer)
    (hw : v.c.seq.InWait → v.c.dmaDone = true ∨ v.c.rxBusy = false ∧ v.c.txBusy = false) (t : Transfer) :
    v.Moves true (v.dEpilog t) := by
  have settled : ((v.onHw Hw.dEpilog).unmapOwed).checkStatus.c.Settled :=
    (View.unmapOwed_settled (v := v.onHw Hw.dEpilog) hi.1 hw).checkStatus
  have sub : ((v.onHw Hw.dEpilog).unmapOwed).checkStatus.c.seq.InSubTransfer := by
    rw [View.checkStatus_seq, View.unmapOwed_c]
    exact hi
  unfold View.dEpilog
  dsimp only
  refine .trans (View.Moves.onHw Hw.Fits.dEpilog) (.trans (.single (.unmapOwed (by simp [hi.1])))
    ((View.checkStatus_moves _).trans ?_))
  split
  · exact View.fail_moves settled (.inl rfl)
  · split
    · exact View.Moves.ctrl (.refl _) (settled.advance sub (.inl ⟨sub.1, rfl⟩) rfl rfl rfl rfl rfl rfl rfl rfl)
    · exact View.Moves.ctrl (.refl _) (settled.advance sub (.inr ⟨rfl, rfl⟩) rfl rfl rfl rfl rfl rfl rfl rfl)

theorem View.dmaGiveUp_moves {v : View} (hs : v.c.seq.state = .transporting) : v.Moves true v.dmaGiveUp := by
  have settled : (v.dmaAbort.unmapOwed).checkStatus.c.Settled :=
    (View.unmapOwed_settled (v := v.dmaAbort) hs fun _ => .inr ⟨rfl, rfl⟩).checkStatus
  unfold View.dmaGiveUp
  dsimp only
  refine v.dmaAbort_moves.trans (.trans (.single (.unmapOwed (by simp [View.dmaAbort_c, hs])))
    ((View.checkStatus_moves _).trans ?_))
  split
  · exact View.fail_moves settled (.inl rfl)
  · exact View.fail_moves settled (.inl rfl)

/-- D_WAIT goes on to D_TXDRAIN once both channels are done (R154). -/
theorem View.toTxdrain_moves {v : View} (h : v.c.inPhase .dWait = true) (hd : v.c.dmaDone = true) (d : Seq → Nat) :
    v.Moves b (v.onSeq fun q => { q with deadline := d q, phase := .dTxdrain }) := by
  obtain ⟨hs, hp⟩ := (v.c.inPhase_iff _).mp h
  have same : v.c.seq.SameTransfer { v.c.seq with deadline := d v.c.seq, phase := .dTxdrain } := by constructor <;> rfl
  exact .ctrl (.refl _) (.proceed v.c _
    (.goto (by simp [hs]) (by simp [hs]) (by simp [hs]) (fun e => absurd hs e) (fun _ => .inr (.inl hd))
      (fun _ => ⟨hs, .inr (.inl hp)⟩) same)
    (same.owesAs fun e => .inl ⟨e.1, .inr (.inr rfl)⟩))

/-! ### The recovery of a failed Message (R183) -/

theorem View.recover_moves {v : View} (h : v.c.seq.state ≠ .idle) : v.Moves b v.recover :=
  v.checkStatus_moves.trans ((View.dmaAbort_moves _).trans (.trans
    (.single (.unmapOwed (by simpa [View.dmaAbort_c] using h)))
    ((View.csDeassert_moves _).trans (View.flushOp_moves _))))

theorem View.recover_state (v : View) : v.recover.c.seq.state = v.c.seq.state := by
  simp [View.recover, View.flushOp_c, View.unmapOwed_c, View.dmaAbort_c]

theorem View.seqFail_moves {v : View} (h : v.c.seq.state = .failed) (tag : Nat) : v.Moves b (v.seqFail tag) :=
  (View.recover_moves (by simp [h])).trans
    (View.Moves.ctrl (.respond _ _ _) (.finish _ _ _ _ (by simp [View.recover_state, h])))

end Sys2Proof.Machine
end

section
/-! PROOFS. What each instruction can do (`Effect`): the work of the steps one by one, that of the two composites as a
run of it, and the changes of power state, creation and destruction. -/

namespace Sys2Proof.Machine

section
variable {b : Bool} {C : Byte → Prop} {c : Byte} {s : State}

theorem State.Works.keeps {u : State} (h : s.Keeps b u) : s.Works b C u := .single (.keep u h)

theorem State.Works.moves {x : Ctrl} {w : View} (hC : C c) (hx : s.ctrlAt c = some x)
    (h : View.Moves b ⟨s, c, x⟩ w) :
    s.Works b C w.commit := .single (.work c x w hC hx h)

/-! ### The serial engine and the environment -/

theorem execShLoad_works (hC : C c) : Ends (s.Works b C) (execShLoad c s) :=
  .withCtrl .refl fun _ hx => .ite (fun _ => .next (.moves hC hx (View.shLoad_moves _))) fun _ => .next .refl

theorem execShDone_works (hC : C c) : Ends (s.Works b C) (execShDone c s) :=
  .withCtrl .refl fun _ hx => .ite (fun _ => .next (.moves hC hx (View.shDone_moves _))) fun _ => .next .refl

theorem execErrInject_works (hC : C c) (m : Conds) : Ends (s.Works b C) (execErrInject c m s) :=
  .withCtrl .refl fun _ hx => .ite (fun _ => .next (.moves hC hx (View.Moves.onHw id))) fun _ => .next .refl

theorem execTick_works (d : Nat) : Ends (s.Works b C) (execTick d s) :=
  .next (.keeps .of_eq)

theorem execPowerLoss_works (hC : C c) : Ends (s.Works b C) (execPowerLoss c s) :=
  .withCtrl .refl fun _ hx => .ite
    (fun _ => .next (.moves hC hx (View.Moves.hw (.drew s _) fun _ => Hw.Fits.drawn _ _))) fun _ => .next .refl

/-! ### Micro-operations and recovery -/

theorem execConfigure_works (hC : C c) (sp : Word) (m : SpiMode) (w : BitVec 6) :
    Ends (s.Works b C) (execConfigure c sp m w s) :=
  .withCtrl .refl fun x hx => .ite
    (fun _ => by
      split
      · exact .next .refl
      · next h => exact .clocked (.next (.moves hC hx (View.configure_moves h))))
    fun _ => .next .refl

theorem execCsAssert_works (hC : C c) (k : Byte) : Ends (s.Works b C) (execCsAssert c k s) :=
  .withCtrl .refl fun _ hx => .ite
    (fun _ => .clocked (.next (.moves hC hx (View.csAssert_moves _ k)))) fun _ => .next .refl

theorem execCsDeassert_works (hC : C c) : Ends (s.Works b C) (execCsDeassert c s) :=
  .withCtrl .refl fun _ hx => .ite (fun _ => .next .refl)
    fun _ => .deassertClocked (.next (.moves hC hx (View.csDeassert_moves _)))

theorem execErrAck_works (hC : C c) : Ends (s.Works b C) (execErrAck c s) :=
  .withCtrl .refl fun _ hx => .clocked (.next (.moves hC hx (View.errAck_moves _)))

theorem execErrIrq_works (hC : C c) : Ends (s.Works b C) (execErrIrq c s) :=
  .withCtrl .refl fun _ hx => .ite (fun _ => .next (.moves hC hx (View.errAck_moves _))) fun _ => .next .refl

theorem execFlushOp_works (hC : C c) : Ends (s.Works b C) (execFlushOp c s) :=
  .withCtrl .refl fun _ hx => .clocked (.next (.moves hC hx (View.flushOp_moves _)))

theorem execHwInit_works (hC : C c) : Ends (s.Works b C) (execHwInit c s) :=
  .withCtrl .refl fun _ hx => .clocked (.next (.moves hC hx (View.hwInit_moves _)))

theorem execDmaAbort_works (hC : C c) : Ends (s.Works b C) (execDmaAbort c s) :=
  .withCtrl .refl fun _ hx => .next (.moves hC hx (View.dmaAbort_moves _))

/-! ### The sequencer -/

theorem execSeqStart_works (hC : C c) (pick : Nat) : Ends (s.Works b C) (execSeqStart c pick s) :=
  .withCtrl .refl fun x hx => .ite
    (fun he => by
      split
      · exact .next .refl
      · next w hw => exact .next (.moves hC hx (View.Moves.ctrl (.refl _) (.start x pick w he hw))))
    fun _ => .next .refl

theorem execSeqConfigDevice_works (hC : C c) : Ends (s.Works b C) (execSeqConfigDevice c s) :=
  .withBinding .refl fun x bd hx he _ =>
    .clocked (.next (.moves hC hx (View.configDevice_moves ((x.inState_iff _).mp he) bd)))

theorem execSeqSelectCs_works (hC : C c) : Ends (s.Works b C) (execSeqSelectCs c s) :=
  .withBinding .refl fun x bd hx he _ => by
    have hs := (x.inState_iff _).mp he
    refine .ite (fun _ => .next (.moves hC hx (View.selected_moves hs)))
      fun _ => .clocked (.next (.moves hC hx (.trans (View.csAssert_moves _ _) (View.selected_moves ?_))))
    rw [View.csAssert_seq]
    exact hs

theorem execSeqConfiguring_works (hC : C c) : Ends (s.Works b C) (execSeqConfiguring c s) :=
  .withBinding .refl fun x bd hx he _ => by
    have hs := (x.inState_iff _).mp he
    split
    · exact .next .refl
    · next t ht =>
      refine .ite (fun _ => ?_) fun _ => .next (.moves hC hx (View.configured_moves hs ht))
      split
      · exact .next (.moves hC hx (View.fail_moves
          (.of_not_inSubTransfer (.inl hs) (Seq.not_inSubTransfer_of_state (by simp [hs]))) (.inr rfl)))
      · next v1 h1 =>
        have hq : v1.c.seq = x.seq := View.configure_seq h1
        exact .clocked (.next (.moves hC hx ((View.configure_moves h1).trans
          (View.configured_moves (by rw [hq]; exact hs) ((Ctrl.transfer_congr hq).trans ht)))))

theorem execSeqPostDelay_works (hC : C c) : Ends (s.Works b C) (execSeqPostDelay c s) :=
  .withTransfer .refl fun x t hx he _ => by
    simp only [Bool.and_eq_true, Ctrl.inState_iff] at he
    exact .next (.moves hC hx (View.postDelay_moves he.1 t))

theorem execSeqAdvance_works (hC : C c) : Ends (s.Works b C) (execSeqAdvance c s) :=
  .withTransfer .refl fun x t hx he _ => by
    have hs := (x.inState_iff _).mp he
    refine .ite (fun hn => .ite (fun _ => .deassertClocked (.next (.moves hC hx (.trans (View.csDeassert_moves _)
      (View.nextTransfer_moves ?_ ?_))))) fun _ => .next (.moves hC hx (View.nextTransfer_moves hs hn)))
      fun _ => .ite (fun _ => .next (.moves hC hx (View.Moves.onSeq ?_)))
      fun _ => .deassertClocked (.next (.moves hC hx (.trans (View.csDeassert_moves _) (View.Moves.onSeq ?_))))
    · simp [hs]
    · simpa using hn
    · simp [Seq.GoesTo, Seq.InSubTransfer, hs]
    · simp [Seq.GoesTo, Seq.InSubTransfer, hs]

theorem execSeqComplete_works (hC : C c) : Ends (s.Works b C) (execSeqComplete c s) :=
  .withOwner .refl fun x tag hx he _ => by
    have hs := (x.inState_iff _).mp he
    exact .next (.moves hC hx (View.Moves.ctrl (.respond _ _ _) (.finish x .success x.seq.toggle _ (by simp [hs]))))

theorem execSeqFail_works (hC : C c) : Ends (s.Works b C) (execSeqFail c s) :=
  .withOwner .refl fun x tag hx he _ =>
    .clocked (.next (.moves hC hx (View.seqFail_moves ((x.inState_iff _).mp he) tag)))

/-! ### Polling -/

theorem execPArm_works (hC : C c) : Ends (s.Works b C) (execPArm c s) :=
  .withTransfer .refl fun _ t hx he _ => .clocked (.next (.moves hC hx (View.pArm_moves he t)))

theorem execPPoll_works (hC : C c) : Ends (s.Works b C) (execPPoll c s) :=
  .withTransfer .refl fun _ t hx he _ => .clocked (.next (.moves hC hx (View.pPoll_moves he t)))

theorem execPDrain_works (hC : C c) : Ends (s.Works true C) (execPDrain c s) :=
  .withTransfer .refl fun _ t hx he _ => .clocked (.next (.moves hC hx (View.pDrain_moves he t)))

/-! ### DMA -/

theorem execDMap_works (hC : C c) : Ends (s.Works true C) (execDMap c s) :=
  .withTransfer .refl fun _ t hx he ht => .next (.moves hC hx (.single (.dMap t rfl he ht)))

theorem execDArm_works (hC : C c) : Ends (s.Works b C) (execDArm c s) :=
  .withTransfer .refl fun _ t hx he _ => .clocked (.next (.moves hC hx (View.dArm_moves he t)))

theorem execDWait_works (hC : C c) : Ends (s.Works true C) (execDWait c s) :=
  .withTransfer .refl fun x t hx he _ => by
    obtain ⟨hs, hp⟩ := (x.inPhase_iff _).mp he
    exact .ite
      (fun hd => .ite
        (fun _ => .clocked (.next (.moves hC hx (View.dEpilog_moves ⟨hs, .inr (.inl hp)⟩ (fun _ => .inl hd) t))))
        fun _ => .next (.moves hC hx (View.toTxdrain_moves he hd _)))
      fun _ => .ite (fun _ => .clocked (.next (.moves hC hx (View.dmaGiveUp_moves hs)))) fun _ => .next .refl

theorem execDTxdrain_works (hC : C c) : Ends (s.Works true C) (execDTxdrain c s) :=
  .withTransfer .refl fun x t hx he _ => .clocked (.next (by
    obtain ⟨hs, hp⟩ := (x.inPhase_iff _).mp he
    unfold View.dTxdrain
    split
    · exact .moves hC hx (View.dEpilog_moves ⟨hs, .inr (.inr hp)⟩ (fun e => by simp [Seq.InWait, hp] at e) t)
    · split
      · exact .moves hC hx (View.dmaGiveUp_moves hs)
      · exact .refl))

/-- A burst writes registers, and moves the channel's descriptor on under the same lease. -/
theorem View.burst_moves {v w : View} {k : Byte} {ch : Chan} (hkey : w.key = v.key) (hst : v.st.Keeps b w.st)
    (hc : w.c = { v.c with hw := w.c.hw }) (hf : v.c.hw.Fits v.c.fifoDepth → w.c.hw.Fits v.c.fifoDepth)
    (hl : ch.lessee = (v.st.chanAt k).lessee) : v.Moves b { w with st := w.st.setChan k ch } := by
  refine .single (.work _ hkey (hst.trans (.setChan _ _ _ (hl.trans (hst.lessee k).symm))) ?_)
  dsimp only
  rw [hc]
  exact .single (.engine v.c _ _ _ _ _ _ hf)

theorem View.txBeats_some {wb n : Nat} {a : Word} {v w : View} (h : View.txBeats wb n a v = some w) :
    w.key = v.key ∧ w.st = { v.st with draws := w.st.draws } ∧ w.c = { v.c with hw := w.c.hw } ∧
      (v.c.hw.Fits v.c.fifoDepth → w.c.hw.Fits v.c.fifoDepth) := by
  induction n generalizing a v with
  | zero =>
    cases h
    exact ⟨rfl, rfl, rfl, id⟩
  | succ n ih =>
    simp only [View.txBeats] at h
    split at h
    · cases h
    · next bs v1 hr =>
      obtain ⟨hkey1, hc1, hst1, -⟩ := View.devRead_some _ _ _ _ _ hr
      obtain ⟨hkey, hst, hc, hf⟩ := ih h
      refine ⟨hkey.trans hkey1, ?_, ?_, fun hv => ?_⟩
      · rw [hst, View.onHw_st, hst1]
      · rw [hc, View.onHw_c, hc1]
      · simp only [View.onHw_c, hc1] at hf
        exact hf (hv.writeTxData wb _)

theorem View.rxBeats_some {wb n : Nat} {a : Word} {v w : View} (h : View.rxBeats wb n a v = some w) :
    w.key = v.key ∧ w.st = { v.st with mem := w.st.mem, draws := w.st.draws } ∧ w.c = { v.c with hw := w.c.hw } ∧
      (v.c.hw.Fits v.c.fifoDepth → w.c.hw.Fits v.c.fifoDepth) := by
  induction n generalizing a v with
  | zero =>
    cases h
    exact ⟨rfl, rfl, rfl, id⟩
  | succ n ih =>
    simp only [View.rxBeats] at h
    split at h
    · cases h
    · next v1 hw =>
      obtain ⟨hkey1, hc1, hst1, -⟩ := View.devWrite_some _ _ _ _ hw
      obtain ⟨hkey, hst, hc, hf⟩ := ih h
      rw [View.readRx_c] at hc1
      refine ⟨hkey.trans (hkey1.trans (v.readRx_key wb)), ?_, ?_, fun hv => ?_⟩
      · rw [hst, hst1, View.readRx_st]
      · rw [hc, hc1]
      · rw [hc1] at hf
        exact hf (hv.popRx wb)

theorem execDmaTxBeat_works {k : Byte} (hC : ∀ c, (s.chanAt k).lessee = some c → C c) :
    Ends (s.Works b C) (execDmaTxBeat k s) :=
  .withLessee .refl fun c x hl hx => .ite
    (fun _ => by
      split
      · nofun
      · next v1 h1 =>
        obtain ⟨hkey, hst, hc, hf⟩ := View.txBeats_some h1
        refine .next (.moves (hC c hl) hx (View.burst_moves hkey ?_ hc hf rfl))
        rw [hst]
        exact .of_eq)
    fun _ => .next .refl

theorem execDmaRxBeat_works {k : Byte} (hC : ∀ c, (s.chanAt k).lessee = some c → C c) :
    Ends (s.Works true C) (execDmaRxBeat k s) :=
  .withLessee .refl fun c x hl hx => .ite
    (fun _ => by
      split
      · nofun
      · next v1 h1 =>
        obtain ⟨hkey, hst, hc, hf⟩ := View.rxBeats_some h1
        refine .next (.moves (hC c hl) hx (View.burst_moves hkey ?_ hc hf rfl))
        rw [hst]
        exact .of_store)
    fun _ => .next .refl

theorem execDmaTxDone_works {k : Byte} (hC : ∀ c, (s.chanAt k).lessee = some c → C c) :
    Ends (s.Works b C) (execDmaTxDone k s) :=
  .withLessee .refl fun c x hl hx => .ite
    (fun _ => .next (.moves (hC c hl) hx (View.Moves.ctrl (.setChan _ _ _ rfl)
      (.release x x.rxBusy false _ id nofun fun h => by simpa using h))))
    fun _ => .next .refl

theorem execDmaRxDone_works {k : Byte} (hC : ∀ c, (s.chanAt k).lessee = some c → C c) :
    Ends (s.Works b C) (execDmaRxDone k s) :=
  .withLessee .refl fun c x hl hx => .ite
    (fun _ => .next (.moves (hC c hl) hx (View.Moves.ctrl (.setChan _ _ _ rfl)
      (.release x false x.txBusy _ nofun id fun h => by simpa using h))))
    fun _ => .next .refl

end

end Sys2Proof.Machine
end

section
/-! PROOFS. D_MAP and the live mappings (R50, R148, R158): what it writes, where it ends, and that the sequencer owes
exactly what its controller has mapped, through every mapping and unmapping. -/

namespace Sys2Proof.Machine

/-! ### What mapping and unmapping leave alone -/

/-- The controllers, the channels and all of the controller in hand but its sequencer are as they were, and so are the
Message, the Transfer in hand and its offset. -/
structure View.SeqOnly (v w : View) : Prop where
  key : w.key = v.key
  ctrl : w.st.ctrl = v.st.ctrl
  chan : w.st.chan = v.st.chan
  c : w.c = { v.c with seq := w.c.seq }
  binding : w.c.seq.b = v.c.seq.b
  msg : w.c.seq.msg = v.c.seq.msg
  xi : w.c.seq.xi = v.c.seq.xi
  off : w.c.seq.off = v.c.seq.off

namespace View.SeqOnly
variable {v w z : View}

theorem trans (h : v.SeqOnly w) (h' : w.SeqOnly z) : v.SeqOnly z where
  key := h'.key.trans h.key
  ctrl := h'.ctrl.trans h.ctrl
  chan := h'.chan.trans h.chan
  c := by rw [h'.c, h.c]
  binding := h'.binding.trans h.binding
  msg := h'.msg.trans h.msg
  xi := h'.xi.trans h.xi
  off := h'.off.trans h.off

theorem transfer (h : v.SeqOnly w) : w.c.transfer = v.c.transfer := by simp only [Ctrl.transfer, h.msg, h.xi]

theorem id_eq (h : v.SeqOnly w) : w.c.id = v.c.id := by rw [h.c]

theorem fail (v : View) (k : ErrKind) (n : Nat) : v.SeqOnly (v.fail k n) :=
  ⟨v.fail_key k n, by rw [View.fail_st], by rw [View.fail_st], by rw [View.fail_c], by rw [View.fail_c],
    by rw [View.fail_c], by rw [View.fail_c], by rw [View.fail_c]⟩

theorem unmapOwed (v : View) : v.SeqOnly v.unmapOwed :=
  ⟨v.unmapOwed_key, by rw [View.unmapOwed_st], by rw [View.unmapOwed_st], by rw [View.unmapOwed_c],
    by rw [View.unmapOwed_c], by rw [View.unmapOwed_c], by rw [View.unmapOwed_c], by rw [View.unmapOwed_c]⟩

theorem asked (v : View) : v.SeqOnly { v with st := v.st.mapAsked } :=
  ⟨rfl, by rw [State.mapAsked_eq], by rw [State.mapAsked_eq], rfl, rfl, rfl, rfl, rfl⟩

theorem ofSeq (v : View) (ph : Phase) : v.SeqOnly (v.onSeq fun q => { q with phase := ph }) :=
  ⟨rfl, rfl, rfl, rfl, rfl, rfl, rfl, rfl⟩

end View.SeqOnly

/-! ### The live mappings of one controller -/

@[simp] theorem State.mappedAt_addMapping (s : State) (m : Mapping) (c : Byte) (dir : MapDir) :
    (s.addMapping m).mappedAt c dir =
      if m.ctrl = c ∧ m.dir = dir then m.dev :: s.mappedAt c dir else s.mappedAt c dir := by
  unfold State.mappedAt
  rw [State.addMapping_maps, List.filter_cons]
  by_cases h : m.ctrl = c ∧ m.dir = dir <;> simp [h]

theorem State.mappedAt_congr {s u : State} (h : u.maps = s.maps) (c : Byte) (dir : MapDir) :
    u.mappedAt c dir = s.mappedAt c dir := by simp [State.mappedAt, h]

/-- `Unmap` ends the newest of the controller's mappings in that direction at that address (R50). -/
theorem State.mappedAt_unmap_self (s : State) (c : Byte) (dir : MapDir) (d : Word) :
    (s.unmap c dir d).mappedAt c dir = (s.mappedAt c dir).erase d := by
  unfold State.mappedAt State.unmap
  dsimp only
  induction s.maps with
  | nil => rfl
  | cons m ms ih =>
    rw [List.eraseP_cons]
    cases hm : decide (m.ctrl = c) && decide (m.dir = dir)
    · simp [hm, ih]
    · by_cases hd : m.dev = d
      · simp [hm, hd]
      · simp [hm, hd, ih]

/-- It ends no other mapping (R50). -/
theorem State.mappedAt_unmap_other (s : State) {c e : Byte} {dir dir' : MapDir} (d : Word)
    (h : ¬ (c = e ∧ dir = dir')) : (s.unmap c dir d).mappedAt e dir' = s.mappedAt e dir' := by
  unfold State.mappedAt State.unmap
  dsimp only
  induction s.maps with
  | nil => rfl
  | cons m ms ih =>
    rw [List.eraseP_cons]
    cases hm : decide (m.ctrl = c) && decide (m.dir = dir) && decide (m.dev = d)
    · simp only [cond_false, List.filter_cons]
      split
      · rw [List.map_cons, List.map_cons, ih]
      · exact ih
    · simp only [Bool.and_eq_true, decide_eq_true_eq] at hm
      obtain ⟨⟨rfl, rfl⟩, -⟩ := hm
      have hf : (decide (m.ctrl = e) && decide (m.dir = dir')) = false := by simpa using h
      simp [hf]

theorem State.mappedAt_unmap (s : State) (c e : Byte) (dir dir' : MapDir) (d : Word) :
    (s.unmap c dir d).mappedAt e dir' =
      if c = e ∧ dir = dir' then (s.mappedAt e dir').erase d else s.mappedAt e dir' := by
  split
  · next h =>
    obtain ⟨rfl, rfl⟩ := h
    exact s.mappedAt_unmap_self c dir d
  · next h => exact s.mappedAt_unmap_other d h

/-- The mappings of the controller in hand are those its sequencer owes (R158). -/
def View.MapsOwed (v : View) : Prop :=
  v.st.mappedAt v.c.id .toDevice = (if v.c.seq.weMappedTx then v.c.seq.mapTx.toList else []) ∧
  v.st.mappedAt v.c.id .fromDevice = (if v.c.seq.weMappedRx then v.c.seq.mapRx.toList else [])

/-- The step from `v` to `w` keeps the sequencer's record of its mappings right, and leaves those of the other
controllers alone. -/
structure View.MapsKept (v w : View) : Prop where
  owed : v.MapsOwed → w.MapsOwed
  others (e : Byte) (dir : MapDir) (h : e ≠ v.c.id) : w.st.mappedAt e dir = v.st.mappedAt e dir

theorem View.MapsKept.trans {v w z : View} (h : v.MapsKept w) (hid : w.c.id = v.c.id) (h' : w.MapsKept z) :
    v.MapsKept z :=
  ⟨fun hv => h'.owed (h.owed hv), fun e dir he => (h'.others e dir (hid ▸ he)).trans (h.others e dir he)⟩

theorem View.MapsKept.of_eq {v w : View} (hm : w.st.maps = v.st.maps) (hid : w.c.id = v.c.id)
    (htx : w.c.seq.weMappedTx = v.c.seq.weMappedTx) (hrx : w.c.seq.weMappedRx = v.c.seq.weMappedRx)
    (hmt : w.c.seq.mapTx = v.c.seq.mapTx) (hmr : w.c.seq.mapRx = v.c.seq.mapRx) : v.MapsKept w where
  owed h := by simpa [View.MapsOwed, State.mappedAt_congr hm, hid, htx, hrx, hmt, hmr] using h
  others e dir _ := State.mappedAt_congr hm e dir

theorem View.MapsKept.fail (v : View) (k : ErrKind) (n : Nat) : v.MapsKept (v.fail k n) :=
  .of_eq (by rw [View.fail_st]) (by rw [View.fail_c]) (by rw [View.fail_c]) (by rw [View.fail_c]) (by rw [View.fail_c])
    (by rw [View.fail_c])

theorem View.unmapTx_c (v : View) : v.unmapTx.c = v.c := by
  unfold View.unmapTx
  split <;> rfl

theorem View.mappedAt_unmapTx (v : View) (e : Byte) (dir : MapDir) :
    v.unmapTx.st.mappedAt e dir =
      if v.c.id = e ∧ .toDevice = dir ∧ v.c.seq.weMappedTx = true then
        (v.c.seq.mapTx.elim (v.st.mappedAt e dir) (v.st.mappedAt e dir).erase)
      else v.st.mappedAt e dir := by
  unfold View.unmapTx
  cases v.c.seq.weMappedTx <;> cases v.c.seq.mapTx <;> simp [State.mappedAt_unmap]

theorem View.mappedAt_unmapRx (v : View) (e : Byte) (dir : MapDir) :
    v.unmapRx.st.mappedAt e dir =
      if v.c.id = e ∧ .fromDevice = dir ∧ v.c.seq.weMappedRx = true then
        (v.c.seq.mapRx.elim (v.st.mappedAt e dir) (v.st.mappedAt e dir).erase)
      else v.st.mappedAt e dir := by
  unfold View.unmapRx
  cases v.c.seq.weMappedRx <;> cases v.c.seq.mapRx <;> simp [State.mappedAt_unmap]

theorem View.mappedAt_unmapOwed (v : View) (e : Byte) (dir : MapDir) :
    v.unmapOwed.st.mappedAt e dir = v.unmapTx.unmapRx.st.mappedAt e dir := rfl

/-- `unmap_owed` ends all the controller's mappings, and no other's (R158). -/
theorem View.MapsKept.unmapOwed (v : View) : v.MapsKept v.unmapOwed where
  owed h := by
    obtain ⟨htx, hrx⟩ := h
    simp only [View.MapsOwed, View.mappedAt_unmapOwed, View.mappedAt_unmapRx, View.mappedAt_unmapTx,
      View.unmapTx_c, htx, hrx, View.unmapOwed_c]
    constructor
    · cases v.c.seq.weMappedTx <;> cases v.c.seq.mapTx <;> simp
    · cases v.c.seq.weMappedRx <;> cases v.c.seq.mapRx <;> simp
  others e dir h := by
    simp [View.mappedAt_unmapOwed, View.mappedAt_unmapRx, View.mappedAt_unmapTx, View.unmapTx_c, Ne.symm h]

/-! ### D_MAP (R148) -/

theorem View.mapTxSide_none {v w : View} {t : Transfer} (h : v.mapTxSide t = (none, w)) :
    w = { v with st := v.st.mapAsked } := by
  unfold View.mapTxSide at h
  dsimp only at h
  split at h
  · cases h; rfl
  · cases h

theorem View.mapRxSide_none {v w : View} {t : Transfer} (h : v.mapRxSide t = (none, w)) :
    w = { v with st := v.st.mapAsked } := by
  unfold View.mapRxSide at h
  dsimp only at h
  split at h
  · cases h; rfl
  · cases h

/-- The transmit mapping, made. -/
def View.mappedTx (v : View) (t : Transfer) (d : Word) : View :=
  { v.onSeq (fun q => { q with mapTx := some d, weMappedTx := true }) with
    st := v.st.mapAsked.addMapping
      ⟨v.c.id, .toDevice, d, t.tx + BitVec.ofNat 32 v.c.seq.off, v.c.seq.chunk⟩ }

/-- The receive mapping, made. -/
def View.mappedRx (v : View) (t : Transfer) (d : Word) : View :=
  { v.onSeq (fun q => { q with mapRx := some d, weMappedRx := true }) with
    st := v.st.mapAsked.addMapping
      ⟨v.c.id, .fromDevice, d, t.rx + BitVec.ofNat 32 v.c.seq.off, v.c.seq.chunk⟩ }

theorem View.mapTxSide_some {v w w' : View} {t : Transfer} (h : v.mapTxSide t = (some w, w')) :
    ∃ d, w = v.mappedTx t d := by
  unfold View.mapTxSide at h
  dsimp only at h
  split at h
  · cases h
  · next d _ => cases h; exact ⟨d, rfl⟩

theorem View.mapRxSide_some {v w w' : View} {t : Transfer} (h : v.mapRxSide t = (some w, w')) :
    ∃ d, w = v.mappedRx t d := by
  unfold View.mapRxSide at h
  dsimp only at h
  split at h
  · cases h
  · next d _ => cases h; exact ⟨d, rfl⟩

/-- The ways D_MAP's receive half ends: with the mapping refused, with it made, or with none to make. -/
theorem View.mapRxThen_cases (v : View) (t : Transfer) :
    v.mapRxThen t = (View.unmapOwed { v with st := v.st.mapAsked }).fail .dmaMapFailed v.c.seq.off ∨
    (∃ d, v.mapRxThen t = (v.mappedRx t d).onSeq fun q => { q with phase := .dArm }) ∨
    v.mapRxThen t = v.onSeq fun q => { q with phase := .dArm } := by
  unfold View.mapRxThen
  split
  · split
    · next w hw => exact .inl (by rw [View.mapRxSide_none hw])
    · next w _ hw =>
      obtain ⟨d, hd⟩ := View.mapRxSide_some hw
      exact .inr (.inl ⟨d, by rw [hd]⟩)
  · exact .inr (.inr rfl)

/-- D_MAP's chunk, chosen before anything is mapped (R146). -/
def View.chunked (v : View) (t : Transfer) : View :=
  v.onSeq fun q => { q with chunk := chunkOf t.len.toNat q.off v.c.wb }

/-- The ways D_MAP ends: with the caller's addresses; with the transmit mapping refused; with the receive half, after
the transmit mapping or without one. -/
theorem View.dMap_cases (v : View) (t : Transfer) :
    v.dMap t = (v.chunked t).mapPremapped t ∨
    v.dMap t = View.fail { v.chunked t with st := v.st.mapAsked } .dmaMapFailed v.c.seq.off ∨
    (∃ d, v.dMap t = ((v.chunked t).mappedTx t d).mapRxThen t) ∨ v.dMap t = (v.chunked t).mapRxThen t := by
  unfold View.dMap
  dsimp only
  split
  · exact .inl rfl
  · split
    · split
      · next w hw => exact .inr (.inl (by rw [View.mapTxSide_none hw]; rfl))
      · next w _ hw =>
        obtain ⟨d, hd⟩ := View.mapTxSide_some hw
        exact .inr (.inr (.inl ⟨d, by rw [hd]; rfl⟩))
    · exact .inr (.inr (.inr rfl))

theorem View.SeqOnly.mappedTx (v : View) (t : Transfer) (d : Word) : v.SeqOnly (v.mappedTx t d) :=
  ⟨rfl, (View.SeqOnly.asked v).ctrl, (View.SeqOnly.asked v).chan, rfl, rfl, rfl, rfl, rfl⟩

theorem View.SeqOnly.mappedRx (v : View) (t : Transfer) (d : Word) : v.SeqOnly (v.mappedRx t d) :=
  ⟨rfl, (View.SeqOnly.asked v).ctrl, (View.SeqOnly.asked v).chan, rfl, rfl, rfl, rfl, rfl⟩

theorem View.SeqOnly.chunked (v : View) (t : Transfer) : v.SeqOnly (v.chunked t) :=
  ⟨rfl, rfl, rfl, rfl, rfl, rfl, rfl, rfl⟩

theorem View.SeqOnly.mapRxThen (v : View) (t : Transfer) : v.SeqOnly (v.mapRxThen t) := by
  rcases v.mapRxThen_cases t with h | ⟨d, h⟩ | h
  · rw [h]
    exact (View.SeqOnly.asked v).trans ((View.SeqOnly.unmapOwed _).trans (.fail _ _ _))
  · rw [h]
    exact (View.SeqOnly.mappedRx v t d).trans (.ofSeq _ _)
  · rw [h]
    exact .ofSeq _ _

theorem View.SeqOnly.dMap (v : View) (t : Transfer) : v.SeqOnly (v.dMap t) := by
  have hc := View.SeqOnly.chunked v t
  rcases v.dMap_cases t with h | h | ⟨d, h⟩ | h
  · rw [h]
    exact hc.trans ⟨rfl, rfl, rfl, rfl, rfl, rfl, rfl, rfl⟩
  · rw [h]
    exact hc.trans ((View.SeqOnly.asked _).trans (.fail _ _ _))
  · rw [h]
    exact hc.trans ((View.SeqOnly.mappedTx _ t d).trans (.mapRxThen _ t))
  · rw [h]
    exact hc.trans (.mapRxThen _ t)

/-- D_MAP's receive half ends failed with nothing owed, or in D_ARM, with the chunk as it was. -/
theorem View.mapRxThen_ends (v : View) (t : Transfer) : (v.mapRxThen t).c.seq.chunk = v.c.seq.chunk ∧
    ((v.mapRxThen t).c.seq.state = .failed ∧ (v.mapRxThen t).c.seq.phase = .none ∧
      (v.mapRxThen t).c.seq.weMappedTx = false ∧ (v.mapRxThen t).c.seq.weMappedRx = false ∨
    (v.mapRxThen t).c.seq.state = v.c.seq.state ∧ (v.mapRxThen t).c.seq.phase = .dArm) := by
  rcases v.mapRxThen_cases t with h | ⟨d, h⟩ | h
  · rw [h, View.fail_c, View.unmapOwed_c]
    exact ⟨rfl, .inl ⟨rfl, rfl, rfl, rfl⟩⟩
  · rw [h]
    exact ⟨rfl, .inr ⟨rfl, rfl⟩⟩
  · rw [h]
    exact ⟨rfl, .inr ⟨rfl, rfl⟩⟩

/-- D_MAP ends failed, owing nothing where nothing was owed before, or in D_ARM, with the chunk it chose (R146). -/
theorem View.dMap_ends (v : View) (t : Transfer) :
    (v.dMap t).c.seq.chunk = chunkOf t.len.toNat v.c.seq.off v.c.wb ∧
    ((v.dMap t).c.seq.state = .failed ∧ (v.dMap t).c.seq.phase = .none ∧
      (v.c.seq.weMappedTx = false → v.c.seq.weMappedRx = false →
        (v.dMap t).c.seq.weMappedTx = false ∧ (v.dMap t).c.seq.weMappedRx = false) ∨
    (v.dMap t).c.seq.state = v.c.seq.state ∧ (v.dMap t).c.seq.phase = .dArm) := by
  rcases v.dMap_cases t with h | h | ⟨d, h⟩ | h
  · rw [h]
    exact ⟨rfl, .inr ⟨rfl, rfl⟩⟩
  · rw [h, View.fail_c]
    exact ⟨rfl, .inl ⟨rfl, rfl, fun htx hrx => ⟨htx, hrx⟩⟩⟩
  · rw [h]
    obtain ⟨hc, he⟩ := View.mapRxThen_ends ((v.chunked t).mappedTx t d) t
    exact ⟨hc, he.imp (fun ⟨hs, hp, hw⟩ => ⟨hs, hp, fun _ _ => hw⟩) id⟩
  · rw [h]
    obtain ⟨hc, he⟩ := View.mapRxThen_ends (v.chunked t) t
    exact ⟨hc, he.imp (fun ⟨hs, hp, hw⟩ => ⟨hs, hp, fun _ _ => hw⟩) id⟩

/-- A mapping made for a direction in which nothing is owed is owed from then on (R50). -/
theorem View.MapsKept.mappedTx (v : View) (t : Transfer) (d : Word) (h : v.c.seq.weMappedTx = false) :
    v.MapsKept (v.mappedTx t d) where
  owed := by
    rintro ⟨htx, hrx⟩
    have hm : v.st.mapAsked.maps = v.st.maps := by rw [State.mapAsked_eq]
    refine ⟨?_, ?_⟩
    · simp [View.mappedTx, State.mappedAt_congr hm, htx, h]
    · exact Eq.trans (by simp [View.mappedTx, State.mappedAt_congr hm]) hrx
  others e dir he := by
    have hm : v.st.mapAsked.maps = v.st.maps := by rw [State.mapAsked_eq]
    simp [View.mappedTx, State.mappedAt_congr hm, Ne.symm he]

theorem View.MapsKept.mappedRx (v : View) (t : Transfer) (d : Word) (h : v.c.seq.weMappedRx = false) :
    v.MapsKept (v.mappedRx t d) where
  owed := by
    rintro ⟨htx, hrx⟩
    have hm : v.st.mapAsked.maps = v.st.maps := by rw [State.mapAsked_eq]
    refine ⟨?_, ?_⟩
    · exact Eq.trans (by simp [View.mappedRx, State.mappedAt_congr hm]) htx
    · simp [View.mappedRx, State.mappedAt_congr hm, hrx, h]
  others e dir he := by
    have hm : v.st.mapAsked.maps = v.st.maps := by rw [State.mapAsked_eq]
    simp [View.mappedRx, State.mappedAt_congr hm, Ne.symm he]

theorem View.MapsKept.asked (v : View) : v.MapsKept { v with st := v.st.mapAsked } :=
  .of_eq (by rw [State.mapAsked_eq]) rfl rfl rfl rfl rfl

theorem View.MapsKept.mapRxThen (v : View) (t : Transfer) (hrx : v.c.seq.weMappedRx = false) :
    v.MapsKept (v.mapRxThen t) := by
  rcases v.mapRxThen_cases t with h | ⟨d, h⟩ | h
  · rw [h]
    exact (View.MapsKept.asked v).trans rfl
      ((View.MapsKept.unmapOwed _).trans (View.SeqOnly.unmapOwed _).id_eq (.fail _ _ _))
  · rw [h]
    exact (View.MapsKept.mappedRx v t d hrx).trans rfl (.of_eq rfl rfl rfl rfl rfl rfl)
  · rw [h]
    exact .of_eq rfl rfl rfl rfl rfl rfl

/-- D_MAP of a sequencer that owes nothing (R148, R158). -/
theorem View.MapsKept.dMap (v : View) (t : Transfer) (htx : v.c.seq.weMappedTx = false)
    (hrx : v.c.seq.weMappedRx = false) : v.MapsKept (v.dMap t) := by
  have hc : v.MapsKept (v.chunked t) := .of_eq rfl rfl rfl rfl rfl rfl
  rcases v.dMap_cases t with h | h | ⟨d, h⟩ | h
  · rw [h]
    exact ⟨fun hv => by simpa [View.MapsOwed, View.mapPremapped, View.chunked, htx, hrx] using hv, fun _ _ _ => rfl⟩
  · rw [h]
    exact hc.trans rfl ((View.MapsKept.asked _).trans rfl (.fail _ _ _))
  · rw [h]
    exact hc.trans rfl ((View.MapsKept.mappedTx (v.chunked t) t d htx).trans rfl (.mapRxThen _ t hrx))
  · rw [h]
    exact hc.trans rfl (.mapRxThen _ t hrx)

/-! ### What a controller in service is after `unmap_owed` and D_MAP -/

theorem View.unmapOwed_proceeds {v : View} (h : v.c.seq.state ≠ .idle) : v.c.Proceeds v.unmapOwed.c.seq := by
  rw [View.unmapOwed_c]
  exact ⟨h, h, fun e => .inr ⟨e, rfl⟩, .inl, rfl, id⟩

/-- The chunk D_MAP chooses does not pass the Transfer's length (R146). -/
theorem View.dMap_proceeds {v : View} {t : Transfer} (h : v.c.inPhase .dMap = true) (ht : v.c.transfer = some t) :
    v.c.Proceeds (v.dMap t).c.seq := by
  obtain ⟨hs, hp⟩ := (v.c.inPhase_iff _).mp h
  have frame := View.SeqOnly.dMap v t
  obtain ⟨hc, he⟩ := v.dMap_ends t
  refine ⟨by simp [hs], ?_, ?_, fun e => by simp [Seq.InWait, hp] at e, frame.binding, ?_⟩
  · rcases he with ⟨hq, -⟩ | ⟨hq, -⟩ <;> simp [hq, hs]
  · rcases he with ⟨-, hq, -⟩ | ⟨hq, -⟩
    · exact fun _ => .inl hq
    · exact fun e => absurd (hq.trans hs) e
  · rintro ⟨t', ht', hoff, -⟩
    cases ht.symm.trans ht'
    have hle := hoff (by simp [hs])
    refine ⟨t, by rw [← ht, ← frame.transfer]; rfl, fun _ => ?_, fun _ => ?_⟩
    · simpa [frame.off] using hle
    · simp only [frame.off, hc, chunkOf]
      omega

end Sys2Proof.Machine
end

section
/-! PROOFS. The frame of a controller's work, the two composites (R136, R160), the commands, and the whole of what an
instruction can do (`exec_effect`). -/

namespace Sys2Proof.Machine

/-! ### The frame of a controller's work -/

/-- The key, the shared state's controllers and leases, and without stores its memory, are as they were. -/
structure View.Frame (stores : Bool) (v w : View) : Prop where
  key : w.key = v.key
  ctrl : w.st.ctrl = v.st.ctrl
  lessee (k : Byte) : (w.st.chanAt k).lessee = (v.st.chanAt k).lessee
  mem (h : stores = false) : w.st.mem = v.st.mem

section
variable {b : Bool} {C : Byte → Prop} {c : Byte} {s u : State} {v w : View}

theorem View.Move.frame (h : View.Move b v w) : v.Frame b w := by
  cases h with
  | work w key st c => exact ⟨key, st.ctrl, st.lessee, st.mem⟩
  | unmapOwed h =>
    refine ⟨v.unmapOwed_key, ?_, fun k => ?_, fun _ => ?_⟩
    · rw [View.unmapOwed_st]
    · rw [View.unmapOwed_st]; rfl
    · rw [View.unmapOwed_st]
  | dMap t hs h ht =>
    have f := View.SeqOnly.dMap v t
    refine ⟨f.key, f.ctrl, fun k => ?_, fun e => ?_⟩
    · simp only [State.chanAt, f.chan]
    · exact Bool.noConfusion (hs.symm.trans e)

theorem View.Moves.frame (h : v.Moves b w) : v.Frame b w := by
  induction h with
  | refl => exact ⟨rfl, rfl, fun _ => rfl, fun _ => rfl⟩
  | tail _ hm ih =>
    have f := hm.frame
    exact ⟨f.key.trans ih.key, f.ctrl.trans ih.ctrl, fun k => (f.lessee k).trans (ih.lessee k),
      fun e => (f.mem e).trans (ih.mem e)⟩

theorem State.Change.lessee (h : s.Change b C u) (k : Byte) : (u.chanAt k).lessee = (s.chanAt k).lessee := by
  cases h with
  | keep u h => exact h.lessee k
  | work c x w hC hx h => exact h.frame.lessee k

theorem State.Works.lessee (h : s.Works b C u) (k : Byte) : (u.chanAt k).lessee = (s.chanAt k).lessee := by
  induction h with
  | refl => rfl
  | tail _ hc ih => exact (hc.lessee k).trans ih

theorem State.Change.mem (h : s.Change false C u) : u.mem = s.mem := by
  cases h with
  | keep u h => exact h.mem rfl
  | work c x w hC hx h => exact h.frame.mem rfl

theorem State.Works.mem (h : s.Works false C u) : u.mem = s.mem := by
  induction h with
  | refl => rfl
  | tail _ hc ih => exact hc.mem.trans ih

/-- Putting a controller back changes no other. -/
theorem View.commit_ctrlAt_of_ctrl (h : w.st.ctrl = s.ctrl) (d : Byte) :
    w.commit.ctrlAt d = if w.key = d then some w.c else s.ctrlAt d := by
  split
  · next e => exact e ▸ w.commit_ctrlAt
  · next e =>
    rw [View.commit_ctrlAt_ne _ _ e]
    simp only [State.ctrlAt, h]

theorem State.ctrlAt_congr (h : u.ctrl = s.ctrl) (d : Byte) : u.ctrlAt d = s.ctrlAt d := by
  simp only [State.ctrlAt, h]

theorem State.Change.ctrlAt_other (h : s.Change b C u) (d : Byte) (hd : ¬ C d) : u.ctrlAt d = s.ctrlAt d := by
  cases h with
  | keep u h => exact State.ctrlAt_congr h.ctrl d
  | work c x w hC hx h =>
    have hk : ¬ w.key = d := by
      rw [h.frame.key]
      rintro rfl
      exact hd hC
    rw [View.commit_ctrlAt_of_ctrl h.frame.ctrl, if_neg hk]

theorem State.Works.ctrlAt_other (h : s.Works b C u) (d : Byte) (hd : ¬ C d) : u.ctrlAt d = s.ctrlAt d := by
  induction h with
  | refl => rfl
  | tail _ hc ih => exact (hc.ctrlAt_other d hd).trans ih

/-! ### Composites (R136, R160; log entry 25) -/

/-- A step's work after other work of the same controllers. -/
theorem Ends.after {o : Out} (h : s.Works b C u) (ho : Ends (u.Works b C) o) : Ends (s.Works b C) o :=
  ho.mono fun _ hw => h.trans hw

theorem Ends.seq {o : Out} {k : State → Out} (h : s.Works b C u) (ho : Ends (u.Works b C) o)
    (hk : ∀ w, s.Works b C w → Ends (s.Works b C) (k w)) : Ends (s.Works b C) (Machine.andThen o k) :=
  (Ends.after h ho).andThen hk

theorem shiftWords_works (hC : C c) (n : Nat) : Ends (s.Works b C) (shiftWords c n s) := by
  induction n generalizing s with
  | zero => exact .next .refl
  | succ n ih =>
    exact .seq .refl (execShLoad_works hC) fun _ h1 =>
      .seq h1 (execShDone_works hC) fun _ h2 => .after h2 ih

theorem State.untilDeadline_keeps (s : State) (c : Byte) (p : Phase) : s.Keeps b (s.untilDeadline c p) := by
  rw [State.untilDeadline_eq]
  exact .of_eq

theorem lookUntilDeadline_works (c : Byte) (p : Phase) {look : State → Out}
    (hl : ∀ s : State, Ends (s.Works b C) (look s)) : Ends (s.Works b C) (lookUntilDeadline c p look s) :=
  .seq .refl (hl s) fun s1 h1 => .after (h1.trans (State.Works.keeps (s1.untilDeadline_keeps c p))) (hl _)

theorem execXferPoll_works (hC : C c) : Ends (s.Works true C) (execXferPoll c s) :=
  .withCtrl .refl fun _ _ => .ite
    (fun _ => .seq .refl (execPArm_works hC) fun _ h1 => .seq h1 (shiftWords_works hC _) fun _ h2 =>
      .seq h2 (lookUntilDeadline_works _ _ fun _ => execPPoll_works hC) fun _ h3 => .after h3 (execPDrain_works hC))
    fun _ => .next .refl

theorem Ends.whileTransporting {P : State → Prop} {k : State → Out} (hs : P s) (hk : Ends P (k s)) :
    Ends P (s.whileTransporting c k) := by
  unfold State.whileTransporting
  split
  · exact .next hs
  · exact .ite (fun _ => hk) fun _ => .next hs

/-- Only the controllers `C` lease the channel. -/
def State.LeasedIn (C : Byte → Prop) (k : Byte) (s : State) : Prop := ∀ d, (s.chanAt k).lessee = some d → C d

theorem State.LeasedIn.works {k : Byte} (hl : s.LeasedIn C k) (h : s.Works b C u) : u.LeasedIn C k :=
  fun d hd => hl d ((h.lessee k).symm.trans hd)

variable {kt kr : Byte}

theorem moveWords_works (hC : C c) (ht : s.LeasedIn C kt) (hr : s.LeasedIn C kr) (n : Nat) :
    Ends (s.Works true C) (moveWords c kt kr n s) := by
  induction n generalizing s with
  | zero => exact .next .refl
  | succ n ih =>
    exact .seq .refl (execDmaTxBeat_works ht) fun _ h1 => .seq h1 (execShLoad_works hC) fun _ h2 =>
      .seq h2 (execShDone_works hC) fun _ h3 => .seq h3 (execDmaRxBeat_works (hr.works h3)) fun _ h4 =>
      .after h4 (ih (ht.works h4) (hr.works h4))

theorem armedSubTransfer_works (hC : C c) (ht : s.LeasedIn C kt) (hr : s.LeasedIn C kr) :
    Ends (s.Works true C) (armedSubTransfer c kt kr s) :=
  .seq .refl (execDArm_works hC) fun _ h1 =>
  .seq h1 (moveWords_works hC (ht.works h1) (hr.works h1) _) fun _ h2 =>
  .seq h2 (execDmaTxDone_works (ht.works h2)) fun _ h3 => .seq h3 (execDmaRxDone_works (hr.works h3)) fun _ h4 =>
  .seq h4 (lookUntilDeadline_works _ _ fun _ => execDWait_works hC) fun _ h5 =>
  .after h5 (lookUntilDeadline_works _ _ fun _ => execDTxdrain_works hC)

theorem subTransfers_works (hC : C c) (ht : s.LeasedIn C kt) (hr : s.LeasedIn C kr) (n : Nat) :
    Ends (s.Works true C) (subTransfers c kt kr n s) := by
  induction n generalizing s with
  | zero => exact .next .refl
  | succ n ih =>
    have one : Ends (s.Works true C) (subTransfer c kt kr s) := .seq .refl (execDMap_works hC) fun _ h1 =>
      .whileTransporting h1 (.after h1 (armedSubTransfer_works hC (ht.works h1) (hr.works h1)))
    exact .seq .refl one fun _ h1 => .whileTransporting h1 (.after h1 (ih (ht.works h1) (hr.works h1)))

theorem execXferDma_works (hC : C c) (hl : ∀ x, s.ctrlAt c = some x → x.seq.state = .transporting →
    s.LeasedIn C x.dmaTx ∧ s.LeasedIn C x.dmaRx) : Ends (s.Works true C) (execXferDma c s) :=
  .withTransfer .refl fun x _ hx he _ => by
    simp only [Bool.and_eq_true, Ctrl.inState_iff] at he
    obtain ⟨ht, hr⟩ := hl x hx he.1
    exact subTransfers_works hC ht hr _

/-! ### Commands (R106, R170, R201, R215, R217) -/

theorem State.Works.answer (k : ErrKind) (i : Nat) (w : Word) : s.Works b C (s.answer k i w) :=
  .keeps (.answer s k i w)

theorem State.Works.respond (d : Recipient) (ws : List Word) : s.Works b C (s.respond d ws) := .keeps (.respond s d ws)

theorem execBind_works (hC : C c) (f : PacketForm) (k : Byte) (a : BindArgs) :
    Ends (s.Works b C) (execBind f c k a s) :=
  .checkForm .respond fun _ => .withHandle (.answer _ _ _) fun x hx =>
    .ite (fun _ => .next (.answer _ _ _)) fun hb => .ite (fun _ => .next (.answer _ _ _)) fun _ =>
    .ite (fun _ => .next (.answer _ _ _)) fun _ => .ite (fun _ => .next (.answer _ _ _)) fun _ =>
    .ite (fun _ => .next (.answer _ _ _)) fun _ => by
      split
      · exact .next (.answer _ _ _)
      · next achieved _ =>
        have done : s.bindDone c k x a achieved = (View.mk ((if a.linePresent then s.setLine a.lineId (!a.activeLevel)
            else s).answer .ok 0 (BitVec.ofNat 32 achieved)) c { x with
              bind := Table.set x.bind k.toNat (bindingOf a achieved),
              secure := x.secure || a.secureRouted }).commit := by
          unfold State.bindDone
          dsimp only
          split <;> rfl
        rw [done]
        refine .next (.moves hC hx (View.Moves.ctrl ?_ (.bind x k _ _ (by simpa using hb))))
        split
        · exact .of_eq
        · exact .answer _ _ _ _

theorem Ctrl.startActivation_eq (x : Ctrl) (now : Nat) : x.startActivation now =
    { x with acqK := (x.startActivation now).acqK, acqNext := (x.startActivation now).acqNext } := by
  unfold Ctrl.startActivation
  split <;> rfl

/-- A SUBMIT is accepted for a present binding, with a Transfer at least, outside a suspension (R170). -/
theorem State.acceptSubmit_works {x : Ctrl} {k : Byte} {ts : List Transfer} (hC : C c) (hx : s.ctrlAt c = some x)
    (hb : (x.bindAt k).isSome = true) (hts : ts ≠ []) (hs : x.suspended = false) :
    s.Works b C (s.acceptSubmit c k x ts) := by
  have waits (w : Waiter) (hw : w ∈ x.waitq ++ [⟨s.nextTag, k, ts⟩]) :
      w ∈ x.waitq ∨ (x.bindAt w.b).isSome = true ∧ w.msg ≠ [] := by
    rcases List.mem_append.mp hw with hw | hw
    · exact .inl hw
    · cases List.mem_singleton.mp hw
      exact .inr ⟨hb, hts⟩
  unfold State.acceptSubmit
  dsimp only
  split
  · rw [Ctrl.startActivation_eq]
    exact .moves (w := ⟨{ s with nextTag := s.nextTag + 1 }, c, _⟩) hC hx
      (View.Moves.ctrl .of_eq (.queue x _ _ _ x.actWait waits (.inr hs)))
  · exact .moves (w := ⟨{ s with nextTag := s.nextTag + 1 }, c, _⟩) hC hx
      (View.Moves.ctrl .of_eq (.queue x _ x.acqK x.acqNext x.actWait waits (.inr hs)))

theorem execSubmit_works (hC : C c) (f : PacketForm) (k : Byte) (ts : List Transfer) :
    Ends (s.Works b C) (execSubmit f c k ts s) :=
  .checkForm .respond fun _ => .ite (fun _ => .next (.respond _ _)) fun hts => by
    split
    · exact .next (.respond _ _)
    · next x hx =>
      split
      · exact .next (.respond _ _)
      · next bd hb =>
        split
        · exact .next (.respond _ _)
        · refine .ite (fun _ => .next (.respond _ _)) fun hs =>
            .next (State.acceptSubmit_works hC hx ?_ ?_ ?_)
          · rw [hb]; rfl
          · simpa using hts
          · simpa using hs

theorem execOnSuspend_works (hC : C c) (f : PacketForm) : Ends (s.Works b C) (execOnSuspend f c s) :=
  .checkForm .respond fun _ => .withHandle (.answer _ _ _) fun x hx => .ite (fun _ => .next (.answer _ _ _)) fun _ =>
    .next (.moves hC hx (View.Moves.ctrl (.refl _) (.suspend x)))

theorem execOnActive_works (hC : C c) (f : PacketForm) : Ends (s.Works b C) (execOnActive f c s) :=
  .checkForm .respond fun _ => .withHandle (.answer _ _ _) fun x hx => .ite (fun _ => .next (.answer _ _ _)) fun hs =>
    .ite (fun _ => .next (.answer _ _ _)) fun _ => .ite (fun _ => .next (.answer _ _ _)) fun _ => by
      rw [Ctrl.startActivation_eq]
      exact .next (.moves hC hx (View.Moves.ctrl (.refl _)
        (.queue x x.waitq _ _ true (fun w hw => .inl hw) (.inr (by simpa using hs)))))

theorem execFlush_works (hC : C c) (f : PacketForm) : Ends (s.Works b C) (execFlush f c s) :=
  .checkForm .respond fun _ => .withHandle (.answer _ _ _) fun x hx => .ite (fun _ => .next (.answer _ _ _)) fun _ =>
    .ite (fun _ => .next (.answer _ _ _)) fun _ => .clocked (.next
      (.moves (w := { View.flushOp ⟨s, c, x⟩ with st := s.answer .ok 0 0 }) hC hx
        ((View.flushOp_moves _).trans (View.Moves.shared (.answer s _ _ _)))))

end

/-! ### Power and lifecycle (R210 to R218) -/

section
variable {c : Byte} {s : State} {i : Instr}

theorem Effect.keeps {u : State} (h : s.Keeps (mayStore i) u) : Effect i s u := .works u (.keeps h)

theorem Effect.answer (k : ErrKind) (n : Nat) (w : Word) : Effect i s (s.answer k n w) := .keeps (.answer s k n w)

theorem Effect.respond (d : Recipient) (ws : List Word) : Effect i s (s.respond d ws) := .keeps (.respond s d ws)

theorem execNew_effect (f : PacketForm) (a : NewArgs) : Ends (Effect (.new f c a) s) (execNew f c a s) :=
  .checkForm .respond fun hf => .ite (fun _ => .next (.answer _ _ _)) fun hx => .ite (fun _ => .next (.answer _ _ _))
    fun _ => .ite (fun _ => .next (.answer _ _ _)) fun _ => .ite (fun _ => .next (.answer _ _ _)) fun _ =>
    .ite (fun _ => .next (.answer _ _ _)) fun hd => .next (.created c a (hf ▸ rfl) (by simpa using hx) hd)

theorem execDestroy_effect (f : PacketForm) : Ends (Effect (.destroy f c) s) (execDestroy f c s) :=
  .checkForm .respond fun hf => .withHandle (.answer _ _ _) fun x hx => .ite (fun _ => .next (.answer _ _ _)) fun hb =>
    .next (.destroyed c x (hf ▸ rfl) hx (by simpa using hb))

/-- ON_IDLE ends an ACTIVE controller's leases at rest (R214). -/
theorem execOnIdle_effect (f : PacketForm) : Ends (Effect (.onIdle f c) s) (execOnIdle f c s) :=
  .checkForm .respond fun hf => .withHandle (.answer _ _ _) fun x hx => .ite (fun _ => .next (.answer _ _ _)) fun h1 =>
    .ite (fun _ => .next (.answer _ _ _)) fun h2 => .ite (fun _ => .next (.answer _ _ _)) fun h3 =>
    .ite (fun _ => .next (.answer _ _ _)) fun _ => by
      simp only [Bool.or_eq_true, Bool.not_eq_true', not_or, Bool.not_eq_true, Bool.not_eq_false,
        Ctrl.inState_iff] at h3
      obtain ⟨⟨hq, -⟩, hs⟩ := h3
      have hp : x.pstate = .active := by
        cases h : x.pstate
        · rfl
        · exact absurd ⟨h, hs⟩ h1
        · exact absurd h h2
      exact .next (.power c x _ _ hx (hf ▸ View.PowerMove.idle ⟨s, c, x⟩ hp hq hs) (.answer _ _ _ _))

theorem execOnResume_effect (f : PacketForm) : Ends (Effect (.onResume f c) s) (execOnResume f c s) :=
  .checkForm .respond fun hf => .withHandle (.answer _ _ _) fun x hx => .ite (fun _ => .next (.answer _ _ _)) fun h =>
    .next (.power c x _ _ hx (hf ▸ View.PowerMove.resume ⟨s, c, x⟩ (by simpa using h)) (.answer _ _ _ _))

/-- A retry is counted, or the waiting callers are answered, in IDLE (R216). -/
theorem execAcqAttempt_effect : Ends (Effect (.acqAttempt c) s) (execAcqAttempt c s) :=
  .withCtrl (.keeps (.refl s)) fun x hx => .ite (fun he => .next (by
    have hp : x.pstate ≠ .suspended := by
      have h := he
      simp only [Ctrl.acqEnabled, Ctrl.activating, Bool.and_eq_true, decide_eq_true_eq] at h
      rw [h.1.1.1.1]
      nofun
    unfold View.acqAttempt
    split
    · next hfree => exact .power c x _ _ hx (.acquire ⟨s, c, x⟩ he hfree) (.refl _)
    · split
      · refine .works _ (.moves (.inl rfl) hx (.single (.work _ (View.countRetry_key _) ?_ (.single ?_))))
        · unfold View.backOff
          dsimp only
          rw [View.countRetry_st]
          exact .of_eq
        · unfold View.backOff
          dsimp only
          rw [View.countRetry_c]
          exact .queue x x.waitq _ _ x.actWait (fun w hw => .inl hw) (.inl hp)
      · exact .works _ (.moves (.inl rfl) hx (View.Moves.ctrl ((State.Keeps.answerActive _ _ _ _ _).trans
          (.answerWaiters _ _ _ _)) (.queue x [] 0 _ false nofun (.inl hp))))))
    fun _ => .next (.keeps (.refl s))

theorem execSuspendFinish_effect : Ends (Effect (.suspendFinish c) s) (execSuspendFinish c s) :=
  .withCtrl (.keeps (.refl s)) fun x hx => .ite
    (fun he => .next (.power c x _ _ hx (.suspend ⟨s, c, x⟩ he) (.refl _))) fun _ => .next (.keeps (.refl s))

end

end Sys2Proof.Machine
end

section
/-! PROOFS. What any instruction can do, and the two ways in which an invariant of the whole state follows from it. -/

namespace Sys2Proof.Machine

theorem Ends.works {i : Instr} {s : State} {o : Out} (h : Ends (s.Works (mayStore i) (touches s i)) o) :
    Ends (Effect i s) o := h.mono .works

/-- Each instruction's meaning does no more than `Effect` says. -/
theorem exec_effect (i : Instr) (s : State) : Ends (Effect i s) (exec i s) := by
  have own {c : Byte} (h : target s i = some c) : touches s i c := .inl h
  cases i with
  | new f c a => exact execNew_effect f a
  | destroy f c => exact execDestroy_effect f
  | bind f c k a => exact .works (execBind_works (own rfl) f k a)
  | submit f c k ts => exact .works (execSubmit_works (own rfl) f k ts)
  | onSuspend f c => exact .works (execOnSuspend_works (own rfl) f)
  | onResume f c => exact execOnResume_effect f
  | onIdle f c => exact execOnIdle_effect f
  | onActive f c => exact .works (execOnActive_works (own rfl) f)
  | flush f c => exact .works (execFlush_works (own rfl) f)
  | seqStart c pick => exact .works (execSeqStart_works (own rfl) pick)
  | seqConfigDevice c => exact .works (execSeqConfigDevice_works (own rfl))
  | seqSelectCs c => exact .works (execSeqSelectCs_works (own rfl))
  | seqConfiguring c => exact .works (execSeqConfiguring_works (own rfl))
  | pArm c => exact .works (execPArm_works (own rfl))
  | pPoll c => exact .works (execPPoll_works (own rfl))
  | pDrain c => exact .works (execPDrain_works (own rfl))
  | dMap c => exact .works (execDMap_works (own rfl))
  | dArm c => exact .works (execDArm_works (own rfl))
  | dWait c => exact .works (execDWait_works (own rfl))
  | dTxdrain c => exact .works (execDTxdrain_works (own rfl))
  | seqPostDelay c => exact .works (execSeqPostDelay_works (own rfl))
  | seqAdvance c => exact .works (execSeqAdvance_works (own rfl))
  | seqComplete c => exact .works (execSeqComplete_works (own rfl))
  | seqFail c => exact .works (execSeqFail_works (own rfl))
  | configure c sp m w => exact .works (execConfigure_works (own rfl) sp m w)
  | csAssert c k => exact .works (execCsAssert_works (own rfl) k)
  | csDeassert c => exact .works (execCsDeassert_works (own rfl))
  | errAck c => exact .works (execErrAck_works (own rfl))
  | flushOp c => exact .works (execFlushOp_works (own rfl))
  | hwInit c => exact .works (execHwInit_works (own rfl))
  | dmaAbort c => exact .works (execDmaAbort_works (own rfl))
  | xferPoll c => exact .works (execXferPoll_works (own rfl))
  | xferDma c =>
    exact .works (execXferDma_works (own rfl) fun x hx hs =>
      ⟨fun _ hd => .inr ⟨c, x, rfl, hx, hs, .inl hd⟩, fun _ hd => .inr ⟨c, x, rfl, hx, hs, .inr hd⟩⟩)
  | shLoad c => exact .works (execShLoad_works (own rfl))
  | shDone c => exact .works (execShDone_works (own rfl))
  | dmaTxBeat k => exact .works (execDmaTxBeat_works fun _ h => own h)
  | dmaRxBeat k => exact .works (execDmaRxBeat_works fun _ h => own h)
  | dmaTxDone k => exact .works (execDmaTxDone_works fun _ h => own h)
  | dmaRxDone k => exact .works (execDmaRxDone_works fun _ h => own h)
  | errIrq c => exact .works (execErrIrq_works (own rfl))
  | errInject c m => exact .works (execErrInject_works (own rfl) m)
  | powerLoss c => exact .works (execPowerLoss_works (own rfl))
  | tick d => exact .works (execTick_works d)
  | acqAttempt c => exact execAcqAttempt_effect
  | suspendFinish c => exact execSuspendFinish_effect

/-- What every instruction keeps, and what the shared state's other changes keep, every step keeps (R11, R260). -/
theorem step_keeps {I : State → Prop} (hexec : ∀ i s u, I s → Effect i s u → I u)
    (hkeep : ∀ s u : State, s.Keeps true u → I s → I u) (s u : State) (hs : I s)
    (h : step s = .next u) : I u := by
  unfold step State.fetch at h
  cases hin : s.inbox with
  | nil =>
    simp only [hin, Host.Outcome.next.injEq] at h
    exact h ▸ hs
  | cons e rest =>
    simp only [hin] at h
    have hs0 : I { s with inbox := rest } := hkeep s _ .of_eq hs
    cases e with
    | callerWrite a v =>
      refine hkeep s u ?_ hs
      cases h
      unfold State.callerWrite
      split <;> exact .of_store
    | encoded e =>
      dsimp only at h
      split at h
      · next i _ => exact hexec i _ u hs0 (exec_effect i _ u h)
      · next d _ =>
        cases d <;> cases h <;> exact hkeep _ _ (.answer _ _ _ _) hs0

/-! ### Power, creation and destruction -/

/-- The shared state's controllers, live mappings and memory, and which controller is in hand, are as they were: a
change of leases only. -/
structure View.LeaseFrame (v w : View) : Prop where
  key : w.key = v.key
  ctrl : w.st.ctrl = v.st.ctrl
  maps : w.st.maps = v.st.maps
  mem : w.st.mem = v.st.mem

theorem View.suspendFinish_frame (v : View) : v.LeaseFrame v.suspendFinish := by
  have answered : v.st.Keeps false ((v.st.answerWaiters .channelUnavailable 2 v.c.waitq).answerActive v.c.id v.c
      .channelUnavailable 2) := (State.Keeps.answerWaiters _ _ _ _).trans (.answerActive _ _ _ _ _)
  unfold View.suspendFinish
  dsimp only
  split <;> exact ⟨rfl, answered.ctrl, answered.maps, answered.mem rfl⟩

theorem View.acquire_frame (v : View) : v.LeaseFrame v.acquire := by
  have answered : State.Keeps false _ v.acquire.st := State.Keeps.answerActive
    ((v.st.setLessee v.c.dmaRx (some v.c.id)).setLessee v.c.dmaTx (some v.c.id)) v.c.id v.c .ok 0
  exact ⟨rfl, answered.ctrl, answered.maps, answered.mem rfl⟩

/-- The held select is forgotten; of the shared state the bus log alone changes (R218). -/
theorem View.dropHolder_eq (v : View) : v.dropHolder =
    ⟨{ v.st with busLog := v.dropHolder.st.busLog }, v.key, { v.c with csHolder := none }⟩ := by
  unfold View.dropHolder
  split
  · next h => rw [← h]
  · dsimp only
    split <;> rfl

/-- Between the edges of its clock pulse a resume changes the registers of one controller,
and no shared state (R218). -/
theorem View.resumeHw_eq (v : View) : v.resumeHw = { v with c := { v.c with
    hw := v.resumeHw.c.hw, errLatch := v.resumeHw.c.errLatch, cfgValid := v.resumeHw.c.cfgValid
    curSpeed := v.resumeHw.c.curSpeed, curMode := v.resumeHw.c.curMode, curWidth := v.resumeHw.c.curWidth
    dmaDone := v.resumeHw.c.dmaDone, acqNext := v.resumeHw.c.acqNext, seq := v.resumeHw.c.seq
    clkOn := v.resumeHw.c.clkOn, nssHeld := v.resumeHw.c.nssHeld } } := by
  unfold View.resumeHw
  split
  · rfl
  · dsimp only
    split <;> rfl

/-- Those registers: the FIFOs empty or as they were, the sequencer renewed or left alone, the completion and the clocks
not set (R218, R263). -/
theorem View.resumeHw_spec (v : View) :
    (v.c.hw.Fits v.c.fifoDepth → v.resumeHw.c.hw.Fits v.c.fifoDepth) ∧
    (v.resumeHw.c.seq = v.c.seq ∨ v.resumeHw.c.seq = v.c.seq.renewed) ∧
    (v.resumeHw.c.dmaDone = true → v.c.dmaDone = true) ∧ (v.resumeHw.c.clkOn = true → v.c.clkOn = true) := by
  unfold View.resumeHw
  split
  · exact ⟨id, .inl rfl, id, id⟩
  · dsimp only
    split
    · exact ⟨fun _ => Hw.Fits.init _, .inr rfl, nofun, nofun⟩
    · exact ⟨id, .inl rfl, id, nofun⟩

/-- ON_RESUME's controller (R218, R263). -/
theorem View.resume_c (v : View) : v.resume.c = { v.resumeHw.c with
    csHolder := none, cfgValid := false, suspended := false, pstate := .idle, lastActivity := v.st.now } := by
  unfold View.resume
  dsimp only
  rw [View.dropHolder_eq]

theorem View.resume_frame (v : View) : v.LeaseFrame v.resume ∧ v.st.Keeps false v.resume.st := by
  have lines : v.st.Keeps false (v.resumeHw.st.linesInactive v.resumeHw.c.bind) := by
    have h : v.resumeHw.st = v.st := by rw [View.resumeHw_eq]
    rw [h]
    exact .linesInactive _ _
  have key : v.resumeHw.key = v.key := by rw [View.resumeHw_eq]
  unfold View.resume
  dsimp only
  rw [View.dropHolder_eq]
  exact ⟨⟨key, lines.ctrl, lines.maps, lines.mem rfl⟩, lines.trans .of_eq⟩

theorem View.PowerMove.frame {i : Instr} {v w : View} (h : View.PowerMove i v w) : v.LeaseFrame w := by
  cases h with
  | acquire h hf => exact v.acquire_frame
  | idle hp hq hs => exact ⟨rfl, rfl, rfl, rfl⟩
  | suspend h => exact v.suspendFinish_frame
  | resume h => exact v.resume_frame.1

/-- The controller NEW makes (R210, R261). -/
def Ctrl.made (s : State) (c : Byte) (a : NewArgs) : Ctrl :=
  (View.hwInit ⟨s, c, Ctrl.fresh c a (Hw.drawn s.draws a.fifoDepth.toNat) s.now⟩).c.gate

theorem State.newDone_ctrlAt (s : State) (c d : Byte) (a : NewArgs) :
    (s.newDone c a).ctrlAt d = if c = d then some (Ctrl.made s c a) else s.ctrlAt d :=
  State.ctrlAt_setCtrl (s.drew drawnCount) c d _

/-- Leases that are not the controller's own stay as they are (R211). -/
theorem State.lessee_freeLease (s : State) (o k j : Byte) :
    ((s.freeLease o k).chanAt j).lessee =
      if j = k ∧ (s.chanAt k).lessee = some o then none else (s.chanAt j).lessee := by
  unfold State.freeLease
  by_cases h : (s.chanAt k).lessee = some o
  · rw [if_pos h, State.chanAt_setLessee]
    by_cases e : k = j
    · simp [e, e ▸ h]
    · simp [e, Ne.symm e]
  · simp [h]

theorem State.lessee_freeLease_both (s : State) (o j k i : Byte) :
    (((s.freeLease o j).freeLease o k).chanAt i).lessee =
      if (i = j ∨ i = k) ∧ (s.chanAt i).lessee = some o then none else (s.chanAt i).lessee := by
  rw [State.lessee_freeLease, State.lessee_freeLease, State.lessee_freeLease]
  by_cases hk : i = k
  · subst hk
    by_cases hj : i = j
    · subst hj
      by_cases ho : (s.chanAt i).lessee = some o <;> simp [ho]
    · simp [hj]
  · by_cases hj : i = j
    · subst hj
      simp [hk]
    · simp [hj, hk]

theorem State.freeLease_eq (s : State) (o k : Byte) : s.freeLease o k = { s with chan := (s.freeLease o k).chan } := by
  unfold State.freeLease
  split <;> rfl

/-- What DESTROY leaves of the shared state (R211). -/
theorem State.destroyDone_spec (s : State) (c : Byte) (x : Ctrl) :
    (∀ d, (s.destroyDone c x).ctrlAt d = if c = d then none else s.ctrlAt d) ∧
    (s.destroyDone c x).maps = s.maps ∧ (s.destroyDone c x).mem = s.mem ∧
    ∀ k, ((s.destroyDone c x).chanAt k).lessee =
      if (k = x.dmaRx ∨ k = x.dmaTx) ∧ (s.chanAt k).lessee = some c then none else (s.chanAt k).lessee := by
  have hst : (View.mk s c { x with clkOn := true }).csDeassert.st = { s with
      csLine := (View.mk s c { x with clkOn := true }).csDeassert.st.csLine
      busLog := (View.mk s c { x with clkOn := true }).csDeassert.st.busLog } := View.csDeassert_st _
  unfold State.destroyDone
  dsimp only
  rw [hst]
  refine ⟨fun d => ?_, ?_, ?_, fun k => ?_⟩
  · rw [State.freeLease_eq, State.freeLease_eq]
    simp [State.ctrlAt, Table.get?_erase, BitVec.toNat_inj]
  · rw [State.freeLease_eq, State.freeLease_eq]
    rfl
  · rw [State.freeLease_eq, State.freeLease_eq]
    rfl
  · exact State.lessee_freeLease_both _ c x.dmaRx x.dmaTx k

end Sys2Proof.Machine
end

section
/-! PROOFS. The invariants of R38 that speak of one controller at a time: each is kept by every change a controller can
make (`CtrlInvariant`), so every step keeps it. -/

namespace Sys2Proof.Machine

/-- A predicate of one controller that every change of a controller keeps, and that a new one has. -/
structure CtrlInvariant (P : Ctrl → Prop) : Prop where
  move (x y : Ctrl) (h : x.Move y) (hx : P x) : P y
  proceeds (x : Ctrl) (q : Seq) (h : x.Proceeds q) (hx : P x) : P { x with seq := q }
  power (i : Instr) (v w : View) (h : View.PowerMove i v w) (hv : P v.c) : P w.c
  made (s : State) (c : Byte) (a : NewArgs) : P (Ctrl.made s c a)

/-- Every controller has the property. -/
def State.AllCtrl (P : Ctrl → Prop) (s : State) : Prop := ∀ c x, s.ctrlAt c = some x → P x

namespace CtrlInvariant
variable {P : Ctrl → Prop} {b : Bool} {C : Byte → Prop} {i : Instr} {s u : State} {v w : View}

theorem moves (hP : CtrlInvariant P) {x y : Ctrl} (h : x.Moves y) (hx : P x) : P y := by
  induction h with
  | refl => exact hx
  | tail _ hm ih => exact hP.move _ _ hm ih

theorem viewMove (hP : CtrlInvariant P) (h : View.Move b v w) (hv : P v.c) : P w.c := by
  cases h with
  | work w key st c => exact hP.moves c hv
  | unmapOwed h =>
    rw [(View.SeqOnly.unmapOwed v).c]
    exact hP.proceeds _ _ (View.unmapOwed_proceeds h) hv
  | dMap t hs h ht =>
    rw [(View.SeqOnly.dMap v t).c]
    exact hP.proceeds _ _ (View.dMap_proceeds h ht) hv

theorem viewMoves (hP : CtrlInvariant P) (h : v.Moves b w) (hv : P v.c) : P w.c := by
  induction h with
  | refl => exact hv
  | tail _ hm ih => exact hP.viewMove hm ih

theorem allCtrl_commit (hs : s.AllCtrl P) (hst : w.st.ctrl = s.ctrl) (hw : P w.c) : w.commit.AllCtrl P := by
  intro d y hy
  rw [View.commit_ctrlAt_of_ctrl hst] at hy
  split at hy
  · cases hy
    exact hw
  · exact hs d y hy

theorem allCtrl_keeps (hs : s.AllCtrl P) (h : s.Keeps b u) : u.AllCtrl P := fun d y hy =>
  hs d y ((State.ctrlAt_congr h.ctrl d).symm.trans hy)

theorem works (hP : CtrlInvariant P) (h : s.Works b C u) (hs : s.AllCtrl P) : u.AllCtrl P := by
  induction h with
  | refl => exact hs
  | tail _ hc ih =>
    cases hc with
    | keep u h => exact allCtrl_keeps ih h
    | work c x w hC hx h => exact allCtrl_commit ih h.frame.ctrl (hP.viewMoves h (ih c x hx))

theorem effect (hP : CtrlInvariant P) (hs : s.AllCtrl P) (h : Effect i s u) : u.AllCtrl P := by
  cases h with
  | works u h => exact hP.works h hs
  | power c x w st hx h hst =>
    exact allCtrl_commit (w := { w with st := st }) hs (hst.ctrl.trans h.frame.ctrl)
      (hP.power i ⟨s, c, x⟩ w h (hs c x hx))
  | created c a hi hx hd =>
    intro d y hy
    rw [State.newDone_ctrlAt] at hy
    split at hy
    · cases hy
      exact hP.made s c a
    · exact hs d y hy
  | destroyed c x hi hx hb =>
    intro d y hy
    rw [(s.destroyDone_spec c x).1] at hy
    split at hy
    · cases hy
    · exact hs d y hy

theorem step (hP : CtrlInvariant P) (s u : State) (hs : s.AllCtrl P) (h : step s = .next u) : u.AllCtrl P :=
  step_keeps (fun _ _ _ hs h => hP.effect hs h) (fun _ _ hk hs => allCtrl_keeps hs hk) s u hs h

end CtrlInvariant

/-! ### What the changes of power state leave of the controller -/

/-- SUSPEND_FINISH's controller (R217). -/
theorem View.suspendFinish_c (v : View) : v.suspendFinish.c = { v.c with
    clkOn := v.suspendFinish.c.clkOn, nssHeld := v.suspendFinish.c.nssHeld
    rxCh := v.suspendFinish.c.rxCh, txCh := v.suspendFinish.c.txCh
    waitq := [], actWait := false, acqK := 0, pstate := .suspended } := by
  unfold View.suspendFinish
  dsimp only
  split <;> rfl

/-- From ACTIVE it ends the leases and gates the clocks; else it leaves them (R217). -/
theorem View.suspendFinish_spec (v : View) :
    (v.c.pstate = .active → v.suspendFinish.c.clkOn = false ∧ v.suspendFinish.c.nssHeld = v.c.hw.nss ∧
      v.suspendFinish.c.rxCh = false ∧ v.suspendFinish.c.txCh = false) ∧
    (v.c.pstate ≠ .active → v.suspendFinish.c.clkOn = v.c.clkOn ∧ v.suspendFinish.c.nssHeld = v.c.nssHeld ∧
      v.suspendFinish.c.rxCh = v.c.rxCh ∧ v.suspendFinish.c.txCh = v.c.txCh) := by
  unfold View.suspendFinish
  dsimp only
  split
  · next h => exact ⟨fun _ => ⟨rfl, rfl, rfl, rfl⟩, fun e => absurd h e⟩
  · next h => exact ⟨fun e => absurd e h, fun _ => ⟨rfl, rfl, rfl, rfl⟩⟩

/-- A resume leaves the sequencer's state and phase; in service, all of the sequencer (R218). -/
theorem View.resumeHw_seq (v : View) : v.resumeHw.c.seq.state = v.c.seq.state ∧
    v.resumeHw.c.seq.phase = v.c.seq.phase ∧ (v.c.seq.state ≠ .idle → v.resumeHw.c.seq = v.c.seq) := by
  obtain ⟨-, hq, -, -⟩ := v.resumeHw_spec
  rcases hq with hq | hq <;> rw [hq]
  · exact ⟨rfl, rfl, fun _ => rfl⟩
  · exact ⟨Seq.renewed_state _, Seq.renewed_phase _, Seq.renewed_serving _⟩

/-! ### R38 item 1 -/

theorem fits_invariant : CtrlInvariant fun x => x.hw.Fits x.fifoDepth where
  move x y h hx := by
    cases h with
    | engine h l sp m w v hf => exact hf hx
    | _ => exact hx
  proceeds x q h hx := hx
  power i v w h hv := by
    cases h with
    | acquire _ h hf => exact hv
    | idle _ hp hq hs => exact hv
    | suspend _ h =>
      rw [View.suspendFinish_c]
      exact hv
    | resume _ h =>
      rw [View.resume_c, View.resumeHw_eq]
      exact v.resumeHw_spec.1 hv
  made s c a := Hw.Fits.init _

/-! ### R38 item 5 -/

theorem owner_invariant : CtrlInvariant fun x => x.seq.state = .idle ↔ x.owner = none where
  move x y h hx := by
    cases h with
    | proceed q h ho => exact ⟨fun e => absurd e h.served, fun e => absurd (hx.mpr e) h.serving⟩
    | start i w h hw => exact ⟨nofun, nofun⟩
    | finish ms tg now h => exact ⟨fun _ => rfl, fun _ => rfl⟩
    | _ => exact hx
  proceeds x q h hx := ⟨fun e => absurd e h.served, fun e => absurd (hx.mpr e) h.serving⟩
  power i v w h hv := by
    cases h with
    | acquire _ h hf => exact hv
    | idle _ hp hq hs => exact hv
    | suspend _ h =>
      rw [View.suspendFinish_c]
      exact hv
    | resume _ h =>
      rw [View.resume_c, View.resumeHw_eq]
      dsimp only
      rw [v.resumeHw_seq.1]
      exact hv
  made s c a := ⟨fun _ => rfl, fun _ => rfl⟩

/-! ### R38 items 2 and 4, R213 -/

theorem clocks_invariant : CtrlInvariant fun x => (x.clkOn = true ↔ x.pstate = .active) ∧
    (x.seq.state ≠ .idle → x.pstate = .active) ∧ (x.pstate = .suspended → x.suspended = true) where
  move x y h hx := by
    obtain ⟨hclk, hserve, hflag⟩ := hx
    cases h with
    | proceed q h ho => exact ⟨hclk, fun _ => hserve h.serving, hflag⟩
    | start i w h hw =>
      simp only [Ctrl.startEnabled, Bool.and_eq_true, decide_eq_true_eq] at h
      exact ⟨hclk, fun _ => h.1.2, hflag⟩
    | finish ms tg now h => exact ⟨hclk, fun e => absurd rfl e, hflag⟩
    | suspend => exact ⟨hclk, hserve, fun _ => rfl⟩
    | _ => exact ⟨hclk, hserve, hflag⟩
  proceeds x q h hx := ⟨hx.1, fun _ => hx.2.1 h.serving, hx.2.2⟩
  power i v w h hv := by
    obtain ⟨hclk, hserve, hflag⟩ := hv
    cases h with
    | acquire _ h hf => exact ⟨⟨fun _ => rfl, fun _ => rfl⟩, fun _ => rfl, nofun⟩
    | idle _ hp hq hs => exact ⟨⟨nofun, nofun⟩, fun e => absurd hq e, nofun⟩
    | suspend _ h =>
      simp only [Ctrl.suspendFinishEnabled, Bool.and_eq_true, decide_eq_true_eq] at h
      obtain ⟨⟨hs, -⟩, hq⟩ := h
      have hoff : v.suspendFinish.c.clkOn = false := by
        by_cases hp : v.c.pstate = .active
        · exact (v.suspendFinish_spec.1 hp).1
        · rw [(v.suspendFinish_spec.2 hp).1]
          simpa [hp] using hclk
      rw [View.suspendFinish_c]
      exact ⟨⟨fun e => by simp [hoff] at e, nofun⟩, fun e => absurd hq e, fun _ => hs⟩
    | resume _ h =>
      have hoff : ¬ v.resumeHw.c.clkOn = true := fun e =>
        nomatch h.symm.trans (hclk.mp (v.resumeHw_spec.2.2.2 e))
      have hidle : v.resumeHw.c.seq.state = .idle := by
        rw [v.resumeHw_seq.1]
        by_contra e
        exact nomatch h.symm.trans (hserve e)
      rw [View.resume_c]
      exact ⟨⟨fun e => absurd e hoff, nofun⟩, fun e => absurd hidle e, nofun⟩
  made s c a := ⟨⟨nofun, nofun⟩, fun e => absurd rfl e, nofun⟩

/-! ### R38 item 7 -/

theorem Ctrl.bindAt_set {x : Ctrl} {b k : Byte} {bd : Binding} (h : (x.bindAt k).isSome = true) :
    (Table.get? (Table.set x.bind b.toNat bd) k.toNat).isSome = true := by
  rw [Table.get?_set]
  split
  · rfl
  · exact h

theorem holder_invariant : CtrlInvariant fun x => ∀ b, x.csHolder = some b → (x.bindAt b).isSome = true where
  move x y h hx := by
    cases h with
    | select o r ho => exact ho
    | bind b bd sec h => exact fun k hk => Ctrl.bindAt_set (hx k hk)
    | _ => exact hx
  proceeds x q h hx := hx
  power i v w h hv := by
    cases h with
    | acquire _ h hf => exact hv
    | idle _ hp hq hs => exact hv
    | suspend _ h =>
      rw [View.suspendFinish_c]
      exact hv
    | resume _ h =>
      rw [View.resume_c]
      exact nofun
  made s c a := nofun

/-! ### R38 item 6 -/

/-- A busy flag is set only in D_WAIT, and the completion primitive is released only with both clear. -/
def Ctrl.BusyRight (x : Ctrl) : Prop :=
  ((x.rxBusy = true ∨ x.txBusy = true) → x.seq.state = .transporting ∧ x.seq.phase = .dWait) ∧
  (x.dmaDone = true → x.rxBusy = false ∧ x.txBusy = false)

/-- The sequencer leaves D_WAIT only with both flags clear. -/
theorem busy_proceeds {x : Ctrl} {q : Seq} (h : x.Proceeds q) (hx : x.BusyRight) :
    Ctrl.BusyRight { x with seq := q } := by
  obtain ⟨hbusy, hdone⟩ := hx
  refine ⟨fun e => ?_, hdone⟩
  rcases h.waits (hbusy e) with hw | hd | hclear
  · exact hw
  · obtain ⟨hrx, htx⟩ := hdone hd
    simp [hrx, htx] at e
  · obtain ⟨hrx, htx⟩ := hclear
    simp [hrx, htx] at e

theorem busy_invariant : CtrlInvariant Ctrl.BusyRight where
  move x y h hx := by
    obtain ⟨hbusy, hdone⟩ := hx
    cases h with
    | release r t d hr ht hd =>
      refine ⟨fun e => hbusy (e.imp hr ht), fun e => (hd e).elim (fun e => ?_) id⟩
      obtain ⟨hrx, htx⟩ := hdone e
      exact ⟨by simpa [hrx] using hr, by simpa [htx] using ht⟩
    | arm r t deadline h => exact ⟨fun _ => ⟨((x.inPhase_iff _).mp h).1, rfl⟩, nofun⟩
    | proceed q h ho => exact busy_proceeds h ⟨hbusy, hdone⟩
    | start i w h hw =>
      simp only [Ctrl.startEnabled, Bool.and_eq_true, decide_eq_true_eq] at h
      exact ⟨fun e => absurd (hbusy e).1 (by simp [h.1.1.1]), hdone⟩
    | finish ms tg now h => exact ⟨fun e => absurd (hbusy e).1 h, hdone⟩
    | _ => exact ⟨hbusy, hdone⟩
  proceeds x q h hx := busy_proceeds h hx
  power i v w h hv := by
    obtain ⟨hbusy, hdone⟩ := hv
    cases h with
    | acquire _ h hf => exact ⟨hbusy, hdone⟩
    | idle _ hp hq hs => exact ⟨hbusy, hdone⟩
    | suspend _ h =>
      rw [View.suspendFinish_c]
      exact ⟨hbusy, hdone⟩
    | resume _ h =>
      obtain ⟨hs, hp, -⟩ := v.resumeHw_seq
      rw [View.resume_c, View.resumeHw_eq]
      exact ⟨fun e => (hbusy e).imp hs.trans hp.trans, fun e => hdone (v.resumeHw_spec.2.2.1 e)⟩
  made s c a := ⟨fun e => e.elim nofun nofun, nofun⟩

/-! ### R14, R15, R171 -/

/-- Each Message that waits has its binding and a Transfer; so has the one in service, whose offsets are right. -/
def Ctrl.ServiceRight (x : Ctrl) : Prop :=
  (∀ w ∈ x.waitq, (x.bindAt w.b).isSome = true ∧ w.msg ≠ []) ∧
  (x.seq.state ≠ .idle → (x.bindAt x.seq.b).isSome = true ∧ x.TransferFits)

theorem service_proceeds {x : Ctrl} {q : Seq} (h : x.Proceeds q) (hx : x.ServiceRight) :
    Ctrl.ServiceRight { x with seq := q } := by
  obtain ⟨hwait, hserve⟩ := hx
  obtain ⟨hbound, hfits⟩ := hserve h.serving
  exact ⟨hwait, fun _ => ⟨(congrArg (fun k => (x.bindAt k).isSome) h.binding).trans hbound, h.transfer hfits⟩⟩

theorem service_invariant : CtrlInvariant Ctrl.ServiceRight where
  move x y h hx := by
    obtain ⟨hwait, hserve⟩ := hx
    cases h with
    | arm r t deadline h =>
      obtain ⟨hs, hp⟩ := (x.inPhase_iff _).mp h
      refine ⟨hwait, fun e => ?_⟩
      obtain ⟨hbound, t, ht, hoff, hchunk⟩ := hserve e
      exact ⟨hbound, t, ht, hoff, fun _ => hchunk ⟨hs, .inl hp⟩⟩
    | proceed q h ho => exact service_proceeds h ⟨hwait, hserve⟩
    | start i w h hw =>
      obtain ⟨hbound, hmsg⟩ := hwait w (List.mem_of_getElem? hw)
      refine ⟨fun w' hw' => hwait w' (List.mem_of_mem_eraseIdx hw'), fun _ => ⟨hbound, ?_⟩⟩
      obtain ⟨t, ts, hts⟩ := List.exists_cons_of_ne_nil hmsg
      exact ⟨t, by simp [Ctrl.transfer, hts], fun _ => Nat.zero_le _, fun e => nomatch e.1⟩
    | finish ms tg now h => exact ⟨hwait, fun e => absurd rfl e⟩
    | queue ws k n a hw hs => exact ⟨fun w h => (hw w h).elim (hwait w) id, hserve⟩
    | bind b bd sec h =>
      refine ⟨fun w hw => ⟨Ctrl.bindAt_set (hwait w hw).1, (hwait w hw).2⟩, fun e => ?_⟩
      obtain ⟨hbound, hfits⟩ := hserve e
      exact ⟨Ctrl.bindAt_set hbound, hfits⟩
    | _ => exact ⟨hwait, hserve⟩
  proceeds x q h hx := service_proceeds h hx
  power i v w h hv := by
    obtain ⟨hwait, hserve⟩ := hv
    cases h with
    | acquire _ h hf => exact ⟨hwait, hserve⟩
    | idle _ hp hq hs => exact ⟨hwait, hserve⟩
    | suspend _ h =>
      rw [View.suspendFinish_c]
      exact ⟨nofun, hserve⟩
    | resume _ h =>
      obtain ⟨hs, -, hq⟩ := v.resumeHw_seq
      rw [View.resume_c, View.resumeHw_eq]
      refine ⟨hwait, fun e => ?_⟩
      have hserving : v.c.seq.state ≠ .idle := fun e' => e (hs.trans e')
      obtain ⟨hbound, hfits⟩ := hserve hserving
      simp only [hq hserving]
      exact ⟨hbound, hfits⟩
  made s c a := ⟨nofun, fun e => absurd rfl e⟩

/-! ### R14, R217 -/

/-- In SUSPENDED nothing waits and no retry is counted; outside TRANSPORTING there is no phase. -/
def Ctrl.RestRight (x : Ctrl) : Prop :=
  (x.pstate = .suspended → x.suspended = true ∧ x.waitq = [] ∧ x.actWait = false ∧ x.acqK = 0) ∧
  (x.seq.state ≠ .transporting → x.seq.phase = .none)

theorem rest_proceeds {x : Ctrl} {q : Seq} (h : x.Proceeds q) (hx : x.RestRight) :
    Ctrl.RestRight { x with seq := q } :=
  ⟨hx.1, fun e => (h.phase e).elim id fun ⟨hs, hp⟩ => hp.trans (hx.2 hs)⟩

theorem rest_invariant : CtrlInvariant Ctrl.RestRight where
  move x y h hx := by
    obtain ⟨hrest, hphase⟩ := hx
    cases h with
    | arm r t deadline h => exact ⟨hrest, fun e => absurd ((x.inPhase_iff _).mp h).1 e⟩
    | proceed q h ho => exact rest_proceeds h ⟨hrest, hphase⟩
    | start i w h hw =>
      simp only [Ctrl.startEnabled, Bool.and_eq_true, decide_eq_true_eq] at h
      exact ⟨fun e => by simp [h.1.2] at e, fun _ => rfl⟩
    | finish ms tg now h => exact ⟨hrest, fun _ => hphase h⟩
    | queue ws k n a hw hs =>
      refine ⟨fun e => ?_, hphase⟩
      rcases hs with hs | hs
      · exact absurd e hs
      · exact absurd (hrest e).1 (by simp [hs])
    | suspend => exact ⟨fun e => ⟨rfl, (hrest e).2⟩, hphase⟩
    | _ => exact ⟨hrest, hphase⟩
  proceeds x q h hx := rest_proceeds h hx
  power i v w h hv := by
    obtain ⟨hrest, hphase⟩ := hv
    cases h with
    | acquire _ h hf => exact ⟨nofun, hphase⟩
    | idle _ hp hq hs => exact ⟨nofun, hphase⟩
    | suspend _ h =>
      simp only [Ctrl.suspendFinishEnabled, Bool.and_eq_true, decide_eq_true_eq] at h
      rw [View.suspendFinish_c]
      exact ⟨fun _ => ⟨h.1.1, rfl, rfl, rfl⟩, hphase⟩
    | resume _ h =>
      obtain ⟨hs, hp, -⟩ := v.resumeHw_seq
      rw [View.resume_c]
      exact ⟨nofun, fun e => hp.trans (hphase fun e' => e (hs.trans e'))⟩
  made s c a := ⟨nofun, fun _ => rfl⟩

end Sys2Proof.Machine
end

section
/-! PROOFS. What a controller's work leaves of its unit, its power state and its leases; the lease invariant
(R38 item 3, R216) through every change of leases. -/

namespace Sys2Proof.Machine

/-- The configuration registers are as they were (R12). -/
structure Ctrl.SameConfig (x y : Ctrl) : Prop where
  id : y.id = x.id
  base : y.base = x.base
  srcClk : y.srcClk = x.srcClk
  fifoDepth : y.fifoDepth = x.fifoDepth
  half : y.half = x.half
  dmaRx : y.dmaRx = x.dmaRx
  dmaTx : y.dmaTx = x.dmaTx
  needsReinit : y.needsReinit = x.needsReinit
  autosuspendMs : y.autosuspendMs = x.autosuspendMs
  swapByte : y.swapByte = x.swapByte

theorem Ctrl.SameConfig.refl (x : Ctrl) : x.SameConfig x := ⟨rfl, rfl, rfl, rfl, rfl, rfl, rfl, rfl, rfl, rfl⟩

theorem Ctrl.SameConfig.trans {x y z : Ctrl} (h : x.SameConfig y) (h' : y.SameConfig z) : x.SameConfig z :=
  ⟨h'.id.trans h.id, h'.base.trans h.base, h'.srcClk.trans h.srcClk, h'.fifoDepth.trans h.fifoDepth,
    h'.half.trans h.half, h'.dmaRx.trans h.dmaRx, h'.dmaTx.trans h.dmaTx, h'.needsReinit.trans h.needsReinit,
    h'.autosuspendMs.trans h.autosuspendMs, h'.swapByte.trans h.swapByte⟩

/-- Power state, clocks, the level held for the gated clocks, and the lease bits are as they were. -/
structure Ctrl.SamePower (x y : Ctrl) : Prop where
  pstate : y.pstate = x.pstate
  clkOn : y.clkOn = x.clkOn
  nssHeld : y.nssHeld = x.nssHeld
  rxCh : y.rxCh = x.rxCh
  txCh : y.txCh = x.txCh

theorem Ctrl.SamePower.refl (x : Ctrl) : x.SamePower x := ⟨rfl, rfl, rfl, rfl, rfl⟩

theorem Ctrl.SamePower.trans {x y z : Ctrl} (h : x.SamePower y) (h' : y.SamePower z) : x.SamePower z :=
  ⟨h'.pstate.trans h.pstate, h'.clkOn.trans h.clkOn, h'.nssHeld.trans h.nssHeld, h'.rxCh.trans h.rxCh,
    h'.txCh.trans h.txCh⟩

/-- Both. -/
def Ctrl.SameUnit (x y : Ctrl) : Prop := x.SameConfig y ∧ x.SamePower y

theorem Ctrl.SameUnit.refl (x : Ctrl) : x.SameUnit x := ⟨.refl x, .refl x⟩

theorem Ctrl.SameUnit.trans {x y z : Ctrl} (h : x.SameUnit y) (h' : y.SameUnit z) : x.SameUnit z :=
  ⟨h.1.trans h'.1, h.2.trans h'.2⟩

section
variable {b : Bool} {C : Byte → Prop} {i : Instr} {s u : State} {v w : View}

theorem Ctrl.Move.sameUnit {x y : Ctrl} (h : x.Move y) : x.SameUnit y := by
  cases h <;> exact ⟨⟨rfl, rfl, rfl, rfl, rfl, rfl, rfl, rfl, rfl, rfl⟩, ⟨rfl, rfl, rfl, rfl, rfl⟩⟩

theorem Ctrl.Moves.sameUnit {x y : Ctrl} (h : x.Moves y) : x.SameUnit y := by
  induction h with
  | refl => exact .refl x
  | tail _ hm ih => exact ih.trans hm.sameUnit

theorem View.SeqOnly.sameUnit (h : v.SeqOnly w) : v.c.SameUnit w.c := by
  rw [h.c]
  exact ⟨⟨rfl, rfl, rfl, rfl, rfl, rfl, rfl, rfl, rfl, rfl⟩, ⟨rfl, rfl, rfl, rfl, rfl⟩⟩

theorem View.Moves.sameUnit (h : v.Moves b w) : v.c.SameUnit w.c := by
  induction h with
  | refl => exact .refl _
  | tail _ hm ih =>
    refine ih.trans ?_
    cases hm with
    | work w key st c => exact c.sameUnit
    | unmapOwed h => exact (View.SeqOnly.unmapOwed _).sameUnit
    | dMap t hs h ht => exact (View.SeqOnly.dMap _ t).sameUnit

theorem Ctrl.SameUnit.rel_refl : (o : Option Ctrl) → Option.Rel Ctrl.SameUnit o o
  | none => .none
  | some x => .some (.refl x)

theorem Ctrl.SameUnit.rel_trans {o p q : Option Ctrl} :
    Option.Rel Ctrl.SameUnit o p → Option.Rel Ctrl.SameUnit p q → Option.Rel Ctrl.SameUnit o q
  | .none, .none => .none
  | .some h, .some h' => .some (h.trans h')

/-- A controller's work makes no controller, ends none, and changes no unit (R12, R213). -/
theorem State.Change.sameUnit (h : s.Change b C u) (d : Byte) : Option.Rel Ctrl.SameUnit (s.ctrlAt d) (u.ctrlAt d) := by
  cases h with
  | keep u h =>
    rw [State.ctrlAt_congr h.ctrl d]
    exact Ctrl.SameUnit.rel_refl _
  | work c x w hC hx h =>
    rw [View.commit_ctrlAt_of_ctrl h.frame.ctrl, h.frame.key]
    split
    · next e =>
      rw [← e, hx]
      exact .some h.sameUnit
    · exact Ctrl.SameUnit.rel_refl _

theorem State.Works.sameUnit (h : s.Works b C u) (d : Byte) : Option.Rel Ctrl.SameUnit (s.ctrlAt d) (u.ctrlAt d) := by
  induction h with
  | refl => exact Ctrl.SameUnit.rel_refl _
  | tail _ hc ih => exact Ctrl.SameUnit.rel_trans ih (hc.sameUnit d)

theorem View.PowerMove.sameConfig (h : View.PowerMove i v w) : v.c.SameConfig w.c := by
  cases h with
  | acquire _ h hf => exact ⟨rfl, rfl, rfl, rfl, rfl, rfl, rfl, rfl, rfl, rfl⟩
  | idle _ hp hq hs => exact ⟨rfl, rfl, rfl, rfl, rfl, rfl, rfl, rfl, rfl, rfl⟩
  | suspend _ h =>
    rw [View.suspendFinish_c]
    exact ⟨rfl, rfl, rfl, rfl, rfl, rfl, rfl, rfl, rfl, rfl⟩
  | resume _ h =>
    rw [View.resume_c, View.resumeHw_eq]
    exact ⟨rfl, rfl, rfl, rfl, rfl, rfl, rfl, rfl, rfl, rfl⟩

end

/-! ### R38 item 3, R216 -/

/-- What the lease invariant reads of a controller is as it was. -/
structure Ctrl.SameLeases (x y : Ctrl) : Prop where
  id : y.id = x.id
  dmaRx : y.dmaRx = x.dmaRx
  dmaTx : y.dmaTx = x.dmaTx
  rxCh : y.rxCh = x.rxCh
  txCh : y.txCh = x.txCh
  active : y.pstate = .active ↔ x.pstate = .active

theorem Ctrl.SameUnit.sameLeases {x y : Ctrl} (h : x.SameUnit y) : x.SameLeases y :=
  ⟨h.1.id, h.1.dmaRx, h.1.dmaTx, h.2.rxCh, h.2.txCh, by rw [h.2.pstate]⟩

section
variable {i : Instr} {s u : State} {c : Byte} {x y : Ctrl}

/-- The invariant survives where neither the pool nor what it reads of the controllers changes. -/
theorem State.leasesRight_of_same (hl : ∀ k, (u.chanAt k).lessee = (s.chanAt k).lessee)
    (hc : ∀ d, Option.Rel Ctrl.SameLeases (s.ctrlAt d) (u.ctrlAt d)) (hs : s.leasesRight) : u.leasesRight := by
  obtain ⟨hown, hpool⟩ := hs
  refine ⟨fun d z hz => ?_, fun k d hk => ?_⟩
  · have hd := hc d
    rw [hz] at hd
    cases hx : s.ctrlAt d with
    | none => rw [hx] at hd; cases hd
    | some x =>
      rw [hx] at hd
      obtain ⟨h⟩ := hd
      simpa only [h.id, h.dmaRx, h.dmaTx, h.rxCh, h.txCh, h.active, hl] using hown d x hx
  · rw [hl] at hk
    obtain ⟨x, hx, hkx⟩ := hpool k d hk
    have hd := hc d
    rw [hx] at hd
    cases hz : u.ctrlAt d with
    | none => rw [hz] at hd; cases hd
    | some z =>
      rw [hz] at hd
      obtain ⟨h⟩ := hd
      exact ⟨z, rfl, by rwa [h.dmaRx, h.dmaTx]⟩

/-- A lease of a channel is given to, or taken from, no controller but the one whose channel it is. -/
theorem State.leasesRight_update (o : Option Byte) (hs : s.leasesRight) (hx : s.ctrlAt c = some x)
    (hu : ∀ d, u.ctrlAt d = if c = d then some y else s.ctrlAt d) (hc : x.SameConfig y)
    (hfree : ∀ k, k = x.dmaRx ∨ k = x.dmaTx → ∀ d, (s.chanAt k).lessee = some d → d = c)
    (hl : ∀ k, (u.chanAt k).lessee = if k = x.dmaRx ∨ k = x.dmaTx then o else (s.chanAt k).lessee)
    (ho : o = some c ∧ y.pstate = .active ∧ y.rxCh = true ∧ y.txCh = true ∨
      o = none ∧ y.pstate ≠ .active ∧ y.rxCh = false ∧ y.txCh = false) : u.leasesRight := by
  obtain ⟨hown, hpool⟩ := hs
  obtain ⟨hid, hne, -⟩ := hown c x hx
  have other (k d : Byte) (hd : c ≠ d) : (u.chanAt k).lessee = some d ↔ (s.chanAt k).lessee = some d := by
    rw [hl]
    split
    · next hk =>
      refine ⟨fun e => ?_, fun e => absurd (hfree k hk d e).symm hd⟩
      rcases ho with ⟨rfl, -⟩ | ⟨rfl, -⟩
      · exact absurd (Option.some.inj e) hd
      · cases e
    · rfl
  refine ⟨fun d z hz => ?_, fun k d hk => ?_⟩
  · rw [hu] at hz
    split at hz
    · next e =>
      subst e
      cases hz
      rw [hc.id, hc.dmaRx, hc.dmaTx, hl, hl, if_pos (.inl rfl), if_pos (.inr rfl)]
      rcases ho with ⟨rfl, hp, hr, ht⟩ | ⟨rfl, hp, hr, ht⟩ <;> simp [hid, hne, hp, hr, ht]
    · next e => simpa only [other _ _ e] using hown d z hz
  · by_cases e : c = d
    · subst e
      refine ⟨y, by rw [hu, if_pos rfl], ?_⟩
      rw [hc.dmaRx, hc.dmaTx]
      by_contra hk'
      rw [hl, if_neg hk'] at hk
      obtain ⟨x', hx', hkx⟩ := hpool k c hk
      cases hx.symm.trans hx'
      exact hk' hkx
    · obtain ⟨x', hx', hkx⟩ := hpool k d ((other k d e).mp hk)
      exact ⟨x', by rw [hu, if_neg e]; exact hx', hkx⟩

/-- The leases both channels of a controller have after a change of both (R214, R216, R217). -/
theorem State.lessee_setLessee_both (s : State) (j k m : Byte) (o : Option Byte) :
    (((s.setLessee j o).setLessee k o).chanAt m).lessee = if m = j ∨ m = k then o else (s.chanAt m).lessee := by
  by_cases hk : k = m
  · simp [State.chanAt_setLessee, hk]
  · rw [State.chanAt_setLessee, if_neg hk, State.chanAt_setLessee]
    by_cases hj : j = m
    · simp [hj]
    · simp [hj, Ne.symm hj, Ne.symm hk]

theorem View.PowerMove.leasesRight {v w : View} {st : State} (h : View.PowerMove i v w) (hst : w.st.Keeps false st)
    (hx : v.st.ctrlAt v.key = some v.c) (hs : v.st.leasesRight) : ({ w with st := st }.commit).leasesRight := by
  have hu (d : Byte) : ({ w with st := st }.commit).ctrlAt d = if v.key = d then some w.c else v.st.ctrlAt d := by
    rw [View.commit_ctrlAt_of_ctrl (w := { w with st := st }) (hst.ctrl.trans h.frame.ctrl)]
    simp only [h.frame.key]
  have hl (k : Byte) : (({ w with st := st }.commit).chanAt k).lessee = (w.st.chanAt k).lessee := hst.lessee k
  obtain ⟨hid, hne, hrx, htx, hrp, htp⟩ := hs.1 v.key v.c hx
  have mine (hp : v.c.pstate = .active) (k : Byte) (hk : k = v.c.dmaRx ∨ k = v.c.dmaTx) (d : Byte)
      (hd : (v.st.chanAt k).lessee = some d) : d = v.key := by
    rcases hk with rfl | rfl
    · exact Option.some.inj (hd.symm.trans (hrx.mp (hrp.mpr hp)))
    · exact Option.some.inj (hd.symm.trans (htx.mp (htp.mpr hp)))
  have same (hl' : ∀ k, (w.st.chanAt k).lessee = (v.st.chanAt k).lessee) (hw : v.c.SameLeases w.c) :
      ({ w with st := st }.commit).leasesRight := by
    refine State.leasesRight_of_same (fun k => (hl k).trans (hl' k)) (fun d => ?_) hs
    rw [hu]
    split
    · next e =>
      rw [← e, hx]
      exact .some hw
    · cases v.st.ctrlAt d
      · exact .none
      · exact .some ⟨rfl, rfl, rfl, rfl, rfl, .rfl⟩
  cases h with
  | acquire _ h hf =>
    simp only [State.leasesFree, Bool.and_eq_true, Option.isNone_iff_eq_none] at hf
    refine State.leasesRight_update (some v.key) hs hx hu (View.PowerMove.sameConfig (.acquire v h ?_))
      (fun k hk d hd => ?_) (fun k => ?_) (.inl ⟨rfl, rfl, rfl, rfl⟩)
    · simp [State.leasesFree, hf]
    · rcases hk with rfl | rfl
      · rw [hf.1] at hd; cases hd
      · rw [hf.2] at hd; cases hd
    · rw [hl, ← hid]
      exact ((State.Keeps.answerActive (b := true) _ _ _ _ _).lessee k).trans (State.lessee_setLessee_both _ _ _ _ _)
  | idle _ hp hq hf =>
    exact State.leasesRight_update none hs hx hu (View.PowerMove.sameConfig (.idle v hp hq hf)) (mine hp)
      (fun k => (hl k).trans (State.lessee_setLessee_both _ _ _ _ _)) (.inr ⟨rfl, nofun, rfl, rfl⟩)
  | suspend _ h =>
    have config := View.PowerMove.sameConfig (.suspend v h)
    have answered : v.st.Keeps true ((v.st.answerWaiters .channelUnavailable 2 v.c.waitq).answerActive v.c.id v.c
        .channelUnavailable 2) := (State.Keeps.answerWaiters _ _ _ _).trans (.answerActive _ _ _ _ _)
    by_cases hp : v.c.pstate = .active
    · obtain ⟨-, -, hr, ht⟩ := v.suspendFinish_spec.1 hp
      refine State.leasesRight_update none hs hx hu config (mine hp) (fun k => ?_)
        (.inr ⟨rfl, by rw [View.suspendFinish_c]; nofun, hr, ht⟩)
      rw [hl]
      unfold View.suspendFinish
      simp only [if_pos hp]
      refine (State.lessee_setLessee_both _ _ _ _ _).trans ?_
      rw [answered.lessee]
    · obtain ⟨-, -, hr, ht⟩ := v.suspendFinish_spec.2 hp
      refine same (fun k => ?_) ⟨config.id, config.dmaRx, config.dmaTx, hr, ht, ?_⟩
      · unfold View.suspendFinish
        simp only [if_neg hp]
        exact answered.lessee k
      · rw [View.suspendFinish_c]
        simp [hp]
  | resume _ h =>
    have config := View.PowerMove.sameConfig (.resume v h)
    refine same v.resume_frame.2.lessee ⟨config.id, config.dmaRx, config.dmaTx, ?_, ?_, ?_⟩
    · rw [View.resume_c, View.resumeHw_eq]
    · rw [View.resume_c, View.resumeHw_eq]
    · rw [View.resume_c]
      simp [h]

/-- Every change of leases keeps the invariant (R211, R214, R216, R217). -/
theorem Effect.leasesRight (hs : s.leasesRight) (h : Effect i s u) : u.leasesRight := by
  cases h with
  | works u h =>
    refine State.leasesRight_of_same h.lessee (fun d => ?_) hs
    have hd := h.sameUnit d
    cases hx : s.ctrlAt d <;> cases hy : u.ctrlAt d <;> rw [hx, hy] at hd <;> cases hd
    · exact .none
    · next h => exact .some h.sameLeases
  | power c x w st hx h hst => exact h.leasesRight hst hx hs
  | created c a hi hx hd =>
    obtain ⟨hown, hpool⟩ := hs
    have free (k : Byte) : (s.chanAt k).lessee ≠ some c := fun e => by
      obtain ⟨x, hx', -⟩ := hpool k c e
      rw [hx] at hx'
      cases hx'
    refine ⟨fun d y hy => ?_, fun k d hk => ?_⟩
    · rw [State.newDone_ctrlAt] at hy
      split at hy
      · next e =>
        cases hy
        subst e
        exact ⟨rfl, hd, ⟨nofun, fun e => absurd e (free _)⟩, ⟨nofun, fun e => absurd e (free _)⟩,
          ⟨nofun, nofun⟩, ⟨nofun, nofun⟩⟩
      · exact hown d y hy
    · obtain ⟨x, hx', hkx⟩ := hpool k d hk
      refine ⟨x, ?_, hkx⟩
      have e : c ≠ d := by
        rintro rfl
        exact free k hk
      rw [State.newDone_ctrlAt, if_neg e]
      exact hx'
  | destroyed c x hi hx hb =>
    obtain ⟨hown, hpool⟩ := hs
    obtain ⟨hctrl, -, -, hlessee⟩ := s.destroyDone_spec c x
    have other (k d : Byte) (e : c ≠ d) :
        ((s.destroyDone c x).chanAt k).lessee = some d ↔ (s.chanAt k).lessee = some d := by
      rw [hlessee]
      split
      · next h => simp [h.2, e]
      · rfl
    refine ⟨fun d y hy => ?_, fun k d hk => ?_⟩
    · rw [hctrl] at hy
      split at hy
      · cases hy
      · next e => simpa only [other _ _ e] using hown d y hy
    · by_cases e : c = d
      · subst e
        rw [hlessee] at hk
        split at hk
        · cases hk
        · next hn =>
          obtain ⟨x', hx', hkx⟩ := hpool k c hk
          cases hx.symm.trans hx'
          exact absurd ⟨hkx, hk⟩ hn
      · obtain ⟨x', hx', hkx⟩ := hpool k d ((other k d e).mp hk)
        exact ⟨x', by rw [hctrl, if_neg e]; exact hx', hkx⟩

end

end Sys2Proof.Machine
end

section
/-! PROOFS. The mapping invariant (R158): the live mappings of a controller are those its sequencer owes, through all of
a controller's work, its changes of power state, its creation and its end. -/

namespace Sys2Proof.Machine

/-- Unmapping is owed in a sub-transfer only. -/
def Seq.OwesInSubTransfer (q : Seq) : Prop := q.weMappedTx = true ∨ q.weMappedRx = true → q.InSubTransfer

theorem Seq.OwesInSubTransfer.flags {q : Seq} (h : q.OwesInSubTransfer) (hq : ¬ q.InSubTransfer) :
    q.weMappedTx = false ∧ q.weMappedRx = false :=
  ⟨Bool.eq_false_iff.mpr fun e => hq (h (.inl e)), Bool.eq_false_iff.mpr fun e => hq (h (.inr e))⟩

theorem Seq.OwesInSubTransfer.of_flags {q : Seq} (htx : q.weMappedTx = false) (hrx : q.weMappedRx = false) :
    q.OwesInSubTransfer := fun e => by simp [htx, hrx] at e

theorem Seq.OwesAs.owesInSubTransfer {q q' : Seq} (h : q.OwesAs q') (hq : q.OwesInSubTransfer) :
    q'.OwesInSubTransfer := by
  intro e
  rw [h.weMappedTx, h.weMappedRx] at e
  rcases h.ends (hq e) with h' | ⟨htx, hrx⟩
  · exact h'
  · simp [htx, hrx] at e

theorem Ctrl.Move.owesAs {x y : Ctrl} (h : x.Move y) : x.seq.OwesAs y.seq := by
  cases h with
  | arm r t deadline h => exact ⟨rfl, rfl, rfl, rfl, fun e => .inl ⟨e.1, .inr (.inl rfl)⟩⟩
  | proceed q h ho => exact ho
  | start i w h hw =>
    simp only [Ctrl.startEnabled, Bool.and_eq_true, decide_eq_true_eq] at h
    exact ⟨rfl, rfl, rfl, rfl, fun e => by simp [Seq.InSubTransfer, h.1.1.1] at e⟩
  | finish ms tg now h => exact ⟨rfl, rfl, rfl, rfl, fun e => absurd e.1 h⟩
  | _ => exact ⟨rfl, rfl, rfl, rfl, .inl⟩

/-- The view's controller stands under its own id, and owes what is mapped for it, in a sub-transfer only. -/
def View.MapsRight (v : View) : Prop := v.c.id = v.key ∧ v.MapsOwed ∧ v.c.seq.OwesInSubTransfer

section
variable {b : Bool} {C : Byte → Prop} {i : Instr} {s u : State} {v w : View}

theorem View.MapsOwed.of_owesAs {st : State} {x y : Ctrl} {k : Byte} (h : x.seq.OwesAs y.seq) (hid : y.id = x.id)
    (hv : View.MapsOwed ⟨st, k, x⟩) : View.MapsOwed ⟨st, k, y⟩ :=
  (View.MapsKept.of_eq (v := ⟨st, k, x⟩) (w := ⟨st, k, y⟩) rfl hid
    h.weMappedTx h.weMappedRx h.mapTx h.mapRx).owed hv

theorem Ctrl.Moves.mapsRight {st : State} {x y : Ctrl} {k : Byte} (h : x.Moves y)
    (hv : View.MapsRight ⟨st, k, x⟩) : View.MapsRight ⟨st, k, y⟩ := by
  induction h with
  | refl => exact hv
  | tail _ hm ih =>
    obtain ⟨hid, howed, hsub⟩ := ih
    exact ⟨hm.sameUnit.1.id.trans hid, .of_owesAs hm.owesAs hm.sameUnit.1.id howed,
      hm.owesAs.owesInSubTransfer hsub⟩

/-- One piece of a controller's work keeps its mappings right, and leaves those of the other controllers alone. -/
theorem View.Move.mapsRight (h : View.Move b v w) (hv : v.MapsRight) :
    w.MapsRight ∧ ∀ e dir, e ≠ v.key → w.st.mappedAt e dir = v.st.mappedAt e dir := by
  obtain ⟨hid, howed, hsub⟩ := hv
  cases h with
  | work w key st c =>
    have same (e : Byte) (dir : MapDir) := State.mappedAt_congr st.maps e dir
    obtain ⟨hid', howed', hsub'⟩ := c.mapsRight (st := v.st) (k := v.key) ⟨hid, howed, hsub⟩
    exact ⟨⟨hid'.trans key.symm, ⟨(same _ _).trans howed'.1, (same _ _).trans howed'.2⟩, hsub'⟩,
      fun e dir _ => same e dir⟩
  | unmapOwed h =>
    have frame := View.SeqOnly.unmapOwed v
    have kept := View.MapsKept.unmapOwed v
    refine ⟨⟨frame.id_eq.trans (hid.trans frame.key.symm), kept.owed howed, ?_⟩,
      fun e dir he => kept.others e dir (hid ▸ he)⟩
    rw [View.unmapOwed_c]
    exact .of_flags rfl rfl
  | dMap t hs h ht =>
    obtain ⟨hst, hp⟩ := (v.c.inPhase_iff _).mp h
    obtain ⟨htx, hrx⟩ := hsub.flags (by simp [Seq.InSubTransfer, hp])
    have frame := View.SeqOnly.dMap v t
    have kept := View.MapsKept.dMap v t htx hrx
    refine ⟨⟨frame.id_eq.trans (hid.trans frame.key.symm), kept.owed howed, ?_⟩,
      fun e dir he => kept.others e dir (hid ▸ he)⟩
    rcases (v.dMap_ends t).2 with ⟨-, -, hflags⟩ | ⟨hq, hp'⟩
    · exact .of_flags (hflags htx hrx).1 (hflags htx hrx).2
    · exact fun _ => ⟨hq.trans hst, .inl hp'⟩

theorem View.Moves.mapsRight (h : v.Moves b w) (hv : v.MapsRight) :
    w.MapsRight ∧ ∀ e dir, e ≠ v.key → w.st.mappedAt e dir = v.st.mappedAt e dir := by
  induction h with
  | refl => exact ⟨hv, fun _ _ _ => rfl⟩
  | tail hms hm ih =>
    obtain ⟨hw, hothers⟩ := hm.mapsRight ih.1
    exact ⟨hw, fun e dir he => (hothers e dir ((View.Moves.frame hms).key.symm ▸ he)).trans (ih.2 e dir he)⟩

theorem State.mapsRight_iff (s : State) : s.mapsRight ↔
    (∀ c, s.ctrlAt c = none → ∀ dir, s.mappedAt c dir = []) ∧
    (∀ c x, s.ctrlAt c = some x → View.MapsRight ⟨s, c, x⟩) := by
  constructor
  · rintro ⟨hnone, hsome⟩
    refine ⟨fun c hc dir => ?_, fun c x hx => ?_⟩
    · cases dir
      · exact (hnone c hc).1
      · exact (hnone c hc).2
    · obtain ⟨rfl, htx, hrx, hsub⟩ := hsome c x hx
      exact ⟨rfl, ⟨htx, hrx⟩, hsub⟩
  · rintro ⟨hnone, hsome⟩
    refine ⟨fun c hc => ⟨hnone c hc _, hnone c hc _⟩, fun c x hx => ?_⟩
    obtain ⟨hid, ⟨htx, hrx⟩, hsub⟩ := hsome c x hx
    dsimp only at hid htx hrx
    rw [hid] at htx hrx
    exact ⟨hid, htx, hrx, hsub⟩

theorem View.MapsRight.congr {st st' : State} {x : Ctrl} {k : Byte}
    (h : ∀ dir, st'.mappedAt k dir = st.mappedAt k dir) (hv : View.MapsRight ⟨st, k, x⟩) :
    View.MapsRight ⟨st', k, x⟩ := by
  obtain ⟨hid, ⟨htx, hrx⟩, hsub⟩ := hv
  dsimp only at hid htx hrx
  exact ⟨hid, ⟨by dsimp only; rw [hid, h, ← hid]; exact htx, by dsimp only; rw [hid, h, ← hid]; exact hrx⟩,
    hsub⟩

/-- The state stays right where one controller's own mappings are, and no other's change. -/
theorem State.mapsRight_update {c : Byte} (hs : s.mapsRight)
    (hu : ∀ d, c ≠ d → u.ctrlAt d = s.ctrlAt d) (ho : ∀ d dir, c ≠ d → u.mappedAt d dir = s.mappedAt d dir)
    (hnone : u.ctrlAt c = none → ∀ dir, u.mappedAt c dir = [])
    (hsome : ∀ y, u.ctrlAt c = some y → View.MapsRight ⟨u, c, y⟩) : u.mapsRight := by
  rw [State.mapsRight_iff] at hs ⊢
  refine ⟨fun d hd => ?_, fun d y hy => ?_⟩
  · by_cases e : c = d
    · subst e
      exact hnone hd
    · rw [hu d e] at hd
      exact fun dir => (ho d dir e).trans (hs.1 d hd dir)
  · by_cases e : c = d
    · subst e
      exact hsome y hy
    · rw [hu d e] at hy
      exact (hs.2 d y hy).congr fun dir => ho d dir e

theorem State.mapsRight_keeps (h : s.Keeps b u) (hs : s.mapsRight) : u.mapsRight := by
  rw [State.mapsRight_iff] at hs ⊢
  have same (d : Byte) (dir : MapDir) := State.mappedAt_congr h.maps d dir
  refine ⟨fun d hd dir => ?_, fun d y hy => ?_⟩
  · rw [State.ctrlAt_congr h.ctrl] at hd
    exact (same d dir).trans (hs.1 d hd dir)
  · rw [State.ctrlAt_congr h.ctrl] at hy
    exact (hs.2 d y hy).congr (same d)

theorem State.mapsRight_commit {c : Byte} (hs : s.mapsRight) (hkey : w.key = c)
    (hctrl : w.st.ctrl = s.ctrl) (hw : w.MapsRight)
    (ho : ∀ d dir, d ≠ c → w.st.mappedAt d dir = s.mappedAt d dir) : w.commit.mapsRight := by
  subst hkey
  have hc := View.commit_ctrlAt_of_ctrl (w := w) hctrl
  refine State.mapsRight_update (c := w.key) hs (fun d e => by rw [hc, if_neg e])
    (fun d dir e => ho d dir (Ne.symm e)) (fun e => ?_) fun y hy => ?_
  · rw [hc, if_pos rfl] at e
    cases e
  · rw [hc, if_pos rfl] at hy
    cases hy
    exact hw.congr (st' := w.commit) fun _ => rfl

theorem State.Works.mapsRight (h : s.Works b C u) (hs : s.mapsRight) : u.mapsRight := by
  induction h with
  | refl => exact hs
  | tail _ hc ih =>
    cases hc with
    | keep u h => exact State.mapsRight_keeps h ih
    | work c x w hC hx h =>
      obtain ⟨hw, ho⟩ := h.mapsRight (((State.mapsRight_iff _).mp ih).2 c x hx)
      exact State.mapsRight_commit ih h.frame.key h.frame.ctrl hw ho

/-- A change of power state maps nothing: the sequencer is left alone, or, at rest and owing nothing, renewed. -/
theorem View.PowerMove.mapsRight (h : View.PowerMove i v w) (hv : v.MapsRight) : w.MapsRight := by
  have frame := h.frame
  have config := h.sameConfig
  have of_seq (hq : v.c.seq.OwesAs w.c.seq) : w.MapsRight := by
    obtain ⟨hid, howed, hsub⟩ := hv
    exact ⟨config.id.trans (hid.trans frame.key.symm),
      (View.MapsKept.of_eq frame.maps config.id hq.weMappedTx hq.weMappedRx hq.mapTx hq.mapRx).owed howed,
      hq.owesInSubTransfer hsub⟩
  cases h with
  | acquire _ h hf => exact of_seq ⟨rfl, rfl, rfl, rfl, .inl⟩
  | idle _ hp hq hs => exact of_seq ⟨rfl, rfl, rfl, rfl, .inl⟩
  | suspend _ h =>
    refine of_seq ?_
    rw [View.suspendFinish_c]
    exact ⟨rfl, rfl, rfl, rfl, .inl⟩
  | resume _ h =>
    have hq : v.resume.c.seq = v.resumeHw.c.seq := by rw [View.resume_c]
    by_cases hidle : v.c.seq.state = .idle
    · obtain ⟨hid, ⟨howtx, howrx⟩, hsub⟩ := hv
      obtain ⟨htx, hrx⟩ := hsub.flags (Seq.not_inSubTransfer_of_state (by simp [hidle]))
      have flags : v.resume.c.seq.weMappedTx = false ∧ v.resume.c.seq.weMappedRx = false := by
        rw [hq]
        rcases v.resumeHw_spec.2.1 with e | e <;> rw [e]
        · exact ⟨htx, hrx⟩
        · unfold Seq.renewed
          split
          · exact ⟨rfl, rfl⟩
          · exact ⟨htx, hrx⟩
      have same (d : Byte) (dir : MapDir) := State.mappedAt_congr frame.maps d dir
      refine ⟨config.id.trans (hid.trans frame.key.symm), ⟨?_, ?_⟩, .of_flags flags.1 flags.2⟩
      · simp [config.id, same, howtx, htx, flags.1]
      · simp [config.id, same, howrx, hrx, flags.2]
    · refine of_seq ?_
      rw [hq, v.resumeHw_seq.2.2 hidle]
      exact ⟨rfl, rfl, rfl, rfl, .inl⟩

theorem Effect.mapsRight (hs : s.mapsRight) (h : Effect i s u) : u.mapsRight := by
  cases h with
  | works u h => exact h.mapsRight hs
  | power c x w st hx h hst =>
    have same (d : Byte) (dir : MapDir) : st.mappedAt d dir = s.mappedAt d dir :=
      State.mappedAt_congr (hst.maps.trans h.frame.maps) d dir
    refine State.mapsRight_commit (w := { w with st := st }) hs h.frame.key (hst.ctrl.trans h.frame.ctrl) ?_
      fun d dir _ => same d dir
    exact (h.mapsRight (((State.mapsRight_iff _).mp hs).2 c x hx)).congr
      fun dir => State.mappedAt_congr hst.maps _ dir
  | created c a hi hx hd =>
    have none := ((State.mapsRight_iff _).mp hs).1 c hx
    refine State.mapsRight_update (c := c) hs (fun d e => by rw [State.newDone_ctrlAt, if_neg e]) (fun _ _ _ => rfl)
      (fun _ => none) fun y hy => ?_
    rw [State.newDone_ctrlAt, if_pos rfl] at hy
    cases hy
    exact ⟨rfl, ⟨none _, none _⟩, .of_flags rfl rfl⟩
  | destroyed c x hi hx hb =>
    obtain ⟨hctrl, hmaps, -, -⟩ := s.destroyDone_spec c x
    have same (d : Byte) (dir : MapDir) := State.mappedAt_congr hmaps d dir
    obtain ⟨hid, ⟨htx, hrx⟩, hsub⟩ := ((State.mapsRight_iff _).mp hs).2 c x hx
    dsimp only at hid htx hrx hsub
    simp only [Ctrl.destroyBusy, Bool.or_eq_false_iff, Bool.not_eq_false', Ctrl.inState_iff] at hb
    obtain ⟨ht, hr⟩ := hsub.flags (Seq.not_inSubTransfer_of_state (by simp [hb.1.1.1]))
    refine State.mapsRight_update (c := c) hs (fun d e => by rw [hctrl, if_neg e]) (fun d dir _ => same d dir)
      (fun _ dir => ?_) fun y hy => ?_
    · rw [same, ← hid]
      cases dir
      · simpa [ht] using htx
      · simpa [hr] using hrx
    · rw [hctrl, if_pos rfl] at hy
      cases hy

end

end Sys2Proof.Machine
end

section
/-! PROOFS. Frames: which controllers an instruction changes and what of each (R11, R12, R91, R115), and which bytes of
memory (R42, R48, R52). -/

namespace Sys2Proof.Machine

section
variable {i : Instr} {s u : State} {v w : View}

/-! ### Controllers (R11, R12, R91) -/

/-- A controller that stands before and after an instruction keeps its configuration and its power state, or makes the
one change of power state that the instruction is for. -/
theorem Effect.unit {d : Byte} {x y : Ctrl} (h : Effect i s u) (hx : s.ctrlAt d = some x) (hy : u.ctrlAt d = some y) :
    x.SameUnit y ∨ ∃ w, View.PowerMove i ⟨s, d, x⟩ w ∧ y = w.c := by
  have same (e : u.ctrlAt d = s.ctrlAt d) : x.SameUnit y := by
    cases hx.symm.trans (e.symm.trans hy)
    exact .refl x
  cases h with
  | works u h =>
    have hd := h.sameUnit d
    rw [hx, hy] at hd
    cases hd with
    | some h => exact .inl h
  | power c z w st hz h hst =>
    have hu := View.commit_ctrlAt_of_ctrl (w := { w with st := st }) (s := s) (hst.ctrl.trans h.frame.ctrl) d
    by_cases e : c = d
    · subst e
      cases hx.symm.trans hz
      rw [if_pos h.frame.key, hy] at hu
      cases hu
      exact .inr ⟨w, h, rfl⟩
    · exact .inl (same (hu.trans (if_neg fun e' => e (h.frame.key.symm.trans e'))))
  | created c a hi hn hd =>
    refine .inl (same ?_)
    rw [State.newDone_ctrlAt, if_neg]
    rintro rfl
    rw [hx] at hn
    cases hn
  | destroyed c z hi hz hb =>
    have hu := (s.destroyDone_spec c z).1 d
    refine .inl (same (hu.trans (if_neg fun e => ?_)))
    rw [if_pos e, hy] at hu
    cases hu

theorem View.PowerMove.target (h : View.PowerMove i v w) (s : State) : target s i = some v.key := by
  cases h <;> rfl

/-- An instruction leaves every controller but those it may work on. -/
theorem Effect.ctrlAt_other (h : Effect i s u) (d : Byte) (hd : ¬ touches s i d) : u.ctrlAt d = s.ctrlAt d := by
  cases h with
  | works u h => exact h.ctrlAt_other d hd
  | power c x w st hx h hst =>
    rw [View.commit_ctrlAt_of_ctrl (w := { w with st := st }) (hst.ctrl.trans h.frame.ctrl), if_neg]
    rintro rfl
    exact hd (.inl (by rw [h.frame.key]; exact h.target s))
  | created c a hi hx hd' =>
    rw [State.newDone_ctrlAt, if_neg]
    rintro rfl
    exact hd (.inl (hi ▸ rfl))
  | destroyed c x hi hx hb =>
    rw [(s.destroyDone_spec c x).1, if_neg]
    rintro rfl
    exact hd (.inl (hi ▸ rfl))

/-- In a state whose leases and clocks are right, XFER_DMA's channels work for its own controller (R162). -/
theorem target_of_touches {d : Byte} (ht : touches s i d)
    (h : (∀ c, i ≠ .xferDma c) ∨ s.leasesRight ∧ s.clocksRight) : target s i = some d := by
  rcases ht with ht | ⟨e, x, hi, hx, hs, hl⟩
  · exact ht
  · rcases h with h | ⟨hleases, hclocks⟩
    · exact absurd hi (h e)
    · have hp : x.pstate = .active := (hclocks e x hx).2.1 (by simp [hs])
      obtain ⟨-, -, hrx, htx, hrp, htp⟩ := hleases.1 e x hx
      have hd : d = e := by
        rcases hl with hl | hl
        · exact Option.some.inj (hl.symm.trans (htx.mp (htp.mpr hp)))
        · exact Option.some.inj (hl.symm.trans (hrx.mp (hrp.mpr hp)))
      rw [hi, hd]
      rfl

/-- Where the clocks run only in ACTIVE, a change of power state that ends with them gated keeps the native output's
level, but for a resume (R91). -/
theorem View.PowerMove.nss (h : View.PowerMove i v w) (hclk : v.c.clkOn = true ↔ v.c.pstate = .active)
    (hoff : w.c.clkOn = false) (hi : ∀ f, i ≠ .onResume f v.key) : w.c.nss = v.c.nss := by
  have running (hp : v.c.pstate = .active) : v.c.nss = v.c.hw.nss := if_pos (hclk.mpr hp)
  have gated : w.c.nss = w.c.nssHeld := by simp [Ctrl.nss, hoff]
  cases h with
  | acquire _ h hf => cases hoff
  | idle _ hp hq hs => exact (running hp).symm
  | suspend _ h =>
    rw [gated]
    by_cases hp : v.c.pstate = .active
    · rw [running hp]
      exact (v.suspendFinish_spec.1 hp).2.1
    · have hoff' : ¬ v.c.clkOn = true := fun e => hp (hclk.mp e)
      rw [(v.suspendFinish_spec.2 hp).2.1]
      exact (if_neg hoff').symm
  | resume _ h => exact absurd rfl (hi .exact)

theorem Ctrl.SamePower.nss {x y : Ctrl} (h : x.SamePower y) (hoff : y.clkOn = false) : y.nss = x.nss := by
  simp [Ctrl.nss, ← h.clkOn, hoff, h.nssHeld]

/-! ### Memory (R42, R48, R52) -/

/-- An instruction that may not store leaves memory as it was. -/
theorem Effect.mem (h : Effect i s u) (hi : mayStore i = false) : u.mem = s.mem := by
  cases h with
  | works u h => exact State.Works.mem (hi ▸ h)
  | power c x w st hx h hst => exact (hst.mem rfl).trans h.frame.mem
  | created c a hi hx hd => rfl
  | destroyed c x hi hx hb => exact (s.destroyDone_spec c x).2.2.1

/-- The address is outside the Transfer's receive buffer. -/
def SparesRx (t : Transfer) (a : Word) : Prop :=
  t.rxPresent = false ∨ a.toNat < t.rx.toNat ∨ t.rx.toNat + t.len.toNat ≤ a.toNat

/-- A failure that gives up no more bytes than the Transfer has changes none outside its receive buffer (R52 item 3). -/
theorem View.read_fail {t : Transfer} {k : ErrKind} {n : Nat} {a : Word} (ht : v.c.transfer = some t)
    (hn : n ≤ t.len.toNat) (hfit : t.rxPresent = true → t.rx.toNat + t.len.toNat ≤ 2 ^ 32) (ha : SparesRx t a) :
    Memory.read (v.fail k n).st.mem a = Memory.read v.st.mem a := by
  show Memory.read (v.forgetRx n).st.mem a = _
  unfold View.forgetRx
  rw [ht]
  dsimp only
  split
  · next hrx =>
    have := hfit hrx
    refine State.read_forget_outside n t.rx a v.st (by omega) ?_
    rcases ha with ha | ha | ha
    · simp [hrx] at ha
    · exact .inl ha
    · exact .inr (by omega)
  · rfl

section
variable {t : Transfer} {a : Word}

theorem View.read_mapRxThen (ht : v.c.transfer = some t) (hn : v.c.seq.off ≤ t.len.toNat)
    (hfit : t.rxPresent = true → t.rx.toNat + t.len.toNat ≤ 2 ^ 32) (ha : SparesRx t a) :
    Memory.read (v.mapRxThen t).st.mem a = Memory.read v.st.mem a := by
  have asked : v.st.mapAsked.mem = v.st.mem := by rw [State.mapAsked_eq]
  rcases v.mapRxThen_cases t with h | ⟨d, h⟩ | h
  · rw [h, View.read_fail (t := t) ?_ hn hfit ha, View.unmapOwed_st]
    · rw [asked]
    · exact (View.SeqOnly.unmapOwed { v with st := v.st.mapAsked }).transfer.trans ht
  · rw [h]
    exact congrArg (Memory.read · a) asked
  · rw [h]
    rfl

theorem View.read_dMap (ht : v.c.transfer = some t) (hn : v.c.seq.off ≤ t.len.toNat)
    (hfit : t.rxPresent = true → t.rx.toNat + t.len.toNat ≤ 2 ^ 32) (ha : SparesRx t a) :
    Memory.read (v.dMap t).st.mem a = Memory.read v.st.mem a := by
  have asked : (v.chunked t).st.mapAsked.mem = v.st.mem := by rw [State.mapAsked_eq]; rfl
  rcases v.dMap_cases t with h | h | ⟨d, h⟩ | h
  · rw [h]
    rfl
  · rw [h]
    exact (View.read_fail (v := { v.chunked t with st := v.st.mapAsked }) ht hn hfit ha).trans
      (congrArg (Memory.read · a) asked)
  · rw [h]
    exact (View.read_mapRxThen (v := (v.chunked t).mappedTx t d) ht hn hfit ha).trans
      (congrArg (Memory.read · a) asked)
  · rw [h]
    exact View.read_mapRxThen (v := v.chunked t) ht hn hfit ha

theorem View.read_dEpilog (ht : v.c.transfer = some t) (hn : v.c.seq.off + v.c.seq.chunk ≤ t.len.toNat)
    (hfit : t.rxPresent = true → t.rx.toNat + t.len.toNat ≤ 2 ^ 32) (ha : SparesRx t a) :
    Memory.read (v.dEpilog t).st.mem a = Memory.read v.st.mem a := by
  have mem : ((v.onHw Hw.dEpilog).unmapOwed).checkStatus.st.mem = v.st.mem := by
    rw [View.checkStatus_st, View.unmapOwed_st]
    rfl
  unfold View.dEpilog
  dsimp only
  split
  · rw [View.read_fail (t := t) ?_ hn hfit ha, mem]
    exact (Ctrl.transfer_congr (View.checkStatus_seq _)).trans ((View.SeqOnly.unmapOwed _).transfer.trans ht)
  · split
    · exact congrArg (Memory.read · a) mem
    · exact congrArg (Memory.read · a) mem

theorem View.read_dmaGiveUp (ht : v.c.transfer = some t) (hn : v.c.seq.off + v.c.seq.chunk ≤ t.len.toNat)
    (hfit : t.rxPresent = true → t.rx.toNat + t.len.toNat ≤ 2 ^ 32) (ha : SparesRx t a) :
    Memory.read v.dmaGiveUp.st.mem a = Memory.read v.st.mem a := by
  have mem : (v.dmaAbort.unmapOwed).checkStatus.st.mem = v.st.mem := by
    rw [View.checkStatus_st, View.unmapOwed_st, View.dmaAbort_st]
  have moved : v.rxMoved ≤ t.len.toNat := by
    unfold View.rxMoved
    omega
  have transfer : (v.dmaAbort.unmapOwed).checkStatus.c.transfer = some t :=
    (Ctrl.transfer_congr (View.checkStatus_seq _)).trans ((View.SeqOnly.unmapOwed _).transfer.trans ht)
  unfold View.dmaGiveUp
  dsimp only
  split
  · rw [View.read_fail transfer moved hfit ha, mem]
  · rw [View.read_fail transfer moved hfit ha, mem]

end

/-- Every byte outside the Transfer's receive buffer reads as before. -/
def State.SparesAll (t : Transfer) (s u : State) : Prop :=
  ∀ a, SparesRx t a → Memory.read u.mem a = Memory.read s.mem a

section
variable {c : Byte} {x : Ctrl} {t : Transfer}

theorem execDMap_spares (hx : s.ctrlAt c = some x) (ht : x.transfer = some t) (hn : x.seq.off ≤ t.len.toNat)
    (hfit : t.rxPresent = true → t.rx.toNat + t.len.toNat ≤ 2 ^ 32) : Ends (s.SparesAll t) (execDMap c s) :=
  .withTransfer (fun _ _ => rfl) fun x' t' hx' _ ht' => by
    cases hx.symm.trans hx'
    cases ht.symm.trans ht'
    exact .next fun a ha => View.read_dMap (v := ⟨s, c, x⟩) ht hn hfit ha

theorem execDWait_spares (hx : s.ctrlAt c = some x) (ht : x.transfer = some t)
    (hn : x.seq.off + x.seq.chunk ≤ t.len.toNat)
    (hfit : t.rxPresent = true → t.rx.toNat + t.len.toNat ≤ 2 ^ 32) : Ends (s.SparesAll t) (execDWait c s) :=
  .withTransfer (fun _ _ => rfl) fun x' t' hx' _ ht' => by
    cases hx.symm.trans hx'
    cases ht.symm.trans ht'
    exact .ite
      (fun _ => .ite (fun _ => .clocked (.next fun a ha => View.read_dEpilog (v := ⟨s, c, x⟩) ht hn hfit ha))
        fun _ => .next fun _ _ => rfl)
      fun _ => .ite (fun _ => .clocked (.next fun a ha => View.read_dmaGiveUp (v := ⟨s, c, x⟩) ht hn hfit ha))
        fun _ => .next fun _ _ => rfl

theorem execDTxdrain_spares (hx : s.ctrlAt c = some x) (ht : x.transfer = some t)
    (hn : x.seq.off + x.seq.chunk ≤ t.len.toNat)
    (hfit : t.rxPresent = true → t.rx.toNat + t.len.toNat ≤ 2 ^ 32) : Ends (s.SparesAll t) (execDTxdrain c s) :=
  .withTransfer (fun _ _ => rfl) fun x' t' hx' _ ht' => by
    cases hx.symm.trans hx'
    cases ht.symm.trans ht'
    refine .clocked (.next fun a ha => ?_)
    unfold View.dTxdrain
    split
    · exact View.read_dEpilog (v := ⟨s, c, x⟩) ht hn hfit ha
    · split
      · exact View.read_dmaGiveUp (v := ⟨s, c, x⟩) ht hn hfit ha
      · rfl

end

/-! ### A caller's own stores (R10, R52 item 4; log entry 19) -/

theorem transferBorrows_iff (t : Transfer) (a : Word) : transferBorrows t a = true ↔
    t.txPresent = true ∧ t.tx.toNat ≤ a.toNat ∧ a.toNat < t.tx.toNat + t.len.toNat ∨
    t.rxPresent = true ∧ t.rx.toNat ≤ a.toNat ∧ a.toNat < t.rx.toNat + t.len.toNat := by
  simp [transferBorrows, and_assoc]

theorem State.borrowed_iff (s : State) (a : Word) : s.borrowed a = true ↔ ∃ p ∈ s.ctrl,
    (∃ w ∈ p.2.waitq, ∃ t ∈ w.msg, transferBorrows t a = true) ∨
    (p.2.owner ≠ none ∧ ∃ t ∈ p.2.seq.msg, transferBorrows t a = true) := by
  simp only [State.borrowed, Ctrl.borrows, List.any_eq_true, Bool.or_eq_true, Bool.and_eq_true,
    Option.isSome_iff_ne_none]

theorem step_callerWrite (s : State) (a : Word) (v : Byte) (rest : List Input)
    (h : s.inbox = .callerWrite a v :: rest) : step s = .next (({ s with inbox := rest } : State).callerWrite a v) := by
  simp [step, State.fetch, h]

theorem State.callerWrite_borrowed (s : State) (a : Word) (v : Byte) (h : s.borrowed a = true) :
    s.callerWrite a v = s := if_pos h

theorem State.callerWrite_free (s : State) (a : Word) (v : Byte) (h : ¬ s.borrowed a = true) :
    s.callerWrite a v = { s with mem := Memory.write s.mem a v } := if_neg h

end

end Sys2Proof.Machine
end

section
/-! PROOFS. The obligations on the step and on the invariants of R38. -/

namespace Sys2Proof.Machine

theorem step_encoded (s : State) (e : Encoded) (rest : List Input) (i : Instr)
    (h : s.inbox = .encoded e :: rest) (hd : decode e = .ok i) : step s = exec i { s with inbox := rest } := by
  simp [step, State.fetch, h, hd]

theorem decode_of_decodeTableWord {nbits w : Nat} {i : Instr} (h : decodeTableWord nbits w = some i) :
    decode (encodedOfTableWord nbits w) = .ok i := by
  unfold decodeTableWord at h
  split at h
  · next hd =>
    cases h
    exact hd
  · cases h

theorem State.serviceRight_iff (s : State) : s.serviceRight ↔ s.AllCtrl Ctrl.ServiceRight := by
  unfold State.serviceRight State.AllCtrl Ctrl.ServiceRight Ctrl.TransferFits Seq.InSubTransfer
  simp only [and_imp]

end Sys2Proof.Machine

open Sys2Proof Sys2Proof.Machine

/-! ### The step -/

/-- Settles O4: the head of the schedule is taken off, decoded and run; `withFetchWord` puts the table word there. -/
theorem stepRunsDecodedInstruction : Obligations.StepRunsDecodedInstruction := by
  unfold Obligations.StepRunsDecodedInstruction
  exact ⟨step_encoded, fun s _ _ i h => step_encoded (s.schedule _) _ s.inbox i rfl (decode_of_decodeTableWord h)⟩

/-! ### The invariants -/

/-- Settles O58: no register access or FIFO operation passes a capacity. -/
theorem fifoBoundKept : Obligations.FifoBoundKept := by
  unfold Obligations.FifoBoundKept
  exact fits_invariant.step

/-- Settles O59: each of the seven is kept by every change a controller can make, and the mappings also by every change
of the live mappings. -/
theorem controlInvariantKept : Obligations.ControlInvariantKept := by
  unfold Obligations.ControlInvariantKept
  refine ⟨owner_invariant.step, clocks_invariant.step, fun s u hs h c x b hx => ?_, busy_invariant.step,
    step_keeps (fun _ _ _ hs h => h.mapsRight hs) fun _ _ hk hs => State.mapsRight_keeps hk hs,
    fun s u hs h => ?_, rest_invariant.step⟩
  · exact holder_invariant.step s u (fun c x hx b => hs c x b hx) h c x hx b
  · rw [State.serviceRight_iff] at hs ⊢
    exact service_invariant.step s u hs h

/-- Settles O60: every instruction but ACQ_ATTEMPT, ON_IDLE, SUSPEND_FINISH and DESTROY leaves the leases, and those
change the leases of one controller's two channels with its lease bits. -/
theorem leaseInvariantKept : Obligations.LeaseInvariantKept := by
  unfold Obligations.LeaseInvariantKept
  refine step_keeps (fun _ _ _ hs h => h.leasesRight hs) fun s u hk hs => ?_
  refine State.leasesRight_of_same hk.lessee (fun d => ?_) hs
  rw [State.ctrlAt_congr hk.ctrl d]
  cases s.ctrlAt d
  · exact .none
  · exact .some ⟨rfl, rfl, rfl, rfl, rfl, .rfl⟩

/-! ### Frames -/

/-- Settles O55: a controller's work changes none of these registers and no other controller, and each change of power
state is one controller's own. -/
theorem controllersChangeOnlyAsNamed : Obligations.ControllersChangeOnlyAsNamed := by
  unfold Obligations.ControllersChangeOnlyAsNamed
  refine ⟨fun i s u c x y h hx hy => ?_, fun i s u d h hl hd => ?_, fun i s u c x y hs h hx hy hoff hi => ?_⟩
  · have config : x.SameConfig y := by
      rcases (exec_effect i s u h).unit hx hy with h | ⟨w, hw, rfl⟩
      · exact h.1
      · exact hw.sameConfig
    exact ⟨config.id, config.base, config.srcClk, config.fifoDepth, config.half, config.dmaRx, config.dmaTx,
      config.needsReinit, config.autosuspendMs, config.swapByte⟩
  · exact (exec_effect i s u h).ctrlAt_other d fun ht => hd (target_of_touches ht hl)
  · rcases (exec_effect i s u h).unit hx hy with h | ⟨w, hw, rfl⟩
    · exact h.2.nss hoff
    · exact hw.nss (hs c x hx).1 hoff fun f => hi f

/-- Settles O56: only the steps that store reach memory; those that fail a DMA Transfer give up bytes of its receive
buffer alone; a caller's store is dropped exactly inside a borrowed buffer. -/
theorem memoryFrame : Obligations.MemoryFrame := by
  unfold Obligations.MemoryFrame
  refine ⟨fun i s u h hi a => by rw [(exec_effect i s u h).mem hi], ?_, fun s a v rest h => ?_⟩
  · intro i s u c x t hx ht hstep h hfit a ha
    rcases hstep with ⟨rfl, hn⟩ | ⟨rfl | rfl, hn⟩
    · exact execDMap_spares hx ht hn hfit u h a ha
    · exact execDWait_spares hx ht hn hfit u h a ha
    · exact execDTxdrain_spares hx ht hn hfit u h a ha
  · have hlent := State.borrowed_iff { s with inbox := rest } a
    simp only [transferBorrows_iff] at hlent
    refine ⟨_, step_callerWrite s a v rest h, ?_, fun lent => ?_, fun free b => ?_⟩
    · unfold State.callerWrite
      split <;> rfl
    · rw [State.callerWrite_borrowed _ _ _ (hlent.mpr lent)]
    · rw [State.callerWrite_free _ _ _ fun e => free (hlent.mp e)]
      simp only [Memory.read_write, eq_comm (a := a)]

end

section
/-! PROOFS. The canonical form of memory (log entry 6) through every step: the instructions that may not store leave
memory as it was, and each of the seven that may builds its memory from stores, which keep the form. -/

namespace Sys2Proof.Machine

/-! ### The views that store -/

section
variable {v w : View} {t : Transfer}

theorem State.memoryForm_of_mem {s u : State} (hm : u.mem = s.mem) (h : s.memoryForm) : u.memoryForm := by
  rwa [State.memoryForm, hm]

theorem View.memoryForm_readRx (n : Nat) (h : v.st.memoryForm) : (v.readRx n).2.st.memoryForm :=
  State.memoryForm_of_mem (by rw [View.readRx_st]) h

theorem View.memoryForm_drainWords (wb k : Nat) (a : Word) (h : v.st.memoryForm) :
    (View.drainWords wb k a v).st.memoryForm := by
  induction k generalizing a v with
  | zero => exact h
  | succ k ih => exact ih _ (Memory.wf_memWrite _ _ _ _ (View.memoryForm_readRx wb h))

theorem View.memoryForm_checkStatus (h : v.st.memoryForm) : v.checkStatus.st.memoryForm :=
  State.memoryForm_of_mem (by rw [View.checkStatus_st]) h

theorem View.memoryForm_validateStatus (n : Nat) (h : v.st.memoryForm) : (v.validateStatus t n).st.memoryForm := by
  unfold View.validateStatus
  dsimp only
  split
  · exact View.wf_fail _ _ _ (View.memoryForm_checkStatus h)
  · exact View.memoryForm_checkStatus h

theorem View.memoryForm_pDrain (h : v.st.memoryForm) : (v.pDrain t).st.memoryForm := by
  refine View.memoryForm_validateStatus _ ?_
  show (if t.rxPresent then View.drainWords v.c.wb (t.len.toNat / v.c.wb) t.rx v else v).st.memoryForm
  split
  · exact View.memoryForm_drainWords _ _ _ h
  · exact h

theorem View.memoryForm_mapRxThen (h : v.st.memoryForm) : (v.mapRxThen t).st.memoryForm := by
  have asked : v.st.mapAsked.memoryForm := State.memoryForm_of_mem (by rw [State.mapAsked_eq]) h
  rcases v.mapRxThen_cases t with e | ⟨d, e⟩ | e <;> rw [e]
  · exact View.wf_fail _ _ _ (State.memoryForm_of_mem (by rw [View.unmapOwed_st]) asked)
  · exact asked
  · exact h

theorem View.memoryForm_dMap (h : v.st.memoryForm) : (v.dMap t).st.memoryForm := by
  have asked : v.st.mapAsked.memoryForm := State.memoryForm_of_mem (by rw [State.mapAsked_eq]) h
  rcases v.dMap_cases t with e | e | ⟨d, e⟩ | e <;> rw [e]
  · exact h
  · exact View.wf_fail _ _ _ asked
  · exact View.memoryForm_mapRxThen (v := (v.chunked t).mappedTx t d) asked
  · exact View.memoryForm_mapRxThen (v := v.chunked t) h

theorem View.memoryForm_dEpilog (h : v.st.memoryForm) : (v.dEpilog t).st.memoryForm := by
  have checked : ((v.onHw Hw.dEpilog).unmapOwed).checkStatus.st.memoryForm :=
    View.memoryForm_checkStatus (State.memoryForm_of_mem (by rw [View.unmapOwed_st]; rfl) h)
  unfold View.dEpilog
  dsimp only
  split
  · exact View.wf_fail _ _ _ checked
  · split
    · exact checked
    · exact checked

theorem View.memoryForm_dmaGiveUp (h : v.st.memoryForm) : v.dmaGiveUp.st.memoryForm := by
  have checked : (v.dmaAbort.unmapOwed).checkStatus.st.memoryForm :=
    View.memoryForm_checkStatus (State.memoryForm_of_mem (by rw [View.unmapOwed_st, View.dmaAbort_st]) h)
  unfold View.dmaGiveUp
  dsimp only
  split
  · exact View.wf_fail _ _ _ checked
  · exact View.wf_fail _ _ _ checked

theorem View.memoryForm_rxBeats {wb n : Nat} {a : Word} (hb : View.rxBeats wb n a v = some w) (h : v.st.memoryForm) :
    w.st.memoryForm := by
  induction n generalizing a v with
  | zero =>
    cases hb
    exact h
  | succ n ih =>
    simp only [View.rxBeats] at hb
    split at hb
    · cases hb
    · next v1 hw =>
      obtain ⟨-, -, -, wf⟩ := View.devWrite_some _ _ _ _ hw
      exact ih hb (wf (View.memoryForm_readRx wb h))

end

/-! ### The instructions -/

/-- From a memory in canonical form the meaning ends in one. -/
def KeepsForm (f : State → Out) : Prop := ∀ s, s.memoryForm → Ends State.memoryForm (f s)

section
variable {c : Byte}

theorem exec_keepsForm_of_not_mayStore {i : Instr} (hi : mayStore i = false) : KeepsForm (exec i) :=
  fun s h u hu => State.memoryForm_of_mem ((exec_effect i s u hu).mem hi) h

theorem execPDrain_keepsForm : KeepsForm (execPDrain c) := fun _ h =>
  .withTransfer h fun _ _ _ _ _ => .clocked (.next (View.memoryForm_pDrain h))

theorem execDMap_keepsForm : KeepsForm (execDMap c) := fun _ h =>
  .withTransfer h fun _ _ _ _ _ => .next (View.memoryForm_dMap h)

theorem execDWait_keepsForm : KeepsForm (execDWait c) := fun _ h =>
  .withTransfer h fun _ _ _ _ _ => .ite
    (fun _ => .ite (fun _ => .clocked (.next (View.memoryForm_dEpilog h))) fun _ => .next h)
    fun _ => .ite (fun _ => .clocked (.next (View.memoryForm_dmaGiveUp h))) fun _ => .next h

theorem execDTxdrain_keepsForm : KeepsForm (execDTxdrain c) := fun _ h =>
  .withTransfer h fun _ _ _ _ _ => .clocked (.next (by
    unfold View.dTxdrain
    split
    · exact View.memoryForm_dEpilog h
    · split
      · exact View.memoryForm_dmaGiveUp h
      · exact h))

theorem execDmaRxBeat_keepsForm {k : Byte} : KeepsForm (execDmaRxBeat k) := fun _ h =>
  .withLessee h fun _ _ _ _ => .ite
    (fun _ => by
      split
      · nofun
      · next v1 hb =>
        have h1 : v1.st.memoryForm := View.memoryForm_rxBeats hb h
        exact .next h1)
    fun _ => .next h

/-! ### Composites (R136, R160; log entry 25) -/

theorem shiftWords_keepsForm (n : Nat) : KeepsForm (shiftWords c n) := by
  induction n with
  | zero => exact fun _ h => .next h
  | succ n ih =>
    exact fun s h => .andThen (exec_keepsForm_of_not_mayStore (i := .shLoad c) rfl s h) fun s1 h1 =>
      .andThen (exec_keepsForm_of_not_mayStore (i := .shDone c) rfl s1 h1) ih

theorem lookUntilDeadline_keepsForm {p : Phase} {look : State → Out} (hl : KeepsForm look) :
    KeepsForm (lookUntilDeadline c p look) := fun s h =>
  .andThen (hl s h) fun s1 h1 => hl _ (State.memoryForm_of_mem (by rw [State.untilDeadline_eq]) h1)

theorem execXferPoll_keepsForm : KeepsForm (execXferPoll c) := fun s h =>
  .withCtrl h fun _ _ => .ite
    (fun _ => .andThen (exec_keepsForm_of_not_mayStore (i := .pArm c) rfl s h) fun s1 h1 =>
      .andThen (shiftWords_keepsForm _ s1 h1) fun s2 h2 =>
      .andThen (lookUntilDeadline_keepsForm (exec_keepsForm_of_not_mayStore (i := .pPoll c) rfl) s2 h2)
        execPDrain_keepsForm)
    fun _ => .next h

variable {kt kr : Byte}

theorem moveWords_keepsForm (n : Nat) : KeepsForm (moveWords c kt kr n) := by
  induction n with
  | zero => exact fun _ h => .next h
  | succ n ih =>
    exact fun s h => .andThen (exec_keepsForm_of_not_mayStore (i := .dmaTxBeat kt) rfl s h) fun s1 h1 =>
      .andThen (exec_keepsForm_of_not_mayStore (i := .shLoad c) rfl s1 h1) fun s2 h2 =>
      .andThen (exec_keepsForm_of_not_mayStore (i := .shDone c) rfl s2 h2) fun s3 h3 =>
      .andThen (execDmaRxBeat_keepsForm s3 h3) ih

theorem armedSubTransfer_keepsForm : KeepsForm (armedSubTransfer c kt kr) := fun s h =>
  .andThen (exec_keepsForm_of_not_mayStore (i := .dArm c) rfl s h) fun s1 h1 =>
  .andThen (moveWords_keepsForm _ s1 h1) fun s2 h2 =>
  .andThen (exec_keepsForm_of_not_mayStore (i := .dmaTxDone kt) rfl s2 h2) fun s3 h3 =>
  .andThen (exec_keepsForm_of_not_mayStore (i := .dmaRxDone kr) rfl s3 h3) fun s4 h4 =>
  .andThen (lookUntilDeadline_keepsForm execDWait_keepsForm s4 h4)
    (lookUntilDeadline_keepsForm execDTxdrain_keepsForm)

theorem subTransfer_keepsForm : KeepsForm (subTransfer c kt kr) := fun s h =>
  .andThen (execDMap_keepsForm s h) fun s1 h1 => .whileTransporting h1 (armedSubTransfer_keepsForm s1 h1)

theorem subTransfers_keepsForm (n : Nat) : KeepsForm (subTransfers c kt kr n) := by
  induction n with
  | zero => exact fun _ h => .next h
  | succ n ih =>
    exact fun s h => .andThen (subTransfer_keepsForm s h) fun s1 h1 => .whileTransporting h1 (ih s1 h1)

theorem execXferDma_keepsForm : KeepsForm (execXferDma c) := fun s h =>
  .withTransfer h fun _ _ _ _ _ => subTransfers_keepsForm _ s h

end

theorem exec_keepsForm (i : Instr) : KeepsForm (exec i) := by
  cases hi : mayStore i with
  | false => exact exec_keepsForm_of_not_mayStore hi
  | true =>
    cases i with
    | pDrain c => exact execPDrain_keepsForm
    | dMap c => exact execDMap_keepsForm
    | dWait c => exact execDWait_keepsForm
    | dTxdrain c => exact execDTxdrain_keepsForm
    | dmaRxBeat k => exact execDmaRxBeat_keepsForm
    | xferPoll c => exact execXferPoll_keepsForm
    | xferDma c => exact execXferDma_keepsForm
    | _ => cases hi

/-! ### The step -/

theorem State.answerUndecoded_keepsForm (d : DecodeError) : KeepsForm fun s => s.answerUndecoded d := by
  intro s h
  cases d with
  | unknownOpcode => exact .next h
  | emptyPacket => exact .next h
  | unknownTag | stepOperandLength | stepOperandReserved => nofun

theorem step_keepsForm : KeepsForm step := by
  intro s h
  unfold step State.fetch
  cases s.inbox with
  | nil => exact .next h
  | cons e rest =>
    have h0 : ({ s with inbox := rest } : State).memoryForm := h
    cases e with
    | callerWrite a v => exact .next (State.wf_callerWrite _ a v h0)
    | encoded e =>
      cases hd : decode e with
      | ok i => simpa only [hd] using exec_keepsForm i _ h0
      | error d => simpa only [hd] using State.answerUndecoded_keepsForm d _ h0

end Sys2Proof.Machine

open Sys2Proof Sys2Proof.Machine

/-- Settles O57: whatever a step stores, it stores by `Memory.write`, which keeps the form. -/
theorem memoryFormKept : Obligations.MemoryFormKept := by
  unfold Obligations.MemoryFormKept
  exact fun s u h hu => step_keepsForm s h u hu

end

section
/-! PROOFS. Words in memory (R44): what a read at any offset of a store returns, and that a word's low bytes, put
together again, are its low bits. -/

namespace Sys2Proof.Machine

/-! ### Words and bytes -/

theorem leNat_leBytesNat (n v : Nat) : leNat (leBytesNat n v) = v % 256 ^ n := by
  induction n generalizing v with
  | zero => simp [leBytesNat, leNat, Nat.mod_one]
  | succ n ih =>
    calc leNat (leBytesNat (n + 1) v)
        = v % 256 + 256 * (v / 256 % 256 ^ n) := by rw [leBytesNat, leNat, ih, BitVec.toNat_ofNat]
      _ = v % 256 ^ (n + 1) := by rw [Nat.pow_succ', Nat.mod_mul]

theorem toNat_leWord_leBytes (n : Nat) (v : Word) : (leWord (leBytes n v)).toNat = v.toNat % 2 ^ (8 * n) := by
  have hlt : v.toNat % 256 ^ n < 2 ^ 32 := Nat.lt_of_le_of_lt (Nat.mod_le _ _) v.isLt
  rw [leWord, leBytes, leNat_leBytesNat, BitVec.toNat_ofNat, Nat.mod_eq_of_lt hlt, Nat.pow_mul]

theorem getElem_leBytesNat (n v i : Nat) (h : i < (leBytesNat n v).length) :
    (leBytesNat n v)[i] = BitVec.ofNat 8 (v >>> (8 * i)) := by
  induction n generalizing v i with
  | zero => exact absurd h (Nat.not_lt_zero i)
  | succ n ih =>
    cases i with
    | zero => rfl
    | succ i =>
      have hshift : v >>> (8 * (i + 1)) = (v / 256) >>> (8 * i) := by
        rw [Nat.mul_succ, Nat.add_comm, Nat.shiftRight_add, Nat.shiftRight_eq_div_pow v 8]
      rw [hshift]
      exact ih _ _ _

theorem getElem_leBytes (n : Nat) (v : Word) (i : Nat) (h : i < (leBytes n v).length) :
    (leBytes n v)[i] = v.extractLsb' (8 * i) 8 := getElem_leBytesNat n v.toNat i h

/-! ### Stores and reads by address -/

theorem addr_add_succ (a : Word) (i : Nat) : a + BitVec.ofNat 32 (i + 1) = a + 1 + BitVec.ofNat 32 i := by
  rw [Nat.add_comm i 1, BitVec.ofNat_add, ← BitVec.add_assoc]
  rfl

theorem Memory.getElem_readBytes (m : List Host.Cell) (n : Nat) (a : Word) (i : Nat)
    (h : i < (Memory.readBytes m n a).length) :
    (Memory.readBytes m n a)[i] = Memory.read m (a + BitVec.ofNat 32 i) := by
  induction n generalizing a i with
  | zero => exact absurd h (Nat.not_lt_zero i)
  | succ n ih =>
    cases i with
    | zero => simp [Memory.readBytes]
    | succ i =>
      rw [addr_add_succ]
      exact ih _ _ _

/-- A store that does not pass the top puts byte `i` at `a + i` (R44). -/
theorem Memory.read_writeBytes_inside (bs : List Byte) (m : List Host.Cell) (a : Word)
    (ha : a.toNat + bs.length ≤ Config.addrSpace) (i : Nat) (h : i < bs.length) :
    Memory.read (Memory.writeBytes m a bs) (a + BitVec.ofNat 32 i) = bs[i] := by
  induction bs generalizing m a i with
  | nil => exact absurd h (Nat.not_lt_zero i)
  | cons b bs ih =>
    rw [List.length_cons] at ha h
    have nowrap (hpos : 0 < bs.length) : (a + 1).toNat = a.toNat + 1 :=
      BitVec.toNat_add_of_lt (show a.toNat + 1 < Config.addrSpace by omega)
    cases i with
    | zero =>
      cases bs with
      | nil => simp [Memory.writeBytes]
      | cons b' bs =>
        have ha1 := nowrap (Nat.succ_pos _)
        have spared : Memory.read (Memory.writeBytes m a (b :: b' :: bs)) a = Memory.read (Memory.write m a b) a :=
          Memory.read_writeBytes_outside (b' :: bs) _ (a + 1) a (by omega) (.inl (by omega))
        simpa using spared
    | succ i =>
      have ha1 := nowrap (by omega)
      rw [addr_add_succ]
      exact ih (Memory.write m a b) (a + 1) (by omega) i (by omega)

/-- What was stored is read back (R44). -/
theorem Memory.readBytes_writeBytes (bs : List Byte) (m : List Host.Cell) (a : Word)
    (ha : a.toNat + bs.length ≤ Config.addrSpace) :
    Memory.readBytes (Memory.writeBytes m a bs) bs.length a = bs :=
  List.ext_getElem (Memory.length_readBytes _ _ _) fun i _ h => by
    rw [Memory.getElem_readBytes, Memory.read_writeBytes_inside bs m a ha i h]

end Sys2Proof.Machine

open Sys2Proof Sys2Proof.Machine

/-- Settles O9: the bytes of a word are read back one by one, no other byte changes, and together they are the word's
low bits. -/
theorem memoryIsLittleEndian : Obligations.MemoryIsLittleEndian := by
  unfold Obligations.MemoryIsLittleEndian
  intro m a n v _ ha
  have hlen : (leBytes n v).length = n := length_leBytes n v
  have htop : a.toNat + (leBytes n v).length ≤ Config.addrSpace := by rwa [hlen]
  refine ⟨fun i hi => ?_, fun b hb => ?_, ?_⟩
  · have hi' : i < (leBytes n v).length := by rwa [hlen]
    exact (Memory.read_writeBytes_inside _ m a htop i hi').trans (getElem_leBytes n v i hi')
  · exact Memory.read_writeBytes_outside _ m a b htop (by rwa [hlen])
  · have back := Memory.readBytes_writeBytes (leBytes n v) m a htop
    rw [hlen] at back
    rw [memRead, memWrite, back, toNat_leWord_leBytes]

end

section
/-! PROOFS. Fields of a word (R61 to R67): a word is the union of its consecutive fields, so a word whose must-be-zero
fields are zero is the union of the others; and what the encoder puts outside a field leaves it zero. -/

namespace Sys2Proof

/-! ### A word as the union of its fields -/

/-- The fields of `x` from bit `lo` upward, of the widths listed, put where they stand. -/
def fieldsOf {v : Nat} (x : BitVec v) : Nat → List Nat → Word
  | _, [] => 0#32
  | lo, n :: ns => put lo (x.extractLsb' lo n) ||| fieldsOf x (lo + n) ns

theorem getLsbD_fieldsOf {v : Nat} (x : BitVec v) (lo : Nat) (ns : List Nat) (i : Nat) :
    (fieldsOf x lo ns).getLsbD i =
      (decide (i < 32) && decide (lo ≤ i) && decide (i < lo + ns.sum) && x.getLsbD i) := by
  induction ns generalizing lo with
  | nil =>
    simp only [fieldsOf, BitVec.getLsbD_zero, List.sum_nil]
    grind
  | cons n ns ih =>
    simp only [fieldsOf, BitVec.getLsbD_or, getLsbD_put, BitVec.getLsbD_extractLsb', ih, List.sum_cons]
    grind

/-- Fields that cover all the bits give the value back. -/
theorem fieldsOf_all {v : Nat} (x : BitVec v) (ns : List Nat) (h : ns.sum = v) : fieldsOf x 0 ns = x.setWidth 32 := by
  refine BitVec.eq_of_getLsbD_eq fun i hi => ?_
  have hx : v ≤ i → x.getLsbD i = false := BitVec.getLsbD_of_ge x i
  rw [getLsbD_fieldsOf, BitVec.getLsbD_setWidth, h]
  grind

theorem fieldsOf_word (w : Word) (ns : List Nat) (h : ns.sum = 32) : fieldsOf w 0 ns = w := by
  rw [fieldsOf_all w ns h, BitVec.setWidth_eq]

theorem putBit_getLsbD {v : Nat} (x : BitVec v) (k : Nat) : putBit k (x.getLsbD k) = put k (x.extractLsb' k 1) := by
  refine BitVec.eq_of_getLsbD_eq fun i _ => ?_
  rw [getLsbD_putBit, getLsbD_put, BitVec.getLsbD_extractLsb']
  grind

theorem put_zero (lo n : Nat) : put lo (0 : BitVec n) = 0#32 := by simp [put]

theorem put_at_zero {n : Nat} (v : BitVec n) : put 0 v = v.setWidth 32 := BitVec.shiftLeft_zero _

/-! ### Fields that are zero -/

theorem extractLsb'_put_outside {m : Nat} (lo : Nat) (v : BitVec m) (k n : Nat) (h : k + n ≤ lo ∨ lo + m ≤ k) :
    (put lo v).extractLsb' k n = 0 := by
  refine BitVec.eq_of_getLsbD_eq fun i hi => ?_
  have hv : m ≤ k + i - lo → v.getLsbD (k + i - lo) = false := BitVec.getLsbD_of_ge v _
  rw [BitVec.getLsbD_extractLsb', getLsbD_put]
  grind

theorem extractLsb'_putBit_outside (lo : Nat) (b : Bool) (k n : Nat) (h : k + n ≤ lo ∨ lo + 1 ≤ k) :
    (putBit lo b).extractLsb' k n = 0 := extractLsb'_put_outside lo _ k n h

/-- A mask of ones over a field picks the field. -/
theorem and_put_allOnes_eq_zero (x : Word) (k n : Nat) :
    x &&& put k (BitVec.allOnes n) = 0 ↔ x.extractLsb' k n = 0 := by
  constructor <;> intro hz <;> refine BitVec.eq_of_getLsbD_eq fun i hi => ?_
  · have hbit := congrArg (fun y : Word => y.getLsbD (k + i)) hz
    simp only [BitVec.getLsbD_and, getLsbD_put, BitVec.getLsbD_allOnes] at hbit
    rw [BitVec.getLsbD_extractLsb']
    grind
  · have hbit := congrArg (fun y : BitVec n => y.getLsbD (i - k)) hz
    simp only [BitVec.getLsbD_extractLsb'] at hbit
    simp only [BitVec.getLsbD_and, getLsbD_put, BitVec.getLsbD_allOnes]
    grind

theorem extractLsb'_one_eq_zero (x : Word) (k : Nat) : x.extractLsb' k 1 = 0 ↔ x.getLsbD k = false := by
  constructor
  · intro h
    have hbit := congrArg (fun y : BitVec 1 => y.getLsbD 0) h
    simpa [BitVec.getLsbD_extractLsb'] using hbit
  · intro h
    refine BitVec.eq_of_getLsbD_eq fun i hi => ?_
    obtain rfl : i = 0 := by omega
    simpa [BitVec.getLsbD_extractLsb'] using h

end Sys2Proof
end

section
/-! PROOFS. The layouts of R61 to R65 in both directions: what the encoder writes has its must-be-zero fields zero, and
words with those fields zero are what the encoder writes for the operands the decoder reads from them. -/

namespace Sys2Proof

/-! ### Packet words by number -/

@[simp] theorem wordAt_zero (w : Word) (ws : List Word) : wordAt (w :: ws) 0 = w := rfl

theorem wordAt_drop (ws : List Word) (m k : Nat) : wordAt (ws.drop m) k = wordAt ws (m + k) := by
  simp only [wordAt, List.getD_eq_getElem?_getD, List.getElem?_drop]

/-- The first `n` words of a packet. -/
def firstWords (n : Nat) (ws : List Word) : List Word := (List.range n).map (wordAt ws)

theorem firstWords_of_length {n : Nat} {ws : List Word} (h : ws.length = n) : firstWords n ws = ws := by
  subst h
  refine List.ext_getElem (by simp [firstWords]) fun i _ hi => ?_
  simp only [firstWords, List.getElem_map, List.getElem_range, wordAt, List.getD_eq_getElem _ _ hi]

theorem firstWords_add (m n : Nat) (ws : List Word) :
    firstWords (m + n) ws = firstWords m ws ++ firstWords n (ws.drop m) := by
  simp only [firstWords, List.range_add, List.map_append, List.map_map]
  exact congrArg _ (List.map_congr_left fun k _ => (wordAt_drop ws m k).symm)

/-! ### Headers (R61) -/

@[simp] theorem hdrOp_header (op c b n : Byte) : hdrOp (header op c b n) = op := (header_fields op c b n).1
@[simp] theorem hdrC_header (op c b n : Byte) : hdrC (header op c b n) = c := (header_fields op c b n).2.1
@[simp] theorem hdrB_header (op c b n : Byte) : hdrB (header op c b n) = b := (header_fields op c b n).2.2.1
@[simp] theorem hdrN_header (op c b n : Byte) : hdrN (header op c b n) = n := (header_fields op c b n).2.2.2

theorem or_reverse (x y z w : Word) : x ||| y ||| z ||| w = w ||| (z ||| (y ||| x)) := by
  rw [BitVec.or_comm _ w, BitVec.or_comm _ z, BitVec.or_comm x y]

theorem header_of_fields (w : Word) : header (hdrOp w) (hdrC w) (hdrB w) (hdrN w) = w := by
  have hall := fieldsOf_word w [8, 8, 8, 8] rfl
  simp only [fieldsOf, BitVec.or_zero, Nat.reduceAdd] at hall
  exact (or_reverse _ _ _ _).trans hall

theorem header_of_op {w : Word} {op : Byte} (h : hdrOp w = op) : header op (hdrC w) (hdrB w) (hdrN w) = w :=
  h ▸ header_of_fields w

theorem header_of_op_zero {w : Word} {op : Byte} (h : hdrOp w = op) (hb : hdrB w = 0) (hn : hdrN w = 0) :
    header op (hdrC w) 0 0 = w := by
  have hw := header_of_op h
  rwa [hb, hn] at hw

/-! ### Must-be-zero fields -/

theorem plainMbzZero_iff (ws : List Word) :
    plainMbzZero ws = true ↔ hdrB (wordAt ws 0) = 0 ∧ hdrN (wordAt ws 0) = 0 := by
  simp only [plainMbzZero, Bool.and_eq_true, decide_eq_true_eq]

theorem newMbzZero_iff (ws : List Word) : newMbzZero ws = true ↔
    (hdrB (wordAt ws 0) = 0 ∧ hdrN (wordAt ws 0) = 0) ∧
    (wordAt ws 3).extractLsb' 9 7 = 0 ∧ (wordAt ws 3).extractLsb' 18 14 = 0 := by
  simp only [newMbzZero, Bool.and_eq_true, decide_eq_true_eq, and_assoc]

theorem bindMbzZero_iff (ws : List Word) : bindMbzZero ws = true ↔
    hdrN (wordAt ws 0) = 0 ∧
    ((wordAt ws 2).extractLsb' 3 5 = 0 ∧ (wordAt ws 2).extractLsb' 14 18 = 0) ∧
    (wordAt ws 3).extractLsb' 15 17 = 0 ∧ (bindArgsOf ws).lineOk = true := by
  simp only [bindMbzZero, Bool.and_eq_true, decide_eq_true_eq, and_assoc]

theorem transferMbzZero_iff (ws : List Word) : transferMbzZero ws = true ↔
    ((wordAt ws 4).extractLsb' 6 2 = 0 ∧ (wordAt ws 4).extractLsb' 12 4 = 0) ∧ wordAt ws 7 = 0 := by
  simp only [transferMbzZero, Bool.and_eq_true, decide_eq_true_eq]

/-! ### Must-be-zero fields of what the encoder writes -/

theorem plainMbzZero_header (op c : Byte) (ws : List Word) : plainMbzZero (header op c 0 0 :: ws) = true := by
  simp [plainMbzZero, wordAt]

theorem newMbzZero_encodeNew (c : Byte) (a : NewArgs) : newMbzZero (header 1 c 0 0 :: encodeNew a) = true := by
  simp [newMbzZero, encodeNew, wordAt, BitVec.extractLsb'_or, extractLsb'_put_outside, extractLsb'_putBit_outside]

theorem bindMbzZero_encodeBind (c b : Byte) (a : BindArgs) (h : a.lineOk = true) :
    bindMbzZero (header 3 c b 0 :: encodeBind a) = true := by
  rw [bindMbzZero, bindArgsOf_encodeBind, h]
  simp [encodeBind, wordAt, BitVec.extractLsb'_or, extractLsb'_put_outside, extractLsb'_putBit_outside]

theorem transferMbzZero_encodeTransfer (t : Transfer) (ws : List Word) :
    transferMbzZero (encodeTransfer t ++ ws) = true := by
  simp [transferMbzZero, encodeTransfer, wordAt, BitVec.extractLsb'_or, extractLsb'_put_outside,
    extractLsb'_putBit_outside]

theorem transfersMbzZero_encodeTransfers (ts : List Transfer) :
    transfersMbzZero ts.length (encodeTransfers ts) = true := by
  induction ts with
  | nil => rfl
  | cons t ts ih =>
    rw [List.length_cons, encodeTransfers, transfersMbzZero, transferMbzZero_encodeTransfer]
    exact ih

theorem transfersOf_encodeTransfers (ts : List Transfer) : transfersOf ts.length (encodeTransfers ts) = ts := by
  induction ts with
  | nil => rfl
  | cons t ts ih =>
    rw [List.length_cons, encodeTransfers, transfersOf, transferOf_encodeTransfer]
    exact congrArg (t :: ·) ih

theorem length_transfersOf (n : Nat) (ws : List Word) : (transfersOf n ws).length = n := by
  induction n generalizing ws with
  | zero => rfl
  | succ n ih => simp [transfersOf, ih]

/-! ### Words whose must-be-zero fields are zero are what the encoder writes for their operands -/

theorem encodeNew_newArgsOf (ws : List Word) (h : newMbzZero ws = true) :
    encodeNew (newArgsOf ws) = [wordAt ws 1, wordAt ws 2, wordAt ws 3, wordAt ws 4] := by
  obtain ⟨-, low, high⟩ := (newMbzZero_iff ws).mp h
  have hall3 := fieldsOf_word (wordAt ws 3) [9, 7, 1, 1, 14] rfl
  have hall4 := fieldsOf_word (wordAt ws 4) [8, 8, 16] rfl
  simp only [fieldsOf, low, high, put_zero, BitVec.zero_or, BitVec.or_zero, Nat.reduceAdd] at hall3 hall4
  simp only [encodeNew, newArgsOf, putBit_getLsbD, BitVec.or_assoc, hall3, hall4]

theorem bit_csModeOf (b : Bool) : (if b then CsMode.manual else CsMode.auto).bit = b := by cases b <;> rfl

theorem encodeBind_bindArgsOf (ws : List Word) (h : bindMbzZero ws = true) :
    encodeBind (bindArgsOf ws) = [wordAt ws 1, wordAt ws 2, wordAt ws 3] := by
  obtain ⟨-, ⟨low, mid⟩, high, -⟩ := (bindMbzZero_iff ws).mp h
  have hall2 := fieldsOf_word (wordAt ws 2) [1, 1, 1, 5, 6, 18] rfl
  have hall3 := fieldsOf_word (wordAt ws 3) [1, 8, 1, 1, 2, 1, 1, 17] rfl
  simp only [fieldsOf, low, mid, high, put_zero, BitVec.zero_or, BitVec.or_zero, Nat.reduceAdd] at hall2 hall3
  simp only [encodeBind, bindArgsOf, bit_csModeOf, putBit_getLsbD, BitVec.or_assoc, hall2, hall3]

theorem encodeTransfer_transferOf (ws : List Word) (h : transferMbzZero ws = true) :
    encodeTransfer (transferOf ws) = firstWords 8 ws := by
  obtain ⟨⟨low, mid⟩, last⟩ := (transferMbzZero_iff ws).mp h
  have hall := fieldsOf_word (wordAt ws 4) [6, 2, 1, 1, 1, 1, 4, 16] rfl
  simp only [fieldsOf, low, mid, put_zero, BitVec.zero_or, BitVec.or_zero, Nat.reduceAdd] at hall
  simp only [encodeTransfer, transferOf, putBit_getLsbD, BitVec.or_assoc, hall]
  rw [← BitVec.ofNat_eq_ofNat, ← last]
  rfl

theorem encodeTransfers_transfersOf (n : Nat) (ws : List Word) (h : transfersMbzZero n ws = true) :
    encodeTransfers (transfersOf n ws) = firstWords (8 * n) ws := by
  induction n generalizing ws with
  | zero => rfl
  | succ n ih =>
    rw [transfersMbzZero, Bool.and_eq_true] at h
    rw [transfersOf, encodeTransfers, encodeTransfer_transferOf ws h.1, ih _ h.2, Nat.mul_succ, Nat.add_comm,
      firstWords_add]

end Sys2Proof
end

section
/-! PROOFS. The decoder and the encoder against each other (R60 to R67, R72): the packets by their opcode, then the
steps by their tag (log entry 4). -/

namespace Sys2Proof

/-! ### The command of a header -/

theorem formOf_eq_exact_iff {z : Bool} {len implied : Nat} :
    formOf z len implied = .exact ↔ z = true ∧ len = implied := by
  unfold formOf
  cases z
  · simp
  · by_cases h : len = implied <;> simp [h]

theorem PacketForm.isExact_iff (f : PacketForm) : f.isExact = true ↔ f = .exact := by cases f <;> decide

section
variable {w : Word} {ws : List Word}

theorem commandOf_new (h : hdrOp w = 1) :
    commandOf w ws = .ok (.new (formOf (newMbzZero ws) ws.length 5) (hdrC w) (newArgsOf ws)) := by
  simp [commandOf, impliedLength, h]

theorem commandOf_bind (h : hdrOp w = 3) :
    commandOf w ws = .ok (.bind (formOf (bindMbzZero ws) ws.length 4) (hdrC w) (hdrB w) (bindArgsOf ws)) := by
  simp [commandOf, impliedLength, h]

theorem commandOf_submit (h : hdrOp w = 4) : commandOf w ws =
    .ok (.submit (formOf (transfersMbzZero (hdrN w).toNat (ws.drop 1)) ws.length (1 + 8 * (hdrN w).toNat)) (hdrC w)
      (hdrB w) (transfersOf (hdrN w).toNat (ws.drop 1))) := by
  simp [commandOf, impliedLength, h]

theorem commandOf_reserved (h : (hdrOp w).toNat = 0 ∨ 10 ≤ (hdrOp w).toNat) :
    commandOf w ws = .error .unknownOpcode := by
  unfold commandOf
  split
  case h_10 => rfl
  all_goals omega

end

/-- The command looks at its packet's form before anything else (R70, R73); its response has `n` speed words. -/
def Instr.ChecksForm (i : Instr) (f : PacketForm) (n : Nat) : Prop :=
  ∀ s, ∃ k, Machine.exec i s = Machine.State.checkForm s f n k

/-- The opcode `op` is that of the command `mk`, whose packet is its header (R63, R66, R67). -/
structure IsOneWord (op : Byte) (mk : PacketForm → Byte → Instr) : Prop where
  bodyless : op ≠ 1 ∧ op ≠ 3 ∧ op ≠ 4
  command : ∀ w ws, hdrOp w = op → commandOf w ws = .ok (mk (formOf (plainMbzZero ws) ws.length 1) (hdrC w))
  encoding : ∀ f c, encode (mk f c) = .packet [header op c 0 0]
  wellFormed : ∀ f c, (mk f c).wellFormed = f.isExact
  checksForm : ∀ f c, (mk f c).ChecksForm f 0

theorem isOneWord_destroy : IsOneWord 2 .destroy :=
  ⟨by decide, fun w ws h => by simp [commandOf, impliedLength, h], fun _ _ => rfl, fun _ _ => rfl,
    fun _ _ _ => ⟨_, rfl⟩⟩

theorem isOneWord_onSuspend : IsOneWord 5 .onSuspend :=
  ⟨by decide, fun w ws h => by simp [commandOf, impliedLength, h], fun _ _ => rfl, fun _ _ => rfl,
    fun _ _ _ => ⟨_, rfl⟩⟩

theorem isOneWord_onResume : IsOneWord 6 .onResume :=
  ⟨by decide, fun w ws h => by simp [commandOf, impliedLength, h], fun _ _ => rfl, fun _ _ => rfl,
    fun _ _ _ => ⟨_, rfl⟩⟩

theorem isOneWord_onIdle : IsOneWord 7 .onIdle :=
  ⟨by decide, fun w ws h => by simp [commandOf, impliedLength, h], fun _ _ => rfl, fun _ _ => rfl,
    fun _ _ _ => ⟨_, rfl⟩⟩

theorem isOneWord_onActive : IsOneWord 8 .onActive :=
  ⟨by decide, fun w ws h => by simp [commandOf, impliedLength, h], fun _ _ => rfl, fun _ _ => rfl,
    fun _ _ _ => ⟨_, rfl⟩⟩

theorem isOneWord_flush : IsOneWord 9 .flush :=
  ⟨by decide, fun w ws h => by simp [commandOf, impliedLength, h], fun _ _ => rfl, fun _ _ => rfl,
    fun _ _ _ => ⟨_, rfl⟩⟩

/-- Every opcode is reserved, that of a command with a body, or that of a one-word command (R61, R70). -/
theorem opcode_cases (op : Byte) :
    (op.toNat = 0 ∨ 10 ≤ op.toNat) ∨ op = 1 ∨ op = 3 ∨ op = 4 ∨ ∃ mk, IsOneWord op mk := by
  by_cases hres : op.toNat = 0 ∨ 10 ≤ op.toNat
  · exact .inl hres
  have hlt : op.toNat < 10 := by omega
  have hop : op = BitVec.ofNat 8 op.toNat := by rw [BitVec.ofNat_toNat, BitVec.setWidth_eq]
  refine .inr ?_
  generalize op.toNat = n at hop hres hlt
  subst hop
  interval_cases n
  · exact absurd (.inl rfl) hres
  · exact .inl rfl
  · exact .inr (.inr (.inr ⟨_, isOneWord_destroy⟩))
  · exact .inr (.inl rfl)
  · exact .inr (.inr (.inl rfl))
  · exact .inr (.inr (.inr ⟨_, isOneWord_onSuspend⟩))
  · exact .inr (.inr (.inr ⟨_, isOneWord_onResume⟩))
  · exact .inr (.inr (.inr ⟨_, isOneWord_onIdle⟩))
  · exact .inr (.inr (.inr ⟨_, isOneWord_onActive⟩))
  · exact .inr (.inr (.inr ⟨_, isOneWord_flush⟩))

/-! ### Packets: decoding what the encoder writes -/

section
variable {f : PacketForm}

theorem IsOneWord.decode_encode {op : Byte} {mk : PacketForm → Byte → Instr} (h : IsOneWord op mk) (c : Byte)
    (hf : f.isExact = true) : decode (encode (mk f c)) = .ok (mk f c) := by
  obtain rfl := f.isExact_iff.mp hf
  have hform := formOf_eq_exact_iff.mpr ⟨plainMbzZero_header op c [], Eq.refl 1⟩
  rw [h.encoding]
  calc decode (.packet [header op c 0 0])
      = .ok (mk (formOf (plainMbzZero [header op c 0 0]) 1 1) (hdrC (header op c 0 0))) :=
        h.command _ _ (hdrOp_header op c 0 0)
    _ = .ok (mk .exact c) := by rw [hform, hdrC_header]

theorem decode_encode_new (c : Byte) (a : NewArgs) (hf : f.isExact = true) :
    decode (encode (.new f c a)) = .ok (.new f c a) := by
  obtain rfl := f.isExact_iff.mp hf
  refine (commandOf_new (hdrOp_header 1 c 0 0)).trans ?_
  rw [newMbzZero_encodeNew, hdrC_header, newArgsOf_encodeNew]
  rfl

theorem decode_encode_bind (c b : Byte) (a : BindArgs) (hf : f.isExact = true) (hline : a.lineOk = true) :
    decode (encode (.bind f c b a)) = .ok (.bind f c b a) := by
  obtain rfl := f.isExact_iff.mp hf
  refine (commandOf_bind (hdrOp_header 3 c b 0)).trans ?_
  rw [bindMbzZero_encodeBind c b a hline, hdrC_header, hdrB_header, bindArgsOf_encodeBind]
  rfl

theorem decode_encode_submit (c b : Byte) (ts : List Transfer) (hf : f.isExact = true) (hcount : countOk ts = true) :
    decode (encode (.submit f c b ts)) = .ok (.submit f c b ts) := by
  obtain rfl := f.isExact_iff.mp hf
  simp only [countOk, Bool.and_eq_true, decide_eq_true_eq] at hcount
  have hn : (BitVec.ofNat 8 ts.length).toNat = ts.length := by
    rw [BitVec.toNat_ofNat]
    omega
  have hlen : (header 4 c b (BitVec.ofNat 8 ts.length) :: encodeTransfers ts).length = 1 + 8 * ts.length := by
    rw [List.length_cons, Laws.Layout.length_encodeTransfers, Nat.add_comm]
  refine (commandOf_submit (hdrOp_header 4 c b _)).trans ?_
  rw [hdrN_header, hn, List.drop_one, List.tail_cons,
    formOf_eq_exact_iff.mpr ⟨transfersMbzZero_encodeTransfers ts, hlen⟩, hdrC_header, hdrB_header,
    transfersOf_encodeTransfers]

end

/-! ### Packets: encoding what the decoder reads -/

section
variable {w : Word} {r : List Word} {i : Instr}

theorem IsOneWord.encode_of_command {op : Byte} {mk : PacketForm → Byte → Instr} (hmk : IsOneWord op mk)
    (hop : hdrOp w = op) (h : commandOf w (w :: r) = .ok i) (hi : i.wellFormed = true) :
    encode i = .packet (w :: r) := by
  rw [hmk.command w _ hop] at h
  cases h
  rw [hmk.wellFormed, PacketForm.isExact_iff, formOf_eq_exact_iff, plainMbzZero_iff] at hi
  obtain ⟨⟨hb, hn⟩, hlen⟩ := hi
  rw [hmk.encoding, header_of_op_zero hop hb hn, List.eq_nil_of_length_eq_zero (Nat.succ.inj hlen)]

theorem encode_of_command_new (hop : hdrOp w = 1) (h : commandOf w (w :: r) = .ok i) (hi : i.wellFormed = true) :
    encode i = .packet (w :: r) := by
  rw [commandOf_new hop] at h
  cases h
  obtain ⟨hmbz, hlen⟩ := formOf_eq_exact_iff.mp ((PacketForm.isExact_iff _).mp hi)
  obtain ⟨⟨hb, hn⟩, -⟩ := (newMbzZero_iff _).mp hmbz
  have hw := header_of_op_zero hop hb hn
  calc encode (.new _ (hdrC w) (newArgsOf (w :: r)))
      = .packet (header 1 (hdrC w) 0 0 :: encodeNew (newArgsOf (w :: r))) := rfl
    _ = .packet (firstWords 5 (w :: r)) := by rw [hw, encodeNew_newArgsOf _ hmbz]; rfl
    _ = .packet (w :: r) := by rw [firstWords_of_length hlen]

theorem encode_of_command_bind (hop : hdrOp w = 3) (h : commandOf w (w :: r) = .ok i) (hi : i.wellFormed = true) :
    encode i = .packet (w :: r) := by
  rw [commandOf_bind hop] at h
  cases h
  obtain ⟨hform, -⟩ := Bool.and_eq_true_iff.mp hi
  obtain ⟨hmbz, hlen⟩ := formOf_eq_exact_iff.mp ((PacketForm.isExact_iff _).mp hform)
  obtain ⟨hn, -⟩ := (bindMbzZero_iff _).mp hmbz
  have hw := header_of_op hop
  rw [show hdrN w = 0 from hn] at hw
  calc encode (.bind _ (hdrC w) (hdrB w) (bindArgsOf (w :: r)))
      = .packet (header 3 (hdrC w) (hdrB w) 0 :: encodeBind (bindArgsOf (w :: r))) := rfl
    _ = .packet (firstWords 4 (w :: r)) := by rw [hw, encodeBind_bindArgsOf _ hmbz]; rfl
    _ = .packet (w :: r) := by rw [firstWords_of_length hlen]

theorem encode_of_command_submit (hop : hdrOp w = 4) (h : commandOf w (w :: r) = .ok i) (hi : i.wellFormed = true) :
    encode i = .packet (w :: r) := by
  rw [commandOf_submit hop] at h
  cases h
  obtain ⟨hform, -⟩ := Bool.and_eq_true_iff.mp hi
  obtain ⟨hmbz, hlen⟩ := formOf_eq_exact_iff.mp ((PacketForm.isExact_iff _).mp hform)
  have hcount : BitVec.ofNat 8 (transfersOf (hdrN w).toNat r).length = hdrN w := by
    rw [length_transfersOf, BitVec.ofNat_toNat, BitVec.setWidth_eq]
  have hbody : encodeTransfers (transfersOf (hdrN w).toNat r) = r := by
    rw [encodeTransfers_transfersOf _ r hmbz, firstWords_of_length]
    exact Nat.add_left_cancel ((Nat.add_comm 1 r.length).trans hlen)
  calc encode (.submit _ (hdrC w) (hdrB w) (transfersOf (hdrN w).toNat r))
      = .packet (header 4 (hdrC w) (hdrB w) (BitVec.ofNat 8 (transfersOf (hdrN w).toNat r).length) ::
          encodeTransfers (transfersOf (hdrN w).toNat r)) := rfl
    _ = .packet (w :: r) := by rw [hcount, hbody, header_of_op hop]

theorem encode_of_decodePacket {ws : List Word} (h : decodePacket ws = .ok i) (hi : i.wellFormed = true) :
    encode i = .packet ws := by
  cases ws with
  | nil => cases h
  | cons w r =>
    replace h : commandOf w (w :: r) = .ok i := h
    rcases opcode_cases (hdrOp w) with hop | hop | hop | hop | ⟨mk, hmk⟩
    · rw [commandOf_reserved hop] at h
      cases h
    · exact encode_of_command_new hop h hi
    · exact encode_of_command_bind hop h hi
    · exact encode_of_command_submit hop h hi
    · exact hmk.encode_of_command rfl h hi

end

/-! ### Steps: decoding what the encoder writes (log entry 4) -/

theorem stepPick_natBytes (c : Byte) (p : Nat) : stepPick (c :: natBytes p) = .ok (.seqStart c p) := by simp [stepPick]

theorem stepTick_natBytes (d : Nat) : stepTick (natBytes d) = .ok (.tick d) := by simp [stepTick]

theorem SpiMode.byte_bits (m : SpiMode) : m.byte.extractLsb' 3 5 = 0 ∧
    (⟨m.byte.getLsbD 0, m.byte.getLsbD 1, m.byte.getLsbD 2⟩ : SpiMode) = m := by
  obtain ⟨cpha, cpol, loop⟩ := m
  revert cpha cpol loop
  decide

theorem Conds.nibble_bits (m : Conds) : m.nibble.extractLsb' 4 4 = 0 ∧
    (⟨m.nibble.getLsbD 0, m.nibble.getLsbD 1, m.nibble.getLsbD 2, m.nibble.getLsbD 3⟩ : Conds) = m := by
  obtain ⟨rxo, rxu, txo, txu⟩ := m
  revert rxo rxu txo txu
  decide

/-- A width fills the low six bits of its byte. -/
theorem width_byte_bits (w : BitVec 6) :
    (w.setWidth 8).extractLsb' 6 2 = 0 ∧ (w.setWidth 8).extractLsb' 0 6 = w := by
  revert w
  decide

theorem stepConfigure_encode (c : Byte) (sp : Word) (m : SpiMode) (w : BitVec 6) :
    stepConfigure (c :: bytesOfWord sp ++ [m.byte, w.setWidth 8]) = .ok (.configure c sp m w) := by
  obtain ⟨hm, hmode⟩ := m.byte_bits
  obtain ⟨hw, hwidth⟩ := width_byte_bits w
  calc stepConfigure (c :: bytesOfWord sp ++ [m.byte, w.setWidth 8])
      = .ok (.configure c (wordOfBytes (sp.extractLsb' 0 8) (sp.extractLsb' 8 8) (sp.extractLsb' 16 8)
          (sp.extractLsb' 24 8)) ⟨m.byte.getLsbD 0, m.byte.getLsbD 1, m.byte.getLsbD 2⟩
          ((w.setWidth 8).extractLsb' 0 6)) := if_pos ⟨hm, hw⟩
    _ = .ok (.configure c sp m w) := by rw [wordOfBytes_bytesOfWord, hmode, hwidth]

theorem stepErrInject_nibble (c : Byte) (m : Conds) : stepErrInject [c, m.nibble] = .ok (.errInject c m) := by
  obtain ⟨hreserved, hm⟩ := m.nibble_bits
  exact (if_pos hreserved).trans (by rw [hm])

/-! ### Steps: encoding what the decoder reads (log entry 4) -/

theorem SpiMode.byte_of_bits (m : Byte) (h : m.extractLsb' 3 5 = 0) :
    (⟨m.getLsbD 0, m.getLsbD 1, m.getLsbD 2⟩ : SpiMode).byte = m := by
  have hall := fieldsOf_all m [1, 1, 1, 5] rfl
  simp only [fieldsOf, h, put_zero, BitVec.or_zero, Nat.reduceAdd] at hall
  simp only [SpiMode.byte, putBit_getLsbD, BitVec.or_assoc, hall]
  exact BitVec.setWidth_setWidth_of_le m (by decide)

theorem Conds.nibble_of_bits (m : Byte) (h : m.extractLsb' 4 4 = 0) :
    (⟨m.getLsbD 0, m.getLsbD 1, m.getLsbD 2, m.getLsbD 3⟩ : Conds).nibble = m := by
  have hall := fieldsOf_all m [1, 1, 1, 1, 4] rfl
  simp only [fieldsOf, h, put_zero, BitVec.or_zero, Nat.reduceAdd] at hall
  simp only [Conds.nibble, putBit_getLsbD, BitVec.or_assoc, hall]
  exact BitVec.setWidth_setWidth_of_le m (by decide)

theorem width_of_byte_bits (w : Byte) (h : w.extractLsb' 6 2 = 0) : (w.extractLsb' 0 6).setWidth 8 = w := by
  have hall := fieldsOf_all w [6, 2] rfl
  simp only [fieldsOf, h, put_zero, BitVec.or_zero, Nat.reduceAdd, put_at_zero] at hall
  calc (w.extractLsb' 0 6).setWidth 8
      = ((w.extractLsb' 0 6).setWidth 32).setWidth 8 := (BitVec.setWidth_setWidth_of_le _ (by decide)).symm
    _ = (w.setWidth 32).setWidth 8 := by rw [hall]
    _ = w := BitVec.setWidth_setWidth_of_le w (by decide)

theorem bytesOfWord_wordOfBytes (b0 b1 b2 b3 : Byte) : bytesOfWord (wordOfBytes b0 b1 b2 b3) = [b0, b1, b2, b3] := by
  have hheader : wordOfBytes b0 b1 b2 b3 = header b3 b2 b1 b0 := by
    rw [wordOfBytes, header, or_reverse, BitVec.or_assoc, BitVec.or_assoc]
  calc bytesOfWord (wordOfBytes b0 b1 b2 b3)
      = [hdrN (header b3 b2 b1 b0), hdrB (header b3 b2 b1 b0), hdrC (header b3 b2 b1 b0),
          hdrOp (header b3 b2 b1 b0)] := by rw [hheader]; rfl
    _ = [b0, b1, b2, b3] := by rw [hdrN_header, hdrB_header, hdrC_header, hdrOp_header]

section
variable {i : Instr} {ops : List Byte}

theorem encode_of_stepOne {mk : Byte → Instr} {t : Byte} (hmk : ∀ c, encode (mk c) = .tag [t, c])
    (h : stepOne mk ops = .ok i) : encode i = .tag (t :: ops) := by
  unfold stepOne at h
  split at h
  · cases h
    exact hmk _
  · cases h

theorem encode_of_stepPick (h : stepPick ops = .ok i) : encode i = .tag (0x10 :: ops) := by
  unfold stepPick at h
  split at h
  · cases h
  split at h
  · next c bs hs =>
    cases h
    rw [encode, natBytes_leNat bs hs]
  · cases h

theorem encode_of_stepTick (h : stepTick ops = .ok i) : encode i = .tag (0x39 :: ops) := by
  unfold stepTick at h
  split at h
  · next hs =>
    cases h
    rw [encode, natBytes_leNat ops hs]
  · cases h

theorem encode_of_stepConfigure (h : stepConfigure ops = .ok i) : encode i = .tag (0x20 :: ops) := by
  unfold stepConfigure at h
  split at h
  · split at h
    · next hreserved =>
      obtain ⟨hm, hw⟩ := hreserved
      cases h
      rw [encode, bytesOfWord_wordOfBytes, SpiMode.byte_of_bits _ hm, width_of_byte_bits _ hw]
      rfl
    · cases h
  · cases h

theorem encode_of_stepCsAssert (h : stepCsAssert ops = .ok i) : encode i = .tag (0x21 :: ops) := by
  unfold stepCsAssert at h
  split at h
  · cases h
    rfl
  · cases h

theorem encode_of_stepErrInject (h : stepErrInject ops = .ok i) : encode i = .tag (0x37 :: ops) := by
  unfold stepErrInject at h
  split at h
  · split at h
    · next hreserved =>
      cases h
      rw [encode, Conds.nibble_of_bits _ hreserved]
    · cases h
  · cases h

/-- The bytes of a step are determined by what they decode to, well formed or not. -/
theorem encode_of_stepOf {tag : Nat} (h : stepOf tag ops = .ok i) : encode i = .tag (BitVec.ofNat 8 tag :: ops) := by
  unfold stepOf at h
  split at h
  case h_1 => exact encode_of_stepPick h
  case h_16 => exact encode_of_stepConfigure h
  case h_17 => exact encode_of_stepCsAssert h
  case h_32 => exact encode_of_stepErrInject h
  case h_34 => exact encode_of_stepTick h
  case h_37 => cases h
  all_goals exact encode_of_stepOne (fun _ => rfl) h

theorem encode_of_decodeTag {bs : List Byte} (h : decodeTag bs = .ok i) : encode i = .tag bs := by
  cases bs with
  | nil => cases h
  | cons t ops =>
    have htag := encode_of_stepOf h
    rwa [BitVec.ofNat_toNat, BitVec.setWidth_eq] at htag

end

/-! ### Both directions -/

theorem decode_encode (i : Instr) (h : i.wellFormed = true) : decode (encode i) = .ok i := by
  cases i
  case new f c a => exact decode_encode_new c a h
  case bind f c b a =>
    obtain ⟨hf, hline⟩ := Bool.and_eq_true_iff.mp h
    exact decode_encode_bind c b a hf hline
  case submit f c b ts =>
    obtain ⟨hf, hcount⟩ := Bool.and_eq_true_iff.mp h
    exact decode_encode_submit c b ts hf hcount
  case destroy f c => exact isOneWord_destroy.decode_encode c h
  case onSuspend f c => exact isOneWord_onSuspend.decode_encode c h
  case onResume f c => exact isOneWord_onResume.decode_encode c h
  case onIdle f c => exact isOneWord_onIdle.decode_encode c h
  case onActive f c => exact isOneWord_onActive.decode_encode c h
  case flush f c => exact isOneWord_flush.decode_encode c h
  case seqStart c p => exact stepPick_natBytes c p
  case tick d => exact stepTick_natBytes d
  case configure c sp m w => exact stepConfigure_encode c sp m w
  case errInject c m => exact stepErrInject_nibble c m
  -- the steps whose operand bytes are identifiers
  all_goals rfl

theorem encode_of_decode {e : Encoded} {i : Instr} (h : decode e = .ok i) (hi : i.wellFormed = true) :
    encode i = e := by
  cases e with
  | packet ws => exact encode_of_decodePacket h hi
  | tag bs => exact encode_of_decodeTag h

end Sys2Proof
end

section
/-! PROOFS. The command port's answers to packets that are no command or not of their layout's form (R70, R73, R236;
log entry 5). -/

namespace Sys2Proof

/-! ### Masks -/

theorem and_two_fields_eq_zero (x : Word) (a m b n : Nat) :
    x &&& (put a (BitVec.allOnes m) ||| put b (BitVec.allOnes n)) = 0 ↔
      x.extractLsb' a m = 0 ∧ x.extractLsb' b n = 0 := by
  rw [← and_put_allOnes_eq_zero x a m, ← and_put_allOnes_eq_zero x b n, BitVec.and_or_distrib_left]
  exact BitVec.or_eq_zero_iff

theorem toNat_hdrOp (w : Word) : (hdrOp w).toNat = w.toNat / 2 ^ 24 := by
  have hw := w.isLt
  rw [hdrOp, BitVec.extractLsb'_toNat, Nat.shiftRight_eq_div_pow]
  omega

theorem toNat_hdrN (w : Word) : (hdrN w).toNat = w.toNat % 2 ^ 8 := BitVec.extractLsb'_toNat 0 8 w

theorem hdrN_eq_zero_iff (w : Word) : hdrN w = 0 ↔ w.toNat % 2 ^ 8 = 0 := by
  rw [← toNat_hdrN]
  exact (BitVec.toNat_inj (y := 0)).symm

theorem hdrB_eq_zero_iff (w : Word) : hdrB w = 0 ↔ w &&& 0xFF00#32 = 0 := (and_put_allOnes_eq_zero w 8 8).symm

theorem BindArgs.lineOk_iff (a : BindArgs) : a.lineOk = true ↔ a.linePresent = true ∨ a.lineId = 0 := by
  rw [BindArgs.lineOk, Bool.or_eq_true, decide_eq_true_eq]

theorem lineOk_bindArgsOf_iff (ws : List Word) : (bindArgsOf ws).lineOk = true ↔
    ¬ (wordAt ws 3 &&& 1#32 = 0 ∧ wordAt ws 3 &&& 0x1FE#32 ≠ 0) := by
  have present : wordAt ws 3 &&& 1#32 = 0 ↔ (wordAt ws 3).getLsbD 0 = false :=
    (and_put_allOnes_eq_zero _ 0 1).trans (extractLsb'_one_eq_zero _ 0)
  have lineId : wordAt ws 3 &&& 0x1FE#32 = 0 ↔ (wordAt ws 3).extractLsb' 1 8 = 0 := and_put_allOnes_eq_zero _ 1 8
  rw [present, ne_eq, lineId, BindArgs.lineOk_iff, not_and, not_not, Bool.eq_false_iff, ← or_iff_not_imp_left]
  rfl

theorem transfersMbzZero_iff (n : Nat) (ws : List Word) : transfersMbzZero n ws = true ↔
    ∀ i < n, wordAt ws (8 * i + 4) &&& 0xF0C0#32 = 0 ∧ wordAt ws (8 * i + 7) = 0 := by
  induction n generalizing ws with
  | zero => simp [transfersMbzZero]
  | succ n ih =>
    have hmask : wordAt ws 4 &&& 0xF0C0#32 = 0 ↔ _ := and_two_fields_eq_zero (wordAt ws 4) 6 2 12 4
    rw [transfersMbzZero, Bool.and_eq_true, transferMbzZero_iff, ← hmask, ih, Nat.forall_lt_succ_left]
    simp only [wordAt_drop, Nat.mul_zero, Nat.zero_add, Nat.mul_succ, Nat.add_comm 8, Nat.add_right_comm _ _ 8]

/-! ### The packets whose must-be-zero fields are not all zero -/

section
variable (ws : List Word)

/-- The header's opcode (R61). -/
def opcodeOf : Nat := (wordAt ws 0).toNat / 2 ^ 24

/-- The header's count of Transfers (R61). -/
def countOf : Nat := (wordAt ws 0).toNat % 2 ^ 8

/-- A must-be-zero field of the header is not zero. -/
def BadHeader : Prop :=
  opcodeOf ws ≠ 4 ∧ countOf ws ≠ 0 ∨ opcodeOf ws ≠ 3 ∧ opcodeOf ws ≠ 4 ∧ wordAt ws 0 &&& 0xFF00#32 ≠ 0

/-- A must-be-zero field of the body is not zero. -/
def BadBody : Prop :=
  opcodeOf ws = 1 ∧ wordAt ws 3 &&& 0xFFFCFE00#32 ≠ 0 ∨
  opcodeOf ws = 3 ∧ (wordAt ws 2 &&& 0xFFFFC0F8#32 ≠ 0 ∨ wordAt ws 3 &&& 0xFFFF8000#32 ≠ 0 ∨
    wordAt ws 3 &&& 1#32 = 0 ∧ wordAt ws 3 &&& 0x1FE#32 ≠ 0) ∨
  opcodeOf ws = 4 ∧ ∃ i, i < countOf ws ∧
    (wordAt ws (1 + 8 * i + 4) &&& 0xF0C0#32 ≠ 0 ∨ wordAt ws (1 + 8 * i + 7) ≠ 0)

/-- The length the header implies (R73). -/
def lengthOf : Nat :=
  if opcodeOf ws = 1 then 5 else if opcodeOf ws = 3 then 4 else if opcodeOf ws = 4 then 1 + 8 * countOf ws else 1

/-- How many speed words a malformed command's answer has (log entry 5). -/
def speedWordsOf : Nat := if opcodeOf ws = 4 then countOf ws else 0

variable {ws}

theorem newMbzZero_iff_not_bad (h : opcodeOf ws = 1) : newMbzZero ws = true ↔ ¬ (BadHeader ws ∨ BadBody ws) := by
  have hmask : wordAt ws 3 &&& 0xFFFCFE00#32 = 0 ↔ _ := and_two_fields_eq_zero (wordAt ws 3) 9 7 18 14
  rw [newMbzZero_iff, hdrB_eq_zero_iff, hdrN_eq_zero_iff, ← hmask]
  grind [BadHeader, BadBody, countOf]

theorem bindMbzZero_iff_not_bad (h : opcodeOf ws = 3) : bindMbzZero ws = true ↔ ¬ (BadHeader ws ∨ BadBody ws) := by
  have hmask2 : wordAt ws 2 &&& 0xFFFFC0F8#32 = 0 ↔ _ := and_two_fields_eq_zero (wordAt ws 2) 3 5 14 18
  have hmask3 : wordAt ws 3 &&& 0xFFFF8000#32 = 0 ↔ _ := and_put_allOnes_eq_zero (wordAt ws 3) 15 17
  rw [bindMbzZero_iff, hdrN_eq_zero_iff, ← hmask2, ← hmask3, lineOk_bindArgsOf_iff]
  grind [BadHeader, BadBody, countOf]

theorem transfersMbzZero_iff_not_bad (h : opcodeOf ws = 4) :
    transfersMbzZero (countOf ws) (ws.drop 1) = true ↔ ¬ (BadHeader ws ∨ BadBody ws) := by
  rw [transfersMbzZero_iff]
  simp only [wordAt_drop, ← Nat.add_assoc]
  grind [BadHeader, BadBody]

theorem plainMbzZero_iff_not_bad (h1 : opcodeOf ws ≠ 1) (h3 : opcodeOf ws ≠ 3) (h4 : opcodeOf ws ≠ 4) :
    plainMbzZero ws = true ↔ ¬ (BadHeader ws ∨ BadBody ws) := by
  rw [plainMbzZero_iff, hdrB_eq_zero_iff, hdrN_eq_zero_iff]
  grind [BadHeader, BadBody, countOf]

/-! ### Every packet of a known opcode is a command that checks its form -/

/-- The packet decodes to a command that answers by the form of the packet, exact or not. -/
def IsFormChecked (ws : List Word) : Prop := ∃ (i : Instr) (z : Bool), decode (.packet ws) = .ok i ∧
  (z = true ↔ ¬ (BadHeader ws ∨ BadBody ws)) ∧ i.ChecksForm (formOf z ws.length (lengthOf ws)) (speedWordsOf ws)

variable {w : Word} {r : List Word}

theorem opcodeOf_of_hdrOp {op : Byte} (h : hdrOp w = op) : opcodeOf (w :: r) = op.toNat := by
  rw [← h, toNat_hdrOp]
  rfl

theorem isFormChecked_new (hop : hdrOp w = 1) : IsFormChecked (w :: r) := by
  have h : opcodeOf (w :: r) = 1 := opcodeOf_of_hdrOp hop
  have hlen : lengthOf (w :: r) = 5 := if_pos h
  have hspeeds : speedWordsOf (w :: r) = 0 := if_neg (by omega)
  rw [IsFormChecked, hlen, hspeeds]
  exact ⟨_, _, commandOf_new hop, newMbzZero_iff_not_bad h, fun _ => ⟨_, rfl⟩⟩

theorem isFormChecked_bind (hop : hdrOp w = 3) : IsFormChecked (w :: r) := by
  have h : opcodeOf (w :: r) = 3 := opcodeOf_of_hdrOp hop
  have hlen : lengthOf (w :: r) = 4 := by simp [lengthOf, h]
  have hspeeds : speedWordsOf (w :: r) = 0 := if_neg (by omega)
  rw [IsFormChecked, hlen, hspeeds]
  exact ⟨_, _, commandOf_bind hop, bindMbzZero_iff_not_bad h, fun _ => ⟨_, rfl⟩⟩

theorem isFormChecked_submit (hop : hdrOp w = 4) : IsFormChecked (w :: r) := by
  have h : opcodeOf (w :: r) = 4 := opcodeOf_of_hdrOp hop
  have hn : (hdrN w).toNat = countOf (w :: r) := toNat_hdrN w
  have hlen : lengthOf (w :: r) = 1 + 8 * countOf (w :: r) := by simp [lengthOf, h]
  have hspeeds : speedWordsOf (w :: r) = (transfersOf (countOf (w :: r)) r).length := by
    rw [length_transfersOf, speedWordsOf, if_pos h]
  rw [IsFormChecked, hlen, hspeeds, ← hn]
  exact ⟨_, _, commandOf_submit hop, hn ▸ transfersMbzZero_iff_not_bad h, fun _ => ⟨_, rfl⟩⟩

theorem IsOneWord.isFormChecked {mk : PacketForm → Byte → Instr} (hmk : IsOneWord (hdrOp w) mk) :
    IsFormChecked (w :: r) := by
  obtain ⟨hne1, hne3, hne4⟩ := hmk.bodyless
  have hne {op : Byte} (h : hdrOp w ≠ op) : opcodeOf (w :: r) ≠ op.toNat := fun e =>
    h (BitVec.eq_of_toNat_eq ((toNat_hdrOp w).trans e))
  have h1 : opcodeOf (w :: r) ≠ 1 := hne hne1
  have h3 : opcodeOf (w :: r) ≠ 3 := hne hne3
  have h4 : opcodeOf (w :: r) ≠ 4 := hne hne4
  have hlen : lengthOf (w :: r) = 1 := by simp [lengthOf, h1, h3, h4]
  have hspeeds : speedWordsOf (w :: r) = 0 := if_neg h4
  rw [IsFormChecked, hlen, hspeeds]
  exact ⟨_, _, hmk.command w _ rfl, plainMbzZero_iff_not_bad h1 h3 h4, hmk.checksForm _ _⟩

/-- Opcodes 0x01 to 0x09 are the commands' (R61, R70). -/
theorem isFormChecked (h1 : 1 ≤ opcodeOf ws) (h9 : opcodeOf ws ≤ 9) : IsFormChecked ws := by
  cases ws with
  | nil => exact absurd h1 (by decide)
  | cons w r =>
    rcases opcode_cases (hdrOp w) with hop | hop | hop | hop | ⟨mk, hmk⟩
    · rw [toNat_hdrOp] at hop
      rw [opcodeOf, wordAt_zero] at h1 h9
      omega
    · exact isFormChecked_new hop
    · exact isFormChecked_bind hop
    · exact isFormChecked_submit hop
    · exact hmk.isFormChecked

end
end Sys2Proof

namespace Sys2Proof.Machine

/-! ### The answers -/

theorem step_undecoded {s : State} {e : Encoded} {rest : List Input} {d : DecodeError}
    (h : s.inbox = .encoded e :: rest) (hd : decode e = .error d) :
    step s = State.answerUndecoded { s with inbox := rest } d := by
  simp [step, State.fetch, h, hd]

/-- The packet form's status word (R70, R73). -/
def FormCode (f : PacketForm) (code : Word) : Prop :=
  f = .mbzNonzero ∧ code = 0x05020001#32 ∨ f = .wrongLength ∧ code = 0x05020002#32

/-- The state with one more answer of the command port and nothing else changed. -/
def State.portAnswer (s : State) (code : Word) (n : Nat) : State :=
  { s with outbox := s.outbox ++ [⟨.issuer, code :: 0#32 :: List.replicate n 0#32⟩] }

theorem exec_of_checksForm {i : Instr} {f : PacketForm} {n : Nat} {code : Word} (h : i.ChecksForm f n)
    (hf : FormCode f code) (s : State) : exec i s = .next (s.portAnswer code n) := by
  obtain ⟨k, hk⟩ := h s
  rw [hk]
  rcases hf with ⟨rfl, rfl⟩ | ⟨rfl, rfl⟩
  · rfl
  · rfl

theorem step_reserved {s : State} {w : Word} {r : List Word} {rest : List Input}
    (h : s.inbox = .encoded (.packet (w :: r)) :: rest) (hop : hdrOp w = 0 ∨ 0x0A ≤ (hdrOp w).toNat) :
    step s = .next (State.portAnswer { s with inbox := rest } 0x05010000#32 0) :=
  step_undecoded h (commandOf_reserved (hop.imp_left (congrArg BitVec.toNat)))

theorem step_emptyPacket {s : State} {rest : List Input} (h : s.inbox = .encoded (.packet []) :: rest) :
    step s = .next (State.portAnswer { s with inbox := rest } 0x05020002#32 (speedWordsOf [])) :=
  step_undecoded h rfl

section
variable {s : State} {ws : List Word} {rest : List Input} (h : s.inbox = .encoded (.packet ws) :: rest)
include h

theorem step_bad (h1 : 1 ≤ opcodeOf ws) (h9 : opcodeOf ws ≤ 9) (hbad : BadHeader ws ∨ BadBody ws) :
    step s = .next (State.portAnswer { s with inbox := rest } 0x05020001#32 (speedWordsOf ws)) := by
  obtain ⟨i, z, hd, hz, hi⟩ := isFormChecked h1 h9
  obtain rfl : z = false := Bool.eq_false_iff.mpr fun e => hz.mp e hbad
  exact (step_encoded s _ rest i h hd).trans (exec_of_checksForm hi (.inl ⟨rfl, rfl⟩) _)

theorem step_wrongLength (h1 : 1 ≤ opcodeOf ws) (h9 : opcodeOf ws ≤ 9) (hgood : ¬ (BadHeader ws ∨ BadBody ws))
    (hlen : ws.length ≠ lengthOf ws) :
    step s = .next (State.portAnswer { s with inbox := rest } 0x05020002#32 (speedWordsOf ws)) := by
  obtain ⟨i, z, hd, hz, hi⟩ := isFormChecked h1 h9
  obtain rfl : z = true := hz.mpr hgood
  exact (step_encoded s _ rest i h hd).trans (exec_of_checksForm hi (.inr ⟨if_neg hlen, rfl⟩) _)

theorem step_submit_none (hop : opcodeOf ws = 4) (hn : countOf ws = 0) (hlen : ws.length = 1) :
    step s = .next (State.portAnswer { s with inbox := rest } 0x05020003#32 (speedWordsOf ws)) := by
  rw [show speedWordsOf ws = 0 from (if_pos hop).trans hn]
  obtain ⟨w, rfl⟩ := List.length_eq_one_iff.mp hlen
  have hop4 : hdrOp w = 4 := BitVec.eq_of_toNat_eq ((toNat_hdrOp w).trans hop)
  have hd : decode (.packet [w]) = .ok (.submit .exact (hdrC w) (hdrB w) []) := by
    refine (commandOf_submit hop4).trans ?_
    rw [(toNat_hdrN w).trans hn]
    rfl
  exact step_encoded s _ rest _ h hd

end

theorem exec_of_inexact_form {s : State} {f : PacketForm} {code : Word} (hf : FormCode f code) {i : Instr}
    (hi : (∃ c a, i = .new f c a) ∨ (∃ c, i = .destroy f c) ∨ (∃ c b a, i = .bind f c b a) ∨
        (∃ c, i = .onSuspend f c) ∨ (∃ c, i = .onResume f c) ∨ (∃ c, i = .onIdle f c) ∨ (∃ c, i = .onActive f c) ∨
        (∃ c, i = .flush f c)) : exec i s = .next (s.portAnswer code 0) := by
  refine exec_of_checksForm ?_ hf s
  rcases hi with ⟨c, a, rfl⟩ | ⟨c, rfl⟩ | ⟨c, b, a, rfl⟩ | ⟨c, rfl⟩ | ⟨c, rfl⟩ | ⟨c, rfl⟩ | ⟨c, rfl⟩ | ⟨c, rfl⟩ <;>
    exact fun _ => ⟨_, rfl⟩

end Sys2Proof.Machine

open Sys2Proof Sys2Proof.Machine

/-! ### Encoding and decoding -/

/-- Settles O1: by the constructors; a command's words have their must-be-zero fields zero and the length its header
implies, and each field comes back from its place. -/
theorem decodeEncodeRoundTrip : Obligations.DecodeEncodeRoundTrip := by
  unfold Obligations.DecodeEncodeRoundTrip
  exact decode_encode

/-- Settles O2: by the opcode or the tag; a word is the union of its fields, so what has its must-be-zero fields zero is
made of the operands alone. -/
theorem encodingsAreUnique : Obligations.EncodingsAreUnique := by
  unfold Obligations.EncodingsAreUnique
  exact fun _ _ => encode_of_decode

/-- Settles O3: the decoder runs on the words written out. -/
theorem sampleWordsDecode : Obligations.SampleWordsDecode := by
  unfold Obligations.SampleWordsDecode
  decide

/-! ### The command port -/

/-- Settles O6: every packet of a known opcode is a command that looks at its form first, and its form is told by the
masks of its words. -/
theorem commandPortAnswers : Obligations.CommandPortAnswers := by
  unfold Obligations.CommandPortAnswers
  refine ⟨fun s w ws rest => step_reserved,
    fun s ws rest h => ⟨?_, step_bad h, step_wrongLength h, step_submit_none h⟩,
    fun s f code hf => ⟨fun i => exec_of_inexact_form hf, fun c b ts => ?_, fun c b => rfl⟩⟩
  · rintro rfl
    exact step_emptyPacket h
  · exact exec_of_checksForm (fun _ => ⟨_, rfl⟩) hf s

end

section
/-! PROOFS. What a register reads as (R22 to R33, R80 to R87): a field put back where it stood is the word under the
field's mask, so what a register stores of a word is the word under the union of its fields' masks. -/

namespace Sys2Proof

/-! ### Fields under a mask -/

/-- A field put back where it stood is the word under the field's mask. -/
theorem put_extractLsb' (v : Word) (k n : Nat) : put k (v.extractLsb' k n) = v &&& put k (BitVec.allOnes n) := by
  refine BitVec.eq_of_getLsbD_eq fun i hi => ?_
  simp only [BitVec.getLsbD_and, getLsbD_put, BitVec.getLsbD_extractLsb', BitVec.getLsbD_allOnes]
  grind

theorem putBit_getLsbD_eq_and (v : Word) (k : Nat) : putBit k (v.getLsbD k) = v &&& put k (BitVec.allOnes 1) := by
  rw [putBit_getLsbD, put_extractLsb']

/-- A mask that is zero where a field stands does not reach it. -/
theorem put_and_eq_zero {n : Nat} (k : Nat) (x : BitVec n) (m : Word) (h : m.extractLsb' k n = 0#n) :
    put k x &&& m = 0#32 := by
  refine BitVec.eq_of_getLsbD_eq fun i hi => ?_
  have hx : n ≤ i - k → x.getLsbD (i - k) = false := BitVec.getLsbD_of_ge x _
  have hm := congrArg (fun y : BitVec n => y.getLsbD (i - k)) h
  simp only [BitVec.getLsbD_extractLsb', BitVec.getLsbD_zero] at hm
  simp only [BitVec.getLsbD_and, getLsbD_put, BitVec.getLsbD_zero]
  grind

theorem extractLsb'_put_self {n : Nat} (k : Nat) (x : BitVec n) (h : k + n ≤ 32) : (put k x).extractLsb' k n = x := by
  refine BitVec.eq_of_getLsbD_eq fun i hi => ?_
  simp only [BitVec.getLsbD_extractLsb', getLsbD_put]
  grind

@[simp] theorem putBit_false (k : Nat) : putBit k false = 0#32 := put_zero k 1

namespace Machine

/-! ### What a register stores of a word (R22 to R33) -/

theorem ChCfg.toWord_ofWord (v : Word) : (ChCfg.ofWord v).toWord = v &&& 0x6F#32 := by
  simp only [ChCfg.toWord, ChCfg.ofWord, putBit_getLsbD_eq_and, ← BitVec.and_or_distrib_left]
  rfl

theorem ChCfg.toWord_ofWord_softReset (v : Word) :
    ({ ChCfg.ofWord v with hsEn := false } : ChCfg).toWord = v &&& 0x2F#32 := by
  simp only [ChCfg.toWord, ChCfg.ofWord, putBit_getLsbD_eq_and, putBit_false, BitVec.or_zero,
    ← BitVec.and_or_distrib_left]
  rfl

theorem ClkCfg.toWord_ofWord (v : Word) : (ClkCfg.ofWord v).toWord = v &&& 0x1FF#32 := by
  simp only [ClkCfg.toWord, ClkCfg.ofWord, putBit_getLsbD_eq_and, put_extractLsb', ← BitVec.and_or_distrib_left]
  rfl

theorem ModeCfg.toWord_ofWord (v : Word) : (ModeCfg.ofWord v).toWord = v &&& 0x6006000F#32 := by
  simp only [ModeCfg.toWord, ModeCfg.ofWord, putBit_getLsbD_eq_and, put_extractLsb', ← BitVec.and_or_distrib_left]
  rfl

theorem CsReg.toWord_ofWord (v : Word) : (CsReg.ofWord v).toWord = v &&& 0xF#32 := by
  simp only [CsReg.toWord, CsReg.ofWord, putBit_getLsbD_eq_and, ← BitVec.and_or_distrib_left]
  rfl

theorem PacketCnt.toWord_ofWord (v : Word) : (PacketCnt.ofWord v).toWord = v &&& 0x1FFFF#32 := by
  simp only [PacketCnt.toWord, PacketCnt.ofWord, putBit_getLsbD_eq_and, put_extractLsb',
    ← BitVec.and_or_distrib_left]
  rfl

theorem SwapCfg.toWord_ofWord (v : Word) : (SwapCfg.ofWord v).toWord = v &&& 0xDD#32 := by
  simp only [SwapCfg.toWord, SwapCfg.ofWord, putBit_getLsbD_eq_and, ← BitVec.and_or_distrib_left]
  rfl

theorem condsStatusWord_ofBits (v : Word) : condsStatusWord (condsOfStatusBits v) = v &&& 0x3C#32 := by
  simp only [condsStatusWord, condsOfStatusBits, putBit_getLsbD_eq_and, ← BitVec.and_or_distrib_left]
  rfl

theorem condsClrWord_ofBits (v : Word) : condsClrWord (condsOfClrBits v) = v &&& 0x1E#32 := by
  simp only [condsClrWord, condsOfClrBits, putBit_getLsbD_eq_and, ← BitVec.and_or_distrib_left]
  rfl

/-! ### Writes and what they leave stored (R81 to R83) -/

theorem Hw.putChCfg_chCfg (h : Hw) (r : ChCfg) :
    (h.putChCfg r).chCfg = if r.swRst then { r with hsEn := false } else r := by
  simp only [Hw.putChCfg, Hw.ite_formatChanged]
  split <;> rfl

theorem Hw.putClkCfg_clkCfg (h : Hw) (r : ClkCfg) : (h.putClkCfg r).clkCfg = r := by
  simp only [Hw.putClkCfg, Hw.ite_formatChanged]

theorem Hw.putModeCfg_modeCfg (h : Hw) (r : ModeCfg) : (h.putModeCfg r).modeCfg = r := by
  simp only [Hw.putModeCfg, Hw.ite_formatChanged]

theorem Hw.putSwapCfg_swapCfg (h : Hw) (r : SwapCfg) : (h.putSwapCfg r).swapCfg = r := by
  simp only [Hw.putSwapCfg, Hw.ite_formatChanged]

theorem Hw.toWord_putChCfg_ofWord (h : Hw) (v : Word) :
    (h.putChCfg (ChCfg.ofWord v)).chCfg.toWord = if v.getLsbD 5 then v &&& 0x2F#32 else v &&& 0x6F#32 := by
  rw [Hw.putChCfg_chCfg]
  show (if v.getLsbD 5 then ({ ChCfg.ofWord v with hsEn := false } : ChCfg) else ChCfg.ofWord v).toWord = _
  split
  · exact ChCfg.toWord_ofWord_softReset v
  · exact ChCfg.toWord_ofWord v

/-! ### `STATUS` (R27) -/

theorem Hw.statusWord_levels (h : Hw) : h.statusWord.extractLsb' 6 9 = BitVec.ofNat 9 h.txf.length ∧
    h.statusWord.extractLsb' 15 9 = BitVec.ofNat 9 h.rxf.length := by
  simp [Hw.statusWord, condsStatusWord, BitVec.extractLsb'_or, extractLsb'_put_self, extractLsb'_put_outside,
    extractLsb'_putBit_outside]

theorem Hw.statusWord_sticky (h : Hw) : condsOfStatusBits h.statusWord = h.sticky := by
  simp only [condsOfStatusBits, Hw.statusWord, condsStatusWord, BitVec.getLsbD_or, getLsbD_put, getLsbD_putBit]
  simp

theorem Hw.statusWord_txDone (h : Hw) : h.statusWord.getLsbD 25 = h.txDone := by
  simp only [Hw.statusWord, condsStatusWord, BitVec.getLsbD_or, getLsbD_put, getLsbD_putBit]
  simp

/-- No field of `STATUS` stands at bits 0, 1, 24 or from 26 upward. -/
theorem Hw.statusWord_reserved (h : Hw) : h.statusWord &&& 0xFD000003#32 = 0#32 := by
  simp (disch := decide) only [Hw.statusWord, condsStatusWord, putBit, BitVec.and_or_distrib_right,
    put_and_eq_zero, BitVec.or_zero]

theorem Hw.txDone_iff (h : Hw) : h.txDone = true ↔ h.txf = [] ∧ h.shBusy = false := by simp [Hw.txDone]

end Machine
end Sys2Proof

open Sys2Proof Sys2Proof.Machine

/-- Settles O7: each register's fields come back as the word under their masks, and the fields of `STATUS` do not meet. -/
theorem registerReadsBackWrite : Obligations.RegisterReadsBackWrite := by
  unfold Obligations.RegisterReadsBackWrite
  refine ⟨fun h d v => ⟨?_, ?_, ?_, ?_, ?_, ?_, ?_, ?_, ?_, fun n => ⟨rfl, rfl⟩⟩,
    fun h htx hrx => ⟨h.statusWord, rfl, ?_, ?_, ?_, ?_, ?_, ?_, ?_, h.statusWord_reserved⟩⟩
  · exact congrArg some (h.toWord_putChCfg_ofWord v)
  · exact congrArg some ((congrArg ClkCfg.toWord (h.putClkCfg_clkCfg _)).trans (ClkCfg.toWord_ofWord v))
  · exact congrArg some ((congrArg ModeCfg.toWord (h.putModeCfg_modeCfg _)).trans (ModeCfg.toWord_ofWord v))
  · exact congrArg some (CsReg.toWord_ofWord v)
  · exact congrArg some (condsStatusWord_ofBits v)
  · exact congrArg some (PacketCnt.toWord_ofWord v)
  · exact congrArg some (condsClrWord_ofBits v)
  · exact congrArg some ((congrArg SwapCfg.toWord (h.putSwapCfg_swapCfg _)).trans (SwapCfg.toWord_ofWord v))
  · exact congrArg some (put_extractLsb' v 0 2)
  · rw [h.statusWord_levels.1, BitVec.toNat_ofNat, Nat.mod_eq_of_lt (by omega)]
  · rw [h.statusWord_levels.2, BitVec.toNat_ofNat, Nat.mod_eq_of_lt (by omega)]
  · exact congrArg Conds.txUnderrun h.statusWord_sticky
  · exact congrArg Conds.txOverrun h.statusWord_sticky
  · exact congrArg Conds.rxUnderrun h.statusWord_sticky
  · exact congrArg Conds.rxOverrun h.statusWord_sticky
  · rw [h.statusWord_txDone, h.txDone_iff]

end

section
/-! PROOFS. What register accesses do to the two FIFOs (R84, R85, R96): the data ports, and the writes that may change
the format. -/

namespace Sys2Proof.Machine

/-! ### The two data ports (R84, R85, R87) -/

theorem Hw.writeTxData_reset (h : Hw) (d n : Nat) (v : Word) (hs : h.chCfg.swRst = true) :
    h.writeTxData d n v = h := if_pos hs

theorem Hw.writeTxData_full (h : Hw) (d n : Nat) (v : Word) (hs : h.chCfg.swRst = false)
    (hd : d - h.txf.length < n) : h.writeTxData d n v = h.setStatus .txOverrun := by
  simp [Hw.writeTxData, hs, hd]

theorem Hw.writeTxData_fits (h : Hw) (d n : Nat) (v : Word) (hs : h.chCfg.swRst = false)
    (hd : n ≤ d - h.txf.length) : h.writeTxData d n v = { h with txf := h.txf ++ leBytes n v } := by
  simp [Hw.writeTxData, hs, Nat.not_lt.mpr hd]

/-! ### Changes of format (R96) -/

/-- The fields whose change empties the FIFOs are the same in both (R96). -/
def Hw.SameFormat (h k : Hw) : Prop :=
  k.chCfg.cpol = h.chCfg.cpol ∧ k.chCfg.cpha = h.chCfg.cpha ∧ k.clkCfg.div = h.clkCfg.div ∧
    k.modeCfg.busTsz = h.modeCfg.busTsz ∧ k.modeCfg.chTsz = h.modeCfg.chTsz ∧ k.swapCfg = h.swapCfg

/-- Between `h` and `k` both FIFOs are emptied if the format changed; else `rxf` keeps its bytes, and `txf` too unless
`reset` empties it. -/
structure Hw.FifosFollow (reset : Prop) (h k : Hw) : Prop where
  changed (hf : ¬ h.SameFormat k) : k.txf = [] ∧ k.rxf = []
  same (hf : h.SameFormat k) : k.rxf = h.rxf ∧ (k.txf = h.txf ∨ reset ∧ k.txf = [])

/-- A write that touches neither the format nor the FIFOs. -/
theorem Hw.FifosFollow.untouched {reset : Prop} {h k : Hw} (hf : h.SameFormat k) (htx : k.txf = h.txf)
    (hrx : k.rxf = h.rxf) : h.FifosFollow reset k := ⟨fun hn => absurd hf hn, fun _ => ⟨hrx, .inl htx⟩⟩

/-- A write `k` that calls `format_changed` unless `p`, where `p` says that the format is the same. -/
theorem Hw.FifosFollow.ite {reset p : Prop} [Decidable p] {h k : Hw} (hp : p ↔ h.SameFormat k) (hrx : k.rxf = h.rxf)
    (htx : k.txf = h.txf ∨ reset ∧ k.txf = []) : h.FifosFollow reset (if p then k else k.formatChanged) := by
  split
  · next hk => exact ⟨fun hn => absurd (hp.mp hk) hn, fun _ => ⟨hrx, htx⟩⟩
  · next hk => exact ⟨fun _ => ⟨rfl, rfl⟩, fun hf => absurd (hp.mpr hf) hk⟩

theorem Hw.putChCfg_fifos (h : Hw) (r : ChCfg) {reset : Prop} (hreset : r.swRst = true → reset) :
    h.FifosFollow reset (h.putChCfg r) := by
  unfold Hw.putChCfg
  cases hr : r.swRst
  · exact .ite (k := { h with chCfg := r }) (by simp [Hw.SameFormat, and_comm]) rfl (.inl rfl)
  · exact .ite (k := Hw.softReset { h with chCfg := r }) (by simp [Hw.SameFormat, Hw.softReset, and_comm]) rfl
      (.inr ⟨hreset hr, rfl⟩)

theorem Hw.regWrite_fifos (h : Hw) (d n : Nat) (r : Reg) (v : Word) (hr : r ≠ .txData) :
    h.FifosFollow (r = .chCfg ∧ v.getLsbD 5 = true) (h.regWrite d r n v) := by
  have same : h.SameFormat h := ⟨rfl, rfl, rfl, rfl, rfl, rfl⟩
  cases r with
  | chCfg => exact h.putChCfg_fifos (ChCfg.ofWord v) fun e => ⟨rfl, e⟩
  | clkCfg => exact .ite (by simp [Hw.SameFormat]) rfl (.inl rfl)
  | modeCfg => exact .ite (by simp [Hw.SameFormat]) rfl (.inl rfl)
  | swapCfg => exact .ite (by simp [Hw.SameFormat]) rfl (.inl rfl)
  | txData => exact absurd rfl hr
  | csReg | intEn | status | rxData | packetCnt | pendingClr | fbClk => exact .untouched same rfl rfl

end Sys2Proof.Machine

open Sys2Proof Sys2Proof.Machine

/-- Settles O8: the data ports by their cases; every other write calls `format_changed` exactly where a field of the
format changes, and `SW_RST` empties `txf` besides. -/
theorem registerAccessesMoveFifos : Obligations.RegisterAccessesMoveFifos := by
  unfold Obligations.RegisterAccessesMoveFifos
  refine ⟨fun h d n v => ⟨h.writeTxData_reset d n v, h.writeTxData_full d n v, h.writeTxData_fits d n v,
    fun hn => ⟨if_pos hn, if_pos hn⟩, fun hn => ⟨if_neg (Nat.not_le.mpr hn), if_neg (Nat.not_le.mpr hn)⟩⟩,
    fun h d r v hr => ?_⟩
  have fifos := h.regWrite_fifos d 4 r v hr
  exact ⟨fifos.changed, fun hf => ⟨(fifos.same hf).1, (fifos.same hf).2.imp_right and_assoc.mp⟩⟩
end

section
/-! PROOFS. SH_LOAD (R88): when it is enabled, and the three words it can put on the wire. -/

namespace Sys2Proof.Machine

theorem truncWord_lt (wb : Nat) (v : Word) : (truncWord wb v).toNat < 2 ^ (8 * wb) := by
  rw [truncWord, BitVec.toNat_ofNat]
  exact Nat.lt_of_le_of_lt (Nat.mod_le _ _) (Nat.mod_lt _ (Nat.two_pow_pos _))

theorem Ctrl.shLoadEnabled_iff (x : Ctrl) (stalls : Bool) : x.shLoadEnabled stalls = true ↔
    x.clkOn = true ∧ x.hw.clkCfg.enclk = true ∧ x.hw.chCfg.swRst = false ∧ x.hw.shBusy = false ∧
    x.hw.packetCnt.en = true ∧ 0 < x.hw.pktRem.toNat ∧ (x.hw.chCfg.txchOn = true ∨ x.hw.chCfg.rxchOn = true) ∧
    (x.hw.chCfg.txchOn = true → x.hw.wb ≤ x.hw.txf.length) ∧
    (stalls = true → x.hw.chCfg.rxchOn = true → x.hw.wb ≤ x.fifoDepth - x.hw.rxf.length) := by
  simp only [Ctrl.shLoadEnabled, Hw.chanOn, Bool.and_eq_true, Bool.or_eq_true, Bool.not_eq_true', decide_eq_true_eq,
    ← Bool.not_eq_true, and_assoc]
  tauto

theorem execShLoad_eq {s : State} {c : Byte} {x : Ctrl} (hx : s.ctrlAt c = some x) : exec (.shLoad c) s =
    if x.shLoadEnabled s.params.shifterStalls then .next (View.shLoad ⟨s, c, x⟩).commit else .next s := by
  rw [exec, execShLoad, State.withCtrl_some s c x _ hx]

theorem View.shLoad_swapped {v : View} {w : Word} (ht : v.c.hw.chCfg.txchOn = true)
    (hw : v.c.hw.swapCfg.swapTx (leWord (v.c.hw.txf.take v.c.hw.wb)) v.c.hw.wb = some w) :
    v.shLoad = v.onHw fun h => { h with txf := h.txf.drop h.wb, shWord := w, shDefined := true, shBusy := true } := by
  simp only [View.shLoad, ht, hw, if_true]

theorem View.shLoad_unswapped {v : View} (ht : v.c.hw.chCfg.txchOn = true)
    (hw : v.c.hw.swapCfg.swapTx (leWord (v.c.hw.txf.take v.c.hw.wb)) v.c.hw.wb = none) :
    v.shLoad = { v.onHw (fun h => { h with
      txf := h.txf.drop h.wb, shWord := truncWord h.wb (Config.freeWord v.st.draws), shDefined := true,
      shBusy := true }) with st := v.st.drew 1 } := by
  simp only [View.shLoad, ht, hw, if_true]

theorem View.shLoad_receiveOnly {v : View} (ht : v.c.hw.chCfg.txchOn = false) :
    v.shLoad = { v.onHw (fun h => { h with
      shWord := truncWord h.wb (Config.freeWord v.st.draws), shDefined := false, shBusy := true }) with
      st := v.st.drew 1 } := by
  simp only [View.shLoad, ht, Bool.false_eq_true, if_false]

end Sys2Proof.Machine

open Sys2Proof Sys2Proof.Machine

/-- Settles O10: the enabling condition is taken apart once; each clause of the second half contradicts one part of it. -/
theorem shLoadStartsOneWord : Obligations.ShLoadStartsOneWord := by
  unfold Obligations.ShLoadStartsOneWord
  refine fun s c x hx => ⟨fun hclk henclk hrst hidle hen hrem hroom => ?_, fun hoff => ?_⟩
  · have enabled (hon : x.hw.chCfg.txchOn = true ∨ x.hw.chCfg.rxchOn = true)
        (htxf : x.hw.chCfg.txchOn = true → x.hw.wb ≤ x.hw.txf.length) :
        exec (.shLoad c) s = .next (View.shLoad ⟨s, c, x⟩).commit :=
      (execShLoad_eq hx).trans (if_pos ((x.shLoadEnabled_iff _).mpr
        ⟨hclk, henclk, hrst, hidle, hen, hrem, hon, htxf, hroom⟩))
    refine ⟨fun ht htxf => ⟨fun w hw => ?_, fun hw => ⟨_, truncWord_lt x.hw.wb (Config.freeWord s.draws), ?_⟩⟩,
      fun ht hr => ⟨_, truncWord_lt x.hw.wb (Config.freeWord s.draws), ?_⟩⟩
    · rw [enabled (.inl ht) fun _ => htxf, View.shLoad_swapped ht hw]
      rfl
    · rw [enabled (.inl ht) fun _ => htxf, View.shLoad_unswapped ht hw]
      rfl
    · rw [enabled (.inr hr) fun e => absurd (ht.symm.trans e) Bool.false_ne_true, View.shLoad_receiveOnly ht]
      rfl
  · refine (execShLoad_eq hx).trans (if_neg fun he => ?_)
    obtain ⟨hclk, henclk, hrst, hidle, hen, hrem, hon, htxf, hroom⟩ := (x.shLoadEnabled_iff _).mp he
    rcases hoff with h | h | h | h | h | h | ⟨ht, hr⟩ | ⟨ht, h⟩ | ⟨hst, hr, h⟩
    · simp [hclk] at h
    · simp [henclk] at h
    · simp [hrst] at h
    · simp [hidle] at h
    · simp [hen] at h
    · simp [h] at hrem
    · simp [ht, hr] at hon
    · exact absurd (htxf ht) (Nat.not_le.mpr h)
    · exact absurd (hroom hst hr) (Nat.not_le.mpr h)
end

section
/-! PROOFS. SH_DONE (R89): the word received is pushed, lost or discarded, and then the word is counted and logged. -/

namespace Sys2Proof.Machine

/-- How `receive` leaves the serial engine, and how many draws it takes: `r` is the word received (R89). -/
structure Ctrl.Receives (x : Ctrl) (r : Word) (h : Hw) (n : Nat) : Prop where
  off (hr : x.hw.chCfg.rxchOn = false) : h = x.hw ∧ n = 0
  room (hr : x.hw.chCfg.rxchOn = true) (hroom : x.hw.wb ≤ x.fifoDepth - x.hw.rxf.length) :
    ∃ w, h = { x.hw with rxf := x.hw.rxf ++ leBytes x.hw.wb w } ∧
      (∀ v, x.hw.swapCfg.swapRx r x.hw.wb = some v → w = v ∧ n = 0) ∧
      (x.hw.swapCfg.swapRx r x.hw.wb = none → n = 1)
  lost (hr : x.hw.chCfg.rxchOn = true) (hfull : x.fifoDepth - x.hw.rxf.length < x.hw.wb) :
    h = x.hw.setStatus .rxOverrun ∧ n = 0

theorem View.receive_spec (v : View) (r : Word) : ∃ h n, v.c.Receives r h n ∧
    v.receive r = ⟨v.st.drew n, v.key, { v.c with hw := h }⟩ := by
  unfold View.receive
  dsimp only
  split
  · next hr =>
    split
    · next hroom =>
      split
      · next w hw =>
        exact ⟨_, 0, ⟨by simp [hr], fun _ _ => ⟨w, rfl, by simp [hw], by simp [hw]⟩,
          fun _ hfull => absurd hroom (Nat.not_le.mpr hfull)⟩, rfl⟩
      · next hw =>
        exact ⟨_, 1, ⟨by simp [hr], fun _ _ => ⟨_, rfl, by simp [hw], fun _ => rfl⟩,
          fun _ hfull => absurd hroom (Nat.not_le.mpr hfull)⟩, rfl⟩
    · next hfull =>
      exact ⟨_, 0, ⟨by simp [hr], fun _ hroom => absurd hroom hfull, fun _ _ => ⟨rfl, rfl⟩⟩, rfl⟩
  · next hr => exact ⟨v.c.hw, 0, ⟨fun _ => ⟨rfl, rfl⟩, fun e => absurd e hr, fun e => absurd e hr⟩, rfl⟩

/-- The count falls by one, or is open at 0; the wire is free (R89; log entry 12). -/
theorem View.countDown_spec (v : View) : ∃ rem : BitVec 16, (v.c.hw.pktRem ≠ 0 → rem = v.c.hw.pktRem - 1) ∧
    v.countDown = ⟨v.st.drew (if v.c.hw.pktRem = 0 then 1 else 0), v.key,
      { v.c with hw := { v.c.hw with pktRem := rem, shBusy := false } }⟩ := by
  unfold View.countDown
  split
  · next h0 => exact ⟨_, fun h => absurd h0 h, rfl⟩
  · exact ⟨_, fun _ => rfl, rfl⟩

theorem Hw.setStatus_pktRem (h : Hw) (k : Cond) : (h.setStatus k).pktRem = h.pktRem := by
  unfold Hw.setStatus
  split <;> rfl

namespace Ctrl.Receives
variable {x : Ctrl} {r : Word} {h : Hw} {n : Nat}

theorem pktRem (hrec : x.Receives r h n) : h.pktRem = x.hw.pktRem := by
  cases hr : x.hw.chCfg.rxchOn with
  | false => rw [(hrec.off hr).1]
  | true =>
    rcases Nat.lt_or_ge (x.fifoDepth - x.hw.rxf.length) x.hw.wb with hfull | hroom
    · rw [(hrec.lost hr hfull).1, Hw.setStatus_pktRem]
    · obtain ⟨w, rfl, -⟩ := hrec.room hr hroom
      rfl

theorem draws (hrec : x.Receives r h n) : n = if x.hw.chCfg.rxchOn = true ∧
    x.hw.wb ≤ x.fifoDepth - x.hw.rxf.length ∧ x.hw.swapCfg.swapRx r x.hw.wb = none then 1 else 0 := by
  cases hr : x.hw.chCfg.rxchOn with
  | false => simp [(hrec.off hr).2]
  | true =>
    rcases Nat.lt_or_ge (x.fifoDepth - x.hw.rxf.length) x.hw.wb with hfull | hroom
    · simp [(hrec.lost hr hfull).2, Nat.not_le.mpr hfull]
    · obtain ⟨w, -, some, none⟩ := hrec.room hr hroom
      cases hw : x.hw.swapCfg.swapRx r x.hw.wb with
      | none => simp [hroom, none hw]
      | some v => simp [(some v hw).2]

/-- Where R46 gives the swap its result, or none is asked for, the case says what is left. -/
theorem determined (hrec : x.Receives r h n) {h1 : Hw}
    (hh1 : x.hw.chCfg.rxchOn = false ∧ h1 = x.hw ∨
      x.hw.chCfg.rxchOn = true ∧ x.hw.wb ≤ x.fifoDepth - x.hw.rxf.length ∧
        (∃ v, x.hw.swapCfg.swapRx r x.hw.wb = some v ∧
          h1 = { x.hw with rxf := x.hw.rxf ++ leBytes x.hw.wb v }) ∨
      x.hw.chCfg.rxchOn = true ∧ x.fifoDepth - x.hw.rxf.length < x.hw.wb ∧ h1 = x.hw.setStatus .rxOverrun) :
    h = h1 ∧ n = 0 := by
  rcases hh1 with ⟨hoff, rfl⟩ | ⟨hon, hroom, v, hv, rfl⟩ | ⟨hon, hfull, rfl⟩
  · exact hrec.off hoff
  · obtain ⟨w, rfl, hw, -⟩ := hrec.room hon hroom
    obtain ⟨rfl, rfl⟩ := hw v hv
    exact ⟨rfl, rfl⟩
  · exact hrec.lost hon hfull

end Ctrl.Receives

theorem View.shDone_spec (v : View) : ∃ (h : Hw) (rem : BitVec 16) (n : Nat), v.c.Receives v.wireWord h n ∧
    (v.c.hw.pktRem ≠ 0 → rem = v.c.hw.pktRem - 1) ∧
    v.shDone = ⟨(v.st.drew (n + if v.c.hw.pktRem = 0 then 1 else 0)).pushBus (v.c.wordEvent v.wireWord), v.key,
      { v.c with hw := { h with pktRem := rem, shBusy := false } }⟩ := by
  obtain ⟨h, n, hrec, hv1⟩ := v.receive_spec v.wireWord
  obtain ⟨rem, hrem, hv2⟩ := (v.receive v.wireWord).countDown_spec
  refine ⟨h, rem, n, hrec, ?_, ?_⟩
  · rw [hv1] at hrem
    rw [← hrec.pktRem]
    exact hrem
  · rw [View.shDone, hv2, hv1, ← hrec.pktRem]
    simp only [State.drew, Nat.add_assoc]

theorem execShDone_eq {s : State} {c : Byte} {x : Ctrl} (hx : s.ctrlAt c = some x) : exec (.shDone c) s =
    if x.shDoneEnabled then .next (View.shDone ⟨s, c, x⟩).commit else .next s := by
  rw [exec, execShDone, State.withCtrl_some s c x _ hx]

theorem Ctrl.shDoneEnabled_iff (x : Ctrl) : x.shDoneEnabled = true ↔ x.clkOn = true ∧ x.hw.shBusy = true := by
  rw [Ctrl.shDoneEnabled, Bool.and_eq_true, and_comm]

end Sys2Proof.Machine

open Sys2Proof Sys2Proof.Machine

/-- Settles O11: what SH_DONE receives is one of three cases, in each of which the serial engine afterwards is determined
but for a word that R46 does not state. -/
theorem shDoneEndsTheWord : Obligations.ShDoneEndsTheWord := by
  unfold Obligations.ShDoneEndsTheWord
  intro s c x r hx hr
  subst hr
  obtain ⟨h, rem, n, hrec, hrem, hdone⟩ := View.shDone_spec ⟨s, c, x⟩
  have done (hclk : x.clkOn = true) (hbusy : x.hw.shBusy = true) :
      exec (.shDone c) s = .next (View.shDone ⟨s, c, x⟩).commit :=
    (execShDone_eq hx).trans (if_pos (x.shDoneEnabled_iff.mpr ⟨hclk, hbusy⟩))
  refine ⟨fun hclk hbusy hpkt h1 hh1 => ?_, fun hclk hbusy => ?_, fun hoff => ?_⟩
  · obtain ⟨rfl, rfl⟩ := hrec.determined hh1
    rw [done hclk hbusy, hdone, hrem hpkt]
    simp only [if_neg hpkt]
    rfl
  · refine ⟨h, rem, n + if x.hw.pktRem = 0 then 1 else 0, ?_, hrem, fun hoff => (hrec.off hoff).1,
      fun hon hroom => ?_, fun hon hfull => (hrec.lost hon hfull).1, congrArg (· + _) hrec.draws⟩
    · rw [done hclk hbusy, hdone]
      rfl
    · obtain ⟨w, hh, hw, -⟩ := hrec.room hon hroom
      exact ⟨_, length_leBytes _ w, hh, fun v hv => by rw [(hw v hv).1]⟩
  · refine (execShDone_eq hx).trans (if_neg fun he => ?_)
    obtain ⟨hclk, hbusy⟩ := x.shDoneEnabled_iff.mp he
    rcases hoff with h | h
    · simp [hclk] at h
    · simp [hbusy] at h
end

section
/-! PROOFS. What stops an instruction (R80, U7, U8, D1): one rule for each of the model's ways to sequence outcomes, then
the instructions one by one. -/

namespace Sys2Proof.Machine

/-- The outcome is a next state or a fault that `F` admits, and no refusal. -/
inductive StopsOnly (F : Fault → Prop) : Out → Prop where
  | next (s : State) : StopsOnly F (.next s)
  | fault (f : Fault) (h : F f) : StopsOnly F (.fault f)

namespace StopsOnly
variable {F : Fault → Prop} {s : State} {c : Byte}

theorem ite {p : Prop} [Decidable p] {a b : Out} (ha : p → StopsOnly F a) (hb : ¬ p → StopsOnly F b) :
    StopsOnly F (if p then a else b) := by
  split
  · next hp => exact ha hp
  · next hp => exact hb hp

theorem clocked {v : View} {k : Out} (hv : F .registerAccessClockOff ∨ v.c.clkOn = true) (hk : StopsOnly F k) :
    StopsOnly F (v.clocked k) :=
  ite (fun _ => hk) fun hoff => .fault _ (hv.resolve_right hoff)

theorem deassertClocked {v : View} {k : View → Out} (hv : F .registerAccessClockOff ∨ v.c.clkOn = true)
    (hk : StopsOnly F (k v.csDeassert)) : StopsOnly F (v.deassertClocked k) :=
  ite (fun _ => clocked hv hk) fun _ => hk

theorem andThen {o : Out} {k : State → Out} (ho : StopsOnly F o) (hk : ∀ s, StopsOnly F (k s)) :
    StopsOnly F (andThen o k) := by
  cases ho with
  | next s => exact hk s
  | fault f h => exact .fault f h

theorem withCtrl {k : View → Out} (hk : ∀ x, s.ctrlAt c = some x → StopsOnly F (k ⟨s, c, x⟩)) :
    StopsOnly F (s.withCtrl c k) := by
  unfold State.withCtrl
  split
  · exact .next s
  · next x hx => exact hk x hx

theorem withTransfer {e : Ctrl → Bool} {k : View → Transfer → Out}
    (hk : ∀ x t, s.ctrlAt c = some x → e x = true → StopsOnly F (k ⟨s, c, x⟩ t)) :
    StopsOnly F (s.withTransfer c e k) :=
  withCtrl fun x hx => ite (fun he => by
    dsimp only at he ⊢
    split
    · exact .next s
    · next t _ => exact hk x t hx he) fun _ => .next s

theorem withBinding {e : Ctrl → Bool} {k : View → Binding → Out}
    (hk : ∀ x b, s.ctrlAt c = some x → e x = true → StopsOnly F (k ⟨s, c, x⟩ b)) :
    StopsOnly F (s.withBinding c e k) :=
  withCtrl fun x hx => ite (fun he => by
    dsimp only at he ⊢
    split
    · exact .next s
    · next b _ => exact hk x b hx he) fun _ => .next s

theorem withOwner {e : Ctrl → Bool} {k : View → Nat → Out}
    (hk : ∀ x tag, s.ctrlAt c = some x → e x = true → StopsOnly F (k ⟨s, c, x⟩ tag)) :
    StopsOnly F (s.withOwner c e k) :=
  withCtrl fun x hx => ite (fun he => by
    dsimp only at he ⊢
    split
    · exact .next s
    · next tag _ => exact hk x tag hx he) fun _ => .next s

theorem withLessee {k : Byte} {k' : View → Out} (hk : ∀ c x, StopsOnly F (k' ⟨s, c, x⟩)) :
    StopsOnly F (s.withLessee k k') := by
  unfold State.withLessee
  split
  · exact .next s
  · next c _ => exact withCtrl fun x _ => hk c x

theorem withHandle {k : Ctrl → Out} (hk : ∀ x, s.ctrlAt c = some x → StopsOnly F (k x)) :
    StopsOnly F (s.withHandle c k) := by
  unfold State.withHandle
  split
  · exact .next _
  · next x hx => exact hk x hx

theorem checkForm {f : PacketForm} {n : Nat} {k : Out} (hk : StopsOnly F k) : StopsOnly F (s.checkForm f n k) := by
  cases f
  · exact hk
  · exact .next _
  · exact .next _

theorem whileTransporting {k : State → Out} (hk : StopsOnly F (k s)) : StopsOnly F (s.whileTransporting c k) := by
  unfold State.whileTransporting
  split
  · exact .next s
  · exact ite (fun _ => hk) fun _ => .next s

end StopsOnly

/-! ### Clocks in service (R38 item 4, R213) -/

/-- A gated clock is an admitted fault, or the clocks are as R38 item 4 says. -/
def State.ClockedOr (F : Fault → Prop) (s : State) : Prop := F .registerAccessClockOff ∨ s.clocksRight

section
variable {F : Fault → Prop} {s : State} {c : Byte} {x : Ctrl}

theorem State.ClockedOr.active (h : s.ClockedOr F) (hx : s.ctrlAt c = some x) (hp : x.pstate = .active) :
    F .registerAccessClockOff ∨ x.clkOn = true :=
  h.imp_right fun hs => (hs c x hx).1.mpr hp

/-- A Message is in service only with the clocks running. -/
theorem State.ClockedOr.serving (h : s.ClockedOr F) (hx : s.ctrlAt c = some x) (hs : x.seq.state ≠ .idle) :
    F .registerAccessClockOff ∨ x.clkOn = true :=
  h.imp_right fun hr => (hr c x hx).1.mpr ((hr c x hx).2.1 hs)

theorem State.ClockedOr.inState (h : s.ClockedOr F) (hx : s.ctrlAt c = some x) {q : SeqState}
    (he : x.inState q = true) (hq : q ≠ .idle) : F .registerAccessClockOff ∨ x.clkOn = true :=
  h.serving hx ((x.inState_iff q).mp he ▸ hq)

theorem State.ClockedOr.inPhase (h : s.ClockedOr F) (hx : s.ctrlAt c = some x) {p : Phase}
    (he : x.inPhase p = true) : F .registerAccessClockOff ∨ x.clkOn = true :=
  h.serving hx (((x.inPhase_iff p).mp he).1 ▸ nofun)

/-! ### Commands -/

theorem execNew_stops (f : PacketForm) (a : NewArgs) : StopsOnly F (execNew f c a s) :=
  .checkForm <| .ite (fun _ => .next _) fun _ => .ite (fun _ => .next _) fun _ => .ite (fun _ => .next _) fun _ =>
    .ite (fun _ => .next _) fun _ => .ite (fun _ => .next _) fun _ => .next _

theorem execDestroy_stops (f : PacketForm) : StopsOnly F (execDestroy f c s) :=
  .checkForm <| .withHandle fun _ _ => .ite (fun _ => .next _) fun _ => .next _

theorem execBind_stops (f : PacketForm) (b : Byte) (a : BindArgs) : StopsOnly F (execBind f c b a s) :=
  .checkForm <| .withHandle fun _ _ => .ite (fun _ => .next _) fun _ => .ite (fun _ => .next _) fun _ =>
    .ite (fun _ => .next _) fun _ => .ite (fun _ => .next _) fun _ => .ite (fun _ => .next _) fun _ => by
      split
      · exact .next _
      · exact .next _

theorem execSubmit_stops (f : PacketForm) (b : Byte) (ts : List Transfer) : StopsOnly F (execSubmit f c b ts s) :=
  .checkForm <| .ite (fun _ => .next _) fun _ => by
    split
    · exact .next _
    · split
      · exact .next _
      · split
        · exact .next _
        · exact .ite (fun _ => .next _) fun _ => .next _

theorem execOnSuspend_stops (f : PacketForm) : StopsOnly F (execOnSuspend f c s) :=
  .checkForm <| .withHandle fun _ _ => .ite (fun _ => .next _) fun _ => .next _

theorem execOnResume_stops (f : PacketForm) : StopsOnly F (execOnResume f c s) :=
  .checkForm <| .withHandle fun _ _ => .ite (fun _ => .next _) fun _ => .next _

theorem execOnIdle_stops (f : PacketForm) : StopsOnly F (execOnIdle f c s) :=
  .checkForm <| .withHandle fun _ _ => .ite (fun _ => .next _) fun _ => .ite (fun _ => .next _) fun _ =>
    .ite (fun _ => .next _) fun _ => .ite (fun _ => .next _) fun _ => .next _

theorem execOnActive_stops (f : PacketForm) : StopsOnly F (execOnActive f c s) :=
  .checkForm <| .withHandle fun _ _ => .ite (fun _ => .next _) fun _ => .ite (fun _ => .next _) fun _ =>
    .ite (fun _ => .next _) fun _ => .next _

/-- FLUSH touches the registers only in ACTIVE (R201). -/
theorem execFlush_stops (hc : s.ClockedOr F) (f : PacketForm) : StopsOnly F (execFlush f c s) :=
  .checkForm <| .withHandle fun _ hx => .ite (fun _ => .next _) fun _ => .ite (fun _ => .next _) fun hp =>
    .clocked (hc.active hx (not_not.mp hp)) (.next _)

/-! ### The sequencer -/

theorem execSeqStart_stops (pick : Nat) : StopsOnly F (execSeqStart c pick s) :=
  .withCtrl fun _ _ => .ite (fun _ => by
    split
    · exact .next _
    · exact .next _) fun _ => .next _

theorem execSeqConfigDevice_stops (hc : s.ClockedOr F) : StopsOnly F (execSeqConfigDevice c s) :=
  .withBinding fun _ _ hx he => .clocked (hc.inState hx he nofun) (.next _)

theorem execSeqSelectCs_stops (hc : s.ClockedOr F) : StopsOnly F (execSeqSelectCs c s) :=
  .withBinding fun _ _ hx he => .ite (fun _ => .next _) fun _ => .clocked (hc.inState hx he nofun) (.next _)

theorem execSeqConfiguring_stops (hc : s.ClockedOr F) : StopsOnly F (execSeqConfiguring c s) :=
  .withBinding fun _ _ hx he => by
    split
    · exact .next _
    · refine .ite (fun _ => ?_) fun _ => .next _
      split
      · exact .next _
      · exact .clocked (hc.inState hx he nofun) (.next _)

theorem execSeqPostDelay_stops : StopsOnly F (execSeqPostDelay c s) := .withTransfer fun _ _ _ _ => .next _

theorem execSeqAdvance_stops (hc : s.ClockedOr F) : StopsOnly F (execSeqAdvance c s) :=
  .withTransfer fun _ _ hx he => by
    have clk := hc.inState hx he nofun
    exact .ite (fun _ => .ite (fun _ => .deassertClocked clk (.next _)) fun _ => .next _)
      fun _ => .ite (fun _ => .next _) fun _ => .deassertClocked clk (.next _)

theorem execSeqComplete_stops : StopsOnly F (execSeqComplete c s) := .withOwner fun _ _ _ _ => .next _

theorem execSeqFail_stops (hc : s.ClockedOr F) : StopsOnly F (execSeqFail c s) :=
  .withOwner fun _ _ hx he => .clocked (hc.inState hx he nofun) (.next _)

/-! ### The transports -/

theorem execPArm_stops (hc : s.ClockedOr F) : StopsOnly F (execPArm c s) :=
  .withTransfer fun _ _ hx he => .clocked (hc.inPhase hx he) (.next _)

theorem execPPoll_stops (hc : s.ClockedOr F) : StopsOnly F (execPPoll c s) :=
  .withTransfer fun _ _ hx he => .clocked (hc.inPhase hx he) (.next _)

theorem execPDrain_stops (hc : s.ClockedOr F) : StopsOnly F (execPDrain c s) :=
  .withTransfer fun _ _ hx he => .clocked (hc.inPhase hx he) (.next _)

theorem execDMap_stops : StopsOnly F (execDMap c s) := .withTransfer fun _ _ _ _ => .next _

theorem execDArm_stops (hc : s.ClockedOr F) : StopsOnly F (execDArm c s) :=
  .withTransfer fun _ _ hx he => .clocked (hc.inPhase hx he) (.next _)

theorem execDWait_stops (hc : s.ClockedOr F) : StopsOnly F (execDWait c s) :=
  .withTransfer fun _ _ hx he => by
    have clk := hc.inPhase hx he
    exact .ite (fun _ => .ite (fun _ => .clocked clk (.next _)) fun _ => .next _)
      fun _ => .ite (fun _ => .clocked clk (.next _)) fun _ => .next _

theorem execDTxdrain_stops (hc : s.ClockedOr F) : StopsOnly F (execDTxdrain c s) :=
  .withTransfer fun _ _ hx he => .clocked (hc.inPhase hx he) (.next _)

/-! ### The serial engine, the channels, the environment -/

theorem execShLoad_stops : StopsOnly F (execShLoad c s) :=
  .withCtrl fun _ _ => .ite (fun _ => .next _) fun _ => .next _

theorem execShDone_stops : StopsOnly F (execShDone c s) :=
  .withCtrl fun _ _ => .ite (fun _ => .next _) fun _ => .next _

theorem execErrInject_stops (m : Conds) : StopsOnly F (execErrInject c m s) :=
  .withCtrl fun _ _ => .ite (fun _ => .next _) fun _ => .next _

theorem execErrIrq_stops : StopsOnly F (execErrIrq c s) :=
  .withCtrl fun _ _ => .ite (fun _ => .next _) fun _ => .next _

theorem execPowerLoss_stops : StopsOnly F (execPowerLoss c s) :=
  .withCtrl fun _ _ => .ite (fun _ => .next _) fun _ => .next _

theorem execAcqAttempt_stops : StopsOnly F (execAcqAttempt c s) :=
  .withCtrl fun _ _ => .ite (fun _ => .next _) fun _ => .next _

theorem execSuspendFinish_stops : StopsOnly F (execSuspendFinish c s) :=
  .withCtrl fun _ _ => .ite (fun _ => .next _) fun _ => .next _

theorem execDmaTxBeat_stops (hF : F .deviceAccessUnmapped) (k : Byte) : StopsOnly F (execDmaTxBeat k s) :=
  .withLessee fun _ _ => .ite (fun _ => by
    split
    · exact .fault _ hF
    · exact .next _) fun _ => .next _

theorem execDmaRxBeat_stops (hF : F .deviceAccessUnmapped) (k : Byte) : StopsOnly F (execDmaRxBeat k s) :=
  .withLessee fun _ _ => .ite (fun _ => by
    split
    · exact .fault _ hF
    · exact .next _) fun _ => .next _

theorem execDmaTxDone_stops (k : Byte) : StopsOnly F (execDmaTxDone k s) :=
  .withLessee fun _ _ => .ite (fun _ => .next _) fun _ => .next _

theorem execDmaRxDone_stops (k : Byte) : StopsOnly F (execDmaRxDone k s) :=
  .withLessee fun _ _ => .ite (fun _ => .next _) fun _ => .next _

end

/-! ### Micro-operations and composites, for which a gated clock is an admitted fault (log entry 3) -/

section
variable {F : Fault → Prop} {c : Byte}

theorem execDmaAbort_stops (s : State) : StopsOnly F (execDmaAbort c s) := .withCtrl fun _ _ => .next _

variable (hclk : F .registerAccessClockOff)
include hclk

theorem execConfigure_stops (sp : Word) (m : SpiMode) (w : BitVec 6) (s : State) :
    StopsOnly F (execConfigure c sp m w s) :=
  .withCtrl fun _ _ => .ite (fun _ => by
    split
    · exact .next _
    · exact .clocked (.inl hclk) (.next _)) fun _ => .next _

theorem execCsAssert_stops (b : Byte) (s : State) : StopsOnly F (execCsAssert c b s) :=
  .withCtrl fun _ _ => .ite (fun _ => .clocked (.inl hclk) (.next _)) fun _ => .next _

theorem execCsDeassert_stops (s : State) : StopsOnly F (execCsDeassert c s) :=
  .withCtrl fun _ _ => .ite (fun _ => .next _) fun _ => .deassertClocked (.inl hclk) (.next _)

theorem execErrAck_stops (s : State) : StopsOnly F (execErrAck c s) :=
  .withCtrl fun _ _ => .clocked (.inl hclk) (.next _)

theorem execFlushOp_stops (s : State) : StopsOnly F (execFlushOp c s) :=
  .withCtrl fun _ _ => .clocked (.inl hclk) (.next _)

theorem execHwInit_stops (s : State) : StopsOnly F (execHwInit c s) :=
  .withCtrl fun _ _ => .clocked (.inl hclk) (.next _)

omit hclk in
theorem shiftWords_stops (n : Nat) (s : State) : StopsOnly F (shiftWords c n s) := by
  induction n generalizing s with
  | zero => exact .next s
  | succ n ih => exact .andThen execShLoad_stops fun _ => .andThen execShDone_stops ih

omit hclk in
theorem lookUntilDeadline_stops (p : Phase) {look : State → Out} (hl : ∀ s, StopsOnly F (look s)) (s : State) :
    StopsOnly F (lookUntilDeadline c p look s) := .andThen (hl s) fun _ => hl _

theorem execXferPoll_stops (s : State) : StopsOnly F (execXferPoll c s) :=
  .withCtrl fun _ _ => .ite
    (fun _ => .andThen (execPArm_stops (.inl hclk)) fun _ => .andThen (shiftWords_stops _ _) fun _ =>
      .andThen (lookUntilDeadline_stops _ (fun _ => execPPoll_stops (.inl hclk)) _) fun _ =>
        execPDrain_stops (.inl hclk))
    fun _ => .next s

variable (hdev : F .deviceAccessUnmapped) {kt kr : Byte}
include hdev

omit hclk in
theorem moveWords_stops (n : Nat) (s : State) : StopsOnly F (moveWords c kt kr n s) := by
  induction n generalizing s with
  | zero => exact .next s
  | succ n ih =>
    exact .andThen (execDmaTxBeat_stops hdev kt) fun _ => .andThen execShLoad_stops fun _ =>
      .andThen execShDone_stops fun _ => .andThen (execDmaRxBeat_stops hdev kr) ih

theorem subTransfer_stops (s : State) : StopsOnly F (subTransfer c kt kr s) :=
  .andThen execDMap_stops fun _ => .whileTransporting <|
    .andThen (execDArm_stops (.inl hclk)) fun _ => .andThen (moveWords_stops hdev _ _) fun _ =>
    .andThen (execDmaTxDone_stops kt) fun _ => .andThen (execDmaRxDone_stops kr) fun _ =>
    .andThen (lookUntilDeadline_stops _ (fun _ => execDWait_stops (.inl hclk)) _)
      (lookUntilDeadline_stops _ fun _ => execDTxdrain_stops (.inl hclk))

theorem subTransfers_stops (n : Nat) (s : State) : StopsOnly F (subTransfers c kt kr n s) := by
  induction n generalizing s with
  | zero => exact .next s
  | succ n ih => exact .andThen (subTransfer_stops hclk hdev s) fun s1 => .whileTransporting (ih s1)

theorem execXferDma_stops (s : State) : StopsOnly F (execXferDma c s) :=
  .withTransfer fun _ _ _ _ => subTransfers_stops hclk hdev _ s

end

/-! ### All instructions -/

/-- The faults that the rules leave an instruction in a state (R80, U7, U8). -/
def MayStop (i : Instr) (s : State) : Fault → Prop
  | .registerAccessClockOff => s.clocksRight → microOp i = true
  | .deviceAccessUnmapped => (∃ k, i = .dmaTxBeat k) ∨ (∃ k, i = .dmaRxBeat k) ∨ (∃ c, i = .xferDma c)

theorem State.clockedOr_mayStop (i : Instr) (s : State) : s.ClockedOr (MayStop i s) := by
  by_cases hs : s.clocksRight
  · exact .inr hs
  · exact .inl fun h => absurd h hs

theorem exec_stopsOnly (i : Instr) (s : State) : StopsOnly (MayStop i s) (exec i s) := by
  have hc := s.clockedOr_mayStop i
  cases i with
  | new f c a => exact execNew_stops f a
  | destroy f c => exact execDestroy_stops f
  | bind f c k a => exact execBind_stops f k a
  | submit f c k ts => exact execSubmit_stops f k ts
  | onSuspend f c => exact execOnSuspend_stops f
  | onResume f c => exact execOnResume_stops f
  | onIdle f c => exact execOnIdle_stops f
  | onActive f c => exact execOnActive_stops f
  | flush f c => exact execFlush_stops hc f
  | seqStart c pick => exact execSeqStart_stops pick
  | seqConfigDevice c => exact execSeqConfigDevice_stops hc
  | seqSelectCs c => exact execSeqSelectCs_stops hc
  | seqConfiguring c => exact execSeqConfiguring_stops hc
  | pArm c => exact execPArm_stops hc
  | pPoll c => exact execPPoll_stops hc
  | pDrain c => exact execPDrain_stops hc
  | dMap c => exact execDMap_stops
  | dArm c => exact execDArm_stops hc
  | dWait c => exact execDWait_stops hc
  | dTxdrain c => exact execDTxdrain_stops hc
  | seqPostDelay c => exact execSeqPostDelay_stops
  | seqAdvance c => exact execSeqAdvance_stops hc
  | seqComplete c => exact execSeqComplete_stops
  | seqFail c => exact execSeqFail_stops hc
  | configure c sp m w => exact execConfigure_stops (fun _ => rfl) sp m w s
  | csAssert c k => exact execCsAssert_stops (fun _ => rfl) k s
  | csDeassert c => exact execCsDeassert_stops (fun _ => rfl) s
  | errAck c => exact execErrAck_stops (fun _ => rfl) s
  | flushOp c => exact execFlushOp_stops (fun _ => rfl) s
  | hwInit c => exact execHwInit_stops (fun _ => rfl) s
  | dmaAbort c => exact execDmaAbort_stops s
  | xferPoll c => exact execXferPoll_stops (fun _ => rfl) s
  | xferDma c => exact execXferDma_stops (fun _ => rfl) (.inr (.inr ⟨c, rfl⟩)) s
  | shLoad c => exact execShLoad_stops
  | shDone c => exact execShDone_stops
  | dmaTxBeat k => exact execDmaTxBeat_stops (.inl ⟨k, rfl⟩) k
  | dmaRxBeat k => exact execDmaRxBeat_stops (.inr (.inl ⟨k, rfl⟩)) k
  | dmaTxDone k => exact execDmaTxDone_stops k
  | dmaRxDone k => exact execDmaRxDone_stops k
  | errIrq c => exact execErrIrq_stops
  | errInject c m => exact execErrInject_stops m
  | powerLoss c => exact execPowerLoss_stops
  | tick d => exact .next _
  | acqAttempt c => exact execAcqAttempt_stops
  | suspendFinish c => exact execSuspendFinish_stops

/-! ### Steps asked for in another state or phase (log entry 2) -/

theorem Phase.isPoll_iff (p : Phase) : p.isPoll = true ↔ p = .pArm ∨ p = .pPoll ∨ p = .pDrain := by
  cases p <;> simp [Phase.isPoll]

theorem Phase.isDma_iff (p : Phase) : p.isDma = true ↔ p = .dMap ∨ p = .dArm ∨ p = .dWait ∨ p = .dTxdrain := by
  cases p <;> simp [Phase.isDma]

section
variable {s : State} {c : Byte} {x : Ctrl} {q : SeqState} {p : Phase} (hx : s.ctrlAt c = some x)
include hx

theorem State.withTransfer_disabled {e : Ctrl → Bool} {k : View → Transfer → Out} (he : ¬ e x = true) :
    s.withTransfer c e k = .next s := (State.withCtrl_some s c x _ hx).trans (if_neg he)

theorem State.withTransfer_otherPhase {k : View → Transfer → Out}
    (h : ¬ (x.seq.state = .transporting ∧ x.seq.phase = p)) : s.withTransfer c (fun y => y.inPhase p) k = .next s :=
  State.withTransfer_disabled hx (mt (x.inPhase_iff p).mp h)

theorem State.withTransfer_otherState {k : View → Transfer → Out} (h : x.seq.state ≠ q) :
    s.withTransfer c (fun y => y.inState q) k = .next s := State.withTransfer_disabled hx (mt (x.inState_iff q).mp h)

theorem State.withBinding_otherState {k : View → Binding → Out} (h : x.seq.state ≠ q) :
    s.withBinding c (fun y => y.inState q) k = .next s :=
  (State.withCtrl_some s c x _ hx).trans (if_neg (mt (x.inState_iff q).mp h))

theorem State.withOwner_otherState {k : View → Nat → Out} (h : x.seq.state ≠ q) :
    s.withOwner c (fun y => y.inState q) k = .next s :=
  (State.withCtrl_some s c x _ hx).trans (if_neg (mt (x.inState_iff q).mp h))

theorem execXferPoll_otherPhase (h : ¬ (x.seq.state = .transporting ∧ x.seq.phase.isPoll = true)) :
    execXferPoll c s = .next s :=
  (State.withCtrl_some s c x _ hx).trans (if_neg (by simpa using h))

theorem execXferDma_otherPhase (h : ¬ (x.seq.state = .transporting ∧ x.seq.phase.isDma = true)) :
    execXferDma c s = .next s := State.withTransfer_disabled hx (by simpa using h)

theorem execSeqPostDelay_otherState (h : x.seq.state ≠ .postDelay) : execSeqPostDelay c s = .next s :=
  State.withTransfer_disabled hx fun he => h ((x.inState_iff _).mp (Bool.and_eq_true_iff.mp he).1)

end

end Sys2Proof.Machine

open Sys2Proof Sys2Proof.Machine

/-- Settles O53: every instruction stops only as `MayStop` admits, and a step asked for elsewhere finds its enabling
condition false. -/
theorem onlyNamedStops : Obligations.OnlyNamedStops := by
  unfold Obligations.OnlyNamedStops
  refine ⟨fun i s r h => ?_, fun i s h => ?_, fun i s hs hi h => ?_, fun s c x hx => ?_⟩
  · have stops := exec_stopsOnly i s
    rw [h] at stops
    cases stops
  · have stops := exec_stopsOnly i s
    rw [h] at stops
    cases stops with
    | fault f hf => exact hf
  · have stops := exec_stopsOnly i s
    rw [h] at stops
    cases stops with
    | fault f hf => exact Bool.false_ne_true (hi.symm.trans (hf hs))
  · dsimp only [exec]
    simp only [← and_or_left, ← Phase.isPoll_iff, ← Phase.isDma_iff]
    exact ⟨State.withBinding_otherState hx, State.withBinding_otherState hx, State.withBinding_otherState hx,
      State.withTransfer_otherPhase hx, State.withTransfer_otherPhase hx, State.withTransfer_otherPhase hx,
      State.withTransfer_otherPhase hx, State.withTransfer_otherPhase hx, State.withTransfer_otherPhase hx,
      State.withTransfer_otherPhase hx, execXferPoll_otherPhase hx, execXferDma_otherPhase hx,
      execSeqPostDelay_otherState hx, State.withTransfer_otherState hx, State.withOwner_otherState hx,
      State.withOwner_otherState hx⟩
end

section
/-! PROOFS. The time (R94; log entry 25): every instruction but TICK and the two composites leaves it as it was, the
composites do not turn it back; and ERR_INJECT (R93). -/

namespace Sys2Proof.Machine

/-! ### What the shared operations leave of the time -/

section
variable (v : View)

@[simp] theorem View.checkStatus_now : v.checkStatus.st.now = v.st.now := by rw [View.checkStatus_st]

@[simp] theorem View.fail_now (k : ErrKind) (n : Nat) : (v.fail k n).st.now = v.st.now := by rw [View.fail_st]

@[simp] theorem View.csAssert_now (b : Byte) : (v.csAssert b).st.now = v.st.now := by rw [View.csAssert_st]

@[simp] theorem View.csDeassert_now : v.csDeassert.st.now = v.st.now := by rw [View.csDeassert_st]

@[simp] theorem View.dmaAbort_now : v.dmaAbort.st.now = v.st.now := by rw [View.dmaAbort_st]

@[simp] theorem View.unmapOwed_now : v.unmapOwed.st.now = v.st.now := by rw [View.unmapOwed_st]

@[simp] theorem View.countRetry_now : v.countRetry.st.now = v.st.now := by rw [View.countRetry_st]

@[simp] theorem State.mapAsked_now (s : State) : s.mapAsked.now = s.now := by rw [State.mapAsked_eq]

@[simp] theorem State.freeLease_now (s : State) (o k : Byte) : (s.freeLease o k).now = s.now := by
  rw [State.freeLease_eq]

@[simp] theorem State.answerWaiters_now (s : State) (k : ErrKind) (i : Nat) (ws : List Waiter) :
    (s.answerWaiters k i ws).now = s.now := by rw [State.answerWaiters_eq]

@[simp] theorem State.answerActive_now (s : State) (c : Byte) (x : Ctrl) (k : ErrKind) (i : Nat) :
    (s.answerActive c x k i).now = s.now := by
  unfold State.answerActive
  split <;> rfl

@[simp] theorem State.linesInactive_now (s : State) (bs : List (Nat × Binding)) :
    (s.linesInactive bs).now = s.now := by
  induction bs generalizing s with
  | nil => rfl
  | cons p bs ih =>
    unfold State.linesInactive
    split
    · exact ih s
    · exact ih _

/-! ### The steps' effects -/

@[simp] theorem View.deselectOther_now : v.deselectOther.st.now = v.st.now := by
  unfold View.deselectOther
  split
  · rfl
  · split
    · rfl
    · exact v.csDeassert_now

theorem View.configure_now {v w : View} {sp : Word} {m : SpiMode} {wd : BitVec 6} (h : v.configure sp m wd = .ok w) :
    w.st.now = v.st.now := by
  obtain ⟨hst, -⟩ := View.configure_ok v w sp m wd h
  rw [hst]

theorem View.txBeats_now {v w : View} {wb n : Nat} {a : Word} (h : View.txBeats wb n a v = some w) :
    w.st.now = v.st.now := by
  obtain ⟨-, hst, -⟩ := View.txBeats_some h
  rw [hst]

theorem View.rxBeats_now {v w : View} {wb n : Nat} {a : Word} (h : View.rxBeats wb n a v = some w) :
    w.st.now = v.st.now := by
  obtain ⟨-, hst, -⟩ := View.rxBeats_some h
  rw [hst]

theorem View.configured_now (t : Transfer) : (v.configured t).st.now = v.st.now := by
  unfold View.configured
  dsimp only
  split <;> rfl

theorem View.accumulate_now (t : Transfer) : (v.accumulate t).st.now = v.st.now := by
  unfold View.accumulate
  split <;> rfl

theorem View.seqFail_now (tag : Nat) : (v.seqFail tag).st.now = v.st.now := by
  show v.recover.st.now = v.st.now
  simp [View.recover]

theorem View.validateStatus_now (t : Transfer) (n : Nat) : (v.validateStatus t n).st.now = v.st.now := by
  unfold View.validateStatus
  dsimp only
  split
  · simp
  · exact v.checkStatus_now

theorem View.pPoll_now (t : Transfer) : (v.pPoll t).st.now = v.st.now := by
  unfold View.pPoll
  dsimp only
  split
  · simp
  · split
    · exact v.checkStatus_now
    · split
      · simp
      · exact v.checkStatus_now

theorem View.drainWords_now (wb k : Nat) (a : Word) : (View.drainWords wb k a v).st.now = v.st.now := by
  induction k generalizing a v with
  | zero => rfl
  | succ k ih =>
    refine (ih _ _).trans ?_
    show (v.readRx wb).2.st.now = v.st.now
    rw [View.readRx_st]

theorem View.pDrain_now (t : Transfer) : (v.pDrain t).st.now = v.st.now := by
  refine (View.validateStatus_now _ t _).trans ?_
  show (if t.rxPresent then View.drainWords v.c.wb (t.len.toNat / v.c.wb) t.rx v else v).st.now = v.st.now
  split
  · exact View.drainWords_now _ _ _ _
  · rfl

theorem View.mapRxThen_now (t : Transfer) : (v.mapRxThen t).st.now = v.st.now := by
  rcases v.mapRxThen_cases t with e | ⟨d, e⟩ | e <;> rw [e]
  · simp
  · exact State.mapAsked_now _
  · rfl

theorem View.dMap_now (t : Transfer) : (v.dMap t).st.now = v.st.now := by
  rcases v.dMap_cases t with e | e | ⟨d, e⟩ | e <;> rw [e]
  · rfl
  · rw [View.fail_now]
    exact State.mapAsked_now _
  · rw [View.mapRxThen_now]
    exact State.mapAsked_now _
  · rw [View.mapRxThen_now]
    rfl

theorem View.armChannels_now (t : Transfer) : (v.armChannels t).now = v.st.now := by
  unfold View.armChannels
  dsimp only
  split <;> split <;> rfl

theorem View.dEpilog_now (t : Transfer) : (v.dEpilog t).st.now = v.st.now := by
  have checked : ((v.onHw Hw.dEpilog).unmapOwed).checkStatus.st.now = v.st.now := by simp
  unfold View.dEpilog
  dsimp only
  split
  · exact (View.fail_now _ _ _).trans checked
  · split
    · exact checked
    · exact checked

theorem View.dmaGiveUp_now : v.dmaGiveUp.st.now = v.st.now := by
  unfold View.dmaGiveUp
  dsimp only
  split <;> simp

theorem View.dTxdrain_now (t : Transfer) : (v.dTxdrain t).now = v.st.now := by
  unfold View.dTxdrain
  split
  · exact v.dEpilog_now t
  · split
    · exact v.dmaGiveUp_now
    · rfl

theorem View.shLoad_now : v.shLoad.st.now = v.st.now := by
  unfold View.shLoad
  dsimp only
  split
  · split <;> rfl
  · rfl

theorem View.acqAttempt_now : v.acqAttempt.st.now = v.st.now := by
  unfold View.acqAttempt
  split
  · exact State.answerActive_now _ _ _ _ _
  · split
    · exact v.countRetry_now
    · simp [View.giveUp]

theorem View.suspendFinish_now : v.suspendFinish.st.now = v.st.now := by
  have answered : ((v.st.answerWaiters .channelUnavailable 2 v.c.waitq).answerActive v.c.id v.c
      .channelUnavailable 2).now = v.st.now := by simp
  unfold View.suspendFinish
  dsimp only
  split <;> exact answered

theorem View.resume_now : v.resume.st.now = v.st.now := by
  unfold View.resume
  dsimp only
  rw [View.dropHolder_eq, View.resumeHw_eq]
  exact State.linesInactive_now _ _

end

theorem State.bindDone_now (s : State) (c b : Byte) (x : Ctrl) (a : BindArgs) (n : Nat) :
    (s.bindDone c b x a n).now = s.now := by
  unfold State.bindDone
  dsimp only
  split <;> rfl

theorem State.destroyDone_now (s : State) (c : Byte) (x : Ctrl) : (s.destroyDone c x).now = s.now := by
  unfold State.destroyDone
  simp

/-! ### The instructions -/

/-- The meaning leaves the time as it was. -/
def KeepsTime (f : State → Out) : Prop := ∀ s, Ends (fun u => u.now = s.now) (f s)

section
variable {c : Byte}

theorem execNew_keepsTime (f : PacketForm) (a : NewArgs) : KeepsTime (execNew f c a) := fun _ =>
  .checkForm (fun _ _ => rfl) fun _ => .ite (fun _ => .next rfl) fun _ => .ite (fun _ => .next rfl) fun _ =>
    .ite (fun _ => .next rfl) fun _ => .ite (fun _ => .next rfl) fun _ => .ite (fun _ => .next rfl) fun _ => .next rfl

theorem execDestroy_keepsTime (f : PacketForm) : KeepsTime (execDestroy f c) := fun _ =>
  .checkForm (fun _ _ => rfl) fun _ => .withHandle rfl fun _ _ => .ite (fun _ => .next rfl) fun _ =>
    .next (State.destroyDone_now _ _ _)

theorem execBind_keepsTime (f : PacketForm) (b : Byte) (a : BindArgs) : KeepsTime (execBind f c b a) := fun _ =>
  .checkForm (fun _ _ => rfl) fun _ => .withHandle rfl fun _ _ => .ite (fun _ => .next rfl) fun _ =>
    .ite (fun _ => .next rfl) fun _ => .ite (fun _ => .next rfl) fun _ => .ite (fun _ => .next rfl) fun _ =>
    .ite (fun _ => .next rfl) fun _ => by
      split
      · exact .next rfl
      · exact .next (State.bindDone_now _ _ _ _ _ _)

theorem execSubmit_keepsTime (f : PacketForm) (b : Byte) (ts : List Transfer) : KeepsTime (execSubmit f c b ts) :=
  fun _ => .checkForm (fun _ _ => rfl) fun _ => .ite (fun _ => .next rfl) fun _ => by
    split
    · exact .next rfl
    · split
      · exact .next rfl
      · split
        · exact .next rfl
        · exact .ite (fun _ => .next rfl) fun _ => .next rfl

theorem execOnSuspend_keepsTime (f : PacketForm) : KeepsTime (execOnSuspend f c) := fun _ =>
  .checkForm (fun _ _ => rfl) fun _ => .withHandle rfl fun _ _ => .ite (fun _ => .next rfl) fun _ => .next rfl

theorem execOnResume_keepsTime (f : PacketForm) : KeepsTime (execOnResume f c) := fun _ =>
  .checkForm (fun _ _ => rfl) fun _ => .withHandle rfl fun _ _ => .ite (fun _ => .next rfl) fun _ =>
    .next (View.resume_now _)

theorem execOnIdle_keepsTime (f : PacketForm) : KeepsTime (execOnIdle f c) := fun _ =>
  .checkForm (fun _ _ => rfl) fun _ => .withHandle rfl fun _ _ => .ite (fun _ => .next rfl) fun _ =>
    .ite (fun _ => .next rfl) fun _ => .ite (fun _ => .next rfl) fun _ => .ite (fun _ => .next rfl) fun _ => .next rfl

theorem execOnActive_keepsTime (f : PacketForm) : KeepsTime (execOnActive f c) := fun _ =>
  .checkForm (fun _ _ => rfl) fun _ => .withHandle rfl fun _ _ => .ite (fun _ => .next rfl) fun _ =>
    .ite (fun _ => .next rfl) fun _ => .ite (fun _ => .next rfl) fun _ => .next rfl

theorem execFlush_keepsTime (f : PacketForm) : KeepsTime (execFlush f c) := fun _ =>
  .checkForm (fun _ _ => rfl) fun _ => .withHandle rfl fun _ _ => .ite (fun _ => .next rfl) fun _ =>
    .ite (fun _ => .next rfl) fun _ => .clocked (.next rfl)

theorem execSeqStart_keepsTime (pick : Nat) : KeepsTime (execSeqStart c pick) := fun _ =>
  .withCtrl rfl fun _ _ => .ite (fun _ => by
    split
    · exact .next rfl
    · exact .next rfl) fun _ => .next rfl

theorem execSeqConfigDevice_keepsTime : KeepsTime (execSeqConfigDevice c) := fun _ =>
  .withBinding rfl fun _ _ _ _ _ => .clocked (.next (View.deselectOther_now _))

theorem execSeqSelectCs_keepsTime : KeepsTime (execSeqSelectCs c) := fun _ =>
  .withBinding rfl fun _ _ _ _ _ => .ite (fun _ => .next rfl) fun _ => .clocked (.next (View.csAssert_now _ _))

theorem execSeqConfiguring_keepsTime : KeepsTime (execSeqConfiguring c) := fun _ =>
  .withBinding rfl fun _ _ _ _ _ => by
    split
    · exact .next rfl
    · refine .ite (fun _ => ?_) fun _ => .next (View.configured_now _ _)
      split
      · exact .next (View.fail_now _ _ _)
      · next v1 h1 => exact .clocked (.next ((v1.configured_now _).trans (View.configure_now h1)))

theorem execSeqPostDelay_keepsTime : KeepsTime (execSeqPostDelay c) := fun _ =>
  .withTransfer rfl fun _ _ _ _ _ => .next (View.accumulate_now _ _)

theorem execSeqAdvance_keepsTime : KeepsTime (execSeqAdvance c) := fun _ =>
  .withTransfer rfl fun _ _ _ _ _ => .ite
    (fun _ => .ite (fun _ => .deassertClocked (.next (View.csDeassert_now _))) fun _ => .next rfl)
    fun _ => .ite (fun _ => .next rfl) fun _ => .deassertClocked (.next (View.csDeassert_now _))

theorem execSeqComplete_keepsTime : KeepsTime (execSeqComplete c) := fun _ =>
  .withOwner rfl fun _ _ _ _ _ => .next rfl

theorem execSeqFail_keepsTime : KeepsTime (execSeqFail c) := fun _ =>
  .withOwner rfl fun _ tag _ _ _ => .clocked (.next (View.seqFail_now _ tag))

theorem execPArm_keepsTime : KeepsTime (execPArm c) := fun _ =>
  .withTransfer rfl fun _ _ _ _ _ => .clocked (.next rfl)

theorem execPPoll_keepsTime : KeepsTime (execPPoll c) := fun _ =>
  .withTransfer rfl fun _ _ _ _ _ => .clocked (.next (View.pPoll_now _ _))

theorem execPDrain_keepsTime : KeepsTime (execPDrain c) := fun _ =>
  .withTransfer rfl fun _ _ _ _ _ => .clocked (.next (View.pDrain_now _ _))

theorem execDMap_keepsTime : KeepsTime (execDMap c) := fun _ =>
  .withTransfer rfl fun _ _ _ _ _ => .next (View.dMap_now _ _)

theorem execDArm_keepsTime : KeepsTime (execDArm c) := fun _ =>
  .withTransfer rfl fun _ _ _ _ _ => .clocked (.next (View.armChannels_now _ _))

theorem execDWait_keepsTime : KeepsTime (execDWait c) := fun _ =>
  .withTransfer rfl fun _ _ _ _ _ => .ite
    (fun _ => .ite (fun _ => .clocked (.next (View.dEpilog_now _ _))) fun _ => .next rfl)
    fun _ => .ite (fun _ => .clocked (.next (View.dmaGiveUp_now _))) fun _ => .next rfl

theorem execDTxdrain_keepsTime : KeepsTime (execDTxdrain c) := fun _ =>
  .withTransfer rfl fun _ _ _ _ _ => .clocked (.next (View.dTxdrain_now _ _))

theorem execConfigure_keepsTime (sp : Word) (m : SpiMode) (w : BitVec 6) : KeepsTime (execConfigure c sp m w) :=
  fun _ => .withCtrl rfl fun _ _ => .ite (fun _ => by
    split
    · exact .next rfl
    · next h => exact .clocked (.next (View.configure_now h))) fun _ => .next rfl

theorem execCsAssert_keepsTime (b : Byte) : KeepsTime (execCsAssert c b) := fun _ =>
  .withCtrl rfl fun _ _ => .ite (fun _ => .clocked (.next (View.csAssert_now _ _))) fun _ => .next rfl

theorem execCsDeassert_keepsTime : KeepsTime (execCsDeassert c) := fun _ =>
  .withCtrl rfl fun _ _ => .ite (fun _ => .next rfl) fun _ => .deassertClocked (.next (View.csDeassert_now _))

theorem execErrAck_keepsTime : KeepsTime (execErrAck c) := fun _ =>
  .withCtrl rfl fun _ _ => .clocked (.next rfl)

theorem execFlushOp_keepsTime : KeepsTime (execFlushOp c) := fun _ =>
  .withCtrl rfl fun _ _ => .clocked (.next rfl)

theorem execHwInit_keepsTime : KeepsTime (execHwInit c) := fun _ =>
  .withCtrl rfl fun _ _ => .clocked (.next rfl)

theorem execDmaAbort_keepsTime : KeepsTime (execDmaAbort c) := fun _ =>
  .withCtrl rfl fun _ _ => .next (View.dmaAbort_now _)

theorem execShLoad_keepsTime : KeepsTime (execShLoad c) := fun _ =>
  .withCtrl rfl fun _ _ => .ite (fun _ => .next (View.shLoad_now _)) fun _ => .next rfl

theorem execShDone_keepsTime : KeepsTime (execShDone c) := fun s =>
  .withCtrl rfl fun x _ => .ite (fun _ => by
    obtain ⟨h, rem, n, -, -, hdone⟩ := View.shDone_spec ⟨s, c, x⟩
    rw [hdone]
    exact .next rfl) fun _ => .next rfl

theorem execDmaTxBeat_keepsTime (k : Byte) : KeepsTime (execDmaTxBeat k) := fun _ =>
  .withLessee rfl fun _ _ _ _ => .ite (fun _ => by
    split
    · nofun
    · next v1 h1 => exact .next (View.txBeats_now h1)) fun _ => .next rfl

theorem execDmaRxBeat_keepsTime (k : Byte) : KeepsTime (execDmaRxBeat k) := fun _ =>
  .withLessee rfl fun _ _ _ _ => .ite (fun _ => by
    split
    · nofun
    · next v1 h1 => exact .next (View.rxBeats_now h1)) fun _ => .next rfl

theorem execDmaTxDone_keepsTime (k : Byte) : KeepsTime (execDmaTxDone k) := fun _ =>
  .withLessee rfl fun _ _ _ _ => .ite (fun _ => .next rfl) fun _ => .next rfl

theorem execDmaRxDone_keepsTime (k : Byte) : KeepsTime (execDmaRxDone k) := fun _ =>
  .withLessee rfl fun _ _ _ _ => .ite (fun _ => .next rfl) fun _ => .next rfl

theorem execErrIrq_keepsTime : KeepsTime (execErrIrq c) := fun _ =>
  .withCtrl rfl fun _ _ => .ite (fun _ => .next rfl) fun _ => .next rfl

theorem execErrInject_keepsTime (m : Conds) : KeepsTime (execErrInject c m) := fun _ =>
  .withCtrl rfl fun _ _ => .ite (fun _ => .next rfl) fun _ => .next rfl

theorem execPowerLoss_keepsTime : KeepsTime (execPowerLoss c) := fun _ =>
  .withCtrl rfl fun _ _ => .ite (fun _ => .next rfl) fun _ => .next rfl

theorem execAcqAttempt_keepsTime : KeepsTime (execAcqAttempt c) := fun _ =>
  .withCtrl rfl fun _ _ => .ite (fun _ => .next (View.acqAttempt_now _)) fun _ => .next rfl

theorem execSuspendFinish_keepsTime : KeepsTime (execSuspendFinish c) := fun _ =>
  .withCtrl rfl fun _ _ => .ite (fun _ => .next (View.suspendFinish_now _)) fun _ => .next rfl

end

/-- Only TICK and the composites change the time (R94; log entry 25). -/
theorem exec_keepsTime (i : Instr) (ht : ∀ d, i ≠ .tick d) (hp : ∀ c, i ≠ .xferPoll c) (hd : ∀ c, i ≠ .xferDma c) :
    KeepsTime (exec i) := by
  cases i with
  | new f c a => exact execNew_keepsTime f a
  | destroy f c => exact execDestroy_keepsTime f
  | bind f c k a => exact execBind_keepsTime f k a
  | submit f c k ts => exact execSubmit_keepsTime f k ts
  | onSuspend f c => exact execOnSuspend_keepsTime f
  | onResume f c => exact execOnResume_keepsTime f
  | onIdle f c => exact execOnIdle_keepsTime f
  | onActive f c => exact execOnActive_keepsTime f
  | flush f c => exact execFlush_keepsTime f
  | seqStart c pick => exact execSeqStart_keepsTime pick
  | seqConfigDevice c => exact execSeqConfigDevice_keepsTime
  | seqSelectCs c => exact execSeqSelectCs_keepsTime
  | seqConfiguring c => exact execSeqConfiguring_keepsTime
  | pArm c => exact execPArm_keepsTime
  | pPoll c => exact execPPoll_keepsTime
  | pDrain c => exact execPDrain_keepsTime
  | dMap c => exact execDMap_keepsTime
  | dArm c => exact execDArm_keepsTime
  | dWait c => exact execDWait_keepsTime
  | dTxdrain c => exact execDTxdrain_keepsTime
  | seqPostDelay c => exact execSeqPostDelay_keepsTime
  | seqAdvance c => exact execSeqAdvance_keepsTime
  | seqComplete c => exact execSeqComplete_keepsTime
  | seqFail c => exact execSeqFail_keepsTime
  | configure c sp m w => exact execConfigure_keepsTime sp m w
  | csAssert c k => exact execCsAssert_keepsTime k
  | csDeassert c => exact execCsDeassert_keepsTime
  | errAck c => exact execErrAck_keepsTime
  | flushOp c => exact execFlushOp_keepsTime
  | hwInit c => exact execHwInit_keepsTime
  | dmaAbort c => exact execDmaAbort_keepsTime
  | xferPoll c => exact absurd rfl (hp c)
  | xferDma c => exact absurd rfl (hd c)
  | shLoad c => exact execShLoad_keepsTime
  | shDone c => exact execShDone_keepsTime
  | dmaTxBeat k => exact execDmaTxBeat_keepsTime k
  | dmaRxBeat k => exact execDmaRxBeat_keepsTime k
  | dmaTxDone k => exact execDmaTxDone_keepsTime k
  | dmaRxDone k => exact execDmaRxDone_keepsTime k
  | errIrq c => exact execErrIrq_keepsTime
  | errInject c m => exact execErrInject_keepsTime m
  | powerLoss c => exact execPowerLoss_keepsTime
  | tick d => exact absurd rfl (ht d)
  | acqAttempt c => exact execAcqAttempt_keepsTime
  | suspendFinish c => exact execSuspendFinish_keepsTime

/-! ### Composites (R136, R160; log entry 25) -/

/-- The meaning never turns the time back. -/
def KeepsOrder (f : State → Out) : Prop := ∀ s, Ends (fun u => s.now ≤ u.now) (f s)

theorem KeepsTime.keepsOrder {f : State → Out} (hf : KeepsTime f) : KeepsOrder f := fun s =>
  (hf s).mono fun _ hu => Nat.le_of_eq hu.symm

namespace KeepsOrder
variable {f g : State → Out} {c : Byte}

theorem done : KeepsOrder .next := fun _ => .next (Nat.le_refl _)

theorem andThen (hf : KeepsOrder f) (hg : KeepsOrder g) : KeepsOrder fun s => andThen (f s) g := fun s =>
  .andThen (hf s) fun s1 h1 => (hg s1).mono fun _ h2 => Nat.le_trans h1 h2

theorem whileTransporting (hf : KeepsOrder f) : KeepsOrder fun s => s.whileTransporting c f := fun s =>
  .whileTransporting (Nat.le_refl _) (hf s)

theorem lookUntilDeadline {look : State → Out} (hl : KeepsTime look) (p : Phase) :
    KeepsOrder (lookUntilDeadline c p look) :=
  andThen hl.keepsOrder fun s => (hl _).mono fun _ hu => Nat.le_trans (s.le_untilDeadline c p) (Nat.le_of_eq hu.symm)

end KeepsOrder

section
variable {c kt kr : Byte}

theorem shiftWords_keepsOrder (n : Nat) : KeepsOrder (shiftWords c n) := by
  induction n with
  | zero => exact .done
  | succ n ih => exact execShLoad_keepsTime.keepsOrder.andThen (execShDone_keepsTime.keepsOrder.andThen ih)

theorem execXferPoll_keepsOrder : KeepsOrder (execXferPoll c) := fun s =>
  .withCtrl (Nat.le_refl _) fun _ _ => .ite
    (fun _ => execPArm_keepsTime.keepsOrder.andThen (.andThen (fun s1 => shiftWords_keepsOrder _ s1)
      (.andThen (.lookUntilDeadline execPPoll_keepsTime _) execPDrain_keepsTime.keepsOrder)) s)
    fun _ => .next (Nat.le_refl _)

theorem moveWords_keepsOrder (n : Nat) : KeepsOrder (moveWords c kt kr n) := by
  induction n with
  | zero => exact .done
  | succ n ih =>
    exact (execDmaTxBeat_keepsTime kt).keepsOrder.andThen (execShLoad_keepsTime.keepsOrder.andThen
      (execShDone_keepsTime.keepsOrder.andThen ((execDmaRxBeat_keepsTime kr).keepsOrder.andThen ih)))

theorem armedSubTransfer_keepsOrder : KeepsOrder (armedSubTransfer c kt kr) :=
  execDArm_keepsTime.keepsOrder.andThen (.andThen (fun s1 => moveWords_keepsOrder _ s1)
    ((execDmaTxDone_keepsTime kt).keepsOrder.andThen ((execDmaRxDone_keepsTime kr).keepsOrder.andThen
      (.andThen (.lookUntilDeadline execDWait_keepsTime _) (.lookUntilDeadline execDTxdrain_keepsTime _)))))

theorem subTransfers_keepsOrder (n : Nat) : KeepsOrder (subTransfers c kt kr n) := by
  induction n with
  | zero => exact .done
  | succ n ih =>
    have one : KeepsOrder (subTransfer c kt kr) :=
      execDMap_keepsTime.keepsOrder.andThen armedSubTransfer_keepsOrder.whileTransporting
    exact one.andThen ih.whileTransporting

theorem execXferDma_keepsOrder : KeepsOrder (execXferDma c) := fun s =>
  .withTransfer (Nat.le_refl _) fun _ _ _ _ _ => subTransfers_keepsOrder _ s

end

theorem exec_keepsOrder (i : Instr) : KeepsOrder (exec i) := by
  cases i with
  | tick d => exact fun _ => .next (Nat.le_add_right _ _)
  | xferPoll c => exact execXferPoll_keepsOrder
  | xferDma c => exact execXferDma_keepsOrder
  | _ => exact (exec_keepsTime _ (by simp) (by simp) (by simp)).keepsOrder

/-! ### ERR_INJECT (R93) -/

theorem Ctrl.injectEnabled_iff (x : Ctrl) (spurious : Bool) (m : Conds) : x.injectEnabled spurious m = true ↔
    spurious = true ∧ x.clkOn = true ∧ x.hw.inTxn = true ∧ m.nonempty = true := by
  simp only [Ctrl.injectEnabled, Bool.and_eq_true, and_assoc]

theorem execErrInject_eq {s : State} {c : Byte} {x : Ctrl} (hx : s.ctrlAt c = some x) (m : Conds) :
    exec (.errInject c m) s = if x.injectEnabled s.params.spuriousErrors m then
      .next (s.setCtrl c { x with hw := x.hw.setStatuses m }) else .next s := by
  rw [exec, execErrInject, State.withCtrl_some s c x _ hx]
  rfl

end Sys2Proof.Machine

open Sys2Proof Sys2Proof.Machine

/-- Settles O12: of all the model's operations TICK and the composites' wait for a deadline alone write the time, and
ERR_INJECT's condition is taken apart once. -/
theorem environmentSteps : Obligations.EnvironmentSteps := by
  unfold Obligations.EnvironmentSteps
  refine ⟨fun s d => rfl, fun i s u ht hp hd h => exec_keepsTime i ht hp hd s u h,
    fun i s u h => exec_keepsOrder i s u h, fun s c x m hx => ⟨fun hsp hclk htxn hm => ?_, fun hoff => ?_⟩⟩
  · exact (execErrInject_eq hx m).trans (if_pos ((x.injectEnabled_iff _ m).mpr ⟨hsp, hclk, htxn, hm⟩))
  · refine (execErrInject_eq hx m).trans (if_neg fun he => ?_)
    obtain ⟨hsp, hclk, htxn, hm⟩ := (x.injectEnabled_iff _ m).mp he
    rcases hoff with h | h | h | h
    · simp [hsp] at h
    · simp [hclk] at h
    · simp [htxn] at h
    · simp [hm] at h
end

section
/-! PROOFS. The clock and format configurator (R100 to R109): a divided speed is within a request exactly when the
least divider for that request is within the divider, which gives all of R108; CONFIGURE where it raises and where it
programs the format; BIND's checks and the state it leaves. -/

namespace Sys2Proof.Machine

/-! ### The rate (R100, R108) -/

/-- Dividers and speeds stand in an antitone Galois connection, in which the same division leads both ways (R100). -/
theorem dividedSpeed_le_iff (src d t : Nat) : src / (2 * (d + 1)) ≤ t ↔ src / (2 * (t + 1)) ≤ d :=
  calc src / (2 * (d + 1)) ≤ t
    _ ↔ src < (t + 1) * (2 * (d + 1)) := by rw [← Nat.lt_succ_iff, Nat.div_lt_iff_lt_mul (by omega)]
    _ ↔ src < (d + 1) * (2 * (t + 1)) := by
      rw [show (t + 1) * (2 * (d + 1)) = (d + 1) * (2 * (t + 1)) by ring]
    _ ↔ src / (2 * (t + 1)) ≤ d := by rw [← Nat.lt_succ_iff, Nat.div_lt_iff_lt_mul (by omega)]

theorem dividedSpeed_antitone (src : Nat) {d e : Nat} (h : d ≤ e) : src / (2 * (e + 1)) ≤ src / (2 * (d + 1)) :=
  Nat.div_le_div_left (by omega) (by omega)

theorem rate_eq_none_iff (src t : Nat) : rate src t = none ↔
    t = 0 ∨ 255 < src / (2 * (t + 1)) ∨ src / (2 * (src / (2 * (t + 1)) + 1)) = 0 := by
  unfold rate
  split
  · next h => exact iff_of_true rfl (.inl h)
  · next ht =>
    split
    · next h => exact iff_of_true rfl (.inr (.inl h))
    · next hd =>
      split
      · next h => exact iff_of_true rfl (.inr (.inr h))
      · next ha => exact iff_of_false nofun (not_or.mpr ⟨ht, not_or.mpr ⟨hd, ha⟩⟩)

theorem rate_eq_some_iff (src t d a : Nat) : rate src t = some (d, a) ↔
    t ≠ 0 ∧ d = src / (2 * (t + 1)) ∧ d ≤ 255 ∧ a = src / (2 * (d + 1)) ∧ a ≠ 0 := by
  unfold rate
  split
  · next h => simp [h]
  · next ht =>
    split
    · next h =>
      refine iff_of_false nofun ?_
      rintro ⟨-, rfl, hd, -⟩
      exact absurd hd (Nat.not_le.mpr h)
    · next hd =>
      split
      · next h =>
        refine iff_of_false nofun ?_
        rintro ⟨-, rfl, -, rfl, ha⟩
        exact ha h
      · next ha =>
        rw [Option.some.injEq, Prod.mk.injEq]
        constructor
        · rintro ⟨rfl, rfl⟩
          exact ⟨ht, rfl, Nat.not_lt.mp hd, rfl, ha⟩
        · rintro ⟨-, rfl, -, rfl, -⟩
          exact ⟨rfl, rfl⟩

section
variable {src t d a : Nat} (h : rate src t = some (d, a))
include h

theorem rate_le_request : a ≤ t := by
  obtain ⟨-, hd, -, rfl, -⟩ := (rate_eq_some_iff ..).mp h
  exact (dividedSpeed_le_iff ..).mpr hd.ge

/-- The divider is the least whose speed is within the request, so every other such speed is lower. -/
theorem rate_is_largest {e : Nat} (he : src / (2 * (e + 1)) ≤ t) : src / (2 * (e + 1)) ≤ a := by
  obtain ⟨-, rfl, -, rfl, -⟩ := (rate_eq_some_iff ..).mp h
  exact dividedSpeed_antitone src ((dividedSpeed_le_iff ..).mp he)

theorem rate_monotone {t' d' a' : Nat} (h' : rate src t' = some (d', a')) (ht : t ≤ t') : d' ≤ d ∧ a ≤ a' := by
  obtain ⟨-, rfl, -, rfl, -⟩ := (rate_eq_some_iff ..).mp h
  obtain ⟨-, rfl, -, rfl, -⟩ := (rate_eq_some_iff ..).mp h'
  have hd := dividedSpeed_antitone src ht
  exact ⟨hd, dividedSpeed_antitone src hd⟩

/-- The achieved speed, asked for, is achieved: its least divider is no larger, and so no slower. -/
theorem rate_fixedPoint : ∃ d', rate src a = some (d', a) := by
  obtain ⟨-, -, hd, ha, ha0⟩ := (rate_eq_some_iff ..).mp h
  have least : src / (2 * (a + 1)) ≤ d := (dividedSpeed_le_iff ..).mp ha.ge
  have same : a = src / (2 * (src / (2 * (a + 1)) + 1)) :=
    Nat.le_antisymm (ha.le.trans (dividedSpeed_antitone src least)) ((dividedSpeed_le_iff ..).mpr (Nat.le_refl _))
  exact ⟨_, (rate_eq_some_iff ..).mpr ⟨ha0, rfl, least.trans hd, same, ha0⟩⟩

end

theorem widthOk_iff (w : BitVec 6) : widthOk w = true ↔ w = 8 ∨ w = 16 ∨ w = 32 := by
  simp [widthOk, or_assoc]

/-! ### CONFIGURE (R103, R107, R109) -/

section
variable {sp : Word} {m : SpiMode} {w : BitVec 6}

theorem View.configure_eq_ok (v : View) {d a : Nat} (hw : widthOk w = true)
    (hr : rate v.c.srcClk.toNat sp.toNat = some (d, a)) : v.configure sp m w = .ok { v with c := { v.c with
      hw := v.c.hw.configure d (decide (Config.hsThresholdHz ≤ a)) m w v.c.swapByte
      curSpeed := BitVec.ofNat 32 a, curMode := m, curWidth := w, cfgValid := true } } := by
  simp [View.configure, hw, hr]

theorem View.configure_raises (v : View) (h : widthOk w = false ∨ rate v.c.srcClk.toNat sp.toNat = none) :
    ∃ k, v.configure sp m w = .error k := by
  match hv : v.configure sp m w with
  | .error k => exact ⟨k, rfl⟩
  | .ok u =>
    obtain ⟨-, -, hw, d, a, hr, -⟩ := View.configure_ok v u sp m w hv
    rcases h with h | h
    · simp [hw] at h
    · simp [hr] at h

variable {s : State} {c : Byte} {x : Ctrl} (hx : s.ctrlAt c = some x)
include hx

theorem execConfigure_programs (hs : x.seq.state = .configuring) (hclk : x.clkOn = true) {u : View}
    (hu : View.configure ⟨s, c, x⟩ sp m w = .ok u) : exec (.configure c sp m w) s = .next u.commit := by
  rw [exec, execConfigure, State.withCtrl_some s c x _ hx, if_pos ((x.inState_iff _).mpr hs), hu]
  exact View.clocked_on _ _ hclk

theorem execConfigure_otherState (hs : x.seq.state ≠ .configuring) : exec (.configure c sp m w) s = .next s := by
  rw [exec, execConfigure, State.withCtrl_some s c x _ hx, if_neg (mt (x.inState_iff _).mp hs)]

theorem execConfigure_raises {k : ErrKind} (hk : View.configure ⟨s, c, x⟩ sp m w = .error k) :
    exec (.configure c sp m w) s = .next s := by
  rw [exec, execConfigure, State.withCtrl_some s c x _ hx, hk, ite_self]

end

/-! ### BIND (R106) -/

theorem State.lineNamed_iff (s : State) (l : Byte) :
    s.lineNamed l = true ↔ ∃ p ∈ s.ctrl, ∃ q ∈ p.2.bind, q.2.line = some l := by
  simp only [State.lineNamed, List.any_eq_true, decide_eq_true_eq]

theorem State.withHandle_none {s : State} {c : Byte} (k : Ctrl → Out) (h : s.ctrlAt c = none) :
    s.withHandle c k = .next (s.answer .badHandle 0 0) := by
  simp [State.withHandle, h]

/-- The controller with BIND's binding recorded (R106). -/
def Ctrl.bindDone (x : Ctrl) (b : Byte) (a : BindArgs) (achieved : Nat) : Ctrl :=
  { x with bind := Table.set x.bind b.toNat (bindingOf a achieved), secure := x.secure || a.secureRouted }

theorem Ctrl.bindDone_bindAt (x : Ctrl) (b e : Byte) (a : BindArgs) (n : Nat) :
    (x.bindDone b a n).bindAt e = if b = e then some (bindingOf a n) else x.bindAt e := by
  simp only [Ctrl.bindAt, Ctrl.bindDone, Table.get?_set, BitVec.toNat_inj]

section
variable (s : State) (c b : Byte) (x : Ctrl) (a : BindArgs) (n : Nat)

/-- BIND writes the controller, the line it names and the response (R106). -/
theorem State.bindDone_eq : s.bindDone c b x a n = { s with
    ctrl := Table.set s.ctrl c.toNat (x.bindDone b a n)
    csLine := if a.linePresent then Table.set s.csLine a.lineId.toNat (!a.activeLevel) else s.csLine
    outbox := s.outbox ++ [⟨.issuer, [0#32, BitVec.ofNat 32 n]⟩] } := by
  unfold State.bindDone
  split <;> rfl

theorem State.bindDone_ctrlAt (e : Byte) :
    (s.bindDone c b x a n).ctrlAt e = if c = e then some (x.bindDone b a n) else s.ctrlAt e := by
  rw [State.bindDone_eq]
  exact State.ctrlAt_setCtrl s c e _

theorem State.bindDone_lineLevel (l : Byte) : (s.bindDone c b x a n).lineLevel l =
    if a.linePresent ∧ l = a.lineId then !a.activeLevel else s.lineLevel l := by
  rw [State.bindDone_eq]
  by_cases hp : a.linePresent = true
  · simp only [hp, if_true, true_and, eq_comm (a := l)]
    exact State.lineLevel_setLine s a.lineId l _
  · simp only [hp]
    rfl

end

end Sys2Proof.Machine

open Sys2Proof Sys2Proof.Machine

/-- Settles O13: dividers and speeds stand in a Galois connection, of which R108's properties are the usual
consequences. -/
theorem rateIsBestBelowRequest : Obligations.RateIsBestBelowRequest := by
  unfold Obligations.RateIsBestBelowRequest
  refine ⟨fun src target d a h => ?_, fun src t1 t2 d1 a1 d2 a2 ht h1 h2 => rate_monotone h1 h2 ht,
    rate_eq_none_iff⟩
  obtain ⟨-, -, hd, ha, -⟩ := (rate_eq_some_iff ..).mp h
  exact ⟨rate_le_request h, hd, ha, fun e _ he => rate_is_largest h he, rate_fixedPoint h⟩

/-- Settles O14: CONFIGURE checks the width and the rate before it writes a register. -/
theorem configureProgramsFormat : Obligations.ConfigureProgramsFormat := by
  unfold Obligations.ConfigureProgramsFormat
  refine fun s c x speed m w hx => ⟨fun hw hclk hs d a hr => ?_, fun hraise => ?_, execConfigure_otherState hx⟩
  · rw [execConfigure_programs hx hs hclk (View.configure_eq_ok ⟨s, c, x⟩ ((widthOk_iff w).mpr hw) hr),
      Hw.configure_eq]
    rfl
  · rw [← widthOk_iff, Bool.not_eq_true] at hraise
    obtain ⟨k, hk⟩ := View.configure_raises ⟨s, c, x⟩ hraise
    exact execConfigure_raises hx hk

/-- Settles O15: BIND's checks are taken in turn; past them the binding, the line and the response are written. -/
theorem bindRecordsAchievedSpeed : Obligations.BindRecordsAchievedSpeed := by
  unfold Obligations.BindRecordsAchievedSpeed
  intro s c b a refuse
  refine ⟨State.withHandle_none _, fun x hx => ?_⟩
  have run : exec (.bind .exact c b a) s = _ := State.withHandle_some s c x _ hx
  simp only [refuse, ← widthOk_iff, ← State.lineNamed_iff, ← Option.isSome_iff_exists, ← Bool.and_eq_true]
  refine ⟨fun hb => ?_, fun hb hl => ?_, fun hb hl hw => ?_, fun hb hl hw h0 => ?_, fun hb hl hw h0 hclk => ?_,
    fun hb hl hw h0 hclk => ?_⟩
  · exact run.trans (if_pos hb)
  · rw [if_neg hb] at run
    exact run.trans (if_pos hl)
  · rw [if_neg hb, if_neg hl] at run
    exact run.trans (if_pos (by simpa using hw))
  · rw [if_neg hb, if_neg hl, if_neg (by simp [hw])] at run
    exact run.trans (if_pos h0)
  · rw [if_neg hb, if_neg hl, if_neg (by simp [hw]), if_neg h0] at run
    exact run.trans (if_pos hclk)
  · rw [if_neg hb, if_neg hl, if_neg (by simp [hw]), if_neg h0, if_neg hclk] at run
    refine ⟨fun hr => ?_, fun d v hr => ?_⟩
    · rw [hr] at run
      exact run
    · rw [hr] at run
      refine ⟨_, run, by rw [State.bindDone_eq], fun e he => ?_, State.bindDone_lineLevel s c b x a v,
        x.bindDone b a v, ?_, rfl, fun e he => ?_, ?_⟩
      · rw [State.bindDone_ctrlAt, if_neg he.symm]
      · rw [State.bindDone_ctrlAt, if_pos rfl]
      · rw [Ctrl.bindDone_bindAt, if_neg he.symm]
      · exact (Ctrl.bindDone_bindAt x b b a v).trans (if_pos rfl)
end

section
/-! PROOFS. The chip-select (R116, R117, R91): CS_ASSERT and CS_DEASSERT of a present binding by the place where its
select is driven, the fault of the gated clocks, and when the native output is active. -/

namespace Sys2Proof.Machine

/-! ### Where a select is driven (decision D13) -/

section
variable {y : Binding}

theorem bindingSite_line {l : Byte} (hm : y.csMode = .manual) (hl : y.line = some l) : bindingSite y = .line l := by
  simp [bindingSite, hm, hl]

theorem bindingSite_native (hm : y.csMode = .manual) (hl : y.line = none) : bindingSite y = .native := by
  simp [bindingSite, hm, hl]

theorem bindingSite_autoNative (hm : y.csMode = .auto) : bindingSite y = .autoNative := by
  simp [bindingSite, hm]

end

theorem View.clocked_off (v : View) (k : Out) (h : v.c.clkOn = false) :
    v.clocked k = .fault .registerAccessClockOff := by
  simp [View.clocked, h]

/-! ### CS_ASSERT (R116) -/

section
variable (v : View) (b : Byte) {y : Binding}

theorem View.csAssert_bound (hb : v.c.bindAt b = some y) : v.csAssert b = v.assertBinding b y := by
  simp [View.csAssert, hb]

theorem View.assertBinding_line {l : Byte} (h : bindingSite y = .line l) : v.assertBinding b y =
    { v with st := (v.st.setLine l y.activeLevel).pushBus (.csAssert v.c.id b (.line l))
             c := { v.c with csHolder := some b } } := by
  simp only [View.assertBinding, h]

theorem View.assertBinding_native (h : bindingSite y = .native) : v.assertBinding b y =
    { v with st := v.st.pushBus (.csAssert v.c.id b .native)
             c := { v.c with csHolder := some b, hw := v.c.hw.putCsReg ⟨false, false, false, y.activeLevel⟩ } } := by
  simp only [View.assertBinding, h]
  rfl

theorem View.assertBinding_autoNative (h : bindingSite y = .autoNative) : v.assertBinding b y =
    { v with st := v.st.pushBus (.csAssert v.c.id b .autoNative)
             c := { v.c with
               csHolder := some b, hw := v.c.hw.putCsReg ⟨false, true, y.idleHold, y.activeLevel⟩ } } := by
  simp only [View.assertBinding, h]
  rfl

end

section
variable {s : State} {c b : Byte} {x : Ctrl} {y : Binding} (hx : s.ctrlAt c = some x)
include hx

theorem execCsAssert_free (hb : x.bindAt b = some y) (hh : x.csHolder = none) :
    exec (.csAssert c b) s = View.clocked ⟨s, c, x⟩ (.next (View.assertBinding ⟨s, c, x⟩ b y).commit) := by
  rw [exec, execCsAssert, State.withCtrl_some s c x _ hx, if_pos (by simp [hh, hb]), View.csAssert_bound _ _ hb]

theorem execCsAssert_disabled (h : x.csHolder ≠ none ∨ x.bindAt b = none) : exec (.csAssert c b) s = .next s := by
  rw [exec, execCsAssert, State.withCtrl_some s c x _ hx]
  exact if_neg (by rcases h with h | h <;> simp [h])

end

/-! ### CS_DEASSERT (R117) -/

section
variable (v : View) {b : Byte} {y : Binding}

theorem View.deassertBinding_line {l : Byte} (h : bindingSite y = .line l) : v.deassertBinding b y =
    { v with st := (v.st.setLine l (!y.activeLevel)).pushBus (.csDeassert v.c.id b (.line l))
             c := { v.c with csHolder := none } } := by
  simp only [View.deassertBinding, h]

/-- Both register forms set `SIG_INACT` and keep the other fields of `CS_REG`. -/
theorem View.deassertBinding_register (h : y.csMode = .auto ∨ y.line = none) : v.deassertBinding b y =
    { v with st := v.st.pushBus (.csDeassert v.c.id b (bindingSite y))
             c := { v.c with
               csHolder := none, hw := v.c.hw.putCsReg { v.c.hw.csReg with sigInact := true } } } := by
  unfold View.deassertBinding
  cases hm : y.csMode with
  | auto =>
    rw [bindingSite_autoNative hm]
    rfl
  | manual =>
    rw [bindingSite_native hm (h.resolve_left (by simp [hm]))]
    rfl

section
variable (hh : v.c.csHolder = some b) (hb : v.c.bindAt b = some y)
include hh hb

theorem View.csDeassert_bound : v.csDeassert = v.deassertBinding b y := by
  simp [View.csDeassert, hh, hb]

theorem View.deassertTouchesRegister_iff :
    v.c.deassertTouchesRegister = true ↔ y.csMode = .auto ∨ y.line = none := by
  simp only [Ctrl.deassertTouchesRegister, hh, hb, bindingSite]
  cases y.csMode <;> cases y.line <;> simp

theorem View.deassertClocked_line (k : View → Out) {l : Byte} (hm : y.csMode = .manual) (hl : y.line = some l) :
    v.deassertClocked k = k (v.deassertBinding b y) := by
  rw [← v.csDeassert_bound hh hb]
  exact if_neg (mt (v.deassertTouchesRegister_iff hh hb).mp (by simp [hm, hl]))

theorem View.deassertClocked_register (k : View → Out) (h : y.csMode = .auto ∨ y.line = none) :
    v.deassertClocked k = v.clocked (k (v.deassertBinding b y)) := by
  rw [← v.csDeassert_bound hh hb]
  exact if_pos ((v.deassertTouchesRegister_iff hh hb).mpr h)

end

end

section
variable {s : State} {c : Byte} {x : Ctrl} (hx : s.ctrlAt c = some x)
include hx

theorem execCsDeassert_unheld (h : x.csHolder = none) : exec (.csDeassert c) s = .next s := by
  rw [exec, execCsDeassert, State.withCtrl_some s c x _ hx]
  exact if_pos h

theorem execCsDeassert_held {b : Byte} (h : x.csHolder = some b) :
    exec (.csDeassert c) s = View.deassertClocked ⟨s, c, x⟩ fun v => .next v.commit := by
  rw [exec, execCsDeassert, State.withCtrl_some s c x _ hx]
  exact if_neg (by simp [h])

end

/-! ### The native output (R91) -/

theorem Hw.inTxn_iff (h : Hw) : h.inTxn = true ↔ h.shBusy = true ∨ (h.packetCnt.en = true ∧ h.pktRem ≠ 0 ∧
    (h.chCfg.txchOn = true ∨ h.chCfg.rxchOn = true)) := by
  have hrem : 0 < h.pktRem.toNat ↔ h.pktRem ≠ 0 := by bv_omega
  simp only [Hw.inTxn, Hw.chanOn, Bool.or_eq_true, Bool.and_eq_true, decide_eq_true_eq, hrem, and_assoc]

/-- The native output is active (R91). -/
def Hw.selectActive (h : Hw) : Prop :=
  h.csReg.sigInact = false ∧ (h.csReg.auto = false ∨ h.inTxn = true ∨ h.csReg.idleHold = true)

theorem Hw.nss_active (h : Hw) (ha : h.selectActive) : h.nss = h.csReg.activeHigh :=
  if_pos (by simpa [Hw.selectActive, or_assoc] using ha)

theorem Hw.nss_inactive (h : Hw) (ha : ¬ h.selectActive) : h.nss = !h.csReg.activeHigh :=
  if_neg (by simpa [Hw.selectActive, or_assoc] using ha)

theorem Ctrl.nss_running (x : Ctrl) (h : x.clkOn = true) : x.nss = x.hw.nss := if_pos h

theorem Ctrl.nss_gated (x : Ctrl) (h : x.clkOn = false) : x.nss = x.nssHeld := if_neg (by simp [h])

end Sys2Proof.Machine

open Sys2Proof Sys2Proof.Machine

/-- Settles O16: each micro-operation is one equation per place where the select is driven, under the clocks' check; the
native output is active exactly as `Hw.selectActive` says. -/
theorem chipSelectOperations : Obligations.ChipSelectOperations := by
  unfold Obligations.ChipSelectOperations
  refine ⟨fun s c b x y hx hb hh => ?assert, fun s c b x hx => execCsAssert_disabled hx,
    fun s c x hx => ⟨execCsDeassert_unheld hx, fun b y hh hb => ?deassert⟩, fun x => ?level⟩
  case assert =>
    rw [execCsAssert_free hx hb hh]
    refine ⟨fun l hm hl hclk => ?_, fun hm hl hclk => ?_, fun hm hclk => ?_, fun hclk => View.clocked_off _ _ hclk⟩
    · rw [View.clocked_on _ _ hclk, View.assertBinding_line _ _ (bindingSite_line hm hl)]
      rfl
    · rw [View.clocked_on _ _ hclk, View.assertBinding_native _ _ (bindingSite_native hm hl)]
      rfl
    · rw [View.clocked_on _ _ hclk, View.assertBinding_autoNative _ _ (bindingSite_autoNative hm)]
      rfl
  case deassert =>
    rw [execCsDeassert_held hx hh]
    refine ⟨fun l hm hl => ?_, fun hm hl hclk => ?_, fun hm hclk => ?_, fun hr hclk => ?_⟩
    · rw [View.deassertClocked_line _ hh hb _ hm hl, View.deassertBinding_line _ (bindingSite_line hm hl)]
      rfl
    · rw [View.deassertClocked_register _ hh hb _ (.inr hl), View.clocked_on _ _ hclk,
        View.deassertBinding_register _ (.inr hl), bindingSite_native hm hl]
      rfl
    · rw [View.deassertClocked_register _ hh hb _ (.inl hm), View.clocked_on _ _ hclk,
        View.deassertBinding_register _ (.inl hm), bindingSite_autoNative hm]
      rfl
    · rw [View.deassertClocked_register _ hh hb _ hr, View.clocked_off _ _ hclk]
  case level =>
    simp only [← Hw.inTxn_iff]
    exact ⟨fun hclk ha => (x.nss_running hclk).trans (x.hw.nss_active ha),
      fun hclk ha => (x.nss_running hclk).trans (x.hw.nss_inactive ha), x.nss_gated⟩
end

section
/-! PROOFS. The polling transport (R131, R132): an enabled step is its view put back, and P_ARM's registers where `txf`
takes the whole buffer. -/

namespace Sys2Proof.Machine

/-! ### The enabled steps -/

section
variable {s : State} {c : Byte} {x : Ctrl} {t : Transfer} (hx : s.ctrlAt c = some x)
  (hs : x.seq.state = .transporting) (ht : x.transfer = some t) (hclk : x.clkOn = true)
include hx hs ht hclk

theorem State.withTransfer_phase {p : Phase} (f : View → Transfer → View) (hp : x.seq.phase = p) :
    s.withTransfer c (fun y => y.inPhase p) (fun v t => v.clocked (.next (f v t).commit)) =
      .next (f ⟨s, c, x⟩ t).commit :=
  (State.withTransfer_some s c x t _ _ hx ((x.inPhase_iff p).mpr ⟨hs, hp⟩) ht).trans (View.clocked_on _ _ hclk)

theorem execPArm_enabled (hp : x.seq.phase = .pArm) : execPArm c s = .next (View.pArm ⟨s, c, x⟩ t).commit :=
  State.withTransfer_phase hx hs ht hclk View.pArm hp

theorem execPPoll_enabled (hp : x.seq.phase = .pPoll) : execPPoll c s = .next (View.pPoll ⟨s, c, x⟩ t).commit :=
  State.withTransfer_phase hx hs ht hclk View.pPoll hp

theorem execPDrain_enabled (hp : x.seq.phase = .pDrain) : execPDrain c s = .next (View.pDrain ⟨s, c, x⟩ t).commit :=
  State.withTransfer_phase hx hs ht hclk View.pDrain hp

end

/-! ### P_ARM (R132) -/

/-- P_ARM's registers where the empty `txf` takes the whole buffer (R132, R139). -/
theorem Hw.pArm_whole {h : Hw} {m : List Host.Cell} {depth wb : Nat} {t : Transfer} (hw : wb ≤ 4)
    (hs : h.chCfg.swRst = false) (he : h.txf = []) (hd : t.len.toNat % wb = 0) (hl : t.len.toNat ≤ depth) :
    h.pArm m depth wb t = { h with
      modeCfg := { h.modeCfg with txdmaOn := false, rxdmaOn := false, burst4 := false }
      packetCnt := ⟨BitVec.ofNat 16 (t.len.toNat / wb), true⟩
      pktRem := BitVec.ofNat 16 (t.len.toNat / wb)
      txf := if t.txPresent then Memory.readBytes m t.len.toNat t.tx else []
      chCfg := { h.chCfg with txchOn := t.txPresent, rxchOn := t.rxPresent } } := by
  have hwords : t.len.toNat / wb * wb = t.len.toNat := Nat.div_mul_cancel (Nat.dvd_of_mod_eq_zero hd)
  rw [Hw.pArm_eq h m depth wb t hw hs (by simp [he, hwords, hl]), hwords, he]
  rfl

end Sys2Proof.Machine

open Sys2Proof Sys2Proof.Machine

/-- Settles O17: the first clause names the registers that P_ARM's writes leave, the second says what they hold where
`txf` is empty and has room for the whole buffer. -/
theorem pArmLoadsFifo : Obligations.PArmLoadsFifo := by
  unfold Obligations.PArmLoadsFifo
  intro s c x t hx hs hp ht hclk
  have run : exec (.pArm c) s = .next (View.pArm ⟨s, c, x⟩ t).commit := execPArm_enabled hx hs ht hclk hp
  refine ⟨⟨_, run⟩, fun hrst htxf hwb hdvd hlen => run.trans ?_⟩
  have regs := Hw.pArm_whole (m := s.mem) (wb := x.wb) (by unfold Ctrl.wb; omega) hrst htxf hdvd hlen
  unfold View.pArm
  dsimp only
  rw [regs]
  rfl
end

section
/-! PROOFS. P_POLL (R133): `check_status` and the failure path in full, and P_POLL's four outcomes. -/

namespace Sys2Proof.Machine

/-! ### Conditions seen (R183, R196, R199) -/

theorem Conds.eq_empty {l : Conds} (h : l.nonempty = false) : l = Conds.empty := by
  cases l
  simpa [Conds.nonempty, Conds.empty, and_assoc] using h

@[simp] theorem Conds.union_empty (l : Conds) : l.union Conds.empty = l := by simp [Conds.union, Conds.empty]

/-- No condition then or before: both sets are empty. -/
theorem Conds.union_quiet {l k : Conds} (h : (l.union k).nonempty = false) : l = Conds.empty ∧ k = Conds.empty := by
  simp only [Conds.union, Conds.nonempty, Bool.or_eq_false_iff] at h
  exact ⟨Conds.eq_empty (by simp [Conds.nonempty, h]), Conds.eq_empty (by simp [Conds.nonempty, h])⟩

/-- `check_status` in full: what it logs is nothing where no condition is set (R196, R198). -/
theorem View.checkStatus_eq (v : View) : v.checkStatus = { v with
    st := { v.st with
      errLog := v.st.errLog ++ v.c.hw.sticky.list.map fun k => ⟨v.c.id, k, v.c.hw.statusWord, v.st.now⟩ }
    c := { v.c with
      errLatch := v.c.errLatch.union v.c.hw.sticky
      hw := { v.c.hw with
        sticky := Conds.empty
        pendingClr := if v.c.hw.sticky.nonempty then Conds.empty else v.c.hw.pendingClr } } } := by
  unfold View.checkStatus
  split
  · next h => rw [View.errAck, Hw.putPendingClr_pulse, Conds.diff_self]
  · next h =>
    have hempty : v.c.hw.sticky = Conds.empty := Conds.eq_empty (by simpa using h)
    have hlist : v.c.hw.sticky.list = [] := by rw [hempty]; rfl
    have hlatch : v.c.errLatch.union v.c.hw.sticky = v.c.errLatch := by rw [hempty, Conds.union_empty]
    simp only [hlist, hlatch, ← hempty, List.map_nil, List.append_nil]

/-- With nothing set `check_status` does nothing (R196). -/
theorem View.checkStatus_quiet {v : View} (h : v.c.hw.sticky = Conds.empty) : v.checkStatus = v :=
  if_neg (by simp [h, Conds.empty, Conds.nonempty])

/-- A failure with no byte given up writes the sequencer's registers only (R183). -/
theorem View.fail_zero (v : View) (k : ErrKind) : v.fail k 0 = v.onSeq fun q => { q with
    err := statusWord k (failInfo k v.c.seq.xi v.c.errLatch), phase := .none, state := .failed } := by
  unfold View.fail View.forgetRx
  split
  · rfl
  · split <;> rfl

/-- The status word of the conditions in the latch (R69, R199). -/
theorem statusWord_kindOfLatch (l : Conds) (xi : Nat) :
    statusWord (kindOfLatch l) (failInfo (kindOfLatch l) xi l) =
      (if l.rxOverrun || l.txOverrun then 0x03020000#32 else 0x03030000#32) |||
        put 0 (BitVec.ofNat 16 (xi + 256 * l.nibble.toNat)) := by
  unfold kindOfLatch
  split <;> rfl

/-! ### P_POLL (R133) -/

section
variable {v : View} {t : Transfer}

theorem View.pPoll_failed (h : (v.c.errLatch.union v.c.hw.sticky).nonempty = true) :
    v.pPoll t = v.checkStatus.fail (kindOfLatch (v.c.errLatch.union v.c.hw.sticky)) 0 := by
  unfold View.pPoll
  dsimp only
  rw [View.checkStatus_errLatch, if_pos h]

/-- With nothing seen P_POLL looks at completion, then at the deadline. -/
theorem View.pPoll_quiet (h : (v.c.errLatch.union v.c.hw.sticky).nonempty = false) : v.pPoll t =
    if v.c.pollComplete t then v.onSeq fun q => { q with phase := .pDrain }
    else if v.c.seq.deadline ≤ v.st.now then v.onSeq fun q => { q with
      err := statusWord .timeout q.xi, phase := .none, state := .failed }
    else v := by
  obtain ⟨hlatch, hsticky⟩ := Conds.union_quiet h
  unfold View.pPoll
  dsimp only
  rw [View.checkStatus_quiet hsticky, if_neg (by simp [hlatch, Conds.empty, Conds.nonempty]), View.fail_zero]
  rfl

end

theorem Ctrl.pollComplete_iff (x : Ctrl) (t : Transfer) : x.pollComplete t = true ↔
    if t.rxPresent then t.len.toNat ≤ x.hw.rxf.length else x.hw.txf = [] ∧ x.hw.shBusy = false := by
  unfold Ctrl.pollComplete Hw.txDone
  split <;> simp

end Sys2Proof.Machine

open Sys2Proof Sys2Proof.Machine

/-- Settles O18: a condition seen is `check_status` and the failure path, written out; without one, completion and the
deadline decide in this order. -/
theorem pPollLooksOnce : Obligations.PPollLooksOnce := by
  unfold Obligations.PPollLooksOnce
  intro s c x t hx hs hp ht hclk
  have run : exec (.pPoll c) s = .next (View.pPoll ⟨s, c, x⟩ t).commit := execPPoll_enabled hx hs ht hclk hp
  dsimp only
  rw [← x.pollComplete_iff t]
  refine ⟨fun hl => ?_, fun hl hdone => ?_, fun hl hdone hlate => ?_, fun hl hdone hearly => ?_⟩
  · rw [run, View.pPoll_failed hl, View.fail_zero, View.checkStatus_eq, ← statusWord_kindOfLatch]
    rfl
  · rw [run, View.pPoll_quiet hl, if_pos hdone]
    rfl
  · rw [run, View.pPoll_quiet hl, if_neg hdone, if_pos hlate]
    rfl
  · rw [run, View.pPoll_quiet hl, if_neg hdone, if_neg (Nat.not_le.mpr hearly)]
    rfl
end

section
/-! PROOFS. P_DRAIN (R134, R179): the bytes it moves from `rxf` to memory, the end of the hardware transaction, and the
verdict on the conditions seen. -/

namespace Sys2Proof.Machine

/-! ### The words drained -/

theorem Memory.writeBytes_append (m : List Host.Cell) (a : Word) (xs ys : List Byte) :
    Memory.writeBytes m a (xs ++ ys) =
      Memory.writeBytes (Memory.writeBytes m a xs) (a + BitVec.ofNat 32 xs.length) ys := by
  induction xs generalizing m a with
  | nil => simp [Memory.writeBytes]
  | cons x xs ih =>
    rw [List.length_cons, addr_add_succ]
    exact ih _ _

/-- Whatever `rxf` holds, a drain of `k` words stores `k * wb` bytes one after another (R134). -/
theorem View.drainWords_mem (wb k : Nat) (a : Word) (v : View) : ∃ bs, bs.length = k * wb ∧
    (View.drainWords wb k a v).st.mem = Memory.writeBytes v.st.mem a bs := by
  induction k generalizing a v with
  | zero => exact ⟨[], by simp, rfl⟩
  | succ k ih =>
    obtain ⟨bs, hlen, hmem⟩ := ih (a + BitVec.ofNat 32 wb) (v.drainWord wb a)
    have word : (v.drainWord wb a).st.mem = Memory.writeBytes v.st.mem a (leBytes wb (v.readRx wb).1) := by
      unfold View.drainWord memWrite
      dsimp only
      rw [View.readRx_st]
    refine ⟨leBytes wb (v.readRx wb).1 ++ bs, ?_, ?_⟩
    · rw [List.length_append, length_leBytes, hlen, Nat.succ_mul, Nat.add_comm]
    · rw [View.drainWords, hmem, word, Memory.writeBytes_append, length_leBytes]

/-- A word that `rxf` holds goes to memory byte by byte (R85, R44). -/
theorem View.drainWord_held {v : View} {wb : Nat} (a : Word) (hw : wb ≤ 4) (h : wb ≤ v.c.hw.rxf.length) :
    v.drainWord wb a = { v with
      st := { v.st with mem := Memory.writeBytes v.st.mem a (v.c.hw.rxf.take wb) }
      c := { v.c with hw := { v.c.hw with rxf := v.c.hw.rxf.drop wb } } } := by
  have read : v.readRx wb =
      (leWord (v.c.hw.rxf.take wb), v.onHw fun h => { h with rxf := h.rxf.drop wb }) := by
    simp [View.readRx, Hw.rxValue, Hw.popRx, View.onHw, h]
  have hlen : (v.c.hw.rxf.take wb).length = wb := List.length_take_of_le h
  have bytes := leBytes_leWord (v.c.hw.rxf.take wb) (by omega)
  rw [hlen] at bytes
  simp only [View.drainWord, read, memWrite, bytes, View.onHw_st, View.onHw_key, View.onHw_c]

/-- A drain of words that `rxf` holds moves its first bytes to memory and touches nothing else (R134). -/
theorem View.drainWords_held {wb k : Nat} {a : Word} {v : View} (hw : wb ≤ 4) (h : k * wb ≤ v.c.hw.rxf.length) :
    View.drainWords wb k a v = { v with
      st := { v.st with mem := Memory.writeBytes v.st.mem a (v.c.hw.rxf.take (k * wb)) }
      c := { v.c with hw := { v.c.hw with rxf := v.c.hw.rxf.drop (k * wb) } } } := by
  induction k generalizing a v with
  | zero => simp [View.drainWords, Memory.writeBytes]
  | succ k ih =>
    have hk : (k + 1) * wb = wb + k * wb := by rw [Nat.succ_mul, Nat.add_comm]
    rw [hk] at h
    have hlen : (v.c.hw.rxf.take wb).length = wb := List.length_take_of_le (by omega)
    rw [View.drainWords, View.drainWord_held a hw (by omega), ih (by simp only [List.length_drop]; omega), hk,
      List.take_add, Memory.writeBytes_append, hlen]
    simp only [List.drop_drop]

/-! ### The end of the transaction and the verdict (R134, R179) -/

/-- The epilogue's two register writes (R134). -/
theorem Hw.transactionEnded {h : Hw} (hs : h.chCfg.swRst = false) : h.channelsOff.putPacketCnt ⟨0, false⟩ = { h with
    chCfg := { h.chCfg with txchOn := false, rxchOn := false }, packetCnt := ⟨0, false⟩, pktRem := 0 } := by
  simp [Hw.channelsOff, Hw.putChCfg, Hw.putPacketCnt, hs]

section
variable {v : View} {t : Transfer} {n : Nat}

theorem View.validateStatus_failed (h : (v.c.errLatch.union v.c.hw.sticky).nonempty = true) :
    v.validateStatus t n = v.checkStatus.fail (kindOfLatch (v.c.errLatch.union v.c.hw.sticky)) n := by
  unfold View.validateStatus
  dsimp only
  rw [View.checkStatus_errLatch, if_pos h]

theorem View.validateStatus_quiet (h : (v.c.errLatch.union v.c.hw.sticky).nonempty = false) :
    v.validateStatus t n = v.enterPostDelay t := by
  obtain ⟨hlatch, hsticky⟩ := Conds.union_quiet h
  unfold View.validateStatus
  dsimp only
  rw [View.checkStatus_quiet hsticky, if_neg (by simp [hlatch, Conds.empty, Conds.nonempty])]

theorem View.validateStatus_seq_state (v : View) (t : Transfer) (n : Nat) :
    (v.validateStatus t n).c.seq.state = .postDelay ∨ (v.validateStatus t n).c.seq.state = .failed := by
  cases h : (v.c.errLatch.union v.c.hw.sticky).nonempty with
  | false =>
    rw [View.validateStatus_quiet h]
    exact .inl rfl
  | true =>
    rw [View.validateStatus_failed h, View.fail_c]
    exact .inr rfl

theorem View.validateStatus_key (v : View) (t : Transfer) (n : Nat) : (v.validateStatus t n).key = v.key := by
  cases h : (v.c.errLatch.union v.c.hw.sticky).nonempty with
  | false => rw [View.validateStatus_quiet h]; rfl
  | true => rw [View.validateStatus_failed h, View.fail_key, View.checkStatus_key]

/-- A condition seen stands in the latch and in the error saved (R179, R183, R199). -/
theorem View.validateStatus_failed_c (h : (v.c.errLatch.union v.c.hw.sticky).nonempty = true) :
    (v.validateStatus t n).c.errLatch = v.c.errLatch.union v.c.hw.sticky ∧
    (v.validateStatus t n).c.seq = { v.c.seq with
      err := (if (v.c.errLatch.union v.c.hw.sticky).rxOverrun || (v.c.errLatch.union v.c.hw.sticky).txOverrun
          then 0x03020000#32 else 0x03030000#32) |||
        put 0 (BitVec.ofNat 16 (v.c.seq.xi + 256 * (v.c.errLatch.union v.c.hw.sticky).nibble.toNat))
      phase := .none, state := .failed } := by
  rw [View.validateStatus_failed h, View.fail_c]
  dsimp only
  rw [View.checkStatus_errLatch, View.checkStatus_seq, statusWord_kindOfLatch]
  exact ⟨rfl, rfl⟩

/-- The verdict gives up at most the receive buffer (R52 item 3). -/
theorem View.read_validateStatus {a : Word} (ht : v.c.transfer = some t) (hn : n ≤ t.len.toNat)
    (hfit : t.rxPresent = true → t.rx.toNat + t.len.toNat ≤ 2 ^ 32) (ha : SparesRx t a) :
    Memory.read (v.validateStatus t n).st.mem a = Memory.read v.st.mem a := by
  cases h : (v.c.errLatch.union v.c.hw.sticky).nonempty with
  | false => rw [View.validateStatus_quiet h]; rfl
  | true =>
    rw [View.validateStatus_failed h, View.read_fail ?_ hn hfit ha, View.checkStatus_st]
    exact (Ctrl.transfer_congr v.checkStatus_seq).trans ht

end

/-! ### P_DRAIN -/

theorem View.commit_ctrlAt_of_key {v : View} {c : Byte} (h : v.key = c) : v.commit.ctrlAt c = some v.c :=
  h ▸ v.commit_ctrlAt

/-- The words of the receive buffer, where there is one, without the verdict. -/
def View.drained (v : View) (t : Transfer) : View :=
  if t.rxPresent then View.drainWords v.c.wb (t.len.toNat / v.c.wb) t.rx v else v

/-- P_DRAIN before `validate_status`: the words are drained and the hardware transaction has ended. -/
def View.drainEnded (v : View) (t : Transfer) : View :=
  ((v.drained t).onHw fun h => h.channelsOff.putPacketCnt ⟨0, false⟩).onSeq fun q => { q with phase := .none }

theorem View.pDrain_eq (v : View) (t : Transfer) : v.pDrain t = (v.drainEnded t).validateStatus t t.len.toNat := rfl

/-- Stores within the receive buffer spare every byte outside it. -/
theorem Memory.read_writeBytes_spares {t : Transfer} {a : Word} {bs : List Byte} (m : List Host.Cell)
    (hrx : t.rxPresent = true) (hlen : bs.length ≤ t.len.toNat)
    (hfit : t.rxPresent = true → t.rx.toNat + t.len.toNat ≤ 2 ^ 32) (ha : SparesRx t a) :
    Memory.read (Memory.writeBytes m t.rx bs) a = Memory.read m a := by
  have htop : t.rx.toNat + t.len.toNat ≤ Config.addrSpace := hfit hrx
  refine Memory.read_writeBytes_outside bs m t.rx a (by omega) ?_
  rcases ha with ha | ha | ha
  · exact absurd (hrx.symm.trans ha) (by decide)
  · exact .inl ha
  · exact .inr (by omega)

theorem View.read_drained {v : View} {t : Transfer} {a : Word}
    (hfit : t.rxPresent = true → t.rx.toNat + t.len.toNat ≤ 2 ^ 32) (ha : SparesRx t a) :
    Memory.read (v.drained t).st.mem a = Memory.read v.st.mem a := by
  unfold View.drained
  split
  · next hrx =>
    obtain ⟨bs, hlen, hmem⟩ := View.drainWords_mem v.c.wb (t.len.toNat / v.c.wb) t.rx v
    rw [hmem]
    exact Memory.read_writeBytes_spares _ hrx (hlen ▸ Nat.div_mul_le_self _ _) hfit ha
  · rfl

theorem View.read_pDrain {v : View} {t : Transfer} {a : Word} (ht : v.c.transfer = some t)
    (hfit : t.rxPresent = true → t.rx.toNat + t.len.toNat ≤ 2 ^ 32) (ha : SparesRx t a) :
    Memory.read (v.pDrain t).st.mem a = Memory.read v.st.mem a := by
  have transfer : (v.drainEnded t).c.transfer = some t := by
    rw [← ht]
    simp [Ctrl.transfer, View.drainEnded, View.drained, v.drained_seq t]
  exact (View.read_validateStatus transfer (Nat.le_refl _) hfit ha).trans (View.read_drained hfit ha)

section
variable {v : View} {t : Transfer}

theorem View.drained_held (hw : v.c.wb ≤ 4) (hd : t.len.toNat % v.c.wb = 0)
    (hrx : t.rxPresent = true → t.len.toNat ≤ v.c.hw.rxf.length) : v.drained t = { v with
      st := { v.st with
        mem := if t.rxPresent then Memory.writeBytes v.st.mem t.rx (v.c.hw.rxf.take t.len.toNat) else v.st.mem }
      c := { v.c with hw := { v.c.hw with
        rxf := if t.rxPresent then v.c.hw.rxf.drop t.len.toNat else v.c.hw.rxf } } } := by
  have hwords : t.len.toNat / v.c.wb * v.c.wb = t.len.toNat := Nat.div_mul_cancel (Nat.dvd_of_mod_eq_zero hd)
  unfold View.drained
  cases h : t.rxPresent with
  | false => rfl
  | true =>
    have held := View.drainWords_held (v := v) (a := t.rx) hw (hwords ▸ hrx h)
    rw [hwords] at held
    exact held

/-- With the whole of the received data in `rxf`, P_DRAIN stores it and ends the hardware transaction (R134). -/
theorem View.drainEnded_held (hrst : v.c.hw.chCfg.swRst = false) (hw : v.c.wb ≤ 4) (hd : t.len.toNat % v.c.wb = 0)
    (hrx : t.rxPresent = true → t.len.toNat ≤ v.c.hw.rxf.length) : v.drainEnded t = { v with
      st := { v.st with
        mem := if t.rxPresent then Memory.writeBytes v.st.mem t.rx (v.c.hw.rxf.take t.len.toNat) else v.st.mem }
      c := { v.c with
        hw := { v.c.hw with
          rxf := if t.rxPresent then v.c.hw.rxf.drop t.len.toNat else v.c.hw.rxf
          chCfg := { v.c.hw.chCfg with txchOn := false, rxchOn := false }
          packetCnt := ⟨0, false⟩, pktRem := 0 }
        seq := { v.c.seq with phase := .none } } } := by
  have held := View.drained_held hw hd hrx
  unfold View.drainEnded View.onSeq View.onHw
  dsimp only
  rw [Hw.transactionEnded (by rw [held]; exact hrst), held]

end

end Sys2Proof.Machine

open Sys2Proof Sys2Proof.Machine

/-- Settles O19: the words drained are stores within the receive buffer and the verdict gives up no more than that;
where `rxf` holds the words, both are known in full. -/
theorem pDrainStoresReceivedBytes : Obligations.PDrainStoresReceivedBytes := by
  unfold Obligations.PDrainStoresReceivedBytes
  intro s c x t hx hs hp ht hclk hfit
  have run : exec (.pDrain c) s = .next (View.pDrain ⟨s, c, x⟩ t).commit := execPDrain_enabled hx hs ht hclk hp
  refine ⟨⟨_, run, fun a ha => View.read_pDrain (v := ⟨s, c, x⟩) ht hfit ha⟩, fun hrst hwb hdvd hrx => ?_⟩
  have ended := View.drainEnded_held (v := ⟨s, c, x⟩) hrst (by unfold Ctrl.wb; dsimp only; omega) hdvd hrx
  rw [View.pDrain_eq, ended] at run
  refine ⟨fun hl => ?_, fun hl => ?_⟩
  · rw [run, View.validateStatus_quiet hl]
    rfl
  · obtain ⟨latch, seq⟩ := View.validateStatus_failed_c (t := t) (n := t.len.toNat) (v := View.drainEnded ⟨s, c, x⟩ t)
      (by rw [ended]; exact hl)
    rw [ended] at latch seq
    exact ⟨_, _, run, View.commit_ctrlAt_of_key (View.validateStatus_key _ _ _), latch, seq⟩
end

section
/-! PROOFS. XFER_POLL ends in every case (R136, R94; log entry 25): each of its parts is run from the phase the
sequencer stands in, and a second look, at the deadline, cannot leave it waiting. -/

namespace Sys2Proof.Machine

/-! ### Outcomes for one controller -/

/-- The outcome is a next state, in which the controller stands as `P` says. -/
def EndsAt (c : Byte) (P : Ctrl → Prop) (o : Out) : Prop := ∃ u y, o = .next u ∧ u.ctrlAt c = some y ∧ P y

namespace EndsAt
variable {c : Byte} {P Q : Ctrl → Prop}

theorem still {s : State} {x : Ctrl} {o : Out} (ho : o = .next s) (hx : s.ctrlAt c = some x) (h : P x) :
    EndsAt c P o := ⟨s, x, ho, hx, h⟩

theorem commit {v : View} {o : Out} (ho : o = .next v.commit) (hk : v.key = c) (h : P v.c) : EndsAt c P o :=
  ⟨_, _, ho, View.commit_ctrlAt_of_key hk, h⟩

theorem andThen {o : Out} {k : State → Out} (ho : EndsAt c Q o)
    (hk : ∀ s x, s.ctrlAt c = some x → Q x → EndsAt c P (k s)) : EndsAt c P (Machine.andThen o k) := by
  obtain ⟨s, x, rfl, hx, h⟩ := ho
  exact hk s x hx h

end EndsAt

/-! ### A polled Transfer in service -/

/-- The controller has the Transfer in hand at the phase `p`, with its clocks running. -/
structure Ctrl.Polling (x : Ctrl) (t : Transfer) (p : Phase) : Prop where
  state : x.seq.state = .transporting
  phase : x.seq.phase = p
  transfer : x.transfer = some t
  clkOn : x.clkOn = true

/-- The wait is over: the words are there to be drained, or the Transfer has failed. -/
def Ctrl.WaitOver (x : Ctrl) (t : Transfer) : Prop := x.Polling t .pDrain ∨ x.seq.state = .failed

section
variable {s : State} {c : Byte} {x : Ctrl} {t : Transfer} {p : Phase}

theorem Ctrl.Polling.of_engine {h : Hw} (hp : x.Polling t p) : Ctrl.Polling { x with hw := h } t p :=
  ⟨hp.state, hp.phase, hp.transfer, hp.clkOn⟩

theorem Ctrl.WaitOver.not_pPoll (h : x.WaitOver t) : ¬ (x.seq.state = .transporting ∧ x.seq.phase = .pPoll) := by
  rintro ⟨hs, hp⟩
  rcases h with h | h
  · cases hp.symm.trans h.phase
  · cases hs.symm.trans h

/-! ### The serial engine's words -/

theorem View.shLoad_engine (v : View) : v.shLoad.key = v.key ∧ v.shLoad.c = { v.c with hw := v.shLoad.c.hw } := by
  unfold View.shLoad
  dsimp only
  split
  · split <;> exact ⟨rfl, rfl⟩
  · exact ⟨rfl, rfl⟩

theorem View.shDone_engine (v : View) : v.shDone.key = v.key ∧ v.shDone.c = { v.c with hw := v.shDone.c.hw } := by
  obtain ⟨h, rem, n, -, -, hdone⟩ := v.shDone_spec
  rw [hdone]
  exact ⟨rfl, rfl⟩

/-- What does not speak of the serial engine stays true through a step of it. -/
theorem EndsAt.engine {P : Ctrl → Prop} (hP : ∀ x h, P x → P { x with hw := h }) {o : Out} {e : Bool} {w : View}
    (run : o = if e then .next w.commit else .next s) (hw : w.key = c ∧ w.c = { x with hw := w.c.hw })
    (hx : s.ctrlAt c = some x) (h : P x) : EndsAt c P o := by
  split at run
  · exact .commit run hw.1 (hw.2 ▸ hP x _ h)
  · exact .still run hx h

theorem shiftWords_endsAt {P : Ctrl → Prop} (hP : ∀ x h, P x → P { x with hw := h }) (n : Nat)
    (hx : s.ctrlAt c = some x) (h : P x) : EndsAt c P (shiftWords c n s) := by
  induction n generalizing s x with
  | zero => exact .still rfl hx h
  | succ n ih =>
    exact (EndsAt.engine hP (execShLoad_eq hx) (View.shLoad_engine _) hx h).andThen fun s1 x1 hx1 h1 =>
      (EndsAt.engine hP (execShDone_eq hx1) (View.shDone_engine _) hx1 h1).andThen fun s2 x2 hx2 h2 => ih hx2 h2

/-! ### The phases -/

theorem execPArm_endsAt (hx : s.ctrlAt c = some x)
    (h : x.Polling t .pArm ∨ x.Polling t .pPoll ∨ x.Polling t .pDrain) :
    EndsAt c (fun y => y.WaitOver t ∨ y.Polling t .pPoll) (execPArm c s) := by
  rcases h with h | h | h
  · exact .commit (execPArm_enabled hx h.state h.transfer h.clkOn h.phase) rfl
      (.inr ⟨h.state, rfl, h.transfer, h.clkOn⟩)
  · exact .still (State.withTransfer_otherPhase hx (by simp [h.phase])) hx (.inr h)
  · exact .still (State.withTransfer_otherPhase hx (by simp [h.phase])) hx (.inl (.inl h))

/-- One look ends the wait, or changes nothing before the deadline (R133). -/
theorem View.pPoll_cases {v : View} (h : v.c.Polling t .pPoll) :
    (v.pPoll t).key = v.key ∧ (v.pPoll t).c.WaitOver t ∨ v.pPoll t = v ∧ v.st.now < v.c.seq.deadline := by
  cases hl : (v.c.errLatch.union v.c.hw.sticky).nonempty with
  | true =>
    rw [View.pPoll_failed hl]
    exact .inl ⟨by rw [View.fail_key, View.checkStatus_key], .inr (by rw [View.fail_c])⟩
  | false =>
    rw [View.pPoll_quiet hl]
    split
    · exact .inl ⟨rfl, .inl ⟨h.state, rfl, h.transfer, h.clkOn⟩⟩
    · split
      · exact .inl ⟨rfl, .inr rfl⟩
      · next hearly => exact .inr ⟨rfl, Nat.lt_of_not_le hearly⟩

theorem execPPoll_endsAt (hx : s.ctrlAt c = some x) (h : x.Polling t .pPoll) :
    EndsAt c (fun y => y.WaitOver t ∨ y.Polling t .pPoll) (execPPoll c s) := by
  have run := execPPoll_enabled hx h.state h.transfer h.clkOn h.phase
  rcases View.pPoll_cases (v := ⟨s, c, x⟩) h with ⟨hkey, hover⟩ | ⟨hsame, -⟩
  · exact .commit run hkey (.inl hover)
  · rw [hsame] at run
    exact .commit run rfl (.inr h)

theorem execPPoll_late (hx : s.ctrlAt c = some x) (h : x.Polling t .pPoll) (hlate : x.seq.deadline ≤ s.now) :
    EndsAt c (·.WaitOver t) (execPPoll c s) := by
  rcases View.pPoll_cases (v := ⟨s, c, x⟩) h with ⟨hkey, hover⟩ | ⟨-, hearly⟩
  · exact .commit (execPPoll_enabled hx h.state h.transfer h.clkOn h.phase) hkey hover
  · exact absurd hlate (Nat.not_le.mpr hearly)

theorem State.untilDeadline_waiting (hx : s.ctrlAt c = some x) (hp : x.inPhase p = true) :
    s.untilDeadline c p = { s with now := max s.now x.seq.deadline } := by
  simp only [State.untilDeadline, hx, hp, if_true]

theorem State.untilDeadline_over (hx : s.ctrlAt c = some x) (hp : ¬ x.inPhase p = true) : s.untilDeadline c p = s := by
  simp only [State.untilDeadline, hx, if_neg hp]

theorem execPPoll_over (hx : s.ctrlAt c = some x) (h : x.WaitOver t) : execPPoll c s = .next s :=
  State.withTransfer_otherPhase hx h.not_pPoll

/-- A look that ends the wait is the last (R133). -/
theorem lookUntilDeadline_over {s0 : State} (run : execPPoll c s0 = .next s) (hx : s.ctrlAt c = some x)
    (h : x.WaitOver t) : lookUntilDeadline c .pPoll (execPPoll c) s0 = .next s := by
  rw [lookUntilDeadline, run, andThen, State.untilDeadline_over hx (mt (x.inPhase_iff _).mp h.not_pPoll),
    execPPoll_over hx h]

/-- A look and a look at the deadline end every wait (R94, R133). -/
theorem lookUntilDeadline_endsAt (hx : s.ctrlAt c = some x) (h : x.WaitOver t ∨ x.Polling t .pPoll) :
    EndsAt c (·.WaitOver t) (lookUntilDeadline c .pPoll (execPPoll c) s) := by
  rcases h with h | h
  · exact .still (lookUntilDeadline_over (execPPoll_over hx h) hx h) hx h
  · refine (execPPoll_endsAt hx h).andThen fun s1 y hy h1 => ?_
    rcases h1 with h1 | h1
    · rw [State.untilDeadline_over hy (mt (y.inPhase_iff _).mp h1.not_pPoll)]
      exact .still (execPPoll_over hy h1) hy h1
    · rw [State.untilDeadline_waiting hy ((y.inPhase_iff _).mpr ⟨h1.state, h1.phase⟩)]
      exact execPPoll_late hy h1 (Nat.le_max_right _ _)

theorem execPDrain_failed (hx : s.ctrlAt c = some x) (h : x.seq.state = .failed) : execPDrain c s = .next s :=
  State.withTransfer_otherPhase hx (by simp [h])

theorem execPDrain_endsAt (hx : s.ctrlAt c = some x) (h : x.WaitOver t) :
    EndsAt c (fun y => y.seq.state = .postDelay ∨ y.seq.state = .failed) (execPDrain c s) := by
  rcases h with h | h
  · exact .commit (execPDrain_enabled hx h.state h.transfer h.clkOn h.phase)
      (View.pDrain_moves (v := ⟨s, c, x⟩) ((x.inPhase_iff _).mpr ⟨h.state, h.phase⟩) t).frame.key
      (View.validateStatus_seq_state (View.drainEnded _ t) t t.len.toNat)
  · exact .still (execPDrain_failed hx h) hx (.inr h)

theorem execXferPoll_polling (hx : s.ctrlAt c = some x) (hs : x.seq.state = .transporting)
    (hp : x.seq.phase = .pArm ∨ x.seq.phase = .pPoll ∨ x.seq.phase = .pDrain) : execXferPoll c s =
      andThen (execPArm c s) fun s1 =>
      andThen (shiftWords c (s1.wordsLeft c) s1) fun s2 =>
      andThen (lookUntilDeadline c .pPoll (execPPoll c) s2) (execPDrain c) :=
  (State.withCtrl_some s c x _ hx).trans (if_pos (by simp [hs, Phase.isPoll_iff, hp]))

/-- From any polling phase with the clocks running XFER_POLL ends in POST_DELAY or failed (R136). -/
theorem execXferPoll_endsAt (hx : s.ctrlAt c = some x)
    (h : x.Polling t .pArm ∨ x.Polling t .pPoll ∨ x.Polling t .pDrain) :
    EndsAt c (fun y => y.seq.state = .postDelay ∨ y.seq.state = .failed) (execXferPoll c s) := by
  have hs : x.seq.state = .transporting := by rcases h with h | h | h <;> exact h.state
  have hp := h.imp (·.phase) (Or.imp (·.phase) (·.phase))
  have engine (x : Ctrl) (h : Hw) (hp : x.WaitOver t ∨ x.Polling t .pPoll) :
      Ctrl.WaitOver { x with hw := h } t ∨ Ctrl.Polling { x with hw := h } t .pPoll :=
    hp.imp (Or.imp_left (·.of_engine)) (·.of_engine)
  rw [execXferPoll_polling hx hs hp]
  exact (execPArm_endsAt hx h).andThen fun s1 x1 hx1 h1 => (shiftWords_endsAt engine _ hx1 h1).andThen
    fun s2 x2 hx2 h2 => (lookUntilDeadline_endsAt hx2 h2).andThen fun s3 x3 hx3 h3 => execPDrain_endsAt hx3 h3

end

end Sys2Proof.Machine
end

section
/-! PROOFS. Words of a transfer (R44, R46): each fits its width, the swap of a programmed format gives it a result and
twice that swap gives it back; a word's bytes stand in their place among those of all the words. -/

namespace Sys2Proof.Machine

/-! ### Words of `n` bytes -/

/-- The word has no bit at or past `8 * n`. -/
def FitsBytes (n : Nat) (v : Word) : Prop := v.toNat < 2 ^ (8 * n)

theorem FitsBytes.getLsbD {n : Nat} {v : Word} (h : FitsBytes n v) (i : Nat) (hi : 8 * n ≤ i) : v.getLsbD i = false :=
  Nat.testBit_lt_two_pow (Nat.lt_of_lt_of_le h (Nat.pow_le_pow_right Nat.two_pos hi))

theorem FitsBytes.of_getLsbD {n : Nat} {v : Word} (h : ∀ i, 8 * n ≤ i → v.getLsbD i = false) : FitsBytes n v :=
  Nat.lt_pow_two_of_testBit _ h

theorem fitsBytes_leWord (bs : List Byte) : FitsBytes bs.length (leWord bs) := by
  have h := leNat_lt bs
  rw [show 256 = 2 ^ 8 from rfl, ← Nat.pow_mul] at h
  rw [FitsBytes, leWord, BitVec.toNat_ofNat]
  exact Nat.lt_of_le_of_lt (Nat.mod_le _ _) h

theorem fitsBytes_memRead (m : List Host.Cell) (a : Word) (n : Nat) : FitsBytes n (memRead m a n) := by
  have h := fitsBytes_leWord (Memory.readBytes m n a)
  rwa [Memory.length_readBytes] at h

theorem leWord_leBytes {n : Nat} {v : Word} (h : FitsBytes n v) : leWord (leBytes n v) = v :=
  BitVec.eq_of_toNat_eq ((toNat_leWord_leBytes n v).trans (Nat.mod_eq_of_lt h))

/-! ### The swap (R46, R102) -/

theorem getLsbD_swap2 (v : Word) (i : Nat) : (swap2 v).getLsbD i =
    (decide (i < 8) && v.getLsbD (i + 8) || decide (8 ≤ i ∧ i < 16) && v.getLsbD (i - 8)) := by
  simp only [swap2, BitVec.getLsbD_or, getLsbD_put, BitVec.getLsbD_extractLsb']
  grind

theorem swap2_swap2 {v : Word} (h : FitsBytes 2 v) : swap2 (swap2 v) = v := by
  refine BitVec.eq_of_getLsbD_eq fun i _ => ?_
  have hv := h.getLsbD i
  simp only [getLsbD_swap2]
  grind

theorem fitsBytes_swap2 (v : Word) : FitsBytes 2 (swap2 v) := .of_getLsbD fun i hi => by
  rw [getLsbD_swap2]
  grind

theorem swap4_swap4 (v : Word) : swap4 (swap4 v) = v := by
  refine BitVec.eq_of_getLsbD_eq fun i hi => ?_
  simp only [swap4, BitVec.getLsbD_or, getLsbD_put, BitVec.getLsbD_extractLsb']
  grind

/-- Both directions swap alike in a format that CONFIGURE programs. -/
theorem swapVal_swapRx (w : BitVec 6) (b : Bool) (v : Word) (n : Nat) :
    (swapVal w b).swapRx v n = (swapVal w b).swapTx v n := by
  unfold swapVal
  split
  · rfl
  · split <;> rfl

/-- The swap of a programmed format has a result for every word of its width, and undoes itself. -/
theorem swapVal_swapTx {w : BitVec 6} (hw : w = 8 ∨ w = 16 ∨ w = 32) (b : Bool) {v : Word}
    (hv : FitsBytes (w.toNat / 8) v) : ∃ u, (swapVal w b).swapTx v (w.toNat / 8) = some u ∧
      FitsBytes (w.toNat / 8) u ∧ (swapVal w b).swapTx u (w.toNat / 8) = some v := by
  rcases hw with rfl | rfl | rfl
  · exact ⟨v, rfl, hv, rfl⟩
  · cases b with
    | false => exact ⟨v, rfl, hv, rfl⟩
    | true => exact ⟨swap2 v, rfl, fitsBytes_swap2 v, congrArg some (swap2_swap2 hv)⟩
  · cases b with
    | false => exact ⟨v, rfl, hv, rfl⟩
    | true => exact ⟨swap4 v, rfl, (swap4 v).isLt, congrArg some (swap4_swap4 v)⟩

/-! ### Bytes of words -/

/-- Word `i` of a buffer of `n` bytes. -/
theorem Memory.readBytes_slice (m : List Host.Cell) (a : Word) {n i k : Nat} (h : i + k ≤ n) :
    ((Memory.readBytes m n a).drop i).take k = Memory.readBytes m k (a + BitVec.ofNat 32 i) := by
  obtain ⟨r, rfl⟩ := Nat.exists_eq_add_of_le h
  rw [Nat.add_assoc, Memory.readBytes_add, Memory.readBytes_add, List.drop_left' (by simp), List.take_left' (by simp)]

theorem length_flatMap_leBytes (n : Nat) (rs : List Word) : (rs.flatMap (leBytes n)).length = rs.length * n := by
  simp [List.length_flatMap]

/-- The bytes of word `i` among those of all. -/
theorem flatMap_leBytes_slice {n i : Nat} {rs : List Word} {r : Word} (h : rs[i]? = some r) :
    ((rs.flatMap (leBytes n)).drop (i * n)).take n = leBytes n r := by
  induction rs generalizing i with
  | nil => cases h
  | cons r' rs ih =>
    cases i with
    | zero =>
      cases h
      simp [List.take_left']
    | succ i =>
      rw [List.flatMap_cons, Nat.succ_mul, Nat.add_comm, ← List.drop_drop, List.drop_left' (length_leBytes n r')]
      exact ih h

/-- A stored list of words is read back word by word (R44). -/
theorem memRead_writeBytes {m : List Host.Cell} {a : Word} {n i : Nat} {rs : List Word} {r : Word}
    (ha : a.toNat + rs.length * n ≤ 2 ^ 32) (h : rs[i]? = some r) (hr : FitsBytes n r) :
    memRead (Memory.writeBytes m a (rs.flatMap (leBytes n))) (a + BitVec.ofNat 32 (i * n)) n = r := by
  have hlen := length_flatMap_leBytes n rs
  have hi : i * n + n ≤ rs.length * n := by
    rw [← Nat.succ_mul]
    exact Nat.mul_le_mul_right n (List.getElem?_eq_some_iff.mp h).1
  have back := Memory.readBytes_writeBytes (rs.flatMap (leBytes n)) m a (by rw [hlen]; exact ha)
  rw [memRead, ← Memory.readBytes_slice _ _ hi, ← hlen, back, flatMap_leBytes_slice h, leWord_leBytes hr]

end Sys2Proof.Machine
end

section
/-! PROOFS. A hardware transaction shifted word by word (R88, R89, R92): from an armed controller each SH_LOAD and
SH_DONE exchange one word, and all of them empty `txf`, fill `rxf` and log one event a word. -/

namespace Sys2Proof.Machine

/-- `k` words are left of a transaction that nothing can stop: the engine is on and idle, `txf` holds the words to send,
`rxf` has room for those to receive, and the swap has a result for each. -/
structure Ctrl.Armed (x : Ctrl) (k : Nat) : Prop where
  clkOn : x.clkOn = true
  enclk : x.hw.clkCfg.enclk = true
  running : x.hw.chCfg.swRst = false
  idle : x.hw.shBusy = false
  counting : x.hw.packetCnt.en = true
  left : x.hw.pktRem.toNat = k
  on : x.hw.chCfg.txchOn = true ∨ x.hw.chCfg.rxchOn = true
  held : x.hw.txf.length = if x.hw.chCfg.txchOn then k * x.hw.wb else 0
  room : x.hw.chCfg.rxchOn = true → x.hw.rxf.length + k * x.hw.wb ≤ x.fifoDepth
  swapTx (v : Word) (hv : FitsBytes x.hw.wb v) : ∃ u, x.hw.swapCfg.swapTx v x.hw.wb = some u ∧ FitsBytes x.hw.wb u
  swapRx (v : Word) (hv : FitsBytes x.hw.wb v) : ∃ u, x.hw.swapCfg.swapRx v x.hw.wb = some u ∧ FitsBytes x.hw.wb u

/-- What the wire brings back for the word `sent` (R89, R92). -/
def Ctrl.answer (x : Ctrl) (log : List BusEvent) (sent : Word) : Word :=
  if x.hw.modeCfg.loopback then sent
  else truncWord x.hw.wb (Config.periph x.id x.csHolder x.hw.wb sent log)

/-- The event `e` is that of one word on the wire after `log`, sent for the word `w` of `txf` where the controller
transmits, and `r` is the word received, swapped. -/
def Ctrl.Exchanges (x : Ctrl) (log : List BusEvent) (w : Word) (e : BusEvent) (r : Word) : Prop :=
  ∃ sent, e = .word x.id (8 * x.hw.wb) x.hw.chCfg.cpol x.hw.chCfg.cpha x.hw.clkCfg.div sent x.hw.chCfg.txchOn
      (x.answer log sent) ∧
    (x.hw.chCfg.txchOn = true → x.hw.swapCfg.swapTx w x.hw.wb = some sent) ∧
    x.hw.swapCfg.swapRx (x.answer log sent) x.hw.wb = some r ∧ FitsBytes x.hw.wb r

/-- The engine with the word `sent` just put on the wire. -/
def Hw.loaded (h : Hw) (sent : Word) : Hw :=
  { h with txf := h.txf.drop h.wb, shWord := sent, shDefined := h.chCfg.txchOn, shBusy := true }

/-- The engine after some words: what `rxf` and the wire hold, and what is left of `txf` and `pkt_rem`. -/
def Hw.shifted (h : Hw) (txf : List Byte) (rs : List Word) (left : BitVec 16) (word : Word) (isDefined : Bool) : Hw :=
  { h with
    txf := txf
    rxf := if h.chCfg.rxchOn then h.rxf ++ rs.flatMap (leBytes h.wb) else h.rxf
    pktRem := left, shBusy := false, shWord := word, shDefined := isDefined }

/-- The state after some words: the controller's engine is `h`, the bus log has the events `ws`, `n` draws were made. -/
def State.shifted (s : State) (c : Byte) (x : Ctrl) (h : Hw) (ws : List BusEvent) (n : Nat) : State :=
  { s.setCtrl c { x with hw := h } with busLog := s.busLog ++ ws, draws := s.draws + n }

section
variable {s : State} {c : Byte} {x : Ctrl} {k : Nat}

theorem Ctrl.fitsBytes_answer {log : List BusEvent} {sent : Word} (h : FitsBytes x.hw.wb sent) :
    FitsBytes x.hw.wb (x.answer log sent) := by
  unfold Ctrl.answer
  split
  · exact h
  · exact truncWord_lt _ _

@[simp] theorem State.shifted_ctrlAt (s : State) (c : Byte) (x : Ctrl) (h : Hw) (ws : List BusEvent) (n : Nat) :
    (s.shifted c x h ws n).ctrlAt c = some { x with hw := h } := s.ctrlAt_setCtrl_self c _

theorem State.shifted_shifted (s : State) (c : Byte) (x : Ctrl) (h h' : Hw) (ws ws' : List BusEvent) (n n' : Nat) :
    (s.shifted c x h ws n).shifted c { x with hw := h } h' ws' n' = s.shifted c x h' (ws ++ ws') (n + n') := by
  simp [State.shifted, State.setCtrl, Table.set_set, Nat.add_assoc]

/-! ### One word -/

theorem Ctrl.Armed.room_word (h : x.Armed (k + 1)) (hrx : x.hw.chCfg.rxchOn = true) :
    x.hw.wb ≤ x.fifoDepth - x.hw.rxf.length := by
  have hroom := h.room hrx
  rw [Nat.succ_mul] at hroom
  omega

/-- SH_LOAD of an armed controller puts the swapped head of `txf` on the wire, or a word nobody determines (R88). -/
theorem Ctrl.Armed.load (hx : s.ctrlAt c = some x) (h : x.Armed (k + 1)) : ∃ sent n, FitsBytes x.hw.wb sent ∧
    (x.hw.chCfg.txchOn = true → x.hw.swapCfg.swapTx (leWord (x.hw.txf.take x.hw.wb)) x.hw.wb = some sent) ∧
    execShLoad c s = .next (s.shifted c x (x.hw.loaded sent) [] n) := by
  obtain ⟨transmit, receiveOnly⟩ := (shLoadStartsOneWord s c x hx).1 h.clkOn h.enclk h.running h.idle h.counting
    (by rw [h.left]; exact Nat.succ_pos k) (fun _ => h.room_word)
  have hheld := h.held
  cases ht : x.hw.chCfg.txchOn with
  | true =>
    rw [ht, if_pos rfl, Nat.succ_mul] at hheld
    have hlen : x.hw.wb ≤ x.hw.txf.length := by omega
    have hfits := fitsBytes_leWord (x.hw.txf.take x.hw.wb)
    rw [List.length_take_of_le hlen] at hfits
    obtain ⟨sent, hsent, hu⟩ := h.swapTx _ hfits
    refine ⟨sent, 0, hu, fun _ => hsent, ((transmit ht hlen).1 sent hsent).trans ?_⟩
    simp [State.shifted, State.setCtrl, Hw.loaded, ht]
  | false =>
    have hempty : x.hw.txf = [] := List.eq_nil_of_length_eq_zero (by simpa [ht] using hheld)
    obtain ⟨sent, hlt, run⟩ := receiveOnly ht (h.on.resolve_left (by simp [ht]))
    refine ⟨sent, 1, hlt, by simp, run.trans ?_⟩
    simp [State.shifted, State.setCtrl, Hw.loaded, ht, hempty]

/-- SH_DONE with a word on the wire, room for it and a swap for the answer (R89). -/
theorem execShDone_pushes {got r : Word} (hx : s.ctrlAt c = some x) (hclk : x.clkOn = true)
    (hbusy : x.hw.shBusy = true) (hleft : x.hw.pktRem ≠ 0)
    (hroom : x.hw.chCfg.rxchOn = true → x.hw.wb ≤ x.fifoDepth - x.hw.rxf.length)
    (hgot : got = x.answer s.busLog x.hw.shWord) (hr : x.hw.swapCfg.swapRx got x.hw.wb = some r) :
    execShDone c s = .next (s.shifted c x
      (x.hw.shifted x.hw.txf [r] (x.hw.pktRem - 1) x.hw.shWord x.hw.shDefined) [x.wordEvent got] 0) := by
  have done := (shDoneEndsTheWord s c x got hx hgot).1 hclk hbusy hleft
  cases hrx : x.hw.chCfg.rxchOn with
  | true =>
    refine (done _ (.inr (.inl ⟨hrx, hroom hrx, r, hr, rfl⟩))).trans ?_
    simp [State.shifted, Hw.shifted, Ctrl.wordEvent, State.setCtrl, hrx]
  | false =>
    refine (done _ (.inl ⟨hrx, rfl⟩)).trans ?_
    simp [State.shifted, Hw.shifted, Ctrl.wordEvent, State.setCtrl, hrx]

/-- An armed controller with a word left exchanges it (R88, R89). -/
theorem Ctrl.Armed.word (hx : s.ctrlAt c = some x) (h : x.Armed (k + 1)) (m : Nat) : ∃ e r n sent,
    x.Exchanges s.busLog (leWord (x.hw.txf.take x.hw.wb)) e r ∧
    shiftWords c (m + 1) s = shiftWords c m (s.shifted c x
      (x.hw.shifted (x.hw.txf.drop x.hw.wb) [r] (x.hw.pktRem - 1) sent x.hw.chCfg.txchOn) [e] n) := by
  obtain ⟨sent, n, hfits, hsent, load⟩ := h.load hx
  obtain ⟨r, hr, hrfits⟩ := h.swapRx _ (x.fitsBytes_answer (log := s.busLog) hfits)
  have hleft : x.hw.pktRem ≠ 0 := fun e => by simpa [e] using h.left
  refine ⟨_, r, n, sent, ⟨sent, rfl, hsent, hr, hrfits⟩, ?_⟩
  have hx1 := s.shifted_ctrlAt c x (x.hw.loaded sent) [] n
  have hgot : x.answer s.busLog sent = x.answer (s.shifted c x (x.hw.loaded sent) [] n).busLog sent := by
    simp [State.shifted]
  have done := execShDone_pushes hx1 h.clkOn rfl hleft h.room_word hgot hr
  rw [shiftWords, load, andThen, done, andThen, State.shifted_shifted]
  rfl

/-- After a word the controller is armed for the rest. -/
theorem Ctrl.Armed.rest (h : x.Armed (k + 1)) (r sent : Word) (d : Bool) : Ctrl.Armed
    { x with hw := x.hw.shifted (x.hw.txf.drop x.hw.wb) [r] (x.hw.pktRem - 1) sent d } k where
  clkOn := h.clkOn
  enclk := h.enclk
  running := h.running
  idle := rfl
  counting := h.counting
  left := by
    have := h.left
    show (x.hw.pktRem - 1).toNat = k
    bv_omega
  on := h.on
  held := by
    have hk : (k + 1) * x.hw.wb = k * x.hw.wb + x.hw.wb := Nat.succ_mul _ _
    show (x.hw.txf.drop x.hw.wb).length = if x.hw.chCfg.txchOn then k * x.hw.wb else 0
    rw [List.length_drop, h.held, hk]
    split <;> omega
  room hrx := by
    have hk : (k + 1) * x.hw.wb = k * x.hw.wb + x.hw.wb := Nat.succ_mul _ _
    have hlen : (x.hw.shifted (x.hw.txf.drop x.hw.wb) [r] (x.hw.pktRem - 1) sent d).rxf.length =
        x.hw.rxf.length + x.hw.wb := by
      simp [Hw.shifted, show x.hw.chCfg.rxchOn = true from hrx]
    have hroom := h.room hrx
    show (x.hw.shifted _ _ _ _ _).rxf.length + k * x.hw.wb ≤ x.fifoDepth
    omega
  swapTx := h.swapTx
  swapRx := h.swapRx

/-! ### All the words -/

/-- The events `ws` and the words received `rs` are those of a transaction of `k` words after `log`. -/
structure Ctrl.ExchangesAll (x : Ctrl) (log : List BusEvent) (k : Nat) (ws : List BusEvent) (rs : List Word) :
    Prop where
  events : ws.length = k
  received : rs.length = k
  word (i : Nat) (hi : i < k) : ∃ e r, ws[i]? = some e ∧ rs[i]? = some r ∧
    x.Exchanges (log ++ ws.take i) (leWord ((x.hw.txf.drop (i * x.hw.wb)).take x.hw.wb)) e r

/-- One word, and then those of the rest. -/
theorem Ctrl.ExchangesAll.cons {log ws : List BusEvent} {rs : List Word} {e : BusEvent} {r sent : Word} {d : Bool}
    {left : BitVec 16} (h : x.Exchanges log (leWord (x.hw.txf.take x.hw.wb)) e r)
    (hrest : Ctrl.ExchangesAll { x with hw := x.hw.shifted (x.hw.txf.drop x.hw.wb) [r] left sent d } (log ++ [e]) k
      ws rs) :
    x.ExchangesAll log (k + 1) (e :: ws) (r :: rs) where
  events := congrArg (· + 1) hrest.events
  received := congrArg (· + 1) hrest.received
  word i hi := by
    cases i with
    | zero => exact ⟨e, r, rfl, rfl, by simpa using h⟩
    | succ i =>
      obtain ⟨e', r', he, hr, hword⟩ := hrest.word i (Nat.lt_of_succ_lt_succ hi)
      refine ⟨e', r', he, hr, ?_⟩
      rw [Nat.succ_mul, Nat.add_comm (i * _), ← List.drop_drop, List.take_succ_cons, List.append_cons]
      exact hword

theorem Hw.shifted_shifted (h : Hw) (txf txf' : List Byte) (rs rs' : List Word) (l l' : BitVec 16) (w w' : Word)
    (d d' : Bool) : (h.shifted txf rs l w d).shifted txf' rs' l' w' d' = h.shifted txf' (rs ++ rs') l' w' d' := by
  unfold Hw.shifted
  cases h.chCfg.rxchOn with
  | true =>
    simp only [if_true, List.flatMap_append, List.append_assoc]
    rfl
  | false => rfl

theorem Hw.shifted_none {h : Hw} (htxf : h.txf = []) (hleft : h.pktRem = 0) (hidle : h.shBusy = false) :
    h.shifted [] [] 0 h.shWord h.shDefined = h := by
  cases h
  cases htxf
  cases hleft
  cases hidle
  simp [Hw.shifted]

theorem State.setCtrl_shifted (s : State) (c : Byte) (x : Ctrl) (h : Hw) (ws : List BusEvent) (n : Nat) :
    (s.shifted c x h ws n).setCtrl c { x with hw := h } = s.shifted c x h ws n := by
  simp [State.shifted, State.setCtrl, Table.set_set]

/-- Without a word to shift the engine stands still (R88, R89). -/
theorem shiftWords_idle {n : Nat} (hx : s.ctrlAt c = some x)
    (h : x.hw.clkCfg.enclk = false ∨ x.hw.pktRem = 0) (hidle : x.hw.shBusy = false) :
    shiftWords c n s = .next s := by
  have load : execShLoad c s = .next s := (shLoadStartsOneWord s c x hx).2
    (h.elim (fun h => .inr (.inl h)) fun h => .inr (.inr (.inr (.inr (.inr (.inl h))))))
  have done : execShDone c s = .next s := (shDoneEndsTheWord s c x _ hx rfl).2.2 (.inr hidle)
  induction n with
  | zero => rfl
  | succ n ih => rw [shiftWords, load, Machine.andThen, done, Machine.andThen, ih]

/-- An armed controller shifts all its words, and then has none (R136 item 1). -/
theorem Ctrl.Armed.shiftWords (hset : s.setCtrl c x = s) (h : x.Armed k) : ∃ ws rs w d n,
    x.ExchangesAll s.busLog k ws rs ∧
    shiftWords c (k + 1) s = .next (s.shifted c x (x.hw.shifted [] rs 0 w d) ws n) := by
  induction k generalizing s x with
  | zero =>
    have hx : s.ctrlAt c = some x := hset ▸ s.ctrlAt_setCtrl_self c x
    have hleft : x.hw.pktRem = 0 := BitVec.eq_of_toNat_eq h.left
    have htxf : x.hw.txf = [] := List.eq_nil_of_length_eq_zero (by simpa using h.held)
    refine ⟨[], [], x.hw.shWord, x.hw.shDefined, 0, ⟨rfl, rfl, nofun⟩, ?_⟩
    rw [shiftWords_idle hx (.inr hleft) h.idle, Hw.shifted_none htxf hleft h.idle, State.shifted, List.append_nil]
    exact congrArg _ hset.symm
  | succ k ih =>
    have hx : s.ctrlAt c = some x := hset ▸ s.ctrlAt_setCtrl_self c x
    obtain ⟨e, r, n, sent, hword, run⟩ := h.word hx (k + 1)
    obtain ⟨ws, rs, w, d, n', hall, hrun⟩ := ih (s.setCtrl_shifted c x _ [e] n) (h.rest r sent _)
    refine ⟨e :: ws, r :: rs, w, d, n + n', .cons hword hall, ?_⟩
    rw [run, hrun, State.shifted_shifted, Hw.shifted_shifted]
    rfl

end

end Sys2Proof.Machine
end

section
/-! PROOFS. XFER_POLL from P_ARM (R136): where the engine can shift, its phases follow one another at the time it began
and the words exchanged are those of the two buffers; where it cannot, the Transfer times out at the deadline. -/

namespace Sys2Proof.Machine

/-- The engine is as R132 says it is on entry, with no condition set, and the Transfer fits it (R130, R139). -/
structure Ctrl.ReadyFor (x : Ctrl) (t : Transfer) : Prop where
  present : t.txPresent = true ∨ t.rxPresent = true
  width : x.curWidth = 8 ∨ x.curWidth = 16 ∨ x.curWidth = 32
  words : t.len.toNat % x.wb = 0
  fits : t.len.toNat ≤ x.fifoDepth
  depth : x.fifoDepth ≤ 256
  running : x.hw.chCfg.swRst = false
  txf : x.hw.txf = []
  rxf : x.hw.rxf = []
  idle : x.hw.shBusy = false
  quiet : x.hw.sticky = Conds.empty

/-- The engine shifts in the format of the current width (R103). -/
structure Ctrl.Programmed (x : Ctrl) : Prop where
  enclk : x.hw.clkCfg.enclk = true
  size : x.hw.modeCfg.chTsz = widthCode x.curWidth
  swap : x.hw.swapCfg = swapVal x.curWidth x.swapByte

/-- The controller after P_ARM of a Transfer it is ready for (R132). -/
def Ctrl.armedFor (x : Ctrl) (s : State) (t : Transfer) : Ctrl := { x with
  errLatch := Conds.empty
  hw := { x.hw with
    modeCfg := { x.hw.modeCfg with txdmaOn := false, rxdmaOn := false, burst4 := false }
    packetCnt := ⟨BitVec.ofNat 16 (t.len.toNat / x.wb), true⟩
    pktRem := BitVec.ofNat 16 (t.len.toNat / x.wb)
    txf := if t.txPresent then Memory.readBytes s.mem t.len.toNat t.tx else []
    chCfg := { x.hw.chCfg with txchOn := t.txPresent, rxchOn := t.rxPresent } }
  seq := { x.seq with phase := .pPoll, deadline := s.now + deadlineUs t.len.toNat x.curSpeed.toNat } }

/-- The controller when all the words are shifted and P_POLL has seen it: `rs` were received (R133). -/
def Ctrl.shiftedFor (x : Ctrl) (s : State) (t : Transfer) (rs : List Word) (word : Word) (isDefined : Bool) : Ctrl :=
  { x.armedFor s t with
    hw := (x.armedFor s t).hw.shifted [] rs 0 word isDefined
    seq := { (x.armedFor s t).seq with phase := .pDrain } }

/-- The controller after the whole of a polled Transfer (R134, R179). -/
def Ctrl.polledFor (x : Ctrl) (s : State) (t : Transfer) (word : Word) (isDefined : Bool) : Ctrl := { x with
  errLatch := Conds.empty
  hw := { x.hw with
    chCfg := { x.hw.chCfg with txchOn := false, rxchOn := false }
    modeCfg := { x.hw.modeCfg with txdmaOn := false, rxdmaOn := false, burst4 := false }
    packetCnt := ⟨0, false⟩, pktRem := 0, shWord := word, shDefined := isDefined }
  seq := { x.seq with
    state := .postDelay, phase := .none, deadline := s.now + deadlineUs t.len.toNat x.curSpeed.toNat
    delayUntil := s.now + t.delayUsecs.toNat } }

section
variable {s : State} {c : Byte} {x : Ctrl} {t : Transfer}

namespace Ctrl.ReadyFor

theorem wb (h : x.ReadyFor t) : x.wb = 1 ∨ x.wb = 2 ∨ x.wb = 4 := by
  unfold Ctrl.wb
  rcases h.width with hw | hw | hw <;> rw [hw] <;> decide

theorem words_mul (h : x.ReadyFor t) : t.len.toNat / x.wb * x.wb = t.len.toNat :=
  Nat.div_mul_cancel (Nat.dvd_of_mod_eq_zero h.words)

theorem seen (h : x.ReadyFor t) : (Conds.empty.union x.hw.sticky).nonempty = false := by
  rw [h.quiet]
  rfl

/-- The packet counter holds every number of words that fits (R139). -/
theorem pktRem (h : x.ReadyFor t) : (x.armedFor s t).hw.pktRem.toNat = t.len.toNat / x.wb := by
  have hle : t.len.toNat / x.wb ≤ t.len.toNat := Nat.div_le_self _ _
  have hfits := h.fits
  have hdepth := h.depth
  exact (BitVec.toNat_ofNat _ _).trans (Nat.mod_eq_of_lt (by omega))

end Ctrl.ReadyFor

theorem Ctrl.Polling.armedFor (hp : x.Polling t .pArm) : (x.armedFor s t).Polling t .pPoll :=
  ⟨hp.state, rfl, hp.transfer, hp.clkOn⟩

theorem execPArm_ready (hx : s.ctrlAt c = some x) (hp : x.Polling t .pArm) (h : x.ReadyFor t) :
    execPArm c s = .next (s.setCtrl c (x.armedFor s t)) :=
  (pArmLoadsFifo s c x t hx hp.state hp.phase hp.transfer hp.clkOn).2 h.running h.txf h.wb h.words h.fits

theorem State.setCtrl_setCtrl (s : State) (c : Byte) (x y : Ctrl) : (s.setCtrl c x).setCtrl c y = s.setCtrl c y := by
  simp [State.setCtrl, Table.set_set]

/-! ### The engine can shift -/

/-- The engine's word size is that of the transport (R102). -/
theorem Ctrl.Programmed.hw_wb (h : x.Programmed) (hr : x.ReadyFor t) : x.hw.wb = x.wb := by
  rw [Hw.wb, h.size, Ctrl.wb]
  rcases hr.width with hw | hw | hw <;> rw [hw] <;> rfl

theorem Ctrl.Programmed.wb (h : x.Programmed) (hr : x.ReadyFor t) : (x.armedFor s t).hw.wb = x.wb := h.hw_wb hr

/-- P_ARM leaves the engine armed for all the words (R132, R139). -/
theorem Ctrl.Programmed.armed (h : x.Programmed) (hp : x.Polling t .pArm) (hr : x.ReadyFor t) :
    (x.armedFor s t).Armed (t.len.toNat / x.wb) where
  clkOn := hp.clkOn
  enclk := h.enclk
  running := hr.running
  idle := hr.idle
  counting := rfl
  left := hr.pktRem
  on := hr.present
  held := by
    rw [h.wb hr, hr.words_mul]
    show (if t.txPresent then Memory.readBytes s.mem t.len.toNat t.tx else []).length = if t.txPresent then _ else _
    split <;> simp
  room _ := by
    rw [h.wb hr, hr.words_mul]
    show x.hw.rxf.length + t.len.toNat ≤ x.fifoDepth
    rw [hr.rxf]
    simpa using hr.fits
  swapTx v hv := by
    rw [h.wb hr] at hv ⊢
    obtain ⟨u, hu, hfits, -⟩ := swapVal_swapTx hr.width x.swapByte hv
    exact ⟨u, (congrArg (SwapCfg.swapTx · v x.wb) h.swap).trans hu, hfits⟩
  swapRx v hv := by
    rw [h.wb hr] at hv ⊢
    obtain ⟨u, hu, hfits, -⟩ := swapVal_swapTx hr.width x.swapByte hv
    exact ⟨u, (congrArg (SwapCfg.swapRx · v x.wb) h.swap).trans ((swapVal_swapRx _ _ v _).trans hu), hfits⟩

/-- `rxf` when all the words are shifted. -/
theorem Ctrl.ReadyFor.rxf_shifted (hr : x.ReadyFor t) (h : x.Programmed) (rs : List Word) (w : Word) (d : Bool) :
    ((x.armedFor s t).hw.shifted [] rs 0 w d).rxf = if t.rxPresent then rs.flatMap (leBytes x.wb) else [] := by
  have hrxf : (x.armedFor s t).hw.rxf = [] := hr.rxf
  unfold Hw.shifted
  dsimp only
  rw [h.wb hr, hrxf]
  rfl

theorem State.shifted_setCtrl (s : State) (c : Byte) (x y : Ctrl) (h : Hw) (ws : List BusEvent) (n : Nat) :
    (s.setCtrl c y).shifted c x h ws n = s.shifted c x h ws n := by
  simp [State.shifted, State.setCtrl, Table.set_set]

section
variable {ws : List BusEvent} {rs : List Word} {w : Word} {d : Bool} {n : Nat} (hp : x.Polling t .pArm)
  (hr : x.ReadyFor t) (h : x.Programmed) (hlen : rs.length = t.len.toNat / x.wb)
include hp hr h hlen

/-- The words being shifted, the first look finds the Transfer complete (R133). -/
theorem execPPoll_shifted :
    execPPoll c (s.shifted c (x.armedFor s t) ((x.armedFor s t).hw.shifted [] rs 0 w d) ws n) =
      .next { s.setCtrl c (x.shiftedFor s t rs w d) with busLog := s.busLog ++ ws, draws := s.draws + n } := by
  have hp' : Ctrl.Polling { x.armedFor s t with hw := (x.armedFor s t).hw.shifted [] rs 0 w d } t .pPoll :=
    hp.armedFor.of_engine
  have look := (pPollLooksOnce _ c _ t (s.shifted_ctrlAt c (x.armedFor s t)
    ((x.armedFor s t).hw.shifted [] rs 0 w d) ws n) hp'.state hp'.phase hp'.transfer hp'.clkOn).2.1 hr.seen
  refine (look ?_).trans ?_
  · dsimp only
    rw [hr.rxf_shifted h]
    split
    · rw [length_flatMap_leBytes, hlen, hr.words_mul]
    · exact ⟨rfl, rfl⟩
  · simp only [State.shifted, State.setCtrl, Table.set_set]
    rfl

/-- With all the words shifted P_DRAIN stores those received and leaves the engine as the next Transfer's arming expects
it (R134). -/
theorem execPDrain_shifted (hfit : t.rxPresent = true → t.rx.toNat + t.len.toNat ≤ 2 ^ 32) :
    execPDrain c { s.setCtrl c (x.shiftedFor s t rs w d) with busLog := s.busLog ++ ws, draws := s.draws + n } =
      .next { s.setCtrl c (x.polledFor s t w d) with
        mem := if t.rxPresent then Memory.writeBytes s.mem t.rx (rs.flatMap (leBytes x.wb)) else s.mem
        busLog := s.busLog ++ ws, draws := s.draws + n } := by
  have hrxf : (x.shiftedFor s t rs w d).hw.rxf = _ := hr.rxf_shifted (s := s) h rs w d
  have hbytes : (rs.flatMap (leBytes x.wb)).length = t.len.toNat := by
    rw [length_flatMap_leBytes, hlen, hr.words_mul]
  have drain := (pDrainStoresReceivedBytes
      { s.setCtrl c (x.shiftedFor s t rs w d) with busLog := s.busLog ++ ws, draws := s.draws + n } c
      (x.shiftedFor s t rs w d) t (s.ctrlAt_setCtrl_self c _) hp.state rfl hp.transfer hp.clkOn hfit).2 hr.running hr.wb
      hr.words (fun hrx => by rw [hrxf, if_pos hrx, hbytes])
  have hempty : List.drop t.len.toNat (rs.flatMap (leBytes x.wb)) = [] := List.drop_eq_nil_of_le (Nat.le_of_eq hbytes)
  have hall : List.take t.len.toNat (rs.flatMap (leBytes x.wb)) = rs.flatMap (leBytes x.wb) :=
    List.take_of_length_le (Nat.le_of_eq hbytes)
  refine (drain.1 hr.seen).trans ?_
  rw [hrxf]
  cases t.rxPresent <;> simp [State.setCtrl, Table.set_set, Ctrl.shiftedFor, Ctrl.polledFor, Ctrl.armedFor, Hw.shifted,
    hr.txf, hr.rxf, hr.idle, hempty, hall]

end

/-- Where the engine can shift, XFER_POLL exchanges all the words and stores those received (R136). -/
theorem execXferPoll_completes (hx : s.ctrlAt c = some x) (hp : x.Polling t .pArm) (hr : x.ReadyFor t)
    (h : x.Programmed) (hfit : t.rxPresent = true → t.rx.toNat + t.len.toNat ≤ 2 ^ 32) : ∃ ws rs w d n,
    (x.armedFor s t).ExchangesAll s.busLog (t.len.toNat / x.wb) ws rs ∧
    execXferPoll c s = .next { s.setCtrl c (x.polledFor s t w d) with
      mem := if t.rxPresent then Memory.writeBytes s.mem t.rx (rs.flatMap (leBytes x.wb)) else s.mem
      busLog := s.busLog ++ ws, draws := s.draws + n } := by
  obtain ⟨ws, rs, w, d, n, hall, shifted⟩ :=
    (h.armed hp hr).shiftWords (s := s.setCtrl c (x.armedFor s t)) (s.setCtrl_setCtrl c _ _)
  have hwords : (s.setCtrl c (x.armedFor s t)).wordsLeft c = t.len.toNat / x.wb + 1 := by
    rw [State.wordsLeft, State.ctrlAt_setCtrl_self]
    exact congrArg (· + 1) hr.pktRem
  have complete : (x.shiftedFor s t rs w d).WaitOver t := .inl ⟨hp.state, rfl, hp.transfer, hp.clkOn⟩
  have look := lookUntilDeadline_over (execPPoll_shifted (s := s) (c := c) (ws := ws) (w := w) (d := d) (n := n)
    hp hr h hall.received) (s.ctrlAt_setCtrl_self c _) complete
  refine ⟨ws, rs, w, d, n, hall, ?_⟩
  rw [execXferPoll_polling hx hp.state (.inl hp.phase), execPArm_ready hx hp hr, andThen, hwords, shifted, andThen,
    State.shifted_setCtrl, look]
  exact execPDrain_shifted hp hr h hall.received hfit

/-! ### The engine cannot shift -/

theorem deadlineUs_pos (len speed : Nat) : 0 < deadlineUs len speed := by
  have hmin : 100 ≤ deadlineMs len speed := Nat.le_max_left _ _
  unfold deadlineUs
  omega

theorem Ctrl.ReadyFor.not_complete (hr : x.ReadyFor t) (hlen : 0 < t.len.toNat) :
    ¬ (x.armedFor s t).pollComplete t = true := by
  have hrxf : (x.armedFor s t).hw.rxf = [] := hr.rxf
  have htxf : (x.armedFor s t).hw.txf = if t.txPresent then Memory.readBytes s.mem t.len.toNat t.tx else [] := rfl
  rw [Ctrl.pollComplete_iff]
  split
  · rw [hrxf]
    exact Nat.not_le.mpr hlen
  · next hrx =>
    rw [htxf, if_pos (hr.present.resolve_right hrx)]
    rintro ⟨hnil, -⟩
    have hzero := congrArg List.length hnil
    rw [Memory.length_readBytes] at hzero
    exact absurd hzero (Nat.ne_of_gt hlen)

/-- The controller when the deadline of its words has passed (R133, R183). -/
def Ctrl.timedOutFor (x : Ctrl) (s : State) (t : Transfer) : Ctrl := { x.armedFor s t with
  seq := { (x.armedFor s t).seq with
    err := 0x03010000#32 ||| put 0 (BitVec.ofNat 16 x.seq.xi), phase := .none, state := .failed } }

/-- Where the engine cannot shift, XFER_POLL waits for the deadline and fails with Timeout (R136, R131). -/
theorem execXferPoll_timesOut (hx : s.ctrlAt c = some x) (hp : x.Polling t .pArm) (hr : x.ReadyFor t)
    (hlen : 0 < t.len.toNat) (hoff : x.hw.clkCfg.enclk = false) :
    execXferPoll c s = .next { s.setCtrl c (x.timedOutFor s t) with
      now := s.now + deadlineUs t.len.toNat x.curSpeed.toNat } := by
  have hx1 := s.ctrlAt_setCtrl_self c (x.armedFor s t)
  have hp1 : (x.armedFor s t).Polling t .pPoll := hp.armedFor
  have hwait := mt (Ctrl.pollComplete_iff _ t).mpr (hr.not_complete (s := s) hlen)
  have hearly : s.now < s.now + deadlineUs t.len.toNat x.curSpeed.toNat :=
    Nat.lt_add_of_pos_right (deadlineUs_pos _ _)
  have hmax : max s.now (s.now + deadlineUs t.len.toNat x.curSpeed.toNat) =
      s.now + deadlineUs t.len.toNat x.curSpeed.toNat := Nat.max_eq_right (Nat.le_of_lt hearly)
  have early : execPPoll c (s.setCtrl c (x.armedFor s t)) = .next (s.setCtrl c (x.armedFor s t)) :=
    ((pPollLooksOnce _ c _ t hx1 hp1.state hp1.phase hp1.transfer hp1.clkOn).2.2.2 hr.seen hwait hearly).trans
      (congrArg _ (s.setCtrl_setCtrl c _ _))
  have due : (s.setCtrl c (x.armedFor s t)).untilDeadline c .pPoll = { s.setCtrl c (x.armedFor s t) with
      now := s.now + deadlineUs t.len.toNat x.curSpeed.toNat } :=
    (State.untilDeadline_waiting hx1 ((Ctrl.inPhase_iff _ _).mpr ⟨hp1.state, hp1.phase⟩)).trans
      (by rw [← hmax]; rfl)
  have late : execPPoll c { s.setCtrl c (x.armedFor s t) with
      now := s.now + deadlineUs t.len.toNat x.curSpeed.toNat } = .next { s.setCtrl c (x.timedOutFor s t) with
      now := s.now + deadlineUs t.len.toNat x.curSpeed.toNat } :=
    ((pPollLooksOnce { s.setCtrl c (x.armedFor s t) with now := s.now + deadlineUs t.len.toNat x.curSpeed.toNat } c _ t
      hx1 hp1.state hp1.phase hp1.transfer hp1.clkOn).2.2.1 hr.seen hwait (Nat.le_refl _)).trans
      (by simp only [State.setCtrl, Table.set_set]; rfl)
  rw [execXferPoll_polling hx hp.state (.inl hp.phase), execPArm_ready hx hp hr, andThen,
    shiftWords_idle hx1 (.inl hoff) hr.idle, andThen, lookUntilDeadline, early, andThen, due, late]
  exact execPDrain_failed (s.ctrlAt_setCtrl_self c (x.timedOutFor s t)) rfl

/-! ### The words of the two buffers (R136 items 1 and 2) -/

section
variable {ws : List BusEvent} {rs : List Word} {k : Nat}

/-- Word `k` of a polled Transfer: what was sent, what came back, and what was received of it. -/
theorem Ctrl.ExchangesAll.polled (hr : x.ReadyFor t) (h : x.Programmed)
    (hall : (x.armedFor s t).ExchangesAll s.busLog (t.len.toNat / x.wb) ws rs) (hk : k < t.len.toNat / x.wb) :
    ∃ sent r, ws[k]? = some (.word x.id (8 * x.wb) x.hw.chCfg.cpol x.hw.chCfg.cpha x.hw.clkCfg.div sent t.txPresent
        (x.answer (s.busLog ++ ws.take k) sent)) ∧
      (t.txPresent = true →
        x.hw.swapCfg.swapTx (memRead s.mem (t.tx + BitVec.ofNat 32 (k * x.wb)) x.wb) x.wb = some sent) ∧
      rs[k]? = some r ∧ x.hw.swapCfg.swapRx (x.answer (s.busLog ++ ws.take k) sent) x.wb = some r ∧
      FitsBytes x.wb r := by
  obtain ⟨e, r, he, hrk, sent, rfl, htx, hrx, hfits⟩ := hall.word k hk
  rw [h.wb hr] at he htx hrx hfits
  refine ⟨sent, r, he, fun ht => ?_, hrk, hrx, hfits⟩
  have hroom : k * x.wb + x.wb ≤ t.len.toNat := by
    rw [← Nat.succ_mul, ← hr.words_mul]
    exact Nat.mul_le_mul_right _ hk
  have htxf : (x.armedFor s t).hw.txf = Memory.readBytes s.mem t.len.toNat t.tx := if_pos ht
  have hword := htx ht
  rw [htxf, Memory.readBytes_slice _ _ hroom] at hword
  exact hword

theorem Ctrl.Programmed.answer_eq (h : x.Programmed) (hr : x.ReadyFor t) (log : List BusEvent) (sent : Word) :
    x.answer log sent = if x.hw.modeCfg.loopback then sent
      else truncWord x.wb (Config.periph x.id x.csHolder x.wb sent log) := by
  rw [Ctrl.answer, h.hw_wb hr]

/-- In loopback the word received is the word of the transmit buffer: the swap undoes itself. -/
theorem Ctrl.ReadyFor.echo (hr : x.ReadyFor t) (h : x.Programmed) {v sent r : Word} {log : List BusEvent}
    (hloop : x.hw.modeCfg.loopback = true) (hv : FitsBytes x.wb v) (htx : x.hw.swapCfg.swapTx v x.wb = some sent)
    (hrx : x.hw.swapCfg.swapRx (x.answer log sent) x.wb = some r) : r = v := by
  obtain ⟨u, hu, -, hback⟩ := swapVal_swapTx hr.width x.swapByte hv
  rw [h.swap] at htx hrx
  obtain rfl : u = sent := Option.some.inj (hu.symm.trans htx)
  rw [Ctrl.answer, if_pos hloop, swapVal_swapRx] at hrx
  exact Option.some.inj (hrx.symm.trans hback)

end

/-- Two buffers with the same words have the same bytes. -/
theorem Memory.read_eq_of_words {m m' : List Host.Cell} {a a' : Word} {n len i : Nat} (hn : 0 < n) (h4 : n ≤ 4)
    (hlen : len / n * n = len)
    (hwords : ∀ k, k < len / n →
      memRead m (a + BitVec.ofNat 32 (k * n)) n = memRead m' (a' + BitVec.ofNat 32 (k * n)) n)
    (hi : i < len) : Memory.read m (a + BitVec.ofNat 32 i) = Memory.read m' (a' + BitVec.ofNat 32 i) := by
  have byte (m : List Host.Cell) (a : Word) : (Memory.readBytes m n (a + BitVec.ofNat 32 (i / n * n)))[i % n]? =
      some (Memory.read m (a + BitVec.ofNat 32 i)) := by
    have hlt : i % n < (Memory.readBytes m n (a + BitVec.ofNat 32 (i / n * n))).length := by
      rw [Memory.length_readBytes]
      exact Nat.mod_lt i hn
    rw [List.getElem?_eq_getElem hlt, Memory.getElem_readBytes, BitVec.add_assoc, ← BitVec.ofNat_add, Nat.div_add_mod']
  have hk : i / n < len / n := by
    rw [Nat.div_lt_iff_lt_mul hn, hlen]
    exact hi
  have hbytes := congrArg (leBytes n) (hwords _ hk)
  rw [leBytes_memRead _ _ _ h4, leBytes_memRead _ _ _ h4] at hbytes
  exact Option.some.inj ((byte m a).symm.trans ((congrArg (·[i % n]?) hbytes).trans (byte m' a')))

end

end Sys2Proof.Machine

open Sys2Proof Sys2Proof.Machine

/-- Settles O20: every part of the composite runs from the phase the sequencer stands in; from P_ARM the words exchanged
are those of the two buffers, or the wait ends at the deadline. -/
theorem polledLoopbackEchoes : Obligations.PolledLoopbackEchoes := by
  unfold Obligations.PolledLoopbackEchoes
  refine ⟨fun s c x t hx hs hp ht hclk => ?ends, fun s c x t hx hs hp ht hclk hpresent hwidth hwords hfits hdepth hrst
    htxf hrxf hidle hquiet => ?_⟩
  case ends =>
    exact execXferPoll_endsAt hx (hp.imp (⟨hs, ·, ht, hclk⟩) (Or.imp (⟨hs, ·, ht, hclk⟩) (⟨hs, ·, ht, hclk⟩)))
  have hpoll : x.Polling t .pArm := ⟨hs, hp, ht, hclk⟩
  have hr : x.ReadyFor t := ⟨hpresent, hwidth, hwords, hfits, hdepth, hrst, htxf, hrxf, hidle, hquiet⟩
  refine ⟨fun hfit henclk hsize hswap => ?completes, fun hlen hoff => ?timesOut⟩
  case completes =>
    have h : x.Programmed := ⟨henclk, hsize, hswap⟩
    obtain ⟨ws, rs, w, d, n, hall, run⟩ := execXferPoll_completes hx hpoll hr h hfit
    have hlen : rs.length * x.wb = t.len.toNat := by rw [hall.received, hr.words_mul]
    have stored {k : Nat} {r : Word} (hpres : t.rxPresent = true) (hrk : rs[k]? = some r) (hr : FitsBytes x.wb r) :
        memRead (if t.rxPresent then Memory.writeBytes s.mem t.rx (rs.flatMap (leBytes x.wb)) else s.mem)
          (t.rx + BitVec.ofNat 32 (k * x.wb)) x.wb = r := by
      rw [if_pos hpres]
      exact memRead_writeBytes (by rw [hlen]; exact hfit hpres) hrk hr
    refine ⟨_, x.polledFor s t w d, ws, run, s.ctrlAt_setCtrl_self c _, rfl,
      fun e he => s.ctrlAt_setCtrl_ne c e _ (Ne.symm he), rfl, hall.events, fun k hk => ?word,
      fun htx hrx hloop i hi => ?echo, fun a ha => ?frame⟩
    case word =>
      obtain ⟨sent, r, he, htx, hrk, hrx, hfits⟩ := hall.polled hr h hk
      exact ⟨sent, _, he, htx, h.answer_eq hr _ sent, fun hpres =>
        hrx.trans (congrArg some (stored hpres hrk hfits).symm)⟩
    case echo =>
      have hwb := hr.wb
      refine Memory.read_eq_of_words (n := x.wb) (by omega) (by omega) hr.words_mul (fun k hk => ?_) hi
      obtain ⟨sent, r, he, hsent, hrk, hrecv, hfits⟩ := hall.polled hr h hk
      exact (stored hrx hrk hfits).trans (hr.echo h hloop (fitsBytes_memRead _ _ _) (hsent htx) hrecv)
    case frame =>
      dsimp only
      split
      · next hpres =>
        refine Memory.read_writeBytes_spares s.mem hpres ?_ hfit ha
        rw [length_flatMap_leBytes, hlen]
      · rfl
  case timesOut =>
    exact ⟨_, _, execXferPoll_timesOut hx hpoll hr hlen hoff, s.ctrlAt_setCtrl_self c _, rfl,
      fun e he => s.ctrlAt_setCtrl_ne c e _ (Ne.symm he), rfl, rfl, rfl⟩
end

section
/-! PROOFS. DMA_ABORT, the completion notifications and D_ARM (R149, R152, R153, R157): what each writes in full, and
what every channel holds after it. -/

namespace Sys2Proof.Machine

/-- A channel as its abort by the controller `o` leaves it (R157). -/
def Chan.aborted (ch : Chan) (o : Byte) : Chan :=
  if ch.lessee = some o then { ch with armed := false, rem := 0, notify := false } else ch

theorem Chan.aborted_aborted (ch : Chan) (o : Byte) : (ch.aborted o).aborted o = ch.aborted o := by
  unfold Chan.aborted
  by_cases h : ch.lessee = some o <;> simp [h]

theorem State.chanAt_abortChan_aborted (s : State) (o k j : Byte) :
    (s.abortChan o k).chanAt j = if j = k then (s.chanAt j).aborted o else s.chanAt j := by
  rw [State.chanAt_abortChan, Chan.aborted]
  by_cases hj : j = k
  · subst hj
    by_cases hl : (s.chanAt j).lessee = some o <;> simp [hl]
  · simp [hj]

theorem View.chanAt_dmaAbort (v : View) (k : Byte) : v.dmaAbort.st.chanAt k =
    if (k = v.c.dmaRx ∨ k = v.c.dmaTx) ∧ (v.st.chanAt k).lessee = some v.c.id then
      { v.st.chanAt k with armed := false, rem := 0, notify := false }
    else v.st.chanAt k := by
  have aborts : v.dmaAbort.st.chanAt k =
      if k = v.c.dmaRx ∨ k = v.c.dmaTx then (v.st.chanAt k).aborted v.c.id else v.st.chanAt k := by
    unfold View.dmaAbort
    rw [State.chanAt_abortChan_aborted, State.chanAt_abortChan_aborted]
    by_cases htx : k = v.c.dmaTx
    · rw [if_pos htx, if_pos (Or.inr htx : k = v.c.dmaRx ∨ k = v.c.dmaTx)]
      split
      · exact Chan.aborted_aborted _ _
      · rfl
    · simp only [htx, or_false, if_false]
  rw [aborts, Chan.aborted, ite_and]

/-- The channel `j` where the channel `k` may have been written. -/
theorem State.chanAt_setChan_if (s : State) (p : Bool) (k j : Byte) (ch : Chan) :
    (if p then s.setChan k ch else s).chanAt j = if j = k ∧ p then ch else s.chanAt j := by
  cases p with
  | false => simp
  | true => simp [State.chanAt_setChan, eq_comm]

theorem View.chanAt_armChannels {v : View} (t : Transfer) (h : v.c.dmaRx ≠ v.c.dmaTx) (k : Byte) :
    (v.armChannels t).chanAt k =
      if k = v.c.dmaRx ∧ t.rxPresent then
        (v.st.chanAt k).arm .rx (v.c.seq.mapRx.getD 0) v.c.seq.chunk (burstOf v.c.seq.chunk v.c.wb) v.c.wb
      else if k = v.c.dmaTx ∧ t.txPresent then
        (v.st.chanAt k).arm .tx (v.c.seq.mapTx.getD 0) v.c.seq.chunk (burstOf v.c.seq.chunk v.c.wb) v.c.wb
      else v.st.chanAt k := by
  unfold View.armChannels
  dsimp only
  rw [State.chanAt_setChan_if, State.chanAt_setChan_if, State.chanAt_setChan_if]
  by_cases hrx : k = v.c.dmaRx
  · simp [hrx, h]
  · by_cases htx : k = v.c.dmaTx
    · simp [htx, h.symm]
    · simp [hrx, htx]

theorem View.armChannels_eq (v : View) (t : Transfer) :
    v.armChannels t = { v.st with chan := (v.armChannels t).chan } := by
  unfold View.armChannels
  cases t.rxPresent <;> cases t.txPresent <;> rfl

section
variable {s : State} {k c : Byte} {x : Ctrl}

theorem State.withLessee_some (f : View → Out) (hl : (s.chanAt k).lessee = some c) (hx : s.ctrlAt c = some x) :
    s.withLessee k f = f ⟨s, c, x⟩ := by
  rw [State.withLessee, hl]
  exact State.withCtrl_some s c x f hx

theorem State.withLessee_none (f : View → Out) (hl : (s.chanAt k).lessee = none) : s.withLessee k f = .next s := by
  rw [State.withLessee, hl]

end

end Sys2Proof.Machine

open Sys2Proof Sys2Proof.Machine

/-- Settles O25: the two aborts act on one channel each, and nothing else of the state is written. -/
theorem dmaAbortDisarms : Obligations.DmaAbortDisarms := by
  unfold Obligations.DmaAbortDisarms
  intro s c x hx
  have run : exec (.dmaAbort c) s = .next (View.dmaAbort ⟨s, c, x⟩).commit :=
    State.withCtrl_some s c x (fun v => .next v.dmaAbort.commit) hx
  refine ⟨_, run, ?_, View.chanAt_dmaAbort ⟨s, c, x⟩⟩
  unfold View.commit
  rw [View.dmaAbort_st]
  rfl

/-- Settles O28: each notification step is enabled exactly with its channel's notification. -/
theorem completionNeedsBothDirections : Obligations.CompletionNeedsBothDirections := by
  unfold Obligations.CompletionNeedsBothDirections
  intro s k c x hx hl
  refine ⟨fun hn _ => ⟨fun hk => ?_, fun hk => ?_⟩, fun hn => ⟨?_, ?_⟩⟩
  · exact (State.withLessee_some _ hl hx).trans (if_pos (by simp [hk, hn]))
  · exact (State.withLessee_some _ hl hx).trans (if_pos (by simp [hk, hn]))
  · exact (State.withLessee_some _ hl hx).trans (if_neg (by simp [hn]))
  · exact (State.withLessee_some _ hl hx).trans (if_neg (by simp [hn]))

/-- Settles O22: the two channels armed are different ones, so each holds what D_ARM gave it. -/
theorem dArmArmsChannels : Obligations.DArmArmsChannels := by
  unfold Obligations.DArmArmsChannels
  intro s c x t hx hs hp ht hclk hrst hne
  have run : exec (.dArm c) s = .next (View.dArm ⟨s, c, x⟩ t).commit :=
    State.withTransfer_phase hx hs ht hclk View.dArm hp
  refine ⟨_, run, ?_, View.chanAt_armChannels (v := ⟨s, c, x⟩) t hne⟩
  unfold View.commit View.dArm
  dsimp only
  rw [View.armChannels_eq, Hw.dArm_eq _ _ _ _ hrst]
  rfl
end

section
/-! PROOFS. The ends of a sub-transfer (R154, R155, R156, R161): D_EPILOG with and without a condition seen, and the
sub-transfer given up at its deadline. D_WAIT and D_TXDRAIN choose among them. -/

namespace Sys2Proof.Machine

/-- The sequencer's registers with nothing owed (R158). -/
def Seq.unmapped (q : Seq) : Seq := { q with weMappedTx := false, weMappedRx := false, mapTx := none, mapRx := none }

/-- The registers after D_EPILOG, `SW_RST` being 0 (R156). -/
def Hw.ended (h : Hw) : Hw := { h with
  chCfg := { h.chCfg with txchOn := false, rxchOn := false }
  modeCfg := { h.modeCfg with txdmaOn := false, rxdmaOn := false, burst4 := false }
  packetCnt := ⟨0, false⟩, pktRem := 0 }

/-- The conditions the controller has seen once it looks at its status (R196). -/
def Ctrl.seen (x : Ctrl) : Conds := x.errLatch.union x.hw.sticky

/-- The error log once the controller has looked at its status (R196, R198). -/
def Ctrl.logged (x : Ctrl) (s : State) : List ErrRecord :=
  s.errLog ++ x.hw.sticky.list.map fun k => ⟨x.id, k, x.hw.statusWord, s.now⟩

section
variable {v : View} {t : Transfer}

theorem View.unmapOwed_eq (v : View) : v.unmapOwed = { v with
    st := { v.st with maps := v.c.released v.st.maps }, c := { v.c with seq := v.c.seq.unmapped } } := by
  show (⟨v.unmapOwed.st, v.unmapOwed.key, v.unmapOwed.c⟩ : View) = _
  rw [View.unmapOwed_st, View.unmapOwed_key, View.unmapOwed_c, View.unmapOwed_maps]
  rfl

/-- Mappings released, status looked at, and the Transfer failed: what each leaves (R158, R183, R196). -/
theorem View.fail_unmapped (v : View) (k : ErrKind) (n : Nat) :
    (v.unmapOwed.checkStatus.fail k n).key = v.key ∧
    (v.unmapOwed.checkStatus.fail k n).st = { v.st with
      mem := (v.unmapOwed.checkStatus.fail k n).st.mem
      draws := (v.unmapOwed.checkStatus.fail k n).st.draws
      errLog := v.c.logged v.st, maps := v.c.released v.st.maps } ∧
    (v.unmapOwed.checkStatus.fail k n).c = { v.c with
      errLatch := v.c.seen
      hw := { v.c.hw with
        sticky := Conds.empty
        pendingClr := if v.c.hw.sticky.nonempty then Conds.empty else v.c.hw.pendingClr }
      seq := { v.c.seq.unmapped with
        err := statusWord k (failInfo k v.c.seq.xi v.c.seen), phase := .none, state := .failed } } := by
  refine ⟨by rw [View.fail_key, View.checkStatus_key, View.unmapOwed_key], ?_, ?_⟩
  · rw [View.fail_st]
    dsimp only
    rw [View.checkStatus_eq, View.unmapOwed_eq]
    rfl
  · rw [View.fail_c, View.checkStatus_eq, View.unmapOwed_eq]
    rfl

/-! ### D_EPILOG (R156) -/

theorem View.dEpilog_failed (hrst : v.c.hw.chCfg.swRst = false) (hl : v.c.seen.nonempty = true) :
    v.dEpilog t =
      (v.onHw Hw.ended).unmapOwed.checkStatus.fail (kindOfLatch v.c.seen) (v.c.seq.off + v.c.seq.chunk) := by
  have latch : (v.onHw Hw.ended).unmapOwed.checkStatus.c.errLatch = v.c.seen := by
    rw [View.checkStatus_errLatch, View.unmapOwed_c]
    rfl
  have ended : v.onHw Hw.dEpilog = v.onHw Hw.ended := by
    unfold View.onHw
    rw [Hw.dEpilog_eq _ hrst]
    rfl
  unfold View.dEpilog
  dsimp only
  rw [ended, latch, if_pos hl]

/-- The sequencer's registers once the sub-transfer has ended (R156): on to the next, or to POST_DELAY. -/
def Seq.subTransferEnded (q : Seq) (t : Transfer) (now : Nat) : Seq :=
  if q.off + q.chunk < t.len.toNat then { q.unmapped with off := q.off + q.chunk, phase := .dMap }
  else { q.unmapped with
    off := q.off + q.chunk, phase := .none, delayUntil := now + t.delayUsecs.toNat, state := .postDelay }

theorem View.dEpilog_quiet (hrst : v.c.hw.chCfg.swRst = false) (hl : v.c.seen.nonempty = false) :
    v.dEpilog t = { v with
      st := { v.st with maps := v.c.released v.st.maps }
      c := { v.c with hw := v.c.hw.ended, seq := v.c.seq.subTransferEnded t v.st.now } } := by
  obtain ⟨hlatch, hsticky⟩ := Conds.union_quiet hl
  have quiet : ((v.onHw Hw.dEpilog).unmapOwed).checkStatus = { v with
      st := { v.st with maps := v.c.released v.st.maps }
      c := { v.c with hw := v.c.hw.ended, seq := v.c.seq.unmapped } } := by
    have ended := Hw.dEpilog_eq v.c.hw hrst
    rw [View.checkStatus_quiet (by simp [View.unmapOwed_c, ended, hsticky]), View.unmapOwed_eq]
    unfold View.onHw
    rw [ended]
    rfl
  unfold View.dEpilog
  dsimp only
  rw [quiet, if_neg (by simp [hlatch, Conds.empty, Conds.nonempty])]
  by_cases hmore : v.c.seq.off + v.c.seq.chunk < t.len.toNat
  · rw [show v.c.seq.subTransferEnded t v.st.now = _ from if_pos hmore]
    exact if_pos hmore
  · rw [show v.c.seq.subTransferEnded t v.st.now = _ from if_neg hmore]
    exact if_neg hmore

/-! ### The deadline (R161) -/

theorem View.dmaGiveUp_eq (v : View) : v.dmaGiveUp = v.dmaAbort.unmapOwed.checkStatus.fail
    (if v.c.seen.nonempty then kindOfLatch v.c.seen else .timeout) v.rxMoved := by
  have latch : v.dmaAbort.unmapOwed.checkStatus.c.errLatch = v.c.seen := by
    rw [View.checkStatus_errLatch, View.unmapOwed_c]
    rfl
  unfold View.dmaGiveUp
  dsimp only
  rw [latch]
  split <;> rfl

end

/-! ### The outcomes, as D_WAIT and D_TXDRAIN give them -/

section
variable {s : State} {c : Byte} {x : Ctrl} {t : Transfer}

/-- What stands after a sub-transfer that ended with a condition seen (R156). -/
theorem State.subTransfer_failed {o : Out} (run : o = .next (View.dEpilog ⟨s, c, x⟩ t).commit)
    (hrst : x.hw.chCfg.swRst = false) (hl : x.seen.nonempty = true) :
    ∃ u y, o = .next u ∧ u.ctrlAt c = some y ∧
      u = { s with
        ctrl := u.ctrl, mem := u.mem, draws := u.draws, errLog := x.logged s, maps := x.released s.maps } ∧
      (∀ d, d ≠ c → u.ctrlAt d = s.ctrlAt d) ∧
      y.errLatch = x.seen ∧ y.hw.sticky = Conds.empty ∧ y.hw.pktRem = 0 ∧
      y.hw.chCfg = { x.hw.chCfg with txchOn := false, rxchOn := false } ∧
      y.seq = { x.seq.unmapped with
        phase := .none, state := .failed
        err := statusWord (kindOfLatch x.seen) (failInfo (kindOfLatch x.seen) x.seq.xi x.seen) } := by
  obtain ⟨hkey, hst, hc⟩ := View.fail_unmapped (View.onHw ⟨s, c, x⟩ Hw.ended) (kindOfLatch x.seen)
    (x.seq.off + x.seq.chunk)
  rw [← View.dEpilog_failed (t := t) hrst hl] at hkey hst hc
  refine ⟨_, _, run, View.commit_ctrlAt_of_key hkey, ?_, fun d hd => ?_, ?_⟩
  · rw [View.commit, hst]; rfl
  · rw [View.commit_ctrlAt_ne _ _ (by rw [hkey]; exact Ne.symm hd), hst]; rfl
  · rw [hc]
    exact ⟨rfl, rfl, rfl, rfl, rfl⟩

/-- What stands after a sub-transfer given up (R161). -/
theorem State.subTransfer_givenUp {o : Out} (run : o = .next (View.dmaGiveUp ⟨s, c, x⟩).commit) :
    ∃ u y, o = .next u ∧ u.ctrlAt c = some y ∧
      u = { s with
        ctrl := u.ctrl, chan := u.chan, mem := u.mem, draws := u.draws, errLog := x.logged s
        maps := x.released s.maps } ∧
      (∀ d, d ≠ c → u.ctrlAt d = s.ctrlAt d) ∧
      (∀ k, u.chanAt k = if (k = x.dmaRx ∨ k = x.dmaTx) ∧ (s.chanAt k).lessee = some x.id then
        { s.chanAt k with armed := false, rem := 0, notify := false } else s.chanAt k) ∧
      y.rxBusy = false ∧ y.txBusy = false ∧ y.dmaDone = false ∧ y.hw.sticky = Conds.empty ∧
      y.seq = { x.seq.unmapped with
        phase := .none, state := .failed
        err := if x.seen.nonempty then
            statusWord (kindOfLatch x.seen) (failInfo (kindOfLatch x.seen) x.seq.xi x.seen)
          else statusWord .timeout x.seq.xi } := by
  obtain ⟨hkey, hst, hc⟩ := View.fail_unmapped (View.dmaAbort ⟨s, c, x⟩)
    (if x.seen.nonempty then kindOfLatch x.seen else .timeout) (View.rxMoved ⟨s, c, x⟩)
  rw [← View.dmaGiveUp_eq ⟨s, c, x⟩] at hkey hst hc
  refine ⟨_, _, run, View.commit_ctrlAt_of_key hkey, ?_, fun d hd => ?_, fun k => ?_, ?_⟩
  · rw [View.commit, hst, View.dmaAbort_st]; rfl
  · rw [View.commit_ctrlAt_ne _ _ (by rw [hkey]; exact Ne.symm hd), hst, View.dmaAbort_st]; rfl
  · rw [View.commit_chanAt, hst]
    exact View.chanAt_dmaAbort _ k
  · rw [hc]
    refine ⟨rfl, rfl, rfl, rfl, ?_⟩
    dsimp only
    split <;> rfl

theorem execDWait_eq (hx : s.ctrlAt c = some x) (hs : x.seq.state = .transporting) (hp : x.seq.phase = .dWait)
    (ht : x.transfer = some t) : exec (.dWait c) s = View.dWait ⟨s, c, x⟩ t :=
  State.withTransfer_some s c x t (·.inPhase .dWait) View.dWait hx ((x.inPhase_iff _).mpr ⟨hs, hp⟩) ht

theorem execDTxdrain_eq (hx : s.ctrlAt c = some x) (hs : x.seq.state = .transporting) (hp : x.seq.phase = .dTxdrain)
    (ht : x.transfer = some t) (hclk : x.clkOn = true) : exec (.dTxdrain c) s = .next (View.dTxdrain ⟨s, c, x⟩ t) :=
  (State.withTransfer_some s c x t (·.inPhase .dTxdrain) (fun v t => v.clocked (.next (v.dTxdrain t))) hx
    ((x.inPhase_iff _).mpr ⟨hs, hp⟩) ht).trans (View.clocked_on _ _ hclk)

end

end Sys2Proof.Machine

open Sys2Proof Sys2Proof.Machine

/-- Settles O23: completion, then the deadline, decide which end of a sub-transfer D_WAIT comes to. -/
theorem dWaitEndsSubTransfer : Obligations.DWaitEndsSubTransfer := by
  unfold Obligations.DWaitEndsSubTransfer
  intro s c x t hx hs hp ht
  have run := execDWait_eq hx hs hp ht
  have epilog (hd : x.dmaDone = true) (hrx : t.rxPresent = true) (hclk : x.clkOn = true) :
      exec (.dWait c) s = .next (View.dEpilog ⟨s, c, x⟩ t).commit :=
    (run.trans (if_pos hd)).trans ((if_pos hrx).trans (View.clocked_on _ _ hclk))
  dsimp only
  rw [← statusWord_kindOfLatch]
  refine ⟨fun hd hrx => ?_, fun hd hrx hclk hrst hl => ?_, fun hd hrx hclk hrst hl => ?_, fun hd hearly => ?_,
    fun hd hlate hclk => ?_⟩
  · exact (run.trans (if_pos hd)).trans (if_neg (by simp [hrx]))
  · rw [epilog hd hrx hclk, View.dEpilog_quiet (v := ⟨s, c, x⟩) hrst hl]
    rfl
  · exact State.subTransfer_failed (epilog hd hrx hclk) hrst hl
  · exact (run.trans (if_neg (by simp [hd]))).trans (if_neg (Nat.not_le.mpr hearly))
  · exact State.subTransfer_givenUp
      ((run.trans (if_neg (by simp [hd]))).trans ((if_pos hlate).trans (View.clocked_on _ _ hclk)))

/-- Settles O24: `TX_DONE`, then the deadline, decide which end of a sub-transfer D_TXDRAIN comes to. -/
theorem dTxdrainWaitsForBus : Obligations.DTxdrainWaitsForBus := by
  unfold Obligations.DTxdrainWaitsForBus
  intro s c x t hx hs hp ht hclk
  have run := execDTxdrain_eq hx hs hp ht hclk
  have epilog (hd : x.hw.txDone = true) : exec (.dTxdrain c) s = .next (View.dEpilog ⟨s, c, x⟩ t).commit :=
    run.trans (congrArg _ (if_pos hd))
  dsimp only
  rw [← statusWord_kindOfLatch, ← Hw.txDone_iff]
  refine ⟨fun hd hrst hl => ?_, fun hd hrst hl => ?_, fun hd hearly => ?_, fun hd hlate => ?_⟩
  · rw [epilog hd, View.dEpilog_quiet (v := ⟨s, c, x⟩) hrst hl]
    rfl
  · exact State.subTransfer_failed (epilog hd) hrst hl
  · exact run.trans (congrArg _ ((if_neg hd).trans (if_neg (Nat.not_le.mpr hearly))))
  · exact State.subTransfer_givenUp (run.trans (congrArg _ ((if_neg hd).trans (if_pos hlate))))
end

section
/-! PROOFS. D_MAP (R148): MAPPER's answers in order, the mappings made of them, and what a refusal leaves. -/

namespace Sys2Proof.Machine

/-! ### MAPPER's answers (R50; log entry 9) -/

/-- The state once MAPPER has been asked `k` times. -/
def State.askedTimes (s : State) (k : Nat) : State :=
  { s with mapTape := s.mapTape.drop k, draws := s.draws + (k - s.mapTape.length) }

/-- MAPPER's answer once it has been asked `k` times. -/
def State.answerAt (s : State) (k : Nat) (a : Word) (n : Nat) (dir : MapDir) : Option Word :=
  ((s.mapTape[k]?).getD (Config.mapper (s.draws + (k - s.mapTape.length)) a n dir)).filter fun d =>
    decide (d.toNat + n ≤ 2 ^ 32)

theorem State.askedTimes_zero (s : State) : s.askedTimes 0 = s := by simp [State.askedTimes]

theorem State.mapAsked_askedTimes (s : State) (k : Nat) : (s.askedTimes k).mapAsked = s.askedTimes (k + 1) := by
  rw [State.mapAsked_eq]
  simp only [State.askedTimes, List.drop_drop, List.length_drop]
  congr 1
  omega

theorem State.mapAnswer_askedTimes (s : State) (k : Nat) (a : Word) (n : Nat) (dir : MapDir) :
    (s.askedTimes k).mapAnswer a n dir = s.answerAt k a n dir := by
  rw [State.mapAnswer_eq]
  simp only [State.askedTimes, List.getElem?_drop, Nat.add_zero]
  rfl

theorem State.mapAsked_addMapping (s : State) (m : Mapping) : (s.addMapping m).mapAsked = s.mapAsked.addMapping m := by
  simp only [State.mapAsked_eq, State.addMapping]

/-! ### The ways D_MAP goes -/

section
variable {v : View} {t : Transfer} {d : Word}

theorem View.mapRxThen_refused (hrx : t.rxPresent = true)
    (h : v.st.mapAnswer (t.rx + BitVec.ofNat 32 v.c.seq.off) v.c.seq.chunk .fromDevice = none) :
    v.mapRxThen t = (View.unmapOwed { v with st := v.st.mapAsked }).fail .dmaMapFailed v.c.seq.off := by
  simp [View.mapRxThen, View.mapRxSide, hrx, h]

theorem View.mapRxThen_made (hrx : t.rxPresent = true)
    (h : v.st.mapAnswer (t.rx + BitVec.ofNat 32 v.c.seq.off) v.c.seq.chunk .fromDevice = some d) :
    v.mapRxThen t = (v.mappedRx t d).onSeq fun q => { q with phase := .dArm } := by
  simp [View.mapRxThen, View.mapRxSide, View.mappedRx, hrx, h]

theorem View.mapRxThen_absent (hrx : t.rxPresent = false) :
    v.mapRxThen t = v.onSeq fun q => { q with phase := .dArm } := if_neg (by simp [hrx])

theorem View.dMap_premapped (h : t.premapped = true) : v.dMap t = (v.chunked t).mapPremapped t := if_pos h

theorem View.dMap_unmapped (h : t.premapped = false) (htx : t.txPresent = false) :
    v.dMap t = (v.chunked t).mapRxThen t := by
  simp [View.dMap, View.chunked, h, htx]

theorem View.dMap_refused (h : t.premapped = false) (htx : t.txPresent = true)
    (ha : v.st.mapAnswer (t.tx + BitVec.ofNat 32 v.c.seq.off) (chunkOf t.len.toNat v.c.seq.off v.c.wb) .toDevice =
      none) :
    v.dMap t = View.fail { v.chunked t with st := v.st.mapAsked } .dmaMapFailed v.c.seq.off := by
  simp [View.dMap, View.chunked, View.mapTxSide, h, htx, ha]

theorem View.dMap_made (h : t.premapped = false) (htx : t.txPresent = true)
    (ha : v.st.mapAnswer (t.tx + BitVec.ofNat 32 v.c.seq.off) (chunkOf t.len.toNat v.c.seq.off v.c.wb) .toDevice =
      some d) : v.dMap t = ((v.chunked t).mappedTx t d).mapRxThen t := by
  simp [View.dMap, View.chunked, View.mapTxSide, View.mappedTx, h, htx, ha]

end

/-- What a Transfer failed for its mapping leaves (R148, R52): `q` are the sequencer's registers but for the error, and
`n` bytes of the receive buffer are given up. -/
theorem View.fail_mapping {w : View} {s : State} {c : Byte} {x : Ctrl} {t : Transfer} {q : Seq}
    (hw : w = ⟨s, c, { x with seq := q }⟩) (ht : w.c.transfer = some t) (n : Nat) : ∃ u,
    (w.fail .dmaMapFailed n).commit = u ∧
    u = { s.setCtrl c { x with seq := { q with
      err := 0x03050000#32 ||| put 0 (BitVec.ofNat 16 q.xi), phase := .none, state := .failed } } with
      mem := u.mem, draws := u.draws } ∧
    (n = 0 ∨ t.rxPresent = false → u.mem = s.mem ∧ u.draws = s.draws) ∧
    (t.rx.toNat + n ≤ 2 ^ 32 → ∀ a : Word, a.toNat < t.rx.toNat ∨ t.rx.toNat + n ≤ a.toNat →
      Memory.read u.mem a = Memory.read s.mem a) := by
  subst hw
  have forgotten : (View.fail ⟨s, c, { x with seq := q }⟩ .dmaMapFailed n).st =
      if t.rxPresent then State.forget n t.rx s else s := by
    show (View.forgetRx _ n).st = _
    unfold View.forgetRx
    rw [ht]
    dsimp only
    split <;> rfl
  refine ⟨_, rfl, ?_, fun h => ?_, fun hfit a ha => ?_⟩
  · rw [View.commit, View.fail_c, View.fail_st, View.fail_key]
    rfl
  · rw [View.commit_mem, View.commit_draws, forgotten]
    rcases h with rfl | h
    · split <;> exact ⟨rfl, rfl⟩
    · rw [if_neg (by simp [h])]
      exact ⟨rfl, rfl⟩
  · rw [View.commit_mem, forgotten]
    split
    · exact State.read_forget_outside n t.rx a s hfit ha
    · rfl

theorem execDMap_eq {s : State} {c : Byte} {x : Ctrl} {t : Transfer} (hx : s.ctrlAt c = some x)
    (hs : x.seq.state = .transporting) (hp : x.seq.phase = .dMap) (ht : x.transfer = some t) :
    exec (.dMap c) s = .next (View.dMap ⟨s, c, x⟩ t).commit :=
  State.withTransfer_some s c x t (·.inPhase .dMap) (fun v t => .next (v.dMap t).commit) hx
    ((x.inPhase_iff _).mpr ⟨hs, hp⟩) ht

end Sys2Proof.Machine

open Sys2Proof Sys2Proof.Machine

/-- Settles O21: MAPPER's answers are taken in order, each at its number, and what a refusal leaves is that of the
failure path with the mapping just made released. -/
theorem dMapMapsSubTransfer : Obligations.DMapMapsSubTransfer := by
  unfold Obligations.DMapMapsSubTransfer
  intro s c x t hx hs hp ht hwtx hwrx
  have run := execDMap_eq hx hs hp ht
  have asked1 : s.mapAsked = s.askedTimes 1 := by rw [← State.mapAsked_askedTimes, State.askedTimes_zero]
  have asked2 (m : Mapping) : ((s.askedTimes 1).addMapping m).mapAsked = (s.askedTimes 2).addMapping m := by
    rw [State.mapAsked_addMapping, State.mapAsked_askedTimes]
  have first (a : Word) (n : Nat) (dir : MapDir) : s.mapAnswer a n dir = s.answerAt 0 a n dir := by
    rw [← State.mapAnswer_askedTimes, State.askedTimes_zero]
  have second (m : Mapping) (a : Word) (n : Nat) (dir : MapDir) :
      ((s.askedTimes 1).addMapping m).mapAnswer a n dir = s.answerAt 1 a n dir := State.mapAnswer_askedTimes s 1 a n dir
  have madeTx (d : Word) : (View.chunked ⟨s, c, x⟩ t).mappedTx t d = ⟨(s.askedTimes 1).addMapping
      ⟨x.id, .toDevice, d, t.tx + BitVec.ofNat 32 x.seq.off, chunkOf t.len.toNat x.seq.off x.wb⟩, c, { x with
        seq := { x.seq with
          chunk := chunkOf t.len.toNat x.seq.off x.wb, mapTx := some d, weMappedTx := true } }⟩ := by
    rw [← asked1]
    rfl
  refine ⟨fun hpre => ?premapped, fun hpre htx hrx d1 h1 => ⟨fun d2 h2 => ?both, fun h2 => ?bothRefused⟩,
    fun hpre htx hrx d1 h1 => ?tx, fun hpre htx hrx => ⟨fun d2 h2 => ?rx, fun h2 => ?rxRefused⟩,
    fun hpre htx h1 => ?txRefused⟩
  case premapped =>
    rw [run, View.dMap_premapped hpre]
    rfl
  case both =>
    rw [run, View.dMap_made hpre htx ((first _ _ _).trans h1), madeTx,
      View.mapRxThen_made hrx ((second _ _ _ _).trans h2), View.mappedRx]
    dsimp only
    rw [asked2]
    rfl
  case bothRefused =>
    obtain ⟨u, hu, hrest⟩ := View.fail_mapping (s := s.askedTimes 2) (c := c) (t := t) (x := x)
      (q := { x.seq with
        chunk := chunkOf t.len.toNat x.seq.off x.wb, weMappedTx := false, weMappedRx := false
        mapTx := none, mapRx := none }) rfl ht x.seq.off
    refine ⟨u, ?_, hrest⟩
    rw [run, View.dMap_made hpre htx ((first _ _ _).trans h1), madeTx,
      View.mapRxThen_refused hrx ((second _ _ _ _).trans h2), ← hu, View.unmapOwed_eq]
    dsimp only
    rw [asked2]
    simp [Ctrl.released, hwrx, State.addMapping, Seq.unmapped]
  case tx =>
    rw [run, View.dMap_made hpre htx ((first _ _ _).trans h1), View.mapRxThen_absent hrx, madeTx]
    rfl
  case rx =>
    rw [run, View.dMap_unmapped hpre htx, View.mapRxThen_made hrx ((first _ _ _).trans h2), View.mappedRx]
    show Host.Outcome.next (View.commit ⟨s.mapAsked.addMapping _, c, _⟩) = _
    rw [asked1]
    rfl
  case rxRefused =>
    obtain ⟨u, hu, hrest⟩ := View.fail_mapping (s := s.askedTimes 1) (c := c) (t := t) (x := x)
      (q := { x.seq with
        chunk := chunkOf t.len.toNat x.seq.off x.wb, weMappedTx := false, weMappedRx := false
        mapTx := none, mapRx := none }) rfl ht x.seq.off
    refine ⟨u, ?_, hrest⟩
    rw [run, View.dMap_unmapped hpre htx, View.mapRxThen_refused hrx ((first _ _ _).trans h2), ← hu, View.unmapOwed_eq]
    simp [Ctrl.released, View.chunked, hwtx, hwrx, asked1, Seq.unmapped]
  case txRefused =>
    obtain ⟨u, hu, hrest⟩ := View.fail_mapping (s := s.askedTimes 1) (c := c) (t := t) (x := x)
      (q := { x.seq with chunk := chunkOf t.len.toNat x.seq.off x.wb }) rfl ht x.seq.off
    refine ⟨u, ?_, hrest⟩
    rw [run, View.dMap_refused hpre htx ((first _ _ _).trans h1), ← hu, asked1]
    rfl
end

section
/-! PROOFS. DMA_TX_BEAT and DMA_RX_BEAT (R150, R151): what a burst reads or writes through the live ranges, byte by
byte, and the FIFO behind it. -/

namespace Sys2Proof.Machine

/-! ### Device addresses (R50) -/

/-- The `n` device addresses from `a` upward stand for the host addresses `h 0`, `h 1`, … -/
def State.MapsTo (s : State) (a : Word) (n : Nat) (h : Nat → Word) : Prop :=
  ∀ i, i < n → s.translate (a + BitVec.ofNat 32 i) = some (h i)

theorem State.MapsTo.head {s : State} {a : Word} {n : Nat} {h : Nat → Word} (hm : s.MapsTo a (n + 1) h) :
    s.translate a = some (h 0) := by
  simpa using hm 0 (Nat.succ_pos n)

theorem State.MapsTo.tail {s : State} {a : Word} {n : Nat} {h : Nat → Word} (hm : s.MapsTo a (n + 1) h) :
    s.MapsTo (a + 1) n fun i => h (i + 1) := fun i hi => by
  rw [← addr_add_succ]
  exact hm (i + 1) (Nat.succ_lt_succ hi)

theorem State.MapsTo.take {s : State} {a : Word} {m n : Nat} {h : Nat → Word} (hm : s.MapsTo a (m + n) h) :
    s.MapsTo a m h := fun i hi => hm i (by omega)

theorem State.MapsTo.drop {s : State} {a : Word} {m n : Nat} {h : Nat → Word} (hm : s.MapsTo a (m + n) h) :
    s.MapsTo (a + BitVec.ofNat 32 m) n fun i => h (m + i) := fun i hi => by
  rw [BitVec.add_assoc, ← BitVec.ofNat_add]
  exact hm (m + i) (by omega)

/-! ### Reading (R42, R44, R150) -/

/-- The bytes `bs` are those behind the host addresses `h 0`, `h 1`, …, but for those that race. -/
def State.Reads (s : State) (x : Ctrl) (h : Nat → Word) (bs : List Byte) : Prop :=
  ∀ i, i < bs.length → x.racy (h i) = false → bs[i]? = some (Memory.read s.mem (h i))

/-- How many of the first `n` bytes race. -/
def Ctrl.racyCount (x : Ctrl) (h : Nat → Word) (n : Nat) : Nat := (List.range n).countP fun i => x.racy (h i)

theorem Ctrl.racyCount_add (x : Ctrl) (h : Nat → Word) (m n : Nat) :
    x.racyCount h (m + n) = x.racyCount h m + x.racyCount (fun i => h (m + i)) n := by
  simp [Ctrl.racyCount, List.range_add, List.countP_append, List.countP_map, Function.comp_def]

theorem State.Reads.append {s : State} {x : Ctrl} {h : Nat → Word} {bs bs' : List Byte} (hr : s.Reads x h bs)
    (hr' : s.Reads x (fun i => h (bs.length + i)) bs') : s.Reads x h (bs ++ bs') := fun i hi hrace => by
  by_cases hlt : i < bs.length
  · rw [List.getElem?_append_left hlt]
    exact hr i hlt hrace
  · obtain ⟨j, rfl⟩ := Nat.exists_eq_add_of_le (Nat.le_of_not_lt hlt)
    rw [List.getElem?_append_right (Nat.le_add_right _ _), Nat.add_sub_cancel_left]
    exact hr' j (by simpa using hi) hrace

/-- A byte read through a live range (R50): a draw where it races. -/
theorem View.devReadByte_mapped {v : View} {d h : Word} (hm : v.st.translate d = some h) : ∃ b,
    v.devReadByte d = some (b, { v with st := v.st.drew (if v.c.racy h then 1 else 0) }) ∧
    (v.c.racy h = false → b = Memory.read v.st.mem h) := by
  rw [View.devReadByte, hm]
  dsimp only
  cases v.c.racy h with
  | true => exact ⟨_, rfl, nofun⟩
  | false => exact ⟨_, rfl, fun _ => rfl⟩

theorem Ctrl.racyCount_succ (x : Ctrl) (h : Nat → Word) (n : Nat) :
    x.racyCount h (n + 1) = (if x.racy (h 0) then 1 else 0) + x.racyCount (fun i => h (i + 1)) n := by
  rw [Nat.add_comm n 1, Ctrl.racyCount_add]
  simp [Ctrl.racyCount, Nat.add_comm]

theorem State.Reads.cons {s : State} {x : Ctrl} {h : Nat → Word} {b : Byte} {bs : List Byte}
    (hb : x.racy (h 0) = false → b = Memory.read s.mem (h 0)) (hr : s.Reads x (fun i => h (i + 1)) bs) :
    s.Reads x h (b :: bs) := fun i hi hrace => by
  cases i with
  | zero => exact congrArg some (hb hrace)
  | succ i => exact hr i (Nat.lt_of_succ_lt_succ hi) hrace

theorem View.devRead_mapped {v : View} {d : Word} {n : Nat} {h : Nat → Word} (hm : v.st.MapsTo d n h) : ∃ bs,
    View.devRead n d v = some (bs, { v with st := v.st.drew (v.c.racyCount h n) }) ∧ bs.length = n ∧
    v.st.Reads v.c h bs := by
  induction n generalizing v d h with
  | zero => exact ⟨[], rfl, rfl, nofun⟩
  | succ n ih =>
    obtain ⟨b, hb, hval⟩ := View.devReadByte_mapped hm.head
    obtain ⟨bs, hbs, hlen, hreads⟩ := ih (v := { v with st := v.st.drew (if v.c.racy (h 0) then 1 else 0) }) hm.tail
    refine ⟨b :: bs, ?_, congrArg (· + 1) hlen, .cons hval hreads⟩
    rw [View.devRead, hb]
    dsimp only
    rw [hbs, Ctrl.racyCount_succ]
    simp only [State.drew, Nat.add_assoc]

/-- A read of an address outside every live range is none (U8). -/
theorem View.devRead_unmapped {v : View} {d : Word} {n i : Nat} (hi : i < n)
    (hm : v.st.translate (d + BitVec.ofNat 32 i) = none) : View.devRead n d v = none := by
  induction n generalizing v d i with
  | zero => exact absurd hi (Nat.not_lt_zero i)
  | succ n ih =>
    rw [View.devRead]
    cases hd : v.st.translate d with
    | none => simp [View.devReadByte, hd]
    | some h =>
      obtain ⟨b, hb, -⟩ := View.devReadByte_mapped hd
      cases i with
      | zero => simp [hd] at hm
      | succ i =>
        rw [addr_add_succ] at hm
        rw [hb]
        dsimp only
        rw [ih (v := { v with st := v.st.drew _ }) (Nat.lt_of_succ_lt_succ hi) hm]

/-- A burst to the transmit FIFO, where it has room and every address is in a live range (R150, R84). -/
theorem View.txBeats_mapped {v : View} {wb n : Nat} {a : Word} {h : Nat → Word} (hwb : wb ≤ 4)
    (hrst : v.c.hw.chCfg.swRst = false) (hroom : n * wb ≤ v.c.fifoDepth - v.c.hw.txf.length)
    (hm : v.st.MapsTo a (n * wb) h) : ∃ bs,
    View.txBeats wb n a v = some { v with
      st := v.st.drew (v.c.racyCount h (n * wb))
      c := { v.c with hw := { v.c.hw with txf := v.c.hw.txf ++ bs } } } ∧
    bs.length = n * wb ∧ v.st.Reads v.c h bs := by
  induction n generalizing v a h with
  | zero =>
    refine ⟨[], ?_, by simp, nofun⟩
    simp [View.txBeats, Ctrl.racyCount, State.drew]
  | succ n ih =>
    have hk : (n + 1) * wb = wb + n * wb := by rw [Nat.succ_mul, Nat.add_comm]
    rw [hk] at hroom hm ⊢
    obtain ⟨bs, hbs, hlen, hreads⟩ := View.devRead_mapped hm.take
    have bytes : leBytes wb (leWord bs) = bs := hlen ▸ leBytes_leWord bs (hlen ▸ hwb)
    have push : v.c.hw.writeTxData v.c.fifoDepth wb (leWord bs) = { v.c.hw with txf := v.c.hw.txf ++ bs } := by
      rw [Hw.writeTxData_fits _ _ _ _ hrst (by omega), bytes]
    obtain ⟨bs', hbs', hlen', hreads'⟩ := ih (v := { v with
      st := v.st.drew (v.c.racyCount h wb), c := { v.c with hw := { v.c.hw with txf := v.c.hw.txf ++ bs } } }) hrst
      (by simp only [List.length_append, hlen]; omega) hm.drop
    refine ⟨bs ++ bs', ?_, by rw [List.length_append, hlen, hlen'], hreads.append (hlen ▸ hreads')⟩
    rw [View.txBeats, hbs]
    dsimp only
    unfold View.onHw
    dsimp only
    rw [push, hbs', Ctrl.racyCount_add]
    simp only [State.drew, Nat.add_assoc, List.append_assoc]
    rfl

theorem View.txBeats_unmapped {v : View} {wb n i : Nat} {a : Word} (hi : i < n * wb)
    (hm : v.st.translate (a + BitVec.ofNat 32 i) = none) : View.txBeats wb n a v = none := by
  induction n generalizing v a i with
  | zero => simp at hi
  | succ n ih =>
    rw [View.txBeats]
    cases hr : View.devRead wb a v with
    | none => rfl
    | some r =>
      obtain ⟨bs, w⟩ := r
      by_cases hlt : i < wb
      · cases (View.devRead_unmapped hlt hm).symm.trans hr
      · obtain ⟨j, rfl⟩ := Nat.exists_eq_add_of_le (Nat.le_of_not_lt hlt)
        obtain ⟨-, -, hst, -⟩ := View.devRead_some _ _ _ _ _ hr
        refine ih (i := j) (by rw [Nat.succ_mul] at hi; omega) ?_
        rw [View.onHw_st, hst, BitVec.add_assoc, ← BitVec.ofNat_add]
        exact hm

/-! ### Writing (R44, R151) -/

/-- Bytes stored at the host addresses `h 0`, `h 1`, … -/
def Memory.writeAt (m : List Host.Cell) (h : Nat → Word) : List Byte → List Host.Cell
  | [] => m
  | b :: bs => Memory.writeAt (Memory.write m (h 0) b) (fun i => h (i + 1)) bs

theorem Memory.writeAt_append (m : List Host.Cell) (h : Nat → Word) (xs ys : List Byte) :
    Memory.writeAt m h (xs ++ ys) = Memory.writeAt (Memory.writeAt m h xs) (fun i => h (xs.length + i)) ys := by
  induction xs generalizing m h with
  | nil => simp [Memory.writeAt]
  | cons x xs ih =>
    simp only [List.cons_append, Memory.writeAt, ih, List.length_cons, Nat.add_right_comm]

theorem Memory.read_writeAt_outside {m : List Host.Cell} {h : Nat → Word} {bs : List Byte} {a : Word}
    (ha : ∀ i, i < bs.length → h i ≠ a) : Memory.read (Memory.writeAt m h bs) a = Memory.read m a := by
  induction bs generalizing m h with
  | nil => rfl
  | cons b bs ih =>
    rw [Memory.writeAt, ih fun i hi => ha (i + 1) (Nat.succ_lt_succ hi)]
    exact Memory.read_write_ne m _ _ b (ha 0 (Nat.succ_pos _))

theorem Memory.read_writeAt_inside {m : List Host.Cell} {h : Nat → Word} {bs : List Byte} {i : Nat} {b : Byte}
    (hinj : ∀ i j, i < bs.length → j < bs.length → h i = h j → i = j) (hb : bs[i]? = some b) :
    Memory.read (Memory.writeAt m h bs) (h i) = b := by
  induction bs generalizing m h i with
  | nil => cases hb
  | cons b' bs ih =>
    have apart (j : Nat) (hj : j < bs.length) : h (j + 1) ≠ h 0 := fun e =>
      absurd (hinj _ _ (Nat.succ_lt_succ hj) (Nat.succ_pos _) e) (Nat.succ_ne_zero j)
    rw [Memory.writeAt]
    cases i with
    | zero =>
      cases hb
      rw [Memory.read_writeAt_outside apart, Memory.read_write_self]
    | succ i =>
      refine ih (h := fun i => h (i + 1)) (fun i j hi hj e => ?_) hb
      exact Nat.succ.inj (hinj _ _ (Nat.succ_lt_succ hi) (Nat.succ_lt_succ hj) e)

theorem View.devWrite_mapped {v : View} {d : Word} {bs : List Byte} {h : Nat → Word}
    (hm : v.st.MapsTo d bs.length h) :
    View.devWrite d bs v = some { v with st := { v.st with mem := Memory.writeAt v.st.mem h bs } } := by
  induction bs generalizing v d h with
  | nil => rfl
  | cons b bs ih =>
    rw [View.devWrite, hm.head]
    exact ih (v := { v with st := { v.st with mem := Memory.write v.st.mem (h 0) b } }) hm.tail

theorem View.devWrite_unmapped {v : View} {d : Word} {bs : List Byte} {i : Nat} (hi : i < bs.length)
    (hm : v.st.translate (d + BitVec.ofNat 32 i) = none) : View.devWrite d bs v = none := by
  induction bs generalizing v d i with
  | nil => exact absurd hi (Nat.not_lt_zero i)
  | cons b bs ih =>
    rw [View.devWrite]
    cases hd : v.st.translate d with
    | none => rfl
    | some h =>
      cases i with
      | zero => simp [hd] at hm
      | succ i =>
        rw [addr_add_succ] at hm
        exact ih (Nat.lt_of_succ_lt_succ hi) hm

/-- A word that `rxf` holds (R85). -/
theorem View.readRx_held {v : View} {wb : Nat} (h : wb ≤ v.c.hw.rxf.length) :
    v.readRx wb = (leWord (v.c.hw.rxf.take wb), v.onHw fun h => { h with rxf := h.rxf.drop wb }) := by
  simp [View.readRx, Hw.rxValue, Hw.popRx, View.onHw, h]

theorem leBytes_leWord_take {bs : List Byte} {n : Nat} (h4 : n ≤ 4) (h : n ≤ bs.length) :
    leBytes n (leWord (bs.take n)) = bs.take n := by
  have hlen : (bs.take n).length = n := List.length_take_of_le h
  have bytes := leBytes_leWord (bs.take n) (by rw [hlen]; exact h4)
  rwa [hlen] at bytes

/-- The first `n` bytes of `rxf` moved to the host addresses `h 0`, `h 1`, … -/
def View.stored (v : View) (h : Nat → Word) (n : Nat) : View := { v with
  st := { v.st with mem := Memory.writeAt v.st.mem h (v.c.hw.rxf.take n) }
  c := { v.c with hw := { v.c.hw with rxf := v.c.hw.rxf.drop n } } }

theorem View.stored_stored {v : View} {m : Nat} (h : Nat → Word) (n : Nat) (hm : m ≤ v.c.hw.rxf.length) :
    (v.stored h m).stored (fun i => h (m + i)) n = v.stored h (m + n) := by
  simp only [View.stored, List.take_add, Memory.writeAt_append, List.length_take_of_le hm, List.drop_drop]

/-- A burst from the receive FIFO that holds it, every address in a live range (R151, R85). -/
theorem View.rxBeats_mapped {v : View} {wb n : Nat} {a : Word} {h : Nat → Word} (hwb : wb ≤ 4)
    (hheld : n * wb ≤ v.c.hw.rxf.length) (hm : v.st.MapsTo a (n * wb) h) :
    View.rxBeats wb n a v = some (v.stored h (n * wb)) := by
  induction n generalizing v a h with
  | zero => simp [View.rxBeats, View.stored, Memory.writeAt]
  | succ n ih =>
    have hk : (n + 1) * wb = wb + n * wb := by rw [Nat.succ_mul, Nat.add_comm]
    rw [hk] at hheld hm ⊢
    have word : View.devWrite a (leBytes wb (v.readRx wb).1) (v.readRx wb).2 = some (v.stored h wb) := by
      rw [View.readRx_held (by omega), leBytes_leWord_take hwb (by omega)]
      exact View.devWrite_mapped (by rw [List.length_take_of_le (by omega)]; exact hm.take)
    have rest : n * wb ≤ (v.stored h wb).c.hw.rxf.length := by
      simp only [View.stored, List.length_drop]
      omega
    rw [View.rxBeats, word]
    exact (ih rest hm.drop).trans (congrArg some (View.stored_stored h _ (by omega)))

theorem View.rxBeats_unmapped {v : View} {wb n i : Nat} {a : Word} (hi : i < n * wb)
    (hm : v.st.translate (a + BitVec.ofNat 32 i) = none) : View.rxBeats wb n a v = none := by
  induction n generalizing v a i with
  | zero => simp at hi
  | succ n ih =>
    have still : (v.readRx wb).2.st.translate = v.st.translate := by rw [View.readRx_st]; rfl
    rw [View.rxBeats]
    cases hw : View.devWrite a (leBytes wb (v.readRx wb).1) (v.readRx wb).2 with
    | none => rfl
    | some w =>
      by_cases hlt : i < wb
      · cases (View.devWrite_unmapped (by rwa [length_leBytes]) (by rw [still]; exact hm)).symm.trans hw
      · obtain ⟨j, rfl⟩ := Nat.exists_eq_add_of_le (Nat.le_of_not_lt hlt)
        obtain ⟨-, -, hst, -⟩ := View.devWrite_some _ _ _ _ hw
        refine ih (i := j) (by rw [Nat.succ_mul] at hi; omega) ?_
        rw [hst, BitVec.add_assoc, ← BitVec.ofNat_add]
        exact (congrFun still _).trans hm

/-! ### The enabled steps -/

section
variable {s : State} {k c : Byte} {x : Ctrl}

theorem Ctrl.txBeatEnabled_iff (x : Ctrl) (ch : Chan) : x.txBeatEnabled ch = true ↔
    ch.armed = true ∧ ch.dir = .tx ∧ 0 < ch.rem ∧ x.clkOn = true ∧ x.hw.modeCfg.txdmaOn = true ∧
    x.hw.chCfg.swRst = false ∧ ch.burst * ch.wb ≤ x.fifoDepth - x.hw.txf.length := by
  simp [Ctrl.txBeatEnabled, and_assoc]

theorem Ctrl.rxBeatEnabled_iff (x : Ctrl) (ch : Chan) : x.rxBeatEnabled ch = true ↔
    ch.armed = true ∧ ch.dir = .rx ∧ 0 < ch.rem ∧ x.clkOn = true ∧ x.hw.modeCfg.rxdmaOn = true ∧
    ch.burst * ch.wb ≤ x.hw.rxf.length := by
  simp [Ctrl.rxBeatEnabled, and_assoc]

section
variable (hl : (s.chanAt k).lessee = some c) (hx : s.ctrlAt c = some x)
include hl hx

theorem execDmaTxBeat_disabled (h : ¬ x.txBeatEnabled (s.chanAt k) = true) : execDmaTxBeat k s = .next s :=
  (State.withLessee_some _ hl hx).trans (if_neg (by simp [h]))

theorem execDmaRxBeat_disabled (h : ¬ x.rxBeatEnabled (s.chanAt k) = true) : execDmaRxBeat k s = .next s :=
  (State.withLessee_some _ hl hx).trans (if_neg (by simp [h]))

theorem execDmaTxBeat_moves (hk : x.dmaTx = k) (he : x.txBeatEnabled (s.chanAt k) = true) {w : View}
    (hw : View.txBeats (s.chanAt k).wb (s.chanAt k).burst (s.chanAt k).addr ⟨s, c, x⟩ = some w) :
    execDmaTxBeat k s = .next { w with st := w.st.setChan k (s.chanAt k).advance }.commit :=
  (State.withLessee_some _ hl hx).trans ((if_pos (by simp [he, hk])).trans (by rw [hw]))

theorem execDmaTxBeat_faults (hk : x.dmaTx = k) (he : x.txBeatEnabled (s.chanAt k) = true)
    (hw : View.txBeats (s.chanAt k).wb (s.chanAt k).burst (s.chanAt k).addr ⟨s, c, x⟩ = none) :
    execDmaTxBeat k s = .fault .deviceAccessUnmapped :=
  (State.withLessee_some _ hl hx).trans ((if_pos (by simp [he, hk])).trans (by rw [hw]))

theorem execDmaRxBeat_moves (hk : x.dmaRx = k) (he : x.rxBeatEnabled (s.chanAt k) = true) {w : View}
    (hw : View.rxBeats (s.chanAt k).wb (s.chanAt k).burst (s.chanAt k).addr ⟨s, c, x⟩ = some w) :
    execDmaRxBeat k s = .next { w with st := w.st.setChan k (s.chanAt k).advance }.commit :=
  (State.withLessee_some _ hl hx).trans ((if_pos (by simp [he, hk])).trans (by rw [hw]))

theorem execDmaRxBeat_faults (hk : x.dmaRx = k) (he : x.rxBeatEnabled (s.chanAt k) = true)
    (hw : View.rxBeats (s.chanAt k).wb (s.chanAt k).burst (s.chanAt k).addr ⟨s, c, x⟩ = none) :
    execDmaRxBeat k s = .fault .deviceAccessUnmapped :=
  (State.withLessee_some _ hl hx).trans ((if_pos (by simp [he, hk])).trans (by rw [hw]))

end
end

end Sys2Proof.Machine

open Sys2Proof Sys2Proof.Machine

/-- Settles O26: the bytes pushed are those of the host addresses, each racy one a draw; with none racy they are known
in full. -/
theorem dmaTxBeatMovesBurst : Obligations.DmaTxBeatMovesBurst := by
  unfold Obligations.DmaTxBeatMovesBurst
  intro s k c x hx
  refine ⟨fun hl hk harmed hdir hrem hclk hdma hrst hroom hwb => ?enabled, fun hl hoff => ?disabled,
    fun hl => ?unleased⟩
  case enabled =>
    have he := (x.txBeatEnabled_iff (s.chanAt k)).mpr ⟨harmed, hdir, hrem, hclk, hdma, hrst, hroom⟩
    have moved (h : Nat → Word) (hm : s.MapsTo (s.chanAt k).addr ((s.chanAt k).burst * (s.chanAt k).wb) h) : ∃ bs,
        exec (.dmaTxBeat k) s = .next { (s.setChan k (s.chanAt k).advance).setCtrl c { x with
          hw := { x.hw with txf := x.hw.txf ++ bs } } with
          draws := s.draws + x.racyCount h ((s.chanAt k).burst * (s.chanAt k).wb) } ∧
        bs.length = (s.chanAt k).burst * (s.chanAt k).wb ∧ s.Reads x h bs := by
      obtain ⟨bs, hbs, hlen, hreads⟩ := View.txBeats_mapped (v := ⟨s, c, x⟩) hwb hrst hroom hm
      exact ⟨bs, execDmaTxBeat_moves hl hx hk he hbs, hlen, hreads⟩
    refine ⟨fun h hm => ?_, fun h hm => ?_, fun i hi hm => ?_⟩
    · obtain ⟨bs, hrun, hlen, hreads⟩ := moved h fun i hi => (hm i hi).1
      have bytes : bs = (List.range ((s.chanAt k).burst * (s.chanAt k).wb)).map fun i => Memory.read s.mem (h i) := by
        rw [← hlen]
        refine List.ext_getElem? fun i => ?_
        by_cases hi : i < bs.length
        · rw [hreads i hi (hm i (hlen ▸ hi)).2]
          simp [hi]
        · simp [hi]
      have none : x.racyCount h ((s.chanAt k).burst * (s.chanAt k).wb) = 0 := by
        simp only [Ctrl.racyCount, List.countP_eq_zero, List.mem_range]
        exact fun i hi => by simp [(hm i hi).2]
      rw [hrun, none, ← bytes]
      rfl
    · obtain ⟨bs, hrun, hlen, hreads⟩ := moved h hm
      exact ⟨bs, hrun, hlen, fun i hi => hreads i (hlen ▸ hi)⟩
    · exact execDmaTxBeat_faults hl hx hk he (View.txBeats_unmapped hi hm)
  case disabled =>
    refine execDmaTxBeat_disabled hl hx fun he => ?_
    obtain ⟨harmed, hdir, hrem, hclk, hdma, hrst, hroom⟩ := (x.txBeatEnabled_iff _).mp he
    simp [harmed, hdir, hclk, hdma, hrst] at hoff
    omega
  case unleased => exact State.withLessee_none _ hl

/-- Settles O27: the burst's bytes are stored one after another at the host addresses behind its device addresses. -/
theorem dmaRxBeatMovesBurst : Obligations.DmaRxBeatMovesBurst := by
  unfold Obligations.DmaRxBeatMovesBurst
  intro s k c x hx
  refine ⟨fun hl hk harmed hdir hrem hclk hdma hheld hwb => ?enabled, fun hl hoff => ?disabled, fun hl => ?unleased⟩
  case enabled =>
    have he := (x.rxBeatEnabled_iff (s.chanAt k)).mpr ⟨harmed, hdir, hrem, hclk, hdma, hheld⟩
    have hlen := List.length_take_of_le hheld
    refine ⟨fun h hm => ?_, fun i hi hm => ?_⟩
    · have run := execDmaRxBeat_moves hl hx hk he (View.rxBeats_mapped (v := ⟨s, c, x⟩) hwb hheld hm)
      refine ⟨_, run, rfl, fun a ha => ?_, fun hinj i b hi hb => ?_⟩
      · exact Memory.read_writeAt_outside fun i hi => ha i (by rwa [hlen] at hi)
      · refine Memory.read_writeAt_inside (fun i j hi hj => hinj i j (hlen ▸ hi) (hlen ▸ hj)) ?_
        rw [List.getElem?_take_of_lt hi, hb]
    · exact execDmaRxBeat_faults hl hx hk he (View.rxBeats_unmapped hi hm)
  case disabled =>
    refine execDmaRxBeat_disabled hl hx fun he => ?_
    obtain ⟨harmed, hdir, hrem, hclk, hdma, hheld⟩ := (x.rxBeatEnabled_iff _).mp he
    simp [harmed, hdir, hclk, hdma] at hoff
    omega
  case unleased => exact State.withLessee_none _ hl
end

section
/-! PROOFS. XFER_DMA's contract (R160) fails in a state whose controllers are not in rising order, the canonical form
that no premise of the statement asks for. The pre-mapped ranges are looked up in the order of the table (R50; log
entry 9), and the first write of a controller puts it in front of one with a higher number, and its ranges with it. -/

namespace Sys2Proof.Machine

/-- One byte sent from 0x1000, pre-mapped at 0x9000. -/
def sentTransfer : Transfer := ⟨0x1000, 0, 1, 0, 0, true, false, false, true, 0, 0x9000, 0⟩

/-- Another byte, at 0x2000, pre-mapped at the same device address. -/
def decoyTransfer : Transfer := { sentTransfer with tx := 0x2000 }

/-- A controller in service of a Message, at D_MAP of its Transfer `i`, as R149 says it is on entry. -/
def mappingCtrl (c : Byte) (i : Nat) (msg : List Transfer) : Ctrl :=
  { Ctrl.fresh c ⟨0, 100000000, 64, true, false, 0, 1, 0⟩
      ⟨⟨false, false, false, false, false, false⟩, ⟨49, true⟩, ⟨false, false, false, true, 0, 0⟩,
        ⟨true, false, false, false⟩, Conds.all, Conds.empty, ⟨0, false⟩, Conds.empty,
        ⟨false, false, false, false, false, false⟩, 0, [], [], 0, false, 0, false⟩ 0 with
    clkOn := true, curSpeed := 1000000, curWidth := 8, owner := some 0
    seq := { Seq.fresh with state := .transporting, phase := .dMap, xi := i, msg := msg } }

/-- Controller 0, with both Transfers in its Message, behind controller 1, with the Transfer in hand only. -/
def unorderedState : State := { State.reset with
  ctrl := [(1, mappingCtrl 1 0 [sentTransfer]), (0, mappingCtrl 0 1 [decoyTransfer, sentTransfer])]
  chan := [(0, { Chan.free with lessee := some 0 }), (1, { Chan.free with lessee := some 0 })]
  mem := [(0x2000, 1)], params := ⟨false, false, 0, 0⟩ }

theorem unorderedState_ready : unorderedState.readyForDma 0 (mappingCtrl 0 1 [decoyTransfer, sentTransfer]) :=
  ⟨rfl, rfl, .inl rfl, by decide, by decide, rfl, rfl, rfl, rfl, rfl, rfl, rfl, rfl, rfl, rfl, by decide, by
    rintro k (rfl | rfl) <;> exact ⟨rfl, rfl, rfl⟩⟩

/-- The bus log after an outcome. -/
def busLogAfter (o : Out) : List BusEvent :=
  match o with
  | .next u => u.busLog
  | .fault _ => []
  | .refused _ => []

/-- The byte on the wire is the decoy's. -/
theorem unorderedState_xferDma : busLogAfter (exec (.xferDma 0) unorderedState) =
    [.word 0 8 false false 49 1 true 1] := by decide

end Sys2Proof.Machine

open Sys2Proof Sys2Proof.Machine

/-- Refutes O29: in `unorderedState` controller 1's range stands first and says that 0x9000 is the byte at 0x1000; D_MAP
puts controller 0 in front of it, whose Message has another Transfer at 0x9000, and the byte sent is that one's. -/
theorem not_xferDmaKeepsContract : ¬ Obligations.XferDmaKeepsContract := by
  unfold Obligations.XferDmaKeepsContract
  intro h
  obtain ⟨u, y, ws, run, -, hu, -, -, -, -, -, words, -⟩ := h unorderedState 0
    (mappingCtrl 0 1 [decoyTransfer, sentTransfer]) sentTransfer (fun _ => 0) (fun _ => 0) [] rfl rfl rfl rfl rfl
    unorderedState_ready (.inl rfl) (by decide) (by decide) (fun _ => by decide) nofun (fun _ => nofun)
    (.inl ⟨rfl, rfl, by decide⟩)
  have log : ws = [.word 0 8 false false 49 1 true 1] := by
    have after := unorderedState_xferDma
    rw [run, hu] at after
    exact after
  obtain ⟨sent, got, hword, hsent, -⟩ := words 0 (by decide)
  have zero : sent = 0 := Option.some.inj ((hsent rfl).symm.trans (by decide))
  rw [log, zero] at hword
  obtain ⟨-, -, -, -, -, one, -, -⟩ := BusEvent.word.inj (Option.some.inj hword)
  exact absurd one (by decide)
end

section
/-! PROOFS. The sequencer through every instruction (R186): `Seq.Row` is R186's table with the phase each row leads to.
Each instruction but the two composites moves the sequencer of a controller by its own row or leaves it where it is; a
composite by rows of its own transport (R136, R160). -/

namespace Sys2Proof.Machine

/-! ### R186's table -/

/-- The sequencer is in the state `a`, at the phase `p`. -/
def Seq.At (q : Seq) (a : SeqState) (p : Phase) : Prop := q.state = a ∧ q.phase = p

/-- It has come out of its transport, or out of CONFIGURING without one (R177, R179, R183). -/
def Seq.Left (q : Seq) : Prop := q.At .postDelay .none ∨ q.At .failed .none

/-- The rows of R186's table: the step of controller `c` that takes its sequencer from `q` to `q'`. -/
inductive Seq.Row (c : Byte) (q q' : Seq) : Instr → Prop where
  | start (k : Nat) (h : q.state = .idle) (h' : q'.At .configuringDevice .none) : Row c q q' (.seqStart c k)
  | configDevice (h : q.state = .configuringDevice) (h' : q'.At .selectCs q.phase) : Row c q q' (.seqConfigDevice c)
  | selectCs (h : q.state = .selectCs) (h' : q'.At .configuring q.phase) : Row c q q' (.seqSelectCs c)
  | configuring (h : q.state = .configuring)
      (h' : q'.At .transporting .pArm ∨ q'.At .transporting .dMap ∨ q'.Left) : Row c q q' (.seqConfiguring c)
  | pArm (h : q.At .transporting .pArm) (h' : q'.At .transporting .pPoll) : Row c q q' (.pArm c)
  | pPoll (h : q.At .transporting .pPoll) (h' : q'.At .transporting .pDrain ∨ q'.At .failed .none) :
      Row c q q' (.pPoll c)
  | pDrain (h : q.At .transporting .pDrain) (h' : q'.Left) : Row c q q' (.pDrain c)
  | dMap (h : q.At .transporting .dMap) (h' : q'.At .transporting .dArm ∨ q'.At .failed .none) : Row c q q' (.dMap c)
  | dArm (h : q.At .transporting .dArm) (h' : q'.At .transporting .dWait) : Row c q q' (.dArm c)
  | dWait (h : q.At .transporting .dWait)
      (h' : q'.At .transporting .dTxdrain ∨ q'.At .transporting .dMap ∨ q'.Left) : Row c q q' (.dWait c)
  | dTxdrain (h : q.At .transporting .dTxdrain) (h' : q'.At .transporting .dMap ∨ q'.Left) : Row c q q' (.dTxdrain c)
  | postDelay (h : q.state = .postDelay) (h' : q'.At .deselectCs q.phase) : Row c q q' (.seqPostDelay c)
  | advance (h : q.state = .deselectCs) (h' : q'.At .selectCs q.phase ∨ q'.At .completed q.phase) :
      Row c q q' (.seqAdvance c)
  | complete (h : q.state = .completed) (h' : q'.At .idle q.phase) : Row c q q' (.seqComplete c)
  | fail (h : q.state = .failed) (h' : q'.At .idle q.phase) : Row c q q' (.seqFail c)

/-- Rows of one transport, whose phases are those of `kind`: on through it, or out of it. -/
def Seq.Transports (kind : Phase → Bool) (q q' : Seq) : Prop :=
  q.state = .transporting ∧ kind q.phase = true ∧ (q'.state = .transporting ∧ kind q'.phase = true ∨ q'.Left)

theorem Seq.Transports.of_at {kind : Phase → Bool} {q q' : Seq} {p : Phase} (h : q.At .transporting p)
    (hk : kind p = true) (h' : (∃ p', q'.At .transporting p' ∧ kind p' = true) ∨ q'.Left) : q.Transports kind q' := by
  refine ⟨h.1, h.2 ▸ hk, h'.imp_left ?_⟩
  rintro ⟨p', hp', hk'⟩
  exact ⟨hp'.1, hp'.2 ▸ hk'⟩

section
variable {c d : Byte} {q q' : Seq} {i : Instr}

/-- The rows XFER_POLL is made of (R136). -/
theorem Seq.Row.polls (h : q.Row d q' i) (hi : i = .pArm c ∨ i = .pPoll c ∨ i = .pDrain c) :
    d = c ∧ q.Transports Phase.isPoll q' := by
  rcases hi with rfl | rfl | rfl
  · cases h with
    | pArm h h' => exact ⟨rfl, .of_at h rfl (.inl ⟨_, h', rfl⟩)⟩
  · cases h with
    | pPoll h h' => exact ⟨rfl, .of_at h rfl (h'.imp (fun e => ⟨_, e, rfl⟩) .inr)⟩
  · cases h with
    | pDrain h h' => exact ⟨rfl, .of_at h rfl (.inr h')⟩

/-- The rows XFER_DMA is made of (R160). -/
theorem Seq.Row.usesDma (h : q.Row d q' i) (hi : i = .dMap c ∨ i = .dArm c ∨ i = .dWait c ∨ i = .dTxdrain c) :
    d = c ∧ q.Transports Phase.isDma q' := by
  rcases hi with rfl | rfl | rfl | rfl
  · cases h with
    | dMap h h' => exact ⟨rfl, .of_at h rfl (h'.imp (fun e => ⟨_, e, rfl⟩) .inr)⟩
  · cases h with
    | dArm h h' => exact ⟨rfl, .of_at h rfl (.inl ⟨_, h', rfl⟩)⟩
  · cases h with
    | dWait h h' =>
      exact ⟨rfl, .of_at h rfl (h'.elim (fun e => .inl ⟨_, e, rfl⟩) (Or.imp_left fun e => ⟨_, e, rfl⟩))⟩
  · cases h with
    | dTxdrain h h' => exact ⟨rfl, .of_at h rfl (h'.imp_left fun e => ⟨_, e, rfl⟩)⟩

/-! ### What the table's rows have in common -/

/-- The sequencer of controller `c` moves by the instruction as R186 admits: only by a step of its own row, or by the
composite of its transport, and to the states and phases listed for it. -/
structure Seq.Follows (c : Byte) (i : Instr) (q q' : Seq) : Prop where
  row : q.state ≠ q'.state ∨ q.phase ≠ q'.phase → rowStep c q.state q.phase i
  state : q.state.mayBecome q'.state = true
  stays : q.state = .transporting → q'.state = .transporting →
    q.phase.isPoll = q'.phase.isPoll ∧ q.phase.isDma = q'.phase.isDma ∧
    (i ≠ .xferPoll c ∧ i ≠ .xferDma c → q.phase.mayBecome q'.phase = true)
  leaves : q.state = .transporting → q'.state ≠ .transporting →
    q'.phase = .none ∧ (i ≠ .xferPoll c ∧ i ≠ .xferDma c → q.phase.mayEndIn q'.state = true)
  enters : q.state ≠ .transporting → q'.state = .transporting → q'.phase = .pArm ∨ q'.phase = .dMap

theorem SeqState.mayBecome_refl (a : SeqState) : a.mayBecome a = true := by cases a <;> rfl

theorem Phase.mayBecome_refl (p : Phase) : p.mayBecome p = true := by cases p <;> rfl

/-- Staying follows the table, whatever the instruction. -/
theorem Seq.Follows.of_at (h : q'.At q.state q.phase) : q.Follows c i q' := by
  obtain ⟨hs, hp⟩ := h
  exact ⟨fun e => absurd (e.resolve_left fun n => n hs.symm) fun n => n hp.symm, hs ▸ SeqState.mayBecome_refl _,
    fun _ _ => ⟨by rw [hp], by rw [hp], fun _ => hp ▸ Phase.mayBecome_refl _⟩,
    fun e n => absurd (hs.trans e) n, fun n e => absurd (hs.symm.trans e) n⟩

/-- A move outside TRANSPORTING before and after it. -/
theorem Seq.Follows.outside {a a' : SeqState} (h : q.state = a) (h' : q'.state = a') (ha : a ≠ .transporting)
    (ha' : a' ≠ .transporting) (row : ∀ p, rowStep c a p i) (hs : a.mayBecome a' = true) : q.Follows c i q' := by
  subst h h'
  exact ⟨fun _ => row _, hs, fun e => absurd e ha, fun e => absurd e ha, fun _ e => absurd e ha'⟩

/-- A move between phases. -/
theorem Seq.Follows.within {p p' : Phase} (h : q.At .transporting p) (h' : q'.At .transporting p')
    (row : rowStep c .transporting p i) (hpoll : p.isPoll = p'.isPoll) (hdma : p.isDma = p'.isDma)
    (hp : i ≠ .xferPoll c ∧ i ≠ .xferDma c → p.mayBecome p' = true) : q.Follows c i q' := by
  obtain ⟨hs, rfl⟩ := h
  obtain ⟨hs', rfl⟩ := h'
  exact ⟨fun _ => hs ▸ row, by rw [hs, hs']; rfl, fun _ _ => ⟨hpoll, hdma, hp⟩, fun _ n => absurd hs' n,
    fun n => absurd hs n⟩

/-- A move out of TRANSPORTING. -/
theorem Seq.Follows.out {p : Phase} (h : q.At .transporting p) (h' : q'.Left) (row : rowStep c .transporting p i)
    (he : i ≠ .xferPoll c ∧ i ≠ .xferDma c → p.mayEndIn q'.state = true) : q.Follows c i q' := by
  obtain ⟨hs, rfl⟩ := h
  have hn : q'.state ≠ .transporting := by rcases h' with e | e <;> rw [e.1] <;> nofun
  refine ⟨fun _ => hs ▸ row, ?_, fun _ e => absurd e hn, fun _ _ => ⟨?_, he⟩, fun n => absurd hs n⟩
  · rcases h' with e | e <;> rw [hs, e.1] <;> rfl
  · exact h'.elim (·.2) (·.2)

/-- A move into TRANSPORTING. -/
theorem Seq.Follows.into {p : Phase} (h : q.state = .configuring) (h' : q'.At .transporting p)
    (hp : p = .pArm ∨ p = .dMap) : q.Follows c (.seqConfiguring c) q' := by
  obtain ⟨hs', rfl⟩ := h'
  have hn : q.state ≠ .transporting := by rw [h]; nofun
  exact ⟨fun _ => h ▸ rfl, by rw [h, hs']; rfl, fun e => absurd e hn, fun e => absurd e hn, fun _ _ => hp⟩

/-- The states to which a row leads out of TRANSPORTING. -/
theorem Seq.Left.mayEndIn {p : Phase} (h : q'.Left) (hp : p.mayEndIn .postDelay = true)
    (hf : p.mayEndIn .failed = true) : p.mayEndIn q'.state = true := by
  rcases h with e | e <;> rw [e.1]
  · exact hp
  · exact hf

/-- Each row of the table is as the table's summaries `rowStep`, `mayBecome` and `mayEndIn` say. -/
theorem Seq.Row.follows (h : q.Row c q' i) : q.Follows c i q' := by
  cases h with
  | start k h h' => exact .outside h h'.1 nofun nofun (fun _ => ⟨k, rfl⟩) rfl
  | configDevice h h' => exact .outside h h'.1 nofun nofun (fun _ => rfl) rfl
  | selectCs h h' => exact .outside h h'.1 nofun nofun (fun _ => rfl) rfl
  | configuring h h' =>
    rcases h' with h' | h' | h' | h'
    · exact .into h h' (.inl rfl)
    · exact .into h h' (.inr rfl)
    · exact .outside h h'.1 nofun nofun (fun _ => rfl) rfl
    · exact .outside h h'.1 nofun nofun (fun _ => rfl) rfl
  | pArm h h' => exact .within h h' (.inl rfl) rfl rfl fun _ => rfl
  | pPoll h h' =>
    rcases h' with h' | h'
    · exact .within h h' (.inl rfl) rfl rfl fun _ => rfl
    · exact .out h (.inr h') (.inl rfl) fun _ => h'.1 ▸ rfl
  | pDrain h h' => exact .out h h' (.inl rfl) fun _ => h'.mayEndIn rfl rfl
  | dMap h h' =>
    rcases h' with h' | h'
    · exact .within h h' (.inl rfl) rfl rfl fun _ => rfl
    · exact .out h (.inr h') (.inl rfl) fun _ => h'.1 ▸ rfl
  | dArm h h' => exact .within h h' (.inl rfl) rfl rfl fun _ => rfl
  | dWait h h' =>
    rcases h' with h' | h' | h'
    · exact .within h h' (.inl rfl) rfl rfl fun _ => rfl
    · exact .within h h' (.inl rfl) rfl rfl fun _ => rfl
    · exact .out h h' (.inl rfl) fun _ => h'.mayEndIn rfl rfl
  | dTxdrain h h' =>
    rcases h' with h' | h'
    · exact .within h h' (.inl rfl) rfl rfl fun _ => rfl
    · exact .out h h' (.inl rfl) fun _ => h'.mayEndIn rfl rfl
  | postDelay h h' => exact .outside h h'.1 nofun nofun (fun _ => rfl) rfl
  | advance h h' =>
    rcases h' with h' | h'
    · exact .outside h h'.1 nofun nofun (fun _ => rfl) rfl
    · exact .outside h h'.1 nofun nofun (fun _ => rfl) rfl
  | complete h h' => exact .outside h h'.1 nofun nofun (fun _ => rfl) rfl
  | fail h h' => exact .outside h h'.1 nofun nofun (fun _ => rfl) rfl

theorem Phase.isDma_of_isPoll {p : Phase} (h : p.isPoll = true) : p.isDma = false := by
  rcases (Phase.isPoll_iff p).mp h with rfl | rfl | rfl <;> rfl

theorem Phase.isPoll_of_isDma {p : Phase} (h : p.isDma = true) : p.isPoll = false := by
  rcases (Phase.isDma_iff p).mp h with rfl | rfl | rfl | rfl <;> rfl

theorem rowStep_xferPoll {p : Phase} (h : p.isPoll = true) : rowStep c .transporting p (.xferPoll c) := by
  rcases (Phase.isPoll_iff p).mp h with rfl | rfl | rfl <;> exact .inr rfl

theorem rowStep_xferDma {p : Phase} (h : p.isDma = true) : rowStep c .transporting p (.xferDma c) := by
  rcases (Phase.isDma_iff p).mp h with rfl | rfl | rfl | rfl <;> exact .inr rfl

theorem Seq.Transports.follows_xferPoll (h : q.Transports Phase.isPoll q') : q.Follows c (.xferPoll c) q' := by
  obtain ⟨hs, hp, ⟨hs', hp'⟩ | hleft⟩ := h
  · exact .within ⟨hs, rfl⟩ ⟨hs', rfl⟩ (rowStep_xferPoll hp) (hp.trans hp'.symm)
      ((Phase.isDma_of_isPoll hp).trans (Phase.isDma_of_isPoll hp').symm) fun e => absurd rfl e.1
  · exact .out ⟨hs, rfl⟩ hleft (rowStep_xferPoll hp) fun e => absurd rfl e.1

theorem Seq.Transports.follows_xferDma (h : q.Transports Phase.isDma q') : q.Follows c (.xferDma c) q' := by
  obtain ⟨hs, hp, ⟨hs', hp'⟩ | hleft⟩ := h
  · exact .within ⟨hs, rfl⟩ ⟨hs', rfl⟩ (rowStep_xferDma hp)
      ((Phase.isPoll_of_isDma hp).trans (Phase.isPoll_of_isDma hp').symm) (hp.trans hp'.symm) fun e => absurd rfl e.2
  · exact .out ⟨hs, rfl⟩ hleft (rowStep_xferDma hp) fun e => absurd rfl e.2

end

end Sys2Proof.Machine
end

section
/-! PROOFS. Where each step of the sequencer goes (R174 to R183). -/

namespace Sys2Proof.Machine

section
variable (v : View) (t : Transfer)

theorem View.fail_at (k : ErrKind) (n : Nat) : (v.fail k n).c.seq.At .failed .none := by
  rw [View.fail_c]
  exact ⟨rfl, rfl⟩

theorem View.configured_goes : (v.configured t).c.seq.At .transporting .pArm ∨
    (v.configured t).c.seq.At .transporting .dMap ∨ (v.configured t).c.seq.Left := by
  unfold View.configured
  dsimp only
  split
  · exact .inr (.inr (.inl ⟨rfl, rfl⟩))
  · exact .inl ⟨rfl, rfl⟩
  · exact .inr (.inl ⟨rfl, rfl⟩)

theorem View.pPoll_goes : (v.pPoll t).c.seq.At v.c.seq.state v.c.seq.phase ∨
    (v.pPoll t).c.seq.At v.c.seq.state .pDrain ∨ (v.pPoll t).c.seq.At .failed .none := by
  cases h : (v.c.errLatch.union v.c.hw.sticky).nonempty with
  | true =>
    rw [View.pPoll_failed h]
    exact .inr (.inr (View.fail_at _ _ _))
  | false =>
    rw [View.pPoll_quiet h]
    split
    · exact .inr (.inl ⟨rfl, rfl⟩)
    · split
      · exact .inr (.inr ⟨rfl, rfl⟩)
      · exact .inl ⟨rfl, rfl⟩

theorem View.pDrain_left : (v.pDrain t).c.seq.Left := by
  rw [View.pDrain_eq]
  unfold View.validateStatus
  dsimp only
  split
  · exact .inr (View.fail_at _ _ _)
  · exact .inl ⟨rfl, rfl⟩

theorem View.dMap_goes : (v.dMap t).c.seq.At v.c.seq.state .dArm ∨ (v.dMap t).c.seq.At .failed .none := by
  rcases (v.dMap_ends t).2 with ⟨hs, hp, -⟩ | ⟨hs, hp⟩
  · exact .inr ⟨hs, hp⟩
  · exact .inl ⟨hs, hp⟩

theorem View.dEpilog_goes : (v.dEpilog t).c.seq.At v.c.seq.state .dMap ∨ (v.dEpilog t).c.seq.Left := by
  unfold View.dEpilog
  dsimp only
  split
  · exact .inr (.inr (View.fail_at _ _ _))
  · split
    · refine .inl ⟨?_, rfl⟩
      simp [View.unmapOwed_c]
    · exact .inr (.inl ⟨rfl, rfl⟩)

theorem View.dmaGiveUp_at : v.dmaGiveUp.c.seq.At .failed .none := by
  rw [View.dmaGiveUp_eq]
  exact View.fail_at _ _ _

theorem View.accumulate_at : (v.accumulate t).c.seq.At v.c.seq.state v.c.seq.phase := by
  unfold View.accumulate
  split <;> exact ⟨rfl, rfl⟩

theorem View.recover_phase : v.recover.c.seq.phase = v.c.seq.phase := by
  simp [View.recover, View.flushOp_c, View.unmapOwed_c, View.dmaAbort_c]

end

/-! ### Outcomes -/

/-- Every controller stands as before, its sequencer where it was or moved as `R` says. -/
def State.SeqBy (R : Byte → Seq → Seq → Prop) (s u : State) : Prop :=
  ∀ d x, s.ctrlAt d = some x →
    ∃ y, u.ctrlAt d = some y ∧ (y.seq.At x.seq.state x.seq.phase ∨ R d x.seq y.seq)

/-- The meaning moves sequencers as `R` says only. -/
def MovesSeq (R : Byte → Seq → Seq → Prop) (f : State → Out) : Prop := ∀ s, Ends (s.SeqBy R) (f s)

/-- The meaning moves no sequencer. -/
abbrev LeavesSeq (f : State → Out) : Prop := MovesSeq (fun _ _ _ => False) f

namespace State.SeqBy
variable {R R' : Byte → Seq → Seq → Prop} {b : Bool} {s u : State} {c : Byte} {x y : Ctrl} {w : View}

theorem mono (h : s.SeqBy R u) (hR : ∀ d q q', R d q q' → R' d q q') : s.SeqBy R' u := fun d x hx =>
  let ⟨y, hy, h⟩ := h d x hx
  ⟨y, hy, h.imp_right (hR d _ _)⟩

theorem refl (s : State) : s.SeqBy R s := fun _ x hx => ⟨x, hx, .inl ⟨rfl, rfl⟩⟩

theorem ctrl (h : u.ctrl = s.ctrl) : s.SeqBy R u := fun d x hx =>
  ⟨x, (State.ctrlAt_congr h d).trans hx, .inl ⟨rfl, rfl⟩⟩

/-- One controller is written. -/
theorem update (hx : s.ctrlAt c = some x) (hu : ∀ d, u.ctrlAt d = if c = d then some y else s.ctrlAt d)
    (h : y.seq.At x.seq.state x.seq.phase ∨ R c x.seq y.seq) : s.SeqBy R u := by
  intro d z hz
  rw [hu]
  split
  · next e =>
    subst e
    cases hx.symm.trans hz
    exact ⟨y, rfl, h⟩
  · exact ⟨z, hz, .inl ⟨rfl, rfl⟩⟩

theorem setCtrl (hx : s.ctrlAt c = some x) (hq : y.seq = x.seq) : s.SeqBy R (s.setCtrl c y) :=
  update hx (s.ctrlAt_setCtrl c · y) (.inl (hq ▸ ⟨rfl, rfl⟩))

/-- The controller in hand is put back. -/
theorem commit (hx : s.ctrlAt c = some x) (hkey : w.key = c) (hctrl : w.st.ctrl = s.ctrl)
    (h : w.c.seq.At x.seq.state x.seq.phase ∨ R c x.seq w.c.seq) : s.SeqBy R w.commit :=
  update hx (fun d => by rw [View.commit_ctrlAt_of_ctrl hctrl, hkey]) h

/-- A controller's work, put back. -/
theorem moves (hx : s.ctrlAt c = some x) (hw : View.Moves b ⟨s, c, x⟩ w)
    (h : w.c.seq.At x.seq.state x.seq.phase ∨ R c x.seq w.c.seq) : s.SeqBy R w.commit :=
  commit hx hw.frame.key hw.frame.ctrl h

/-- Work on the rest of the controller. -/
theorem same (hx : s.ctrlAt c = some x) (hw : View.Moves false ⟨s, c, x⟩ w) (hq : w.c.seq = x.seq) :
    s.SeqBy R w.commit := moves hx hw (.inl (hq ▸ ⟨rfl, rfl⟩))

theorem power (hx : s.ctrlAt c = some x) (hw : View.LeaseFrame ⟨s, c, x⟩ w)
    (hq : w.c.seq.At x.seq.state x.seq.phase) : s.SeqBy R w.commit :=
  commit hx hw.key hw.ctrl (.inl hq)

theorem answered (h : s.SeqBy R u) (k : ErrKind) (i : Nat) (wd : Word) : s.SeqBy R (u.answer k i wd) := h

theorem answer (k : ErrKind) (i : Nat) (wd : Word) : s.SeqBy R (s.answer k i wd) := ctrl rfl

theorem respond (d : Recipient) (ws : List Word) : s.SeqBy R (s.respond d ws) := ctrl rfl

end State.SeqBy

/-! ### Instructions that move no sequencer -/

section
variable {c : Byte}

theorem execNew_leavesSeq (f : PacketForm) (a : NewArgs) : LeavesSeq (execNew f c a) := fun s =>
  .checkForm .respond fun _ => .ite (fun _ => .next (.answer _ _ _)) fun hx => .ite (fun _ => .next (.answer _ _ _))
    fun _ => .ite (fun _ => .next (.answer _ _ _)) fun _ => .ite (fun _ => .next (.answer _ _ _)) fun _ =>
    .ite (fun _ => .next (.answer _ _ _)) fun _ => .next fun d x hd => by
      refine ⟨x, ?_, .inl ⟨rfl, rfl⟩⟩
      rw [State.newDone_ctrlAt, if_neg]
      · exact hd
      · rintro rfl
        simp [hd] at hx

theorem execBind_leavesSeq (f : PacketForm) (b : Byte) (a : BindArgs) : LeavesSeq (execBind f c b a) := fun s =>
  .checkForm .respond fun _ => .withHandle (.answer _ _ _) fun x hx => .ite (fun _ => .next (.answer _ _ _)) fun _ =>
    .ite (fun _ => .next (.answer _ _ _)) fun _ => .ite (fun _ => .next (.answer _ _ _)) fun _ =>
    .ite (fun _ => .next (.answer _ _ _)) fun _ => .ite (fun _ => .next (.answer _ _ _)) fun _ => by
      split
      · exact .next (.answer _ _ _)
      · next n _ => exact .next (.update hx (State.bindDone_ctrlAt s c b x a n) (.inl ⟨rfl, rfl⟩))

theorem Ctrl.startActivation_seq (x : Ctrl) (now : Nat) : (x.startActivation now).seq = x.seq := by
  rw [Ctrl.startActivation_eq]

theorem execSubmit_leavesSeq (f : PacketForm) (b : Byte) (ts : List Transfer) : LeavesSeq (execSubmit f c b ts) :=
  fun s => .checkForm .respond fun _ => .ite (fun _ => .next (.respond _ _)) fun _ => by
    split
    · exact .next (.respond _ _)
    · next x hx =>
      split
      · exact .next (.respond _ _)
      · split
        · exact .next (.respond _ _)
        · refine .ite (fun _ => .next (.respond _ _)) fun _ =>
            .next (.update hx (s.ctrlAt_setCtrl c · _) (.inl ?_))
          dsimp only
          split
          · rw [Ctrl.startActivation_seq]
            exact ⟨rfl, rfl⟩
          · exact ⟨rfl, rfl⟩

theorem execOnSuspend_leavesSeq (f : PacketForm) : LeavesSeq (execOnSuspend f c) := fun _ =>
  .checkForm .respond fun _ => .withHandle (.answer _ _ _) fun _ hx => .ite (fun _ => .next (.answer _ _ _)) fun _ =>
    .next (.setCtrl hx rfl)

theorem execOnActive_leavesSeq (f : PacketForm) : LeavesSeq (execOnActive f c) := fun s =>
  .checkForm .respond fun _ => .withHandle (.answer _ _ _) fun x hx => .ite (fun _ => .next (.answer _ _ _)) fun _ =>
    .ite (fun _ => .next (.answer _ _ _)) fun _ => .ite (fun _ => .next (.answer _ _ _)) fun _ =>
    .next (.setCtrl hx (x.startActivation_seq s.now))

theorem execOnIdle_leavesSeq (f : PacketForm) : LeavesSeq (execOnIdle f c) := fun s =>
  .checkForm .respond fun _ => .withHandle (.answer _ _ _) fun x hx => .ite (fun _ => .next (.answer _ _ _)) fun _ =>
    .ite (fun _ => .next (.answer _ _ _)) fun _ => .ite (fun _ => .next (.answer _ _ _)) fun _ =>
    .ite (fun _ => .next (.answer _ _ _)) fun _ =>
    .next (.update hx ((s.freeLeases x).ctrlAt_setCtrl c · _) (.inl ⟨rfl, rfl⟩))

theorem execOnResume_leavesSeq (f : PacketForm) : LeavesSeq (execOnResume f c) := fun s =>
  .checkForm .respond fun _ => .withHandle (.answer _ _ _) fun x hx => .ite (fun _ => .next (.answer _ _ _)) fun _ => by
    refine .next (.answered (.power (w := View.resume ⟨s, c, x⟩) hx (View.resume_frame _).1 ?_) _ _ _)
    rw [View.resume_c]
    obtain ⟨hs, hp, -⟩ := View.resumeHw_seq ⟨s, c, x⟩
    exact ⟨hs, hp⟩

theorem execFlush_leavesSeq (f : PacketForm) : LeavesSeq (execFlush f c) := fun s =>
  .checkForm .respond fun _ => .withHandle (.answer _ _ _) fun x hx => .ite (fun _ => .next (.answer _ _ _)) fun _ =>
    .ite (fun _ => .next (.answer _ _ _)) fun _ =>
    .clocked (.next (.answered (.same hx (View.flushOp_moves ⟨s, c, x⟩) rfl) _ _ _))

theorem execConfigure_leavesSeq (sp : Word) (m : SpiMode) (w : BitVec 6) : LeavesSeq (execConfigure c sp m w) :=
  fun s => .withCtrl (.refl s) fun _ hx => .ite (fun _ => by
    split
    · exact .next (.refl s)
    · next h => exact .clocked (.next (.same hx (View.configure_moves h) (View.configure_seq h))))
    fun _ => .next (.refl s)

theorem execCsAssert_leavesSeq (b : Byte) : LeavesSeq (execCsAssert c b) := fun s =>
  .withCtrl (.refl s) fun _ hx => .ite
    (fun _ => .clocked (.next (.same hx (View.csAssert_moves _ b) (View.csAssert_seq _ b)))) fun _ => .next (.refl s)

theorem execCsDeassert_leavesSeq : LeavesSeq (execCsDeassert c) := fun s =>
  .withCtrl (.refl s) fun _ hx => .ite (fun _ => .next (.refl s)) fun _ =>
    .deassertClocked (.next (.same hx (View.csDeassert_moves _) (View.csDeassert_seq _)))

theorem execErrAck_leavesSeq : LeavesSeq (execErrAck c) := fun s =>
  .withCtrl (.refl s) fun _ hx => .clocked (.next (.same hx (View.errAck_moves _) rfl))

theorem execErrIrq_leavesSeq : LeavesSeq (execErrIrq c) := fun s =>
  .withCtrl (.refl s) fun _ hx => .ite (fun _ => .next (.same hx (View.errAck_moves _) rfl)) fun _ => .next (.refl s)

theorem execFlushOp_leavesSeq : LeavesSeq (execFlushOp c) := fun s =>
  .withCtrl (.refl s) fun _ hx => .clocked (.next (.same hx (View.flushOp_moves _) rfl))

theorem execHwInit_leavesSeq : LeavesSeq (execHwInit c) := fun s =>
  .withCtrl (.refl s) fun _ hx => .clocked (.next (.same hx (View.hwInit_moves _) rfl))

theorem execDmaAbort_leavesSeq : LeavesSeq (execDmaAbort c) := fun s =>
  .withCtrl (.refl s) fun _ hx => .next (.same hx (View.dmaAbort_moves _) rfl)

theorem execShLoad_leavesSeq : LeavesSeq (execShLoad c) := fun s =>
  .withCtrl (.refl s) fun _ hx => .ite
    (fun _ => .next (.same hx (View.shLoad_moves _) (by rw [(View.shLoad_engine _).2]))) fun _ => .next (.refl s)

theorem execShDone_leavesSeq : LeavesSeq (execShDone c) := fun s =>
  .withCtrl (.refl s) fun _ hx => .ite
    (fun _ => .next (.same hx (View.shDone_moves _) (by rw [(View.shDone_engine _).2]))) fun _ => .next (.refl s)

theorem execErrInject_leavesSeq (m : Conds) : LeavesSeq (execErrInject c m) := fun s =>
  .withCtrl (.refl s) fun _ hx => .ite (fun _ => .next (.same hx (View.Moves.onHw id) rfl)) fun _ => .next (.refl s)

theorem execPowerLoss_leavesSeq : LeavesSeq (execPowerLoss c) := fun s =>
  .withCtrl (.refl s) fun _ hx => .ite
    (fun _ => .next (.same hx (View.Moves.hw (.drew s _) fun _ => Hw.Fits.drawn _ _) rfl)) fun _ => .next (.refl s)

theorem execTick_leavesSeq (d : Nat) : LeavesSeq (execTick d) := fun _ => .next (.ctrl rfl)

theorem execDmaTxBeat_leavesSeq (k : Byte) : LeavesSeq (execDmaTxBeat k) := fun s =>
  .withLessee (.refl s) fun _ _ _ hx => .ite (fun _ => by
    split
    · nofun
    · next v1 h1 =>
      obtain ⟨hkey, hst, hc, hf⟩ := View.txBeats_some h1
      refine .next (.same hx (View.burst_moves hkey ?_ hc hf rfl) ?_)
      · rw [hst]
        exact .of_eq
      · dsimp only
        rw [hc]) fun _ => .next (.refl s)

theorem execDmaRxBeat_leavesSeq (k : Byte) : LeavesSeq (execDmaRxBeat k) := fun s =>
  .withLessee (.refl s) fun _ _ _ hx => .ite (fun _ => by
    split
    · nofun
    · next v1 h1 =>
      obtain ⟨hkey, hst, hc, hf⟩ := View.rxBeats_some h1
      refine .next (.moves (b := true) hx (View.burst_moves hkey ?_ hc hf rfl) (.inl ?_))
      · rw [hst]
        exact .of_store
      · dsimp only
        rw [hc]
        exact ⟨rfl, rfl⟩) fun _ => .next (.refl s)

theorem execDmaTxDone_leavesSeq (k : Byte) : LeavesSeq (execDmaTxDone k) := fun s =>
  .withLessee (.refl s) fun _ _ _ hx => .ite
    (fun _ => .next (.update hx (s.ctrlAt_setCtrl _ · _) (.inl ⟨rfl, rfl⟩))) fun _ => .next (.refl s)

theorem execDmaRxDone_leavesSeq (k : Byte) : LeavesSeq (execDmaRxDone k) := fun s =>
  .withLessee (.refl s) fun _ _ _ hx => .ite
    (fun _ => .next (.update hx (s.ctrlAt_setCtrl _ · _) (.inl ⟨rfl, rfl⟩))) fun _ => .next (.refl s)

/-- ACQ_ATTEMPT, whichever way it goes (R216). -/
theorem execAcqAttempt_leavesSeq : LeavesSeq (execAcqAttempt c) := fun s =>
  .withCtrl (.refl s) fun x hx => .ite (fun _ => .next (by
    unfold View.acqAttempt
    split
    · exact .power hx (View.acquire_frame _) ⟨rfl, rfl⟩
    · split
      · unfold View.backOff
        refine .commit hx (View.countRetry_key _) ?_ (.inl ?_)
        · dsimp only
          rw [View.countRetry_st]
        · dsimp only
          rw [View.countRetry_c]
          exact ⟨rfl, rfl⟩
      · exact .commit hx rfl ((State.Keeps.answerActive (b := true) _ _ _ _ _).trans
          (.answerWaiters _ _ _ _)).ctrl (.inl ⟨rfl, rfl⟩))) fun _ => .next (.refl s)

theorem execSuspendFinish_leavesSeq : LeavesSeq (execSuspendFinish c) := fun s =>
  .withCtrl (.refl s) fun _ hx => .ite (fun _ => by
    refine .next (.power hx (View.suspendFinish_frame _) ?_)
    rw [View.suspendFinish_c]
    exact ⟨rfl, rfl⟩) fun _ => .next (.refl s)

end

/-! ### Steps of the sequencer -/

section
variable {c : Byte}

/-- The rows that the instruction is in R186's table. -/
abbrev RowOf (i : Instr) : Byte → Seq → Seq → Prop := fun d q q' => q.Row d q' i

theorem execSeqStart_row (pick : Nat) : MovesSeq (RowOf (.seqStart c pick)) (execSeqStart c pick) := fun s =>
  .withCtrl (.refl s) fun x hx => .ite (fun he => by
    split
    · exact .next (.refl s)
    · next w hw =>
      simp only [Ctrl.startEnabled, Bool.and_eq_true, decide_eq_true_eq] at he
      exact .next (.update hx (s.ctrlAt_setCtrl c · _) (.inr (.start pick he.1.1.1 ⟨rfl, rfl⟩))))
    fun _ => .next (.refl s)

theorem execSeqConfigDevice_row : MovesSeq (RowOf (.seqConfigDevice c)) (execSeqConfigDevice c) := fun s =>
  .withBinding (.refl s) fun x bd hx he _ => by
    have hs := (x.inState_iff _).mp he
    refine .clocked (.next (.moves (b := true) hx (View.configDevice_moves hs bd)
      (.inr (.configDevice hs ⟨rfl, ?_⟩))))
    simp [View.configDevice]

theorem execSeqSelectCs_row : MovesSeq (RowOf (.seqSelectCs c)) (execSeqSelectCs c) := fun s =>
  .withBinding (.refl s) fun x bd hx he _ => by
    have hs := (x.inState_iff _).mp he
    refine .ite (fun _ => .next (.update hx (s.ctrlAt_setCtrl c · _) (.inr (.selectCs hs ⟨rfl, rfl⟩)))) fun _ =>
      .clocked (.next (.moves (b := true) hx (.trans (View.csAssert_moves _ _) (View.selected_moves ?_))
        (.inr (.selectCs hs ⟨rfl, ?_⟩))))
    · rw [View.csAssert_seq]
      exact hs
    · simp [View.selected]

theorem execSeqConfiguring_row : MovesSeq (RowOf (.seqConfiguring c)) (execSeqConfiguring c) := fun s =>
  .withBinding (.refl s) fun x bd hx he _ => by
    have hs := (x.inState_iff _).mp he
    split
    · exact .next (.refl s)
    · next t ht =>
      refine .ite (fun _ => ?_) fun _ => .next (.moves (b := true) hx (View.configured_moves hs ht)
        (.inr (.configuring hs (View.configured_goes _ t))))
      split
      · exact .next (.moves (b := true) hx (View.fail_moves
          (.of_not_inSubTransfer (.inl hs) (Seq.not_inSubTransfer_of_state (by simp [hs]))) (.inr rfl))
          (.inr (.configuring hs (.inr (.inr (.inr (View.fail_at _ _ _)))))))
      · next v1 h1 =>
        have hq : v1.c.seq = x.seq := View.configure_seq h1
        exact .clocked (.next (.moves (b := true) hx ((View.configure_moves h1).trans
          (View.configured_moves (by rw [hq]; exact hs) ((Ctrl.transfer_congr hq).trans ht)))
          (.inr (.configuring hs (View.configured_goes _ t)))))

theorem execPArm_row : MovesSeq (RowOf (.pArm c)) (execPArm c) := fun s =>
  .withTransfer (.refl s) fun x t hx he _ => by
    have hp := (x.inPhase_iff _).mp he
    exact .clocked (.next (.update hx (s.ctrlAt_setCtrl c · _) (.inr (.pArm hp ⟨hp.1, rfl⟩))))

theorem execPPoll_row : MovesSeq (RowOf (.pPoll c)) (execPPoll c) := fun s =>
  .withTransfer (.refl s) fun x t hx he _ => by
    have hp := (x.inPhase_iff _).mp he
    refine .clocked (.next (.moves (b := true) hx (View.pPoll_moves he t) ?_))
    refine (View.pPoll_goes ⟨s, c, x⟩ t).imp_right fun h => .pPoll hp ?_
    rwa [hp.1] at h

theorem execPDrain_row : MovesSeq (RowOf (.pDrain c)) (execPDrain c) := fun s =>
  .withTransfer (.refl s) fun x t hx he _ => .clocked (.next (.moves hx (View.pDrain_moves he t)
    (.inr (.pDrain ((x.inPhase_iff _).mp he) (View.pDrain_left _ t)))))

theorem execDMap_row : MovesSeq (RowOf (.dMap c)) (execDMap c) := fun s =>
  .withTransfer (.refl s) fun x t hx he ht => by
    have hp := (x.inPhase_iff _).mp he
    have goes := View.dMap_goes ⟨s, c, x⟩ t
    rw [hp.1] at goes
    exact .next (.moves hx (.single (.dMap t rfl he ht)) (.inr (.dMap hp goes)))

theorem execDArm_row : MovesSeq (RowOf (.dArm c)) (execDArm c) := fun s =>
  .withTransfer (.refl s) fun x t hx he _ => by
    have hp := (x.inPhase_iff _).mp he
    exact .clocked (.next (.moves (b := true) hx (View.dArm_moves he t) (.inr (.dArm hp ⟨hp.1, rfl⟩))))

/-- D_EPILOG's end of a sub-transfer (R156). -/
theorem View.dEpilog_from {v : View} (hs : v.c.seq.state = .transporting) (t : Transfer) :
    (v.dEpilog t).c.seq.At .transporting .dMap ∨ (v.dEpilog t).c.seq.Left := hs ▸ v.dEpilog_goes t

theorem execDWait_row : MovesSeq (RowOf (.dWait c)) (execDWait c) := fun s =>
  .withTransfer (.refl s) fun x t hx he _ => by
    have hp := (x.inPhase_iff _).mp he
    exact .ite
      (fun hd => .ite
        (fun _ => .clocked (.next (.moves hx (View.dEpilog_moves ⟨hp.1, .inr (.inl hp.2)⟩ (fun _ => .inl hd) t)
          (.inr (.dWait hp (.inr (View.dEpilog_from hp.1 t)))))))
        fun _ => .next (.update hx (s.ctrlAt_setCtrl c · _) (.inr (.dWait hp (.inl ⟨hp.1, rfl⟩)))))
      fun _ => .ite (fun _ => .clocked (.next (.moves hx (View.dmaGiveUp_moves hp.1)
        (.inr (.dWait hp (.inr (.inr (.inr (View.dmaGiveUp_at _)))))))))
        fun _ => .next (.refl s)

theorem execDTxdrain_row : MovesSeq (RowOf (.dTxdrain c)) (execDTxdrain c) := fun s =>
  .withTransfer (.refl s) fun x t hx he _ => .clocked (.next (by
    have hp := (x.inPhase_iff _).mp he
    unfold View.dTxdrain
    split
    · exact .moves hx (View.dEpilog_moves ⟨hp.1, .inr (.inr hp.2)⟩ (fun e => by simp [Seq.InWait, hp.2] at e) t)
        (.inr (.dTxdrain hp (View.dEpilog_from hp.1 t)))
    · split
      · exact .moves hx (View.dmaGiveUp_moves hp.1) (.inr (.dTxdrain hp (.inr (.inr (View.dmaGiveUp_at _)))))
      · exact .refl s))

theorem execSeqPostDelay_row : MovesSeq (RowOf (.seqPostDelay c)) (execSeqPostDelay c) := fun s =>
  .withTransfer (.refl s) fun x t hx he _ => by
    simp only [Bool.and_eq_true, Ctrl.inState_iff] at he
    exact .next (.moves (b := true) hx (View.postDelay_moves he.1 t)
      (.inr (.postDelay he.1 ⟨rfl, (View.accumulate_at ⟨s, c, x⟩ t).2⟩)))

theorem execSeqAdvance_row : MovesSeq (RowOf (.seqAdvance c)) (execSeqAdvance c) := fun s =>
  .withTransfer (.refl s) fun x t hx he _ => by
    have hs := (x.inState_iff _).mp he
    have released : (View.csDeassert ⟨s, c, x⟩).st.ctrl = s.ctrl := by rw [View.csDeassert_st]
    have phase : (View.csDeassert ⟨s, c, x⟩).c.seq.phase = x.seq.phase := by rw [View.csDeassert_seq]
    exact .ite
      (fun _ => .ite
        (fun _ => .deassertClocked (.next
          (.commit hx (View.csDeassert_key _) released (.inr (.advance hs (.inl ⟨rfl, phase⟩))))))
        fun _ => .next (.commit hx rfl rfl (.inr (.advance hs (.inl ⟨rfl, rfl⟩)))))
      fun _ => .ite (fun _ => .next (.commit hx rfl rfl (.inr (.advance hs (.inr ⟨rfl, rfl⟩)))))
        fun _ => .deassertClocked (.next
          (.commit hx (View.csDeassert_key _) released (.inr (.advance hs (.inr ⟨rfl, phase⟩)))))

theorem execSeqComplete_row : MovesSeq (RowOf (.seqComplete c)) (execSeqComplete c) := fun s =>
  .withOwner (.refl s) fun x _ hx he _ =>
    .next (.update hx (s.ctrlAt_setCtrl c · _) (.inr (.complete ((x.inState_iff _).mp he) ⟨rfl, rfl⟩)))

theorem execSeqFail_row : MovesSeq (RowOf (.seqFail c)) (execSeqFail c) := fun s =>
  .withOwner (.refl s) fun x tag hx he _ => by
    have hs := (x.inState_iff _).mp he
    exact .clocked (.next (.moves (b := true) hx (View.seqFail_moves hs tag)
      (.inr (.fail hs ⟨rfl, View.recover_phase ⟨s, c, x⟩⟩))))

end

/-! ### Composites (R136, R160; log entry 25) -/

/-- Rows of controller `c`'s own transport, whose phases are those of `kind`. -/
def RowsOf (c : Byte) (kind : Phase → Bool) (d : Byte) (q q' : Seq) : Prop := d = c ∧ q.Transports kind q'

section
variable {R R' : Byte → Seq → Seq → Prop} {c kt kr : Byte} {kind : Phase → Bool} {f g : State → Out}

theorem MovesSeq.mono (hf : MovesSeq R f) (hR : ∀ d q q', R d q q' → R' d q q') : MovesSeq R' f := fun s =>
  (hf s).mono fun _ h => h.mono hR

theorem LeavesSeq.movesSeq (hf : LeavesSeq f) : MovesSeq R f := hf.mono fun _ _ _ => False.elim

/-- The rows of one transport follow one another, and none follows those out of it. -/
theorem State.SeqBy.trans {s u w : State} (h : s.SeqBy (RowsOf c kind) u) (h' : u.SeqBy (RowsOf c kind) w) :
    s.SeqBy (RowsOf c kind) w := by
  intro d x hx
  obtain ⟨y, hy, hxy⟩ := h d x hx
  obtain ⟨z, hz, hyz⟩ := h' d y hy
  refine ⟨z, hz, ?_⟩
  rcases hxy with ⟨hs, hp⟩ | ⟨hd, hs, hp, hto⟩
  · rw [← hs, ← hp]
    refine hyz.imp_right ?_
    rintro ⟨hd, hs', hp', hto⟩
    exact ⟨hd, hs ▸ hs', hp ▸ hp', hto⟩
  · refine .inr ⟨hd, hs, hp, ?_⟩
    rcases hyz with ⟨hs', hp'⟩ | ⟨-, -, -, hto'⟩
    · unfold Seq.Left Seq.At
      rw [hs', hp']
      exact hto
    · exact hto'

namespace MovesSeq

theorem done : MovesSeq R .next := fun s => .next (.refl s)

theorem andThen (hf : MovesSeq (RowsOf c kind) f) (hg : MovesSeq (RowsOf c kind) g) :
    MovesSeq (RowsOf c kind) fun s => andThen (f s) g := fun s =>
  .andThen (hf s) fun s1 h1 => (hg s1).mono fun _ h2 => h1.trans h2

theorem whileTransporting (hf : MovesSeq R f) : MovesSeq R fun s => s.whileTransporting c f := fun s =>
  .whileTransporting (.refl s) (hf s)

theorem lookUntilDeadline (hf : MovesSeq (RowsOf c kind) f) (p : Phase) :
    MovesSeq (RowsOf c kind) (lookUntilDeadline c p f) :=
  hf.andThen fun s => (hf _).mono fun _ h => State.SeqBy.trans
    (.ctrl (State.untilDeadline_keeps (b := true) s c p).ctrl) h

end MovesSeq

theorem shiftWords_rows (n : Nat) : MovesSeq (RowsOf c kind) (shiftWords c n) := by
  induction n with
  | zero => exact .done
  | succ n ih => exact execShLoad_leavesSeq.movesSeq.andThen (execShDone_leavesSeq.movesSeq.andThen ih)

/-- A step of the polling transport, in its composite. -/
theorem MovesSeq.polls {i : Instr} (hf : MovesSeq (RowOf i) f) (hi : i = .pArm c ∨ i = .pPoll c ∨ i = .pDrain c) :
    MovesSeq (RowsOf c Phase.isPoll) f := hf.mono fun _ _ _ h => h.polls hi

theorem execXferPoll_rows : MovesSeq (RowsOf c Phase.isPoll) (execXferPoll c) := fun s =>
  .withCtrl (.refl s) fun _ _ => .ite
    (fun _ => (execPArm_row.polls (.inl rfl)).andThen (.andThen (fun s1 => shiftWords_rows _ s1)
      (.andThen (.lookUntilDeadline (execPPoll_row.polls (.inr (.inl rfl))) _)
        (execPDrain_row.polls (.inr (.inr rfl))))) s)
    fun _ => .next (.refl s)

theorem moveWords_rows (n : Nat) : MovesSeq (RowsOf c kind) (moveWords c kt kr n) := by
  induction n with
  | zero => exact .done
  | succ n ih =>
    exact (execDmaTxBeat_leavesSeq kt).movesSeq.andThen (execShLoad_leavesSeq.movesSeq.andThen
      (execShDone_leavesSeq.movesSeq.andThen ((execDmaRxBeat_leavesSeq kr).movesSeq.andThen ih)))

/-- A step of the DMA transport, in its composite. -/
theorem MovesSeq.usesDma {i : Instr} (hf : MovesSeq (RowOf i) f)
    (hi : i = .dMap c ∨ i = .dArm c ∨ i = .dWait c ∨ i = .dTxdrain c) :
    MovesSeq (RowsOf c Phase.isDma) f := hf.mono fun _ _ _ h => h.usesDma hi

theorem armedSubTransfer_rows : MovesSeq (RowsOf c Phase.isDma) (armedSubTransfer c kt kr) :=
  (execDArm_row.usesDma (.inr (.inl rfl))).andThen (.andThen (fun s1 => moveWords_rows _ s1)
    ((execDmaTxDone_leavesSeq kt).movesSeq.andThen ((execDmaRxDone_leavesSeq kr).movesSeq.andThen
      (.andThen (.lookUntilDeadline (execDWait_row.usesDma (.inr (.inr (.inl rfl)))) _)
        (.lookUntilDeadline (execDTxdrain_row.usesDma (.inr (.inr (.inr rfl)))) _)))))

theorem subTransfers_rows (n : Nat) : MovesSeq (RowsOf c Phase.isDma) (subTransfers c kt kr n) := by
  induction n with
  | zero => exact .done
  | succ n ih =>
    have one : MovesSeq (RowsOf c Phase.isDma) (subTransfer c kt kr) :=
      (execDMap_row.usesDma (.inl rfl)).andThen armedSubTransfer_rows.whileTransporting
    exact one.andThen ih.whileTransporting

theorem execXferDma_rows : MovesSeq (RowsOf c Phase.isDma) (execXferDma c) := fun s =>
  .withTransfer (.refl s) fun _ _ _ _ _ => subTransfers_rows _ s

end

/-! ### All instructions -/

/-- The instruction moves the sequencer of every controller that stands before and after it as R186's table says. -/
def SeqFollows (i : Instr) (o : Out) (s : State) : Prop :=
  Ends (fun u => ∀ d x y, s.ctrlAt d = some x → u.ctrlAt d = some y → x.seq.Follows d i y.seq) o

theorem SeqFollows.of_moves {i : Instr} {R : Byte → Seq → Seq → Prop} {f : State → Out} (hf : MovesSeq R f)
    (hR : ∀ d q q', R d q q' → q.Follows d i q') (s : State) : SeqFollows i (f s) s := by
  refine (hf s).mono fun u h d x y hx hy => ?_
  obtain ⟨z, hz, hm⟩ := h d x hx
  cases hy.symm.trans hz
  exact hm.elim .of_at (hR d _ _)

theorem SeqFollows.of_leaves {i : Instr} {f : State → Out} (hf : LeavesSeq f) (s : State) : SeqFollows i (f s) s :=
  .of_moves hf (fun _ _ _ => False.elim) s

theorem SeqFollows.of_row {i : Instr} {f : State → Out} (hf : MovesSeq (RowOf i) f) (s : State) :
    SeqFollows i (f s) s := .of_moves hf (fun _ _ _ h => h.follows) s

/-- DESTROY ends a controller and leaves the others (R211). -/
theorem execDestroy_seqFollows (f : PacketForm) (c : Byte) (s : State) :
    SeqFollows (.destroy f c) (execDestroy f c s) s := by
  have still (u : State) (h : u.ctrl = s.ctrl) (d : Byte) (x y : Ctrl) (hx : s.ctrlAt d = some x)
      (hy : u.ctrlAt d = some y) : x.seq.Follows d (.destroy f c) y.seq := by
    cases hx.symm.trans ((State.ctrlAt_congr h d).symm.trans hy)
    exact .of_at ⟨rfl, rfl⟩
  refine .checkForm (fun _ _ => still _ rfl) fun _ => .withHandle (still _ rfl) fun z _ => .ite
    (fun _ => .next (still _ rfl)) fun _ => .next fun d x y hx hy => ?_
  rw [(s.destroyDone_spec c z).1] at hy
  split at hy
  · cases hy
  · cases hx.symm.trans hy
    exact .of_at ⟨rfl, rfl⟩

theorem exec_seqFollows (i : Instr) (s : State) : SeqFollows i (exec i s) s := by
  cases i with
  | new f c a => exact .of_leaves (execNew_leavesSeq f a) s
  | destroy f c => exact execDestroy_seqFollows f c s
  | bind f c k a => exact .of_leaves (execBind_leavesSeq f k a) s
  | submit f c k ts => exact .of_leaves (execSubmit_leavesSeq f k ts) s
  | onSuspend f c => exact .of_leaves (execOnSuspend_leavesSeq f) s
  | onResume f c => exact .of_leaves (execOnResume_leavesSeq f) s
  | onIdle f c => exact .of_leaves (execOnIdle_leavesSeq f) s
  | onActive f c => exact .of_leaves (execOnActive_leavesSeq f) s
  | flush f c => exact .of_leaves (execFlush_leavesSeq f) s
  | seqStart c pick => exact .of_row (execSeqStart_row pick) s
  | seqConfigDevice c => exact .of_row execSeqConfigDevice_row s
  | seqSelectCs c => exact .of_row execSeqSelectCs_row s
  | seqConfiguring c => exact .of_row execSeqConfiguring_row s
  | pArm c => exact .of_row execPArm_row s
  | pPoll c => exact .of_row execPPoll_row s
  | pDrain c => exact .of_row execPDrain_row s
  | dMap c => exact .of_row execDMap_row s
  | dArm c => exact .of_row execDArm_row s
  | dWait c => exact .of_row execDWait_row s
  | dTxdrain c => exact .of_row execDTxdrain_row s
  | seqPostDelay c => exact .of_row execSeqPostDelay_row s
  | seqAdvance c => exact .of_row execSeqAdvance_row s
  | seqComplete c => exact .of_row execSeqComplete_row s
  | seqFail c => exact .of_row execSeqFail_row s
  | configure c sp m w => exact .of_leaves (execConfigure_leavesSeq sp m w) s
  | csAssert c k => exact .of_leaves (execCsAssert_leavesSeq k) s
  | csDeassert c => exact .of_leaves execCsDeassert_leavesSeq s
  | errAck c => exact .of_leaves execErrAck_leavesSeq s
  | flushOp c => exact .of_leaves execFlushOp_leavesSeq s
  | hwInit c => exact .of_leaves execHwInit_leavesSeq s
  | dmaAbort c => exact .of_leaves execDmaAbort_leavesSeq s
  | xferPoll c => exact .of_moves execXferPoll_rows (fun _ _ _ h => h.1 ▸ h.2.follows_xferPoll) s
  | xferDma c => exact .of_moves execXferDma_rows (fun _ _ _ h => h.1 ▸ h.2.follows_xferDma) s
  | shLoad c => exact .of_leaves execShLoad_leavesSeq s
  | shDone c => exact .of_leaves execShDone_leavesSeq s
  | dmaTxBeat k => exact .of_leaves (execDmaTxBeat_leavesSeq k) s
  | dmaRxBeat k => exact .of_leaves (execDmaRxBeat_leavesSeq k) s
  | dmaTxDone k => exact .of_leaves (execDmaTxDone_leavesSeq k) s
  | dmaRxDone k => exact .of_leaves (execDmaRxDone_leavesSeq k) s
  | errIrq c => exact .of_leaves execErrIrq_leavesSeq s
  | errInject c m => exact .of_leaves (execErrInject_leavesSeq m) s
  | powerLoss c => exact .of_leaves execPowerLoss_leavesSeq s
  | tick d => exact .of_leaves (execTick_leavesSeq d) s
  | acqAttempt c => exact .of_leaves execAcqAttempt_leavesSeq s
  | suspendFinish c => exact .of_leaves execSuspendFinish_leavesSeq s

/-! ### The power state (R213) -/

/-- The power state of controller `c` changes by the instruction as R213 admits. -/
structure PState.Follows (c : Byte) (i : Instr) (p p' : PState) : Prop where
  moves : p.mayBecome p' = true
  acquires : p = .idle → p' = .active → i = .acqAttempt c
  idles : p = .active → p' = .idle → i = .onIdle .exact c
  suspends : p ≠ .suspended → p' = .suspended → i = .suspendFinish c
  resumes : p = .suspended → p' ≠ .suspended → i = .onResume .exact c

section
variable {c : Byte} {i : Instr} {s u : State} {x y : Ctrl}

theorem PState.Follows.refl (p : PState) : p.Follows c i p where
  moves := by cases p <;> rfl
  acquires h h' := nomatch h.symm.trans h'
  idles h h' := nomatch h.symm.trans h'
  suspends h h' := absurd h' h
  resumes h h' := absurd h h'

theorem View.PowerMove.follows {v w : View} (h : View.PowerMove i v w) :
    v.c.pstate.Follows v.key i w.c.pstate := by
  cases h with
  | acquire _ h hf =>
    simp only [Ctrl.acqEnabled, Ctrl.activating, Bool.and_eq_true, decide_eq_true_eq] at h
    rw [h.1.1.1.1]
    exact ⟨rfl, fun _ _ => rfl, nofun, nofun, nofun⟩
  | idle _ hp hq hs =>
    rw [hp]
    exact ⟨rfl, nofun, fun _ _ => rfl, nofun, nofun⟩
  | suspend _ h =>
    rw [View.suspendFinish_c]
    exact ⟨by cases v.c.pstate <;> rfl, nofun, nofun, fun _ _ => rfl, fun _ e => absurd rfl e⟩
  | resume _ h =>
    rw [h, View.resume_c]
    exact ⟨rfl, nofun, nofun, fun e => absurd rfl e, fun _ _ => rfl⟩

theorem exec_pstateFollows (h : exec i s = .next u) (hx : s.ctrlAt c = some x) (hy : u.ctrlAt c = some y) :
    x.pstate.Follows c i y.pstate := by
  rcases (exec_effect i s u h).unit hx hy with hu | ⟨w, hw, rfl⟩
  · rw [hu.2.pstate]
    exact .refl _
  · exact hw.follows

end

end Sys2Proof.Machine

open Sys2Proof Sys2Proof.Machine

/-- Settles O54: every instruction moves a sequencer by its own rows of R186's table or not at all, and a power state
changes only by the `PowerMove` that R213 names. -/
theorem transitionsFollowTables : Obligations.TransitionsFollowTables := by
  unfold Obligations.TransitionsFollowTables
  intro i s u c x y h hx hy
  obtain ⟨row, state, stays, leaves, enters⟩ := exec_seqFollows i s u h c x y hx hy
  obtain ⟨moves, acquires, idles, suspends, resumes⟩ := exec_pstateFollows h hx hy
  exact ⟨row, state, stays, leaves, enters, moves, acquires, idles, suspends, resumes⟩
end

section
/-! PROOFS. SUBMIT (R170, R171, R172, R220): its checks in their order, the first of which that fails answers it, and
the state of an accepted one. -/

namespace Sys2Proof.Machine

/-! ### The checks of one Transfer (R171) -/

theorem rangesOk_iff (t : Transfer) : rangesOk t = true ↔
    (t.txPresent = true → t.tx.toNat + t.len.toNat ≤ 2 ^ 32 ∧
      (t.premapped = true → t.txDma.toNat + t.len.toNat ≤ 2 ^ 32)) ∧
    (t.rxPresent = true → t.rx.toNat + t.len.toNat ≤ 2 ^ 32 ∧
      (t.premapped = true → t.rxDma.toNat + t.len.toNat ≤ 2 ^ 32)) := by
  unfold rangesOk rangeOk Config.addrSpace
  cases t.txPresent <;> cases t.rxPresent <;> cases t.premapped <;> simp

section
variable {src : Word} {y : Binding} {i : Nat} {t : Transfer}

theorem checkTransfer_noBuffer (h : ¬ (t.txPresent || t.rxPresent) = true) :
    checkTransfer src y i t = some (.malformed, 6) := if_pos (by simpa using h)

section
variable (hbuf : (t.txPresent || t.rxPresent) = true)
include hbuf

theorem checkTransfer_range (h : rangesOk t = false) : checkTransfer src y i t = some (.malformed, 7) := by
  simp [checkTransfer, hbuf, h]

variable (hrange : rangesOk t = true)
include hrange

theorem checkTransfer_width (h : widthOk (effWidth t y) = false) :
    checkTransfer src y i t = some (.unsupportedWidth, i) := by
  simp [checkTransfer, hbuf, hrange, h]

variable (hwidth : widthOk (effWidth t y) = true)
include hwidth

theorem checkTransfer_length (h : t.len.toNat % ((effWidth t y).toNat / 8) ≠ 0) :
    checkTransfer src y i t = some (.lengthNotWordAligned, i) := by
  simp [checkTransfer, hbuf, hrange, hwidth, h]

theorem checkTransfer_rate (hlen : t.len.toNat % ((effWidth t y).toNat / 8) = 0)
    (h : rate src.toNat (effSpeed t y).toNat = none) : checkTransfer src y i t = some (.unachievableRate, i) := by
  simp [checkTransfer, hbuf, hrange, hwidth, hlen, h]

end

end

/-- The first Transfer that fails a check decides (R171). -/
theorem prevalidate_first {src : Word} {y : Binding} {n i : Nat} {ts : List Transfer} {t : Transfer}
    {e : ErrKind × Nat} (ht : ts[i]? = some t)
    (hbefore : ∀ j u, j < i → ts[j]? = some u → checkTransfer src y (n + j) u = none)
    (he : checkTransfer src y (n + i) t = some e) : prevalidate src y n ts = some e := by
  induction ts generalizing n i with
  | nil => simp at ht
  | cons u us ih =>
    cases i with
    | zero =>
      simp only [List.getElem?_cons_zero, Option.some.injEq] at ht
      subst ht
      simp only [prevalidate, show checkTransfer src y n u = some e from he]
    | succ i =>
      have head : checkTransfer src y n u = none := hbefore 0 u (Nat.succ_pos i) rfl
      simp only [prevalidate, head]
      refine ih ht (fun j w hj hw => ?_) ?_
      · rw [Nat.add_assoc, Nat.add_comm 1 j]
        exact hbefore (j + 1) w (Nat.succ_lt_succ hj) hw
      · rw [Nat.add_assoc, Nat.add_comm 1 i]
        exact he

/-! ### The answers -/

section
variable {s : State} {c b : Byte} {ts : List Transfer} (hts : ts ≠ [])
include hts

theorem execSubmit_absent (hx : s.ctrlAt c = none) :
    exec (.submit .exact c b ts) s = s.rejectSubmit .badHandle 0 ts.length := by
  simp [exec, execSubmit, hts, hx]

variable {x : Ctrl} (hx : s.ctrlAt c = some x)
include hx

theorem execSubmit_unbound (hb : x.bindAt b = none) :
    exec (.submit .exact c b ts) s = s.rejectSubmit .badHandle 0 ts.length := by
  simp [exec, execSubmit, hts, hx, hb]

variable {y : Binding} (hb : x.bindAt b = some y)
include hb

theorem execSubmit_refused {k : ErrKind} {info : Nat} (h : prevalidate x.srcClk y 0 ts = some (k, info)) :
    exec (.submit .exact c b ts) s = s.rejectSubmit k info ts.length := by
  simp [exec, execSubmit, hts, hx, hb, h]

theorem execSubmit_suspended (h : prevalidate x.srcClk y 0 ts = none) (hs : x.suspended = true) :
    exec (.submit .exact c b ts) s = s.rejectSubmit .channelUnavailable 2 ts.length := by
  simp [exec, execSubmit, hts, hx, hb, h, hs]

theorem execSubmit_accepted (h : prevalidate x.srcClk y 0 ts = none) (hs : x.suspended = false) :
    exec (.submit .exact c b ts) s = .next (s.acceptSubmit c b x ts) := by
  simp [exec, execSubmit, hts, hx, hb, h, hs]

end

/-! ### Acceptance (R170, R220) -/

theorem Ctrl.startActivation_resting {x : Ctrl} {now : Nat} (hw : x.waitq = []) (ha : x.actWait = false) :
    x.startActivation now = { x with acqK := 0, acqNext := now } := if_pos (by simp [hw, ha])

theorem Ctrl.startActivation_waiting {x : Ctrl} {now : Nat} (h : ¬ (x.waitq = [] ∧ x.actWait = false)) :
    x.startActivation now = x := if_neg (by simpa using h)

theorem State.acceptSubmit_starts {s : State} {c b : Byte} {x : Ctrl} {ts : List Transfer} (hp : x.pstate = .idle)
    (hw : x.waitq = []) (ha : x.actWait = false) : s.acceptSubmit c b x ts = { s.setCtrl c { x with
      waitq := [⟨s.nextTag, b, ts⟩], acqK := 0, acqNext := s.now } with nextTag := s.nextTag + 1 } := by
  unfold State.acceptSubmit
  rw [if_pos hp, Ctrl.startActivation_resting hw ha]
  dsimp only
  rw [hw, List.nil_append]

theorem State.acceptSubmit_joins {s : State} {c b : Byte} {x : Ctrl} {ts : List Transfer}
    (h : ¬ (x.pstate = .idle ∧ x.waitq = [] ∧ x.actWait = false)) : s.acceptSubmit c b x ts = { s.setCtrl c { x with
      waitq := x.waitq ++ [⟨s.nextTag, b, ts⟩] } with nextTag := s.nextTag + 1 } := by
  have same : (if x.pstate = .idle then x.startActivation s.now else x) = x := by
    split
    · next hp => exact Ctrl.startActivation_waiting fun e => h ⟨hp, e⟩
    · rfl
  unfold State.acceptSubmit
  rw [same]

end Sys2Proof.Machine

open Sys2Proof Sys2Proof.Machine

/-- Settles O30: an accepted SUBMIT is one update of the controller, which an activation precedes exactly from IDLE with
nothing waiting. -/
theorem submitQueuesMessage : Obligations.SubmitQueuesMessage := by
  unfold Obligations.SubmitQueuesMessage
  intro s c b x y ts hx hb hts hok hs
  have run := execSubmit_accepted hts hx hb hok hs
  refine ⟨fun ⟨hp, hw, ha⟩ => ?_, fun h => ?_⟩
  · rw [run, State.acceptSubmit_starts hp hw ha]
  · rw [run, State.acceptSubmit_joins h]

/-- Settles O31: the first check that fails of the first Transfer that fails one is the answer; each answer is the
status word, a zero, and a zero for each Transfer. -/
theorem submitRefusesInOrder : Obligations.SubmitRefusesInOrder := by
  unfold Obligations.SubmitRefusesInOrder
  intro s c b ts hts refuse
  refine ⟨execSubmit_absent hts, fun x hx => ⟨execSubmit_unbound hts hx, fun y hy =>
    ⟨execSubmit_suspended hts hx hy, fun i t ht hbefore => ?_⟩⟩⟩
  have first {k : ErrKind} {info : Nat} (h : checkTransfer x.srcClk y i t = some (k, info)) :
      refuse (statusWord k info) := by
    refine execSubmit_refused hts hx hy (prevalidate_first ht (fun j u hj hu => ?_) ?_)
    · rw [Nat.zero_add]
      exact hbefore j u hj hu
    · rw [Nat.zero_add]
      exact h
  dsimp only
  rw [← Bool.or_eq_true, ← rangesOk_iff, ← widthOk_iff]
  exact ⟨fun h1 => first (checkTransfer_noBuffer h1),
    fun h1 h2 => first (checkTransfer_range h1 (Bool.eq_false_iff.mpr h2)),
    fun h1 h2 h3 => first (checkTransfer_width h1 h2 (Bool.eq_false_iff.mpr h3)),
    fun h1 h2 h3 h4 => first (checkTransfer_length h1 h2 h3 h4),
    fun h1 h2 h3 h4 h5 => first (checkTransfer_rate h1 h2 h3 h4 h5)⟩
end

section
/-! PROOFS. The sequencer outside the transports and the failure path (R173 to R177, R180 to R184): what an enabled step
works on, each select operation by the place where the select is driven, and the choice of transport. -/

namespace Sys2Proof.Machine

/-! ### What an enabled step works on -/

theorem Ctrl.startEnabled_iff (x : Ctrl) : x.startEnabled = true ↔
    x.seq.state = .idle ∧ x.waitq ≠ [] ∧ x.pstate = .active ∧ x.suspended = false := by
  simp [Ctrl.startEnabled, and_assoc]

section
variable {s : State} {c : Byte} {x : Ctrl} {q : SeqState} (hx : s.ctrlAt c = some x)
include hx

/-- Work on the Message's binding, in the step's own state. -/
theorem State.withBinding_inState {y : Binding} (k : View → Binding → Out) (hs : x.seq.state = q)
    (hy : x.bindAt x.seq.b = some y) : s.withBinding c (fun z => z.inState q) k = k ⟨s, c, x⟩ y := by
  simp [State.withBinding, State.withCtrl, View.binding, hx, hs, hy]

/-- Work on the Transfer in hand, in the step's own state. -/
theorem State.withTransfer_inState {t : Transfer} (k : View → Transfer → Out) (hs : x.seq.state = q)
    (ht : x.transfer = some t) : s.withTransfer c (fun z => z.inState q) k = k ⟨s, c, x⟩ t :=
  State.withTransfer_some s c x t _ k hx ((x.inState_iff q).mpr hs) ht

/-- Work for the caller of the Message in service, in the step's own state. -/
theorem State.withOwner_inState {tag : Nat} (k : View → Nat → Out) (hs : x.seq.state = q)
    (ho : x.owner = some tag) : s.withOwner c (fun z => z.inState q) k = k ⟨s, c, x⟩ tag := by
  simp [State.withOwner, State.withCtrl, hx, hs, ho]

/-! ### SEQ_START (R173) -/

theorem execSeqStart_takes {i : Nat} {w : Waiter} (he : x.startEnabled = true) (hw : x.waitq[i]? = some w) :
    exec (.seqStart c i) s = .next (View.seqStart ⟨s, c, x⟩ i w).commit := by
  rw [exec, execSeqStart, State.withCtrl_some s c x _ hx, if_pos he]
  dsimp only
  rw [hw]

theorem execSeqStart_disabled {i : Nat} (he : ¬ x.startEnabled = true) : exec (.seqStart c i) s = .next s := by
  rw [exec, execSeqStart, State.withCtrl_some s c x _ hx, if_neg he]

theorem execSeqStart_noWaiter {i : Nat} (h : x.waitq.length ≤ i) : exec (.seqStart c i) s = .next s := by
  rw [exec, execSeqStart, State.withCtrl_some s c x _ hx]
  dsimp only
  rw [List.getElem?_eq_none h, ite_self]

end

/-! ### The select (R116, R117, R120, R121) -/

section
variable (v : View) {b : Byte} {y : Binding}

theorem bindingSite_register (h : y.csMode = .auto ∨ y.line = none) :
    bindingSite y = if y.csMode = .auto then .autoNative else .native := by
  split
  · next hm => exact bindingSite_autoNative hm
  · next hm =>
    have manual : y.csMode = .manual := by cases hc : y.csMode <;> simp_all
    exact bindingSite_native manual (h.resolve_left hm)

/-- Both register forms write `CS_REG` whole: automatic select and idle hold in the automatic mode only. -/
theorem View.assertBinding_register (h : y.csMode = .auto ∨ y.line = none) : v.assertBinding b y =
    { v with st := v.st.pushBus (.csAssert v.c.id b (bindingSite y))
             c := { v.c with csHolder := some b, hw := v.c.hw.putCsReg ⟨false, decide (y.csMode = .auto),
               decide (y.csMode = .auto) && y.idleHold, y.activeLevel⟩ } } := by
  cases hm : y.csMode with
  | auto =>
    rw [v.assertBinding_autoNative b (bindingSite_autoNative hm), bindingSite_autoNative hm]
    rfl
  | manual =>
    have site := bindingSite_native hm (h.resolve_left (by simp [hm]))
    rw [v.assertBinding_native b site, site]
    rfl

theorem View.csDeassert_free (h : v.c.csHolder = none) : v.csDeassert = v := by
  rw [View.csDeassert, h]

theorem View.deassertClocked_free (k : View → Out) (h : v.c.csHolder = none) : v.deassertClocked k = k v := by
  rw [View.deassertClocked, v.csDeassert_free h, Ctrl.deassertTouchesRegister, h]
  exact if_neg (by simp)

theorem View.deselectOther_keeps (h : v.c.csHolder = none ∨ v.c.csHolder = some v.c.seq.b) : v.deselectOther = v := by
  unfold View.deselectOther
  rcases h with h | h
  · rw [h]
  · rw [h]
    exact if_pos rfl

theorem View.deselectOther_releases (hh : v.c.csHolder = some b) (hne : b ≠ v.c.seq.b) (hb : v.c.bindAt b = some y) :
    v.deselectOther = v.deassertBinding b y := by
  rw [View.deselectOther, hh, ← v.csDeassert_bound hh hb]
  exact if_neg hne

end

section
variable {s : State} {c : Byte} {x : Ctrl} {y : Binding} (hx : s.ctrlAt c = some x)
  (hy : x.bindAt x.seq.b = some y)
include hx hy

theorem execSeqConfigDevice_enabled (hs : x.seq.state = .configuringDevice) (hclk : x.clkOn = true) :
    exec (.seqConfigDevice c) s = .next (View.configDevice ⟨s, c, x⟩ y).commit := by
  rw [exec, execSeqConfigDevice, State.withBinding_inState hx _ hs hy, View.clocked_on _ _ hclk]

theorem execSeqSelectCs_held (hs : x.seq.state = .selectCs) (hh : x.csHolder = some x.seq.b) :
    exec (.seqSelectCs c) s = .next (View.selected ⟨s, c, x⟩).commit := by
  rw [exec, execSeqSelectCs, State.withBinding_inState hx _ hs hy, if_pos hh]

theorem execSeqSelectCs_free (hs : x.seq.state = .selectCs) (hh : x.csHolder = none) (hclk : x.clkOn = true) :
    exec (.seqSelectCs c) s = .next (View.assertBinding ⟨s, c, x⟩ x.seq.b y).selected.commit := by
  rw [exec, execSeqSelectCs, State.withBinding_inState hx _ hs hy, if_neg (by simp [hh]), View.clocked_on _ _ hclk,
    View.csAssert_bound _ _ hy]

/-! ### SEQ_CONFIGURING (R104, R105, R176, R177) -/

theorem execSeqConfiguring_enabled {t : Transfer} (hs : x.seq.state = .configuring) (ht : x.transfer = some t) :
    exec (.seqConfiguring c) s = View.seqConfiguring ⟨s, c, x⟩ t y := by
  rw [exec, execSeqConfiguring, State.withBinding_inState hx _ hs hy]
  dsimp only
  rw [ht]

end

theorem needConfig_iff (x : Ctrl) (sp : Word) (m : SpiMode) (w : BitVec 6) : needConfig x sp m w = true ↔
    ¬ (x.cfgValid = true ∧ sp = x.curSpeed ∧ m = x.curMode ∧ w = x.curWidth) := by
  simp only [needConfig, Bool.or_eq_true, Bool.not_eq_true', decide_eq_true_eq, not_and_or, Bool.not_eq_true,
    or_assoc, ne_eq]

theorem View.configure_unachievable (v : View) {sp : Word} {m : SpiMode} {w : BitVec 6} (hw : widthOk w = true)
    (hr : rate v.c.srcClk.toNat sp.toNat = none) : v.configure sp m w = .error .unachievableRate := by
  simp [View.configure, hw, hr]

/-- The transport is chosen from the Transfer's whole length (R177). -/
theorem View.configured_eq (v : View) (t : Transfer) : v.configured t = v.onSeq fun q => { q with
    msg := q.msg.set q.xi { t with speed := v.c.curSpeed }
    ncfg := q.xi + 1
    transport := if t.len.toNat = 0 then .none else if t.len.toNat ≤ v.c.half then .poll else .dma
    phase := if t.len.toNat = 0 then .none else if t.len.toNat ≤ v.c.half then .pArm else .dMap
    state := if t.len.toNat = 0 then .postDelay else .transporting
    delayUntil := if t.len.toNat = 0 then v.st.now + t.delayUsecs.toNat else q.delayUntil } := by
  unfold View.configured transportOf
  by_cases h0 : t.len.toNat = 0
  · simp only [h0, if_true]
    rfl
  · by_cases hhalf : t.len.toNat ≤ v.c.half
    · simp only [h0, hhalf, if_true, if_false]
      rfl
    · simp only [h0, hhalf, if_false]
      rfl

section
variable {v : View} {t : Transfer} {y : Binding}

theorem View.seqConfiguring_same (h : needConfig v.c (effSpeed t y) y.mode (effWidth t y) = false) :
    v.seqConfiguring t y = .next (v.configured t).commit := if_neg (by simp [h])

section
variable (h : needConfig v.c (effSpeed t y) y.mode (effWidth t y) = true)
include h

theorem View.seqConfiguring_programs {u : View} (hclk : v.c.clkOn = true)
    (hu : v.configure (effSpeed t y) y.mode (effWidth t y) = .ok u) :
    v.seqConfiguring t y = .next (u.configured t).commit := by
  rw [View.seqConfiguring, if_pos h, hu]
  exact View.clocked_on _ _ hclk

theorem View.seqConfiguring_raises {k : ErrKind} (hk : v.configure (effSpeed t y) y.mode (effWidth t y) = .error k) :
    v.seqConfiguring t y = .next (v.fail k 0).commit := by
  rw [View.seqConfiguring, if_pos h, hk]

end

end

/-! ### SEQ_POST_DELAY and SEQ_ADVANCE (R180, R181) -/

section
variable {s : State} {c : Byte} {x : Ctrl} {t : Transfer} (hx : s.ctrlAt c = some x)
include hx

theorem execSeqPostDelay_early (h : s.now < x.seq.delayUntil) : exec (.seqPostDelay c) s = .next s := by
  rw [exec, execSeqPostDelay, State.withTransfer_disabled hx (by simp [h])]

variable (ht : x.transfer = some t)
include ht

theorem execSeqPostDelay_counts (hs : x.seq.state = .postDelay) (h : x.seq.delayUntil ≤ s.now) :
    exec (.seqPostDelay c) s =
      .next ((View.accumulate ⟨s, c, x⟩ t).onSeq fun q => { q with state := .deselectCs }).commit := by
  rw [exec, execSeqPostDelay, State.withTransfer_some s c x t _ _ hx (by simp [hs, h]) ht]

theorem execSeqAdvance_enabled (hs : x.seq.state = .deselectCs) :
    exec (.seqAdvance c) s = View.seqAdvance ⟨s, c, x⟩ t :=
  State.withTransfer_inState hx _ hs ht

end

section
variable {v : View} {t : Transfer}

theorem View.accumulate_fits (h : v.c.seq.actual.toNat + t.len.toNat < 2 ^ 32) :
    v.accumulate t = v.onSeq fun q => { q with actual := q.actual + t.len } := if_pos h

theorem View.accumulate_overflows (h : 2 ^ 32 ≤ v.c.seq.actual.toNat + t.len.toNat) : v.accumulate t =
    { v.onSeq (fun q => { q with actual := Config.freeWord v.st.draws }) with st := v.st.drew 1 } :=
  if_neg (Nat.not_lt.mpr h)

section
variable (more : v.c.seq.xi + 1 < v.c.seq.msg.length)
include more

theorem View.seqAdvance_moreKeeps (h : t.csChange = false) : v.seqAdvance t = .next v.nextTransfer.commit := by
  rw [View.seqAdvance, if_pos more, if_neg (by simp [h])]

theorem View.seqAdvance_moreReleases (h : t.csChange = true) :
    v.seqAdvance t = v.deassertClocked fun w => .next w.nextTransfer.commit := by
  rw [View.seqAdvance, if_pos more, if_pos h]

end

section
variable (last : ¬ v.c.seq.xi + 1 < v.c.seq.msg.length)
include last

theorem View.seqAdvance_lastKeeps (h : t.csChange = true) :
    v.seqAdvance t = .next (v.onSeq fun q => { q with toggle := true, state := .completed }).commit := by
  rw [View.seqAdvance, if_neg last, if_pos h]

theorem View.seqAdvance_lastReleases (h : t.csChange = false) :
    v.seqAdvance t = v.deassertClocked fun w => .next (w.onSeq fun q => { q with state := .completed }).commit := by
  rw [View.seqAdvance, if_neg last, if_neg (by simp [h])]

end

end

end Sys2Proof.Machine

open Sys2Proof Sys2Proof.Machine

/-- Settles O32: an enabled SEQ_START is one update of the controller for whichever entry is picked. -/
theorem seqStartTakesAnyWaiter : Obligations.SeqStartTakesAnyWaiter := by
  unfold Obligations.SeqStartTakesAnyWaiter
  refine fun s c x pick hx => ⟨fun w hs hp hn hw => ?_, fun h => ?_⟩
  · have nonempty : x.waitq ≠ [] := fun e => by simp [e] at hw
    exact execSeqStart_takes hx (x.startEnabled_iff.mpr ⟨hs, nonempty, hp, hn⟩) hw
  · by_cases hlen : x.waitq.length ≤ pick
    · exact execSeqStart_noWaiter hx hlen
    · refine execSeqStart_disabled hx fun he => ?_
      obtain ⟨hs, -, hp, hn⟩ := x.startEnabled_iff.mp he
      simp [hs, hp, hn, hlen] at h

/-- Settles O33: another binding's select is released by the place where it is driven; `FB_CLK` is then written. -/
theorem seqConfigDeviceFreesOther : Obligations.SeqConfigDeviceFreesOther := by
  unfold Obligations.SeqConfigDeviceFreesOther
  intro s c x y hx hs hy hclk
  have run := execSeqConfigDevice_enabled hx hy hs hclk
  unfold View.configDevice at run
  refine ⟨fun hh => ?_, fun h z hh hne hz => ?_⟩
  · rw [run, View.deselectOther_keeps _ hh]
    rfl
  · rw [run, View.deselectOther_releases _ hh hne hz]
    refine ⟨fun l hm hl => ?_, fun hr => ?_⟩
    · rw [View.deassertBinding_line _ (bindingSite_line hm hl)]
      rfl
    · rw [View.deassertBinding_register _ hr, bindingSite_register hr]
      rfl

/-- Settles O34: a select held already is kept; a free one is asserted by the place where it is driven. -/
theorem seqSelectCsSkipsHeldSelect : Obligations.SeqSelectCsSkipsHeldSelect := by
  unfold Obligations.SeqSelectCsSkipsHeldSelect
  refine fun s c x y hx hs hy => ⟨execSeqSelectCs_held hx hy hs, fun hh hclk => ?_⟩
  rw [execSeqSelectCs_free hx hy hs hh hclk]
  refine ⟨fun l hm hl => ?_, fun hr => ?_⟩
  · rw [View.assertBinding_line _ _ (bindingSite_line hm hl)]
    rfl
  · rw [View.assertBinding_register _ hr, bindingSite_register hr]
    rfl

/-- Settles O35: CONFIGURE runs exactly on a difference, and the transport is chosen after it. -/
theorem seqConfiguringChoosesTransport : Obligations.SeqConfiguringChoosesTransport := by
  unfold Obligations.SeqConfiguringChoosesTransport
  intro s c x t y hx hs ht hy
  rw [execSeqConfiguring_enabled hx hy hs ht]
  intro sp w same after
  have differs : needConfig x sp y.mode w = true ↔ ¬ same := needConfig_iff x sp y.mode w
  refine ⟨fun heq => ?_, fun hne hw hclk d a hr => ?_, fun hne hw hr => ?_⟩
  · rw [View.seqConfiguring_same (Bool.eq_false_iff.mpr fun h => differs.mp h heq), View.configured_eq]
    rfl
  · rw [View.seqConfiguring_programs (differs.mpr hne) hclk
      (View.configure_eq_ok ⟨s, c, x⟩ ((widthOk_iff w).mpr hw) hr), View.configured_eq, Hw.configure_eq]
    rfl
  · rw [View.seqConfiguring_raises (differs.mpr hne)
      (View.configure_unachievable ⟨s, c, x⟩ ((widthOk_iff w).mpr hw) hr), View.fail_zero]
    rfl

/-- Settles O36: the step is enabled at `delay_until`; a sum past 32 bits is a draw. -/
theorem seqPostDelayCountsBytes : Obligations.SeqPostDelayCountsBytes := by
  unfold Obligations.SeqPostDelayCountsBytes
  refine fun s c x t hx hs ht => ⟨execSeqPostDelay_early hx, fun hd hfit => ?_, fun hd hover => ?_⟩
  · rw [execSeqPostDelay_counts hx ht hs hd, View.accumulate_fits hfit]
    rfl
  · rw [execSeqPostDelay_counts hx ht hs hd, View.accumulate_overflows hover]
    exact ⟨_, rfl⟩

/-- Settles O37: of the four cases of SEQ_ADVANCE two keep the select, and two release it by one argument. -/
theorem seqAdvanceLoopsOrEnds : Obligations.SeqAdvanceLoopsOrEnds := by
  unfold Obligations.SeqAdvanceLoopsOrEnds
  intro s c x t hx hs ht more on finish keeps releases
  have run := execSeqAdvance_enabled hx ht hs
  have release {f : Seq → Seq}
      (h : exec (.seqAdvance c) s = View.deassertClocked ⟨s, c, x⟩ fun w => .next (w.onSeq f).commit) :
      releases f := by
    dsimp only [releases, keeps]
    rw [h]
    refine ⟨fun hh => ?_, fun b y hh hb => ⟨fun l hm hl => ?_, fun hr hclk => ?_⟩⟩
    · rw [View.deassertClocked_free _ _ hh]
      rfl
    · rw [View.deassertClocked_line _ hh hb _ hm hl, View.deassertBinding_line _ (bindingSite_line hm hl)]
      rfl
    · rw [View.deassertClocked_register _ hh hb _ hr, View.clocked_on _ _ hclk, View.deassertBinding_register _ hr,
        bindingSite_register hr]
      rfl
  exact ⟨fun hm hk => run.trans (View.seqAdvance_moreKeeps hm hk),
    fun hm hk => release (run.trans (View.seqAdvance_moreReleases hm hk)),
    fun hm hk => run.trans (View.seqAdvance_lastKeeps hm hk),
    fun hm hk => release (run.trans (View.seqAdvance_lastReleases hm hk))⟩

/-- Settles O38: the response is `Seq.successWords`, whose status word is 0. -/
theorem seqCompleteAnswersCaller : Obligations.SeqCompleteAnswersCaller := by
  unfold Obligations.SeqCompleteAnswersCaller
  intro s c x tag hx hs ho
  rw [exec, execSeqComplete, State.withOwner_inState hx _ hs ho]
  rfl
end

section
/-! PROOFS. SEQ_FAIL (R183, R244): the recovery up to the select's release, the release by the place where the select is
driven, and the whole state after the flush and the answer. -/

namespace Sys2Proof.Machine

/-- The recovery before the select is released: status looked at, channels unarmed, owed mappings released (R183). -/
def View.unwound (v : View) : View := v.checkStatus.dmaAbort.unmapOwed

theorem View.recover_eq (v : View) : v.recover = v.unwound.csDeassert.flushOp := rfl

theorem View.unwound_key (v : View) : v.unwound.key = v.key := by
  rw [View.unwound, View.unmapOwed_key, View.dmaAbort_key, View.checkStatus_key]

theorem View.unwound_eq (v : View) : v.unwound = { v with
    st := { v.st with
      errLog := v.c.logged v.st, chan := v.unwound.st.chan, maps := v.c.released v.st.maps }
    c := { v.c with
      errLatch := v.c.seen, rxBusy := false, txBusy := false, dmaDone := false, seq := v.c.seq.unmapped
      hw := { v.c.hw with sticky := Conds.empty, pendingClr := v.unwound.c.hw.pendingClr } } } := by
  have aborted : v.checkStatus.dmaAbort = { v.checkStatus with
      st := { v.checkStatus.st with chan := v.checkStatus.dmaAbort.st.chan }
      c := { v.checkStatus.c with rxBusy := false, txBusy := false, dmaDone := false } } := by
    rw [← View.dmaAbort_st, ← View.dmaAbort_c]
    rfl
  unfold View.unwound
  rw [View.unmapOwed_eq, aborted, View.checkStatus_eq]
  rfl

theorem View.chanAt_unwound (v : View) (k : Byte) : v.unwound.st.chanAt k =
    if (k = v.c.dmaRx ∨ k = v.c.dmaTx) ∧ (v.st.chanAt k).lessee = some v.c.id then
      { v.st.chanAt k with armed := false, rem := 0, notify := false }
    else v.st.chanAt k := by
  have abort := v.checkStatus.chanAt_dmaAbort k
  rw [View.checkStatus_st, View.checkStatus_c] at abort
  rw [View.unwound, View.unmapOwed_st]
  exact abort

theorem View.unwound_csDeassert_st (v : View) : v.unwound.csDeassert.st = { v.st with
    errLog := v.c.logged v.st, chan := v.unwound.st.chan, maps := v.c.released v.st.maps
    csLine := v.unwound.csDeassert.st.csLine, busLog := v.unwound.csDeassert.st.busLog } := by
  rw [View.csDeassert_st, View.unwound_eq]

theorem View.unwound_csDeassert_c (v : View) : v.unwound.csDeassert.c = { v.c with
    csHolder := v.unwound.csDeassert.c.csHolder
    errLatch := v.c.seen, rxBusy := false, txBusy := false, dmaDone := false, seq := v.c.seq.unmapped
    hw := { v.c.hw with
      sticky := Conds.empty, pendingClr := v.unwound.c.hw.pendingClr
      csReg := v.unwound.csDeassert.c.hw.csReg } } := by
  rw [View.csDeassert_c, View.unwound_eq]

/-- SEQ_FAIL in full, but for what the select's release writes. -/
theorem View.seqFail_eq (v : View) (tag : Nat) : v.seqFail tag = { v with
    st := { v.st with
      errLog := v.c.logged v.st, chan := v.unwound.st.chan, maps := v.c.released v.st.maps
      csLine := v.unwound.csDeassert.st.csLine, busLog := v.unwound.csDeassert.st.busLog
      outbox := v.st.outbox ++ [⟨.caller tag, v.c.seq.failureWords⟩] }
    c := { v.c with
      owner := none, lastActivity := v.st.now, csHolder := v.unwound.csDeassert.c.csHolder, cfgValid := false
      errLatch := Conds.empty, rxBusy := false, txBusy := false, dmaDone := false
      hw := { v.c.hw with
        sticky := Conds.empty, pendingClr := v.unwound.c.hw.pendingClr
        csReg := v.unwound.csDeassert.c.hw.csReg }.flush
      seq := { v.c.seq.unmapped with msgStatus := .error, toggle := false, state := .idle } } } := by
  unfold View.seqFail
  dsimp only
  rw [View.recover_eq, View.flushOp_st, View.flushOp_key, View.flushOp_c, View.csDeassert_key, View.unwound_key,
    View.unwound_csDeassert_st, View.unwound_csDeassert_c]
  rfl

/-- The speeds reported are those of the Transfers configured (R183). -/
theorem Seq.failureWords_eq (q : Seq) : q.failureWords =
    q.err :: q.actual :: q.msg.mapIdx fun i t => if i < q.ncfg then t.speed else 0 := by
  rw [Seq.failureWords, reportedSpeeds_eq]

theorem execSeqFail_enabled {s : State} {c : Byte} {x : Ctrl} {tag : Nat} (hx : s.ctrlAt c = some x)
    (hs : x.seq.state = .failed) (ho : x.owner = some tag) (hclk : x.clkOn = true) :
    exec (.seqFail c) s = .next (View.seqFail ⟨s, c, x⟩ tag).commit := by
  rw [exec, execSeqFail, State.withOwner_inState hx _ hs ho, View.clocked_on _ _ hclk]

/-! ### The select's release in the recovery -/

section
variable (v : View) {b : Byte} {y : Binding}

theorem View.unwound_csHolder : v.unwound.c.csHolder = v.c.csHolder := by rw [View.unwound_eq]

theorem View.unwound_bindAt : v.unwound.c.bindAt b = v.c.bindAt b := by
  rw [View.unwound_eq]
  rfl

theorem View.unwound_csDeassert_holder (h : ∀ b, v.c.csHolder = some b → (v.c.bindAt b).isSome = true) :
    v.unwound.csDeassert.c.csHolder = none :=
  v.unwound.csDeassert_holder fun b hb => by
    rw [View.unwound_bindAt]
    exact h b (v.unwound_csHolder ▸ hb)

theorem View.unwound_csDeassert_bound (hh : v.c.csHolder = some b) (hb : v.c.bindAt b = some y) :
    v.unwound.csDeassert = v.unwound.deassertBinding b y :=
  v.unwound.csDeassert_bound (v.unwound_csHolder.trans hh) (v.unwound_bindAt.trans hb)

end

end Sys2Proof.Machine

open Sys2Proof Sys2Proof.Machine

/-- Settles O39: the flush and the answer stand in `View.seqFail_eq`; what the select's release writes is read off by
the place where the select is driven. -/
theorem seqFailRecovers : Obligations.SeqFailRecovers := by
  unfold Obligations.SeqFailRecovers
  intro s c x tag hx hs ho hclk hbound
  have run := execSeqFail_enabled hx hs ho hclk
  have unheld := View.unwound_csDeassert_holder ⟨s, c, x⟩ hbound
  rw [View.seqFail_eq, Seq.failureWords_eq, Hw.flush_eq, unheld] at run
  refine ⟨_, _, _, run, View.commit_ctrlAt_of_key rfl, rfl, fun d hd => View.commit_ctrlAt_ne _ _ hd.symm,
    rfl, rfl, rfl, ⟨rfl, rfl, rfl, rfl, rfl, rfl, rfl, rfl, rfl, rfl⟩, fun k hk hl => ?own, fun k hr ht => ?other,
    fun hh => ?free, fun b z hh hz => ⟨fun l hm hl => ?line, fun hr => ?register⟩⟩
  case own => exact (View.chanAt_unwound ⟨s, c, x⟩ k).trans (if_pos ⟨hk, hl⟩)
  case other => exact (View.chanAt_unwound ⟨s, c, x⟩ k).trans (if_neg fun h => h.1.elim hr ht)
  case free =>
    rw [View.csDeassert_free _ ((View.unwound_csHolder ⟨s, c, x⟩).trans hh), View.unwound_eq]
    exact ⟨rfl, rfl, fun m => rfl⟩
  case line =>
    rw [View.unwound_csDeassert_bound _ hh hz, View.deassertBinding_line _ (bindingSite_line hm hl), View.unwound_eq]
    refine ⟨rfl, rfl, fun m => ?_⟩
    simp only [eq_comm (a := m)]
    exact s.lineLevel_setLine l m (!z.activeLevel)
  case register =>
    rw [View.unwound_csDeassert_bound _ hh hz, View.deassertBinding_register _ hr, bindingSite_register hr,
      View.unwound_eq]
    exact ⟨rfl, rfl, fun m => rfl⟩
end

section
/-! PROOFS. Error and recovery (R197, R198, R200 to R202): what ERR_ACK leaves in the state, what a flush leaves in the
controller, and FLUSH's checks in their order. -/

namespace Sys2Proof.Machine

/-! ### ERR_ACK and ERR_IRQ (R197, R198, R241) -/

/-- The controller once its conditions are acknowledged (R198). -/
def Ctrl.acked (x : Ctrl) : Ctrl :=
  { x with errLatch := x.seen, hw := { x.hw with pendingClr := Conds.empty, sticky := Conds.empty } }

/-- The state once the conditions of controller `c` are acknowledged (R198). -/
def State.acked (s : State) (c : Byte) (x : Ctrl) : State := { s.setCtrl c x.acked with errLog := x.logged s }

theorem View.commit_errAck (s : State) (c : Byte) (x : Ctrl) :
    (View.errAck ⟨s, c, x⟩).commit = s.acked c x := by
  rw [View.commit, View.errAck_c]
  rfl

theorem Ctrl.errPending_iff (x : Ctrl) :
    x.errPending = true ↔ x.clkOn = true ∧ (x.hw.sticky.inter x.hw.intEn).nonempty = true := Bool.and_eq_true_iff

/-! ### The flush (R200, R202) -/

/-- The controller after a flush (R200). -/
def Ctrl.flushed (x : Ctrl) : Ctrl := { x with hw := x.hw.flush, cfgValid := false, errLatch := Conds.empty }

theorem View.commit_flushOp (s : State) (c : Byte) (x : Ctrl) :
    (View.flushOp ⟨s, c, x⟩).commit = s.setCtrl c x.flushed := rfl

theorem Ctrl.flushed_eq (x : Ctrl) : x.flushed = { x with
    cfgValid := false, errLatch := Conds.empty
    hw := { x.hw with
      chCfg := ⟨false, false, x.hw.chCfg.cpha, x.hw.chCfg.cpol, false, false⟩
      packetCnt := ⟨0, false⟩, pktRem := 0, txf := [], rxf := [], shBusy := false
      modeCfg := { x.hw.modeCfg with txdmaOn := false, rxdmaOn := false } } } := by
  rw [Ctrl.flushed, Hw.flush_eq]

theorem Ctrl.flushed_clkOn (x : Ctrl) : x.flushed.clkOn = x.clkOn := rfl

/-- What a flush clears is clear after it (R202). -/
theorem Hw.flush_flush (h : Hw) : h.flush.flush = h.flush := by
  rw [Hw.flush_eq h.flush, Hw.flush_eq h]

theorem Ctrl.flushed_flushed (x : Ctrl) : x.flushed.flushed = x.flushed := by
  simp only [Ctrl.flushed, Hw.flush_flush]

/-! ### The steps and FLUSH -/

section
variable {s : State} {c : Byte} {x : Ctrl} (hx : s.ctrlAt c = some x)
include hx

theorem execErrAck_clocked (hclk : x.clkOn = true) : exec (.errAck c) s = .next (s.acked c x) := by
  rw [exec, execErrAck, State.withCtrl_some s c x _ hx, View.clocked_on _ _ hclk, View.commit_errAck]

theorem execErrAck_gated (hclk : x.clkOn = false) : exec (.errAck c) s = .fault .registerAccessClockOff := by
  rw [exec, execErrAck, State.withCtrl_some s c x _ hx, View.clocked_off _ _ hclk]

theorem execErrIrq_pending (h : x.errPending = true) : exec (.errIrq c) s = .next (s.acked c x) := by
  rw [exec, execErrIrq, State.withCtrl_some s c x _ hx, if_pos h, View.commit_errAck]

theorem execErrIrq_disabled (h : ¬ x.errPending = true) : exec (.errIrq c) s = .next s := by
  rw [exec, execErrIrq, State.withCtrl_some s c x _ hx, if_neg h]

theorem execFlushOp_clocked (hclk : x.clkOn = true) : exec (.flushOp c) s = .next (s.setCtrl c x.flushed) := by
  rw [exec, execFlushOp, State.withCtrl_some s c x _ hx, View.clocked_on _ _ hclk, View.commit_flushOp]

theorem execFlushOp_gated (hclk : x.clkOn = false) : exec (.flushOp c) s = .fault .registerAccessClockOff := by
  rw [exec, execFlushOp, State.withCtrl_some s c x _ hx, View.clocked_off _ _ hclk]

/-- A flush that runs has the clocks on and leaves the flushed controller (R200). -/
theorem execFlushOp_next {u : State} (h : exec (.flushOp c) s = .next u) :
    x.clkOn = true ∧ u = s.setCtrl c x.flushed := by
  cases hclk : x.clkOn with
  | false => simp [execFlushOp_gated hx hclk] at h
  | true => exact ⟨rfl, by simpa [execFlushOp_clocked hx hclk] using h.symm⟩

theorem execFlush_present : exec (.flush .exact c) s =
    if !(x.inState .idle && x.waitq.isEmpty) then .next (s.answer .busy 0 0)
    else if x.pstate ≠ .active then .next (s.answer .wrongState x.pstate.code 0)
    else View.clocked ⟨s, c, x⟩ (.next ((s.setCtrl c x.flushed).answer .ok 0 0)) :=
  State.withHandle_some s c x _ hx

theorem execFlush_busy (h : x.seq.state ≠ .idle ∨ x.waitq ≠ []) :
    exec (.flush .exact c) s = .next (s.answer .busy 0 0) :=
  (execFlush_present hx).trans (if_pos (by simpa [Ctrl.inState, imp_iff_not_or] using h))

variable (hs : x.seq.state = .idle) (hw : x.waitq = [])
include hs hw

theorem execFlush_quiet : exec (.flush .exact c) s =
    if x.pstate ≠ .active then .next (s.answer .wrongState x.pstate.code 0)
    else View.clocked ⟨s, c, x⟩ (.next ((s.setCtrl c x.flushed).answer .ok 0 0)) :=
  (execFlush_present hx).trans (if_neg (by simp [hs, hw]))

theorem execFlush_wrongState (hp : x.pstate ≠ .active) :
    exec (.flush .exact c) s = .next (s.answer .wrongState x.pstate.code 0) :=
  (execFlush_quiet hx hs hw).trans (if_pos hp)

theorem execFlush_active (hp : x.pstate = .active) (hclk : x.clkOn = true) :
    exec (.flush .exact c) s = .next ((s.setCtrl c x.flushed).answer .ok 0 0) :=
  (execFlush_quiet hx hs hw).trans ((if_neg (not_not_intro hp)).trans (View.clocked_on _ _ hclk))

end

/-- A second flush finds a flushed controller (R202). -/
theorem execFlushOp_again (s : State) (c : Byte) {x : Ctrl} (hclk : x.clkOn = true) :
    exec (.flushOp c) (s.setCtrl c x.flushed) = .next (s.setCtrl c x.flushed) := by
  rw [execFlushOp_clocked (s.ctrlAt_setCtrl_self c x.flushed) (x.flushed_clkOn.trans hclk), State.setCtrl_setCtrl,
    Ctrl.flushed_flushed]

/-- The status word of WrongState outside ACTIVE (R69). -/
theorem statusWord_wrongState {p : PState} (hp : p ≠ .active) :
    statusWord .wrongState p.code = if p = .idle then 0x05050001#32 else 0x05050002#32 := by
  cases p with
  | active => exact absurd rfl hp
  | idle => rfl
  | suspended => rfl

end Sys2Proof.Machine

open Sys2Proof Sys2Proof.Machine

/-- Settles O40: both steps leave `State.acked`, ERR_ACK under the clocks' check and ERR_IRQ exactly where
`err_pending` holds. -/
theorem errorAcknowledge : Obligations.ErrorAcknowledge := by
  unfold Obligations.ErrorAcknowledge
  intro s c x hx acked pending
  have enabled : x.errPending = true ↔ x.clkOn = true ∧ pending := x.errPending_iff
  exact ⟨execErrAck_clocked hx, execErrAck_gated hx, fun hclk hp => execErrIrq_pending hx (enabled.mpr ⟨hclk, hp⟩),
    fun h => execErrIrq_disabled hx (mt enabled.mp h)⟩

/-- Settles O41: with the clocks on FLUSH_OP leaves the flushed controller, whose fields `Ctrl.flushed_eq` lists. -/
theorem flushOpClearsEngine : Obligations.FlushOpClearsEngine := by
  unfold Obligations.FlushOpClearsEngine
  intro s c x hx hclk
  rw [execFlushOp_clocked hx hclk, Ctrl.flushed_eq]
  rfl

/-- Settles O42: the second flush finds a flushed controller, which a flush leaves as it is. -/
theorem flushIsIdempotent : Obligations.FlushIsIdempotent := by
  unfold Obligations.FlushIsIdempotent
  refine ⟨Hw.flush_flush, fun s u c x hx h => ?_⟩
  obtain ⟨hclk, rfl⟩ := execFlushOp_next hx h
  exact ⟨execFlushOp_again s c hclk, x.flushed, s.ctrlAt_setCtrl_self c _, by rw [Ctrl.flushed_eq], rfl, rfl⟩

/-- Settles O43: FLUSH's checks are taken in turn; past them the controller is flushed and the answer is OK. -/
theorem flushCommand : Obligations.FlushCommand := by
  unfold Obligations.FlushCommand
  refine fun s c => ⟨fun f w hf => ?form, State.withHandle_none _,
    fun x hx => ⟨execFlush_busy hx, fun hs hw hp => ?wrongState, fun hs hw hp hclk => ?flushes⟩⟩
  case form => exact exec_of_inexact_form hf (by simp)
  case wrongState =>
    rw [execFlush_wrongState hx hs hw hp, State.answer, statusWord_wrongState hp]
    rfl
  case flushes =>
    rw [execFlush_active hx hs hw hp hclk, Ctrl.flushed_eq]
    rfl
end

section
/-! PROOFS. Creation, destruction and HW_INIT (R210 to R212, R261, R262): the registers HW_INIT leaves, NEW's checks in
their order and the controller it makes, and what DESTROY frees. -/

namespace Sys2Proof.Machine

/-! ### HW_INIT (R212, R262) -/

/-- The serial engine at its defaults (R262), with nothing defined in the shifter. -/
def Hw.blank : Hw where
  chCfg := ⟨false, false, false, false, false, false⟩
  clkCfg := ⟨0, false⟩
  modeCfg := ⟨false, false, false, false, 0, 0⟩
  csReg := ⟨true, false, false, false⟩
  intEn := Conds.all
  sticky := Conds.empty
  packetCnt := ⟨0, false⟩
  pendingClr := Conds.empty
  swapCfg := ⟨false, false, false, false, false, false⟩
  fbDelay := 0
  txf := []
  rxf := []
  pktRem := 0
  shBusy := false
  shWord := 0
  shDefined := false

/-- The serial engine HW_INIT leaves: only the word of the idle shifter is the one that stood there (R212, R262). -/
def Hw.defaults (h : Hw) : Hw := { Hw.blank with shWord := h.shWord, shDefined := h.shDefined }

theorem Hw.init_eq_defaults (h : Hw) : h.init = h.defaults := Hw.init_eq h

/-- No register shows the word of the idle shifter. -/
theorem Hw.regRead_defaults (h : Hw) (r : Reg) (n : Nat) : h.defaults.regRead r n = Hw.blank.regRead r n := by
  cases r <;> rfl

theorem Hw.defaults_statusWord (h : Hw) : h.defaults.statusWord = 0x02000000#32 := by
  show Hw.blank.statusWord = _
  decide

theorem execHwInit_clocked {s : State} {c : Byte} {x : Ctrl} (hx : s.ctrlAt c = some x) (hclk : x.clkOn = true) :
    exec (.hwInit c) s =
      .next (s.setCtrl c { x with hw := x.hw.defaults, cfgValid := false, errLatch := Conds.empty }) := by
  rw [exec, execHwInit, State.withCtrl_some s c x _ hx, View.clocked_on _ _ hclk, ← Hw.init_eq_defaults]
  rfl

/-! ### NEW (R210, R261) -/

/-- The window is out of place or meets another controller's (R210). -/
theorem baseRefused_iff (s : State) (a : Word) : (!baseOk a || s.windowTaken a) = true ↔
    a.toNat % 4 ≠ 0 ∨ 2 ^ 32 < a.toNat + 48 ∨
      ∃ p ∈ s.ctrl, a.toNat < p.2.base.toNat + 48 ∧ p.2.base.toNat < a.toNat + 48 := by
  have misplaced : (!baseOk a) = true ↔ a.toNat % 4 ≠ 0 ∨ 2 ^ 32 < a.toNat + 48 := by
    simp only [baseOk, Bool.not_eq_true', Bool.and_eq_false_iff, decide_eq_false_iff_not, not_le]
    exact Iff.rfl
  have taken : s.windowTaken a = true ↔
      ∃ p ∈ s.ctrl, a.toNat < p.2.base.toNat + 48 ∧ p.2.base.toNat < a.toNat + 48 := by
    simp only [State.windowTaken, windowsMeet, List.any_eq_true, Bool.and_eq_true, decide_eq_true_eq]
    exact Iff.rfl
  rw [Bool.or_eq_true, misplaced, taken, or_assoc]

theorem depthRefused_iff (d : BitVec 9) :
    (!depthOk d) = true ↔ d.toNat % 16 ≠ 0 ∨ d.toNat < 16 ∨ 256 < d.toNat := by
  simp only [depthOk, Bool.not_eq_true', Bool.and_eq_false_iff, decide_eq_false_iff_not, not_le, or_assoc]

theorem execNew_exact (s : State) (c : Byte) (a : NewArgs) : exec (.new .exact c a) s =
    if (s.ctrlAt c).isSome then .next (s.answer .malformed 8 0)
    else if !baseOk a.base || s.windowTaken a.base then .next (s.answer .malformed 9 0)
    else if a.sourceClock = 0 then .next (s.answer .malformed 10 0)
    else if !depthOk a.fifoDepth then .next (s.answer .malformed 11 0)
    else if a.dmaRx = a.dmaTx then .next (s.answer .malformed 12 0)
    else .next (s.newDone c a) := rfl

/-- NEW's controller is R261's, its serial engine HW_INIT's, its clocks gated with the native output inactive. -/
theorem Ctrl.made_eq (s : State) (c : Byte) (a : NewArgs) : Ctrl.made s c a =
    { Ctrl.fresh c a (Hw.drawn s.draws a.fifoDepth.toNat).defaults s.now with clkOn := false, nssHeld := true } := by
  unfold Ctrl.made View.hwInit
  rw [Hw.init_eq_defaults]
  rfl

/-! ### DESTROY (R211) -/

theorem Table.mem_erase {α : Type} {t : List (Nat × α)} {n : Nat} {p : Nat × α} :
    p ∈ Table.erase t n ↔ p.1 ≠ n ∧ p ∈ t := by
  induction t with
  | nil => simp [Table.erase]
  | cons q t ih =>
    rw [Table.erase]
    by_cases hq : q.1 = n
    · rw [if_pos hq, ih]
      constructor
      · exact fun h => ⟨h.1, List.mem_cons_of_mem _ h.2⟩
      · rintro ⟨hp, h⟩
        refine ⟨hp, (List.mem_cons.mp h).resolve_left ?_⟩
        rintro rfl
        exact hp hq
    · rw [if_neg hq, List.mem_cons, ih, List.mem_cons]
      constructor
      · rintro (rfl | h)
        · exact ⟨hq, .inl rfl⟩
        · exact ⟨h.1, .inr h.2⟩
      · exact fun h => h.2.imp_right fun ht => ⟨h.1, ht⟩

/-- A channel as the controller `o` leaves it when it frees its leases (R211). -/
def Chan.freed (ch : Chan) (o : Byte) : Chan := if ch.lessee = some o then { ch with lessee := none } else ch

theorem Chan.freed_freed (ch : Chan) (o : Byte) : (ch.freed o).freed o = ch.freed o := by
  unfold Chan.freed
  by_cases h : ch.lessee = some o <;> simp [h]

theorem State.chanAt_freeLease (s : State) (o k j : Byte) :
    (s.freeLease o k).chanAt j = if j = k then (s.chanAt j).freed o else s.chanAt j := by
  unfold State.freeLease Chan.freed
  by_cases hj : j = k
  · subst hj
    rw [if_pos rfl]
    split <;> simp [State.chanAt_setLessee]
  · rw [if_neg hj]
    split
    · rw [State.chanAt_setLessee, if_neg (Ne.symm hj)]
    · rfl

theorem State.chanAt_freeLease_both (s : State) (o j k m : Byte) :
    ((s.freeLease o j).freeLease o k).chanAt m =
      if (m = j ∨ m = k) ∧ (s.chanAt m).lessee = some o then { s.chanAt m with lessee := none } else s.chanAt m := by
  have frees : ((s.freeLease o j).freeLease o k).chanAt m =
      if m = j ∨ m = k then (s.chanAt m).freed o else s.chanAt m := by
    rw [State.chanAt_freeLease, State.chanAt_freeLease]
    by_cases hj : m = j
    · simp only [hj, true_or, if_true, Chan.freed_freed, ite_self]
    · simp only [hj, false_or, if_false]
  rw [frees, Chan.freed, ite_and]

theorem Ctrl.destroyBusy_iff (x : Ctrl) : x.destroyBusy = true ↔ x.seq.state ≠ .idle ∨ x.waitq ≠ [] ∨
    x.actWait = true ∨ (x.suspended = true ∧ x.pstate ≠ .suspended) := by
  simp [Ctrl.destroyBusy, Ctrl.inState, or_assoc]

/-- The controller DESTROY releases the select of: its clocks run for that (R211). -/
def State.pulsed (s : State) (c : Byte) (x : Ctrl) : View := ⟨s, c, { x with clkOn := true }⟩

theorem State.pulsed_csDeassert_st (s : State) (c : Byte) (x : Ctrl) : (s.pulsed c x).csDeassert.st = { s with
    csLine := (s.pulsed c x).csDeassert.st.csLine, busLog := (s.pulsed c x).csDeassert.st.busLog } :=
  View.csDeassert_st _

/-- DESTROY in full, but for what the select's release writes and for the leases freed. -/
theorem State.destroyDone_eq (s : State) (c : Byte) (x : Ctrl) : s.destroyDone c x = { s with
    ctrl := Table.erase s.ctrl c.toNat, chan := (s.destroyDone c x).chan
    csLine := (s.pulsed c x).csDeassert.st.csLine, busLog := (s.pulsed c x).csDeassert.st.busLog
    outbox := s.outbox ++ [⟨.issuer, [0#32, 0#32]⟩] } := by
  unfold State.destroyDone
  dsimp only
  rw [← State.pulsed, State.pulsed_csDeassert_st, State.freeLease_eq, State.freeLease_eq _ c x.dmaRx]
  rfl

theorem State.destroyDone_chanAt (s : State) (c : Byte) (x : Ctrl) (k : Byte) : (s.destroyDone c x).chanAt k =
    if (k = x.dmaRx ∨ k = x.dmaTx) ∧ (s.chanAt k).lessee = some c then { s.chanAt k with lessee := none }
    else s.chanAt k := by
  refine ((s.pulsed c x).csDeassert.st.chanAt_freeLease_both c x.dmaRx x.dmaTx k).trans ?_
  rw [State.pulsed_csDeassert_st]
  rfl

section
variable {s : State} {c : Byte} {x : Ctrl} (hx : s.ctrlAt c = some x)
include hx

theorem execDestroy_busy (h : x.destroyBusy = true) : exec (.destroy .exact c) s = .next (s.answer .busy 0 0) :=
  (State.withHandle_some s c x _ hx).trans (if_pos h)

theorem execDestroy_removes (h : ¬ x.destroyBusy = true) :
    exec (.destroy .exact c) s = .next (s.destroyDone c x) :=
  (State.withHandle_some s c x _ hx).trans (if_neg h)

end

end Sys2Proof.Machine

open Sys2Proof Sys2Proof.Machine

/-! ### Creation and destruction -/

/-- Settles O44: HW_INIT leaves `Hw.defaults`, whose registers are read one by one. -/
theorem hwInitGivesDefaults : Obligations.HwInitGivesDefaults := by
  unfold Obligations.HwInitGivesDefaults
  intro s c x hx hclk
  refine ⟨x.hw.defaults, execHwInit_clocked hx hclk, ?_, ?_, ?_, ?_, ?_, ?_, ?_, ?_, ?_, ?_, rfl, rfl, rfl, rfl⟩ <;>
  · rw [Hw.regRead_defaults]
    decide

/-- Settles O45: NEW's checks are taken in turn; past them the controller is `Ctrl.made`. -/
theorem newMakesController : Obligations.NewMakesController := by
  unfold Obligations.NewMakesController
  intro s c a refuse inUse badBase badDepth
  have used : (s.ctrlAt c).isSome = true ↔ inUse := Option.isSome_iff_exists
  have based : (!baseOk a.base || s.windowTaken a.base) = true ↔ badBase := baseRefused_iff s a.base
  have deep : (!depthOk a.fifoDepth) = true ↔ badDepth := depthRefused_iff a.fifoDepth
  have run := execNew_exact s c a
  have free (hu : ¬ inUse) := run.trans (if_neg (mt used.mp hu))
  have placed (hu : ¬ inUse) (hb : ¬ badBase) := (free hu).trans (if_neg (mt based.mp hb))
  have clocked (hu : ¬ inUse) (hb : ¬ badBase) (hs : a.sourceClock ≠ 0) := (placed hu hb).trans (if_neg hs)
  have sized (hu : ¬ inUse) (hb : ¬ badBase) (hs : a.sourceClock ≠ 0) (hd : ¬ badDepth) :=
    (clocked hu hb hs).trans (if_neg (mt deep.mp hd))
  refine ⟨fun hu => run.trans (if_pos (used.mpr hu)), fun hu hb => (free hu).trans (if_pos (based.mpr hb)),
    fun hu hb hs => (placed hu hb).trans (if_pos hs), fun hu hb hs hd => (clocked hu hb hs).trans (if_pos (deep.mpr hd)),
    fun hu hb hs hd hc => (sized hu hb hs hd).trans (if_pos hc), fun hu hb hs hd hc => ?makes⟩
  case makes =>
    have here : (s.newDone c a).ctrlAt c = some (Ctrl.made s c a) := (s.newDone_ctrlAt c c a).trans (if_pos rfl)
    have others (d : Byte) (h : d ≠ c) : (s.newDone c a).ctrlAt d = s.ctrlAt d :=
      (s.newDone_ctrlAt c d a).trans (if_neg h.symm)
    refine ⟨s.newDone c a, Ctrl.made s c a, (sized hu hb hs hd).trans (if_neg hc), here, others, rfl, ?_⟩
    rw [Ctrl.made_eq]
    exact ⟨rfl, rfl, rfl, rfl, rfl, rfl, rfl, rfl, rfl, rfl, rfl, rfl, rfl, rfl, rfl, rfl, rfl, rfl, rfl, rfl, rfl, rfl,
      rfl, rfl, rfl, rfl, rfl, rfl, rfl, rfl, rfl, fun b => rfl, rfl, rfl, Hw.defaults_statusWord _, rfl⟩

/-- Settles O46: past its checks DESTROY leaves `State.destroyDone_eq`; what the select's release writes is read off by
the place where the select is driven. -/
theorem destroyRemovesController : Obligations.DestroyRemovesController := by
  unfold Obligations.DestroyRemovesController
  refine fun s c => ⟨fun f w hf => exec_of_inexact_form hf (by simp), State.withHandle_none _, fun x hx => ?_⟩
  intro busy
  have use : x.destroyBusy = true ↔ busy := x.destroyBusy_iff
  refine ⟨fun h => execDestroy_busy hx (use.mpr h), fun h => ?_⟩
  obtain ⟨gone, -, -, -⟩ := s.destroyDone_spec c x
  refine ⟨s.destroyDone c x, execDestroy_removes hx (mt use.mp h), (gone c).trans (if_pos rfl),
    by rw [State.destroyDone_eq], fun d hd => (gone d).trans (if_neg hd.symm), fun p hp => ?left, s.destroyDone_chanAt c x,
    fun hh => ?free, fun b y l hh hy hm hl => ?line, fun b y hh hy hr => ?register⟩
  case left =>
    rw [State.destroyDone_eq] at hp
    exact Table.mem_erase.mp hp
  case free =>
    rw [State.destroyDone_eq, View.csDeassert_free (s.pulsed c x) hh]
    exact ⟨rfl, fun m => rfl⟩
  case line =>
    rw [State.destroyDone_eq, View.csDeassert_bound (s.pulsed c x) hh hy,
      View.deassertBinding_line _ (bindingSite_line hm hl)]
    refine ⟨rfl, fun m => ?_⟩
    simp only [eq_comm (a := m)]
    exact s.lineLevel_setLine l m (!y.activeLevel)
  case register =>
    rw [State.destroyDone_eq, View.csDeassert_bound (s.pulsed c x) hh hy, View.deassertBinding_register _ hr,
      bindingSite_register hr]
    exact ⟨rfl, fun m => rfl⟩
end

section
/-! PROOFS. Idle and active (R214 to R217, R220, R221): the checks of ON_IDLE and ON_ACTIVE in their order, what both
channels hold once their leases change together, and the four ends of an ACQ_ATTEMPT. -/

namespace Sys2Proof.Machine

/-! ### Both leases at once (R214, R216, R217) -/

theorem State.chanAt_setLessee_both (s : State) (j k m : Byte) (o : Option Byte) :
    ((s.setLessee j o).setLessee k o).chanAt m =
      if m = j ∨ m = k then { s.chanAt m with lessee := o } else s.chanAt m := by
  rw [State.chanAt_setLessee]
  by_cases hk : k = m
  · subst hk
    by_cases hj : j = k <;> simp [State.chanAt_setLessee, hj]
  · rw [if_neg hk, State.chanAt_setLessee]
    by_cases hj : j = m
    · simp [hj]
    · simp [hj, Ne.symm hj, Ne.symm hk]

theorem State.chanAt_freeLeases (s : State) (x : Ctrl) (k : Byte) : (s.freeLeases x).chanAt k =
    if k = x.dmaRx ∨ k = x.dmaTx then { s.chanAt k with lessee := none } else s.chanAt k :=
  s.chanAt_setLessee_both x.dmaRx x.dmaTx k none

section
variable {s : State} {c : Byte} {x : Ctrl} (hx : s.ctrlAt c = some x)
include hx

/-! ### ON_IDLE (R214, R221) -/

theorem execOnIdle_present : exec (.onIdle .exact c) s =
    if x.pstate = .idle ∧ x.suspended = false then .next (s.answer .ok 0 0)
    else if x.pstate = .suspended then .next (s.answer .wrongState 2 0)
    else if !x.inState .idle || !x.waitq.isEmpty || x.suspended then .next (s.answer .busy 0 0)
    else if s.now - x.lastActivity < 1000 * x.autosuspendMs then .next (s.answer .busy 0 0)
    else .next (((s.freeLeases x).setCtrl c { x.quiesce with pstate := .idle }).answer .ok 0 0) :=
  State.withHandle_some s c x _ hx

/-! ### ON_ACTIVE (R215, R220) -/

theorem execOnActive_present : exec (.onActive .exact c) s =
    if x.suspended then .next (s.answer .wrongState 2 0)
    else if x.pstate = .active then .next (s.answer .ok 0 0)
    else if x.actWait then .next (s.answer .busy 0 0)
    else .next (s.setCtrl c { x.startActivation s.now with actWait := true }) :=
  State.withHandle_some s c x _ hx

end

/-- ON_IDLE's third check (R214). -/
theorem Ctrl.inUse_iff (x : Ctrl) : (!x.inState .idle || !x.waitq.isEmpty || x.suspended) = true ↔
    x.seq.state ≠ .idle ∨ x.waitq ≠ [] ∨ x.suspended = true := by
  simp [Ctrl.inState, or_assoc]

/-! ### ACQ_ATTEMPT (R216) -/

theorem Ctrl.acqEnabled_iff (x : Ctrl) (now : Nat) : x.acqEnabled now = true ↔ x.pstate = .idle ∧
    x.suspended = false ∧ x.seq.state = .idle ∧ (x.waitq ≠ [] ∨ x.actWait = true) ∧ x.acqNext ≤ now := by
  simp only [Ctrl.acqEnabled, Ctrl.activating, Bool.and_eq_true, Bool.or_eq_true, Bool.not_eq_true',
    List.isEmpty_eq_false_iff, decide_eq_true_eq]
  tauto

theorem State.leasesFree_iff (s : State) (x : Ctrl) : s.leasesFree x = true ↔
    (s.chanAt x.dmaRx).lessee = none ∧ (s.chanAt x.dmaTx).lessee = none := by
  simp [State.leasesFree]

/-- What a waiting ON_ACTIVE of the controller `c` is told, if one waits (R216, R217). -/
def Ctrl.told (x : Ctrl) (c : Byte) (w : Word) : List Response := if x.actWait then [⟨.onActive c, [w, 0#32]⟩] else []

theorem State.answerActive_eq (s : State) (c : Byte) (x : Ctrl) (k : ErrKind) (i : Nat) :
    s.answerActive c x k i = { s with outbox := s.outbox ++ x.told c (statusWord k i) } := by
  unfold State.answerActive Ctrl.told
  split
  · rfl
  · rw [List.append_nil]

/-- ACQ_ATTEMPT with both channels free. -/
theorem View.acquire_st (v : View) : v.acquire.st = { v.st with
    chan := v.acquire.st.chan, outbox := v.st.outbox ++ v.c.told v.c.id 0#32 } := by
  unfold View.acquire
  rw [State.answerActive_eq]
  rfl

theorem View.chanAt_acquire (v : View) (k : Byte) : v.acquire.st.chanAt k =
    if k = v.c.dmaRx ∨ k = v.c.dmaTx then { v.st.chanAt k with lessee := some v.c.id } else v.st.chanAt k := by
  unfold View.acquire
  rw [State.answerActive_eq]
  exact v.st.chanAt_setLessee_both v.c.dmaRx v.c.dmaTx k (some v.c.id)

/-- Below 255 a retry counts one more (R216). -/
theorem View.backOff_counts (v : View) (h : v.c.acqK.toNat < 255) : v.backOff = { v with c := { v.c with
    acqK := v.c.acqK + 1, acqNext := v.st.now + v.st.params.acqBackoffUs } } := by
  unfold View.backOff
  rw [v.countRetry_acqK h]

/-- At 255 the counter takes a value nobody determines (log entry 23). -/
theorem View.backOff_overflows (v : View) (h : v.c.acqK = 255) : v.backOff = { v with
    st := v.st.drew 1
    c := { v.c with acqK := Config.freeByte v.st.draws, acqNext := v.st.now + v.st.params.acqBackoffUs } } := by
  have past : ¬ v.c.acqK.toNat + 1 < 256 := by simp [h]
  unfold View.backOff View.countRetry
  rw [if_neg past]

theorem View.giveUp_eq (v : View) : v.giveUp = { v with
    st := { v.st with outbox := v.st.outbox ++ v.c.told v.c.id 0x04010001#32 ++ v.c.waitq.map fun w =>
      ⟨.caller w.tag, 0x04010001#32 :: 0#32 :: List.replicate w.msg.length 0#32⟩ }
    c := { v.c with acqK := 0, acqNext := v.st.now, actWait := false, waitq := [] } } := by
  unfold View.giveUp
  rw [State.answerWaiters_eq, State.answerActive_eq]
  rfl

section
variable {s : State} {c : Byte} {x : Ctrl} (hx : s.ctrlAt c = some x)
include hx

theorem execAcqAttempt_disabled (h : ¬ x.acqEnabled s.now = true) : exec (.acqAttempt c) s = .next s := by
  rw [exec, execAcqAttempt, State.withCtrl_some s c x _ hx, if_neg h]

variable (he : x.acqEnabled s.now = true)
include he

theorem execAcqAttempt_enabled : exec (.acqAttempt c) s = .next (View.acqAttempt ⟨s, c, x⟩).commit := by
  rw [exec, execAcqAttempt, State.withCtrl_some s c x _ hx, if_pos he]

theorem execAcqAttempt_acquires (h : s.leasesFree x = true) :
    exec (.acqAttempt c) s = .next (View.acquire ⟨s, c, x⟩).commit := by
  rw [execAcqAttempt_enabled hx he, View.acqAttempt, if_pos h]

variable (hl : ¬ s.leasesFree x = true)
include hl

theorem execAcqAttempt_backsOff (h : x.acqK.toNat < s.params.acqRetryMax) :
    exec (.acqAttempt c) s = .next (View.backOff ⟨s, c, x⟩).commit := by
  rw [execAcqAttempt_enabled hx he, View.acqAttempt, if_neg hl, if_pos h]

theorem execAcqAttempt_givesUp (h : s.params.acqRetryMax ≤ x.acqK.toNat) :
    exec (.acqAttempt c) s = .next (View.giveUp ⟨s, c, x⟩).commit := by
  rw [execAcqAttempt_enabled hx he, View.acqAttempt, if_neg hl, if_neg (Nat.not_lt.mpr h)]

end

end Sys2Proof.Machine

open Sys2Proof Sys2Proof.Machine

/-! ### Idle and active -/

/-- Settles O47: ON_IDLE's checks are taken in turn; past them the leases are freed and the clocks gated. -/
theorem onIdleGatesClocks : Obligations.OnIdleGatesClocks := by
  unfold Obligations.OnIdleGatesClocks
  refine fun s c => ⟨fun f w hf => exec_of_inexact_form hf (by simp), State.withHandle_none _, fun x hx => ?_⟩
  intro answer inUse
  have use := x.inUse_iff
  have run := execOnIdle_present hx
  have awake (hp : x.pstate ≠ .suspended) (hr : ¬ (x.pstate = .idle ∧ x.suspended = false)) :=
    run.trans ((if_neg hr).trans (if_neg hp))
  have quiet (hp : x.pstate = .active) (hu : ¬ inUse) :=
    (awake (by simp [hp]) (by simp [hp])).trans (if_neg (mt use.mp hu))
  exact ⟨fun hp hs => run.trans (if_pos ⟨hp, hs⟩), fun hp => run.trans ((if_neg (by simp [hp])).trans (if_pos hp)),
    fun hp hr hu => (awake hp hr).trans (if_pos (use.mpr hu)), fun hp hu ht => (quiet hp hu).trans (if_pos ht),
    fun hp hu ht => ⟨_, (quiet hp hu).trans (if_neg (Nat.not_lt.mpr ht)), rfl, s.chanAt_freeLeases x⟩⟩

/-- Settles O48: ON_ACTIVE's checks are taken in turn; past them it waits, and starts an activation where nothing else
waits for one. -/
theorem onActiveStartsActivation : Obligations.OnActiveStartsActivation := by
  unfold Obligations.OnActiveStartsActivation
  refine fun s c => ⟨fun f w hf => exec_of_inexact_form hf (by simp), State.withHandle_none _, fun x hx => ?_⟩
  intro answer
  have run := execOnActive_present hx
  have awake (hs : x.suspended = false) := run.trans (if_neg (by simp [hs]))
  have resting (hs : x.suspended = false) (hp : x.pstate ≠ .active) := (awake hs).trans (if_neg hp)
  have accepted (hs : x.suspended = false) (hp : x.pstate ≠ .active) (ha : x.actWait = false) :=
    (resting hs hp).trans (if_neg (by simp [ha]))
  refine ⟨fun hs => run.trans (if_pos hs), fun hs hp => (awake hs).trans (if_pos hp),
    fun hs hp ha => (resting hs hp).trans (if_pos ha), fun hs hp ha hw => ?starts, fun hs hp ha hw => ?joins⟩
  case starts => rw [accepted hs hp ha, Ctrl.startActivation_resting hw ha]
  case joins => rw [accepted hs hp ha, Ctrl.startActivation_waiting fun h => hw h.1]

/-- Settles O49: an enabled attempt acquires, backs off or gives up, by the pool and the retry counter. -/
theorem acquisitionTakesBothOrNeither : Obligations.AcquisitionTakesBothOrNeither := by
  unfold Obligations.AcquisitionTakesBothOrNeither
  intro s c x hx hid free told enabled
  subst hid
  have on : x.acqEnabled s.now = true ↔ enabled := x.acqEnabled_iff s.now
  have pool : s.leasesFree x = true ↔ free := s.leasesFree_iff x
  refine ⟨fun he _ hf => ?acquires, fun he hf hk h255 => ?counts, fun he hf hk h255 => ?overflows,
    fun he hf hk => ?givesUp, fun he => execAcqAttempt_disabled hx (mt on.mp he)⟩
  case acquires =>
    refine ⟨_, execAcqAttempt_acquires hx (on.mpr he) (pool.mpr hf), ?_, View.chanAt_acquire ⟨s, x.id, x⟩⟩
    rw [View.commit, View.acquire_st]
    rfl
  case counts =>
    rw [execAcqAttempt_backsOff hx (on.mpr he) (mt pool.mp hf) hk, View.backOff_counts _ h255]
    rfl
  case overflows =>
    refine ⟨Config.freeByte s.draws, ?_⟩
    rw [execAcqAttempt_backsOff hx (on.mpr he) (mt pool.mp hf) hk, View.backOff_overflows _ h255]
    rfl
  case givesUp =>
    rw [execAcqAttempt_givesUp hx (on.mpr he) (mt pool.mp hf) hk, View.giveUp_eq]
    rfl
end

section
/-! PROOFS. Suspend, resume and the loss of power (R217 to R219, R226, R263): what SUSPEND_FINISH leaves, the registers
and the select lines after ON_RESUME, and ON_RESUME in full. -/

namespace Sys2Proof.Machine

/-! ### ON_SUSPEND and SUSPEND_FINISH (R172, R217) -/

theorem Ctrl.suspendFinishEnabled_iff (x : Ctrl) : x.suspendFinishEnabled = true ↔
    x.suspended = true ∧ x.pstate ≠ .suspended ∧ x.seq.state = .idle := by
  simp [Ctrl.suspendFinishEnabled, and_assoc]

/-- SUSPEND_FINISH in full: the waiters' answers, its own, and from ACTIVE the leases and the clocks. -/
theorem View.suspendFinish_eq (v : View) : v.suspendFinish = { v with
    st := { v.st with
      chan := if v.c.pstate = .active then (v.st.freeLeases v.c).chan else v.st.chan
      outbox := v.st.outbox ++ (v.c.waitq.map fun w =>
          ⟨.caller w.tag, 0x04010002#32 :: 0#32 :: List.replicate w.msg.length 0#32⟩) ++
        v.c.told v.c.id 0x04010002#32 ++ [⟨.onSuspend v.c.id, [0#32, 0#32]⟩] }
    c := if v.c.pstate = .active then { v.c with
        waitq := [], actWait := false, acqK := 0, pstate := .suspended
        rxCh := false, txCh := false, clkOn := false, nssHeld := v.c.hw.nss }
      else { v.c with waitq := [], actWait := false, acqK := 0, pstate := .suspended } } := by
  unfold View.suspendFinish
  rw [State.answerWaiters_eq, State.answerActive_eq]
  by_cases h : v.c.pstate = .active
  · simp only [if_pos h]
    rfl
  · simp only [if_neg h]
    rfl

theorem View.chanAt_suspendFinish (v : View) (k : Byte) : v.suspendFinish.st.chanAt k =
    if v.c.pstate = .active ∧ (k = v.c.dmaRx ∨ k = v.c.dmaTx) then { v.st.chanAt k with lessee := none }
    else v.st.chanAt k := by
  rw [View.suspendFinish_eq, ite_and, ← v.st.chanAt_freeLeases v.c k]
  by_cases h : v.c.pstate = .active
  · simp only [if_pos h]
    rfl
  · simp only [if_neg h]
    rfl

section
variable {s : State} {c : Byte} {x : Ctrl} (hx : s.ctrlAt c = some x)
include hx

theorem execOnSuspend_present : exec (.onSuspend .exact c) s =
    if x.suspended then .next (s.answer .wrongState 2 0) else .next (s.setCtrl c { x with suspended := true }) :=
  State.withHandle_some s c x _ hx

theorem execSuspendFinish_enabled (h : x.suspendFinishEnabled = true) :
    exec (.suspendFinish c) s = .next (View.suspendFinish ⟨s, c, x⟩).commit := by
  rw [exec, execSuspendFinish, State.withCtrl_some s c x _ hx, if_pos h]

theorem execSuspendFinish_disabled (h : ¬ x.suspendFinishEnabled = true) : exec (.suspendFinish c) s = .next s := by
  rw [exec, execSuspendFinish, State.withCtrl_some s c x _ hx, if_neg h]

end

/-! ### The registers after ON_RESUME (R218, R226, R263) -/

section
variable (v : View)

theorem View.resumeHw_secure (hs : v.c.secure = true) : v.resumeHw = v := if_pos hs

variable (hs : v.c.secure = false)
include hs

theorem View.resumeHw_unmarked (hr : v.c.needsReinit = false) : v.resumeHw = { v with c := { v.c with
    hw := { v.c.hw with csReg := { v.c.hw.csReg with sigInact := true } }, clkOn := false
    nssHeld := Hw.nss { v.c.hw with csReg := { v.c.hw.csReg with sigInact := true } } } } := by
  simp only [View.resumeHw, hs, hr]
  rfl

theorem View.resumeHw_marked (hr : v.c.needsReinit = true) : v.resumeHw = { v with c := { v.c with
    hw := v.c.hw.defaults, cfgValid := false, errLatch := Conds.empty, curSpeed := 0, curMode := ⟨false, false, false⟩
    curWidth := 8, dmaDone := false, acqNext := 0, seq := v.c.seq.renewed, clkOn := false, nssHeld := true } } := by
  simp only [View.resumeHw, hs, hr, View.reinit, View.hwInit, Hw.init_eq_defaults]
  rfl

end

/-- The controller back in IDLE at time `now` (R218). -/
def Ctrl.resumed (x : Ctrl) (now : Nat) : Ctrl :=
  { x with csHolder := none, cfgValid := false, suspended := false, pstate := .idle, lastActivity := now }

/-- The controller with `SIG_INACT` written in a pulse of its clocks (R218). -/
def Ctrl.unselected (x : Ctrl) : Ctrl :=
  let hw : Hw := { x.hw with csReg := { x.hw.csReg with sigInact := true } }
  { x with hw := hw, nssHeld := hw.nss }

/-- The controller re-initialised in a pulse of its clocks (R212, R218, R263). -/
def Ctrl.reinitialised (x : Ctrl) : Ctrl :=
  { x with
    hw := x.hw.defaults, cfgValid := false, errLatch := Conds.empty, curSpeed := 0, curMode := ⟨false, false, false⟩
    curWidth := 8, dmaDone := false, acqNext := 0, seq := x.seq.renewed, nssHeld := true }

section
variable (v : View)

theorem View.resume_c_secure (hs : v.c.secure = true) : v.resume.c = v.c.resumed v.st.now := by
  rw [View.resume_c, v.resumeHw_secure hs]
  rfl

variable (hclk : v.c.clkOn = false) (hs : v.c.secure = false)
include hclk hs

theorem View.resume_c_unmarked (hr : v.c.needsReinit = false) :
    v.resume.c = v.c.unselected.resumed v.st.now := by
  rw [View.resume_c, v.resumeHw_unmarked hs hr, Ctrl.resumed, Ctrl.unselected]
  simp only [hclk]

theorem View.resume_c_marked (hr : v.c.needsReinit = true) :
    v.resume.c = v.c.reinitialised.resumed v.st.now := by
  rw [View.resume_c, v.resumeHw_marked hs hr, Ctrl.resumed, Ctrl.reinitialised]
  simp only [hclk]

end

/-! ### The select lines (R218) -/

/-- The binding's line, if it names one, driven inactive. -/
def State.lineInactive (s : State) (b : Binding) : State :=
  match b.line with
  | none => s
  | some l => s.setLine l (!b.activeLevel)

theorem State.linesInactive_cons (s : State) (p : Nat × Binding) (bs : List (Nat × Binding)) :
    s.linesInactive (p :: bs) = (s.lineInactive p.2).linesInactive bs := by
  rw [State.linesInactive, State.lineInactive]
  cases p.2.line <;> rfl

theorem State.lineLevel_lineInactive (s : State) (b : Binding) (l : Byte) :
    (s.lineInactive b).lineLevel l = if b.line = some l then !b.activeLevel else s.lineLevel l := by
  unfold State.lineInactive
  cases h : b.line with
  | none => simp
  | some m => simp [State.lineLevel_setLine]

theorem State.linesInactive_eq (s : State) (bs : List (Nat × Binding)) :
    s.linesInactive bs = { s with csLine := (s.linesInactive bs).csLine } := by
  induction bs generalizing s with
  | nil => rfl
  | cons p bs ih =>
    rw [State.linesInactive_cons, ih, State.lineInactive]
    cases p.2.line <;> rfl

/-- A line no binding names keeps its level. -/
theorem State.lineLevel_linesInactive_unnamed {bs : List (Nat × Binding)} {l : Byte}
    (h : ∀ p ∈ bs, p.2.line ≠ some l) (s : State) : (s.linesInactive bs).lineLevel l = s.lineLevel l := by
  induction bs generalizing s with
  | nil => rfl
  | cons q bs ih =>
    obtain ⟨hq, hbs⟩ := List.forall_mem_cons.mp h
    rw [State.linesInactive_cons, ih hbs, State.lineLevel_lineInactive, if_neg hq]

/-- A line that one binding names has that binding's inactive level. -/
theorem State.lineLevel_linesInactive_named {bs : List (Nat × Binding)} {p : Nat × Binding} {l : Byte} (hp : p ∈ bs)
    (hl : p.2.line = some l) (only : ∀ q ∈ bs, q.2.line = some l → q = p) (s : State) :
    (s.linesInactive bs).lineLevel l = !p.2.activeLevel := by
  induction bs generalizing s with
  | nil => cases hp
  | cons q bs ih =>
    obtain ⟨hq, hbs⟩ := List.forall_mem_cons.mp only
    rw [State.linesInactive_cons]
    by_cases later : p ∈ bs
    · exact ih later hbs _
    · obtain rfl : p = q := (List.mem_cons.mp hp).resolve_right later
      have unnamed (r : Nat × Binding) (hr : r ∈ bs) : r.2.line ≠ some l := fun e => later (hbs r hr e ▸ hr)
      rw [State.lineLevel_linesInactive_unnamed unnamed, State.lineLevel_lineInactive, if_pos hl]

/-! ### ON_RESUME in full (R218) -/

theorem View.dropHolder_free (v : View) (h : v.c.csHolder = none) : v.dropHolder = v := by
  simp only [View.dropHolder, h]

theorem View.dropHolder_bound (v : View) {b : Byte} {y : Binding} (hh : v.c.csHolder = some b)
    (hb : v.c.bindAt b = some y) : v.dropHolder.st.busLog = v.st.busLog ++ [.csDeassert v.c.id b (bindingSite y)] := by
  simp only [View.dropHolder, hh, hb]
  rfl

theorem View.dropHolder_unbound (v : View) {b : Byte} (hh : v.c.csHolder = some b) (hb : v.c.bindAt b = none) :
    v.dropHolder.st = v.st := by
  simp only [View.dropHolder, hh, hb]

/-- The event depends on the holder, its binding and the controller's number only. -/
theorem View.dropHolder_busLog_congr {v w : View} (hh : w.c.csHolder = v.c.csHolder) (hb : w.c.bind = v.c.bind)
    (hid : w.c.id = v.c.id) (hl : w.st.busLog = v.st.busLog) : w.dropHolder.st.busLog = v.dropHolder.st.busLog := by
  have bound (b : Byte) : w.c.bindAt b = v.c.bindAt b := by rw [Ctrl.bindAt, hb, ← Ctrl.bindAt]
  cases hv : v.c.csHolder with
  | none => rw [w.dropHolder_free (hh.trans hv), v.dropHolder_free hv, hl]
  | some b =>
    cases hy : v.c.bindAt b with
    | none => rw [w.dropHolder_unbound (hh.trans hv) ((bound b).trans hy), v.dropHolder_unbound hv hy, hl]
    | some y => rw [w.dropHolder_bound (hh.trans hv) ((bound b).trans hy), v.dropHolder_bound hv hy, hl, hid]

/-- ON_RESUME drives the select lines and logs the held select's event; no other shared state changes. -/
theorem View.resume_st (v : View) : v.resume.st = { v.st with
    csLine := (v.st.linesInactive v.c.bind).csLine, busLog := v.dropHolder.st.busLog } := by
  have st : v.resumeHw.st = v.st := by rw [View.resumeHw_eq]
  have bind : v.resumeHw.c.bind = v.c.bind := by rw [View.resumeHw_eq]
  have log : (View.dropHolder { v.resumeHw with st := v.st.linesInactive v.c.bind }).st.busLog =
      v.dropHolder.st.busLog := by
    refine View.dropHolder_busLog_congr ?_ bind ?_ ?_
    · rw [View.resumeHw_eq]
    · rw [View.resumeHw_eq]
    · rw [State.linesInactive_eq]
  unfold View.resume
  dsimp only
  rw [st, bind, View.dropHolder_eq, log, State.linesInactive_eq]

theorem View.busLog_resume (v : View) : v.resume.st.busLog = v.dropHolder.st.busLog := by rw [View.resume_st]

theorem View.lineLevel_resume (v : View) (l : Byte) :
    v.resume.st.lineLevel l = (v.st.linesInactive v.c.bind).lineLevel l := by
  rw [View.resume_st]
  rfl

section
variable {s : State} {c : Byte} {x : Ctrl} (hx : s.ctrlAt c = some x)
include hx

theorem execOnResume_awake (hp : x.pstate ≠ .suspended) :
    exec (.onResume .exact c) s = .next (s.answer .wrongState x.pstate.code 0) :=
  (State.withHandle_some s c x _ hx).trans (if_pos hp)

theorem execOnResume_suspended (hp : x.pstate = .suspended) :
    exec (.onResume .exact c) s = .next ((View.resume ⟨s, c, x⟩).commit.answer .ok 0 0) :=
  (State.withHandle_some s c x _ hx).trans (if_neg (not_not_intro hp))

/-- A suspended controller is at rest, with nothing leased, in service or waiting (R38, R213, R217). -/
theorem State.suspended_rests (hp : x.pstate = .suspended) (owners : s.ownersRight) (clocks : s.clocksRight)
    (leases : s.leasesRight) (busy : s.busyRight) (rest : s.restRight) :
    x.seq.state = .idle ∧ x.seq.phase = .none ∧ x.rxCh = false ∧ x.txCh = false ∧ x.owner = none ∧ x.waitq = [] ∧
      x.rxBusy = false ∧ x.txBusy = false ∧ x.actWait = false ∧ x.acqK = 0 := by
  have asleep : x.pstate ≠ .active := by simp [hp]
  obtain ⟨-, serving, -⟩ := clocks c x hx
  have idle : x.seq.state = .idle := not_imp_comm.mp serving asleep
  obtain ⟨-, -, -, -, rx, tx⟩ := leases.1 c x hx
  obtain ⟨waiting, phase⟩ := rest c x hx
  obtain ⟨-, hw, ha, hk⟩ := waiting hp
  have unbusy : ¬ (x.rxBusy = true ∨ x.txBusy = true) := fun h => by
    have transporting := ((busy c x hx).1 h).1
    simp [idle] at transporting
  exact ⟨idle, phase (by simp [idle]), Bool.eq_false_iff.mpr (mt rx.mp asleep), Bool.eq_false_iff.mpr (mt tx.mp asleep),
    (owners c x hx).mp idle, hw, Bool.eq_false_iff.mpr fun h => unbusy (.inl h),
    Bool.eq_false_iff.mpr fun h => unbusy (.inr h), ha, hk⟩

end

/-! ### POWER_LOSS (R219) -/

theorem Ctrl.powerLossEnabled_iff (x : Ctrl) :
    x.powerLossEnabled = true ↔ x.pstate = .suspended ∧ x.needsReinit = true := by
  simp [Ctrl.powerLossEnabled]

section
variable {s : State} {c : Byte} {x : Ctrl} (hx : s.ctrlAt c = some x)
include hx

theorem execPowerLoss_enabled (h : x.powerLossEnabled = true) : exec (.powerLoss c) s =
    .next { s.setCtrl c { x with hw := Hw.drawn s.draws x.fifoDepth } with draws := s.draws + drawnCount } := by
  rw [exec, execPowerLoss, State.withCtrl_some s c x _ hx, if_pos h]
  rfl

theorem execPowerLoss_disabled (h : ¬ x.powerLossEnabled = true) : exec (.powerLoss c) s = .next s := by
  rw [exec, execPowerLoss, State.withCtrl_some s c x _ hx, if_neg h]

end

end Sys2Proof.Machine

open Sys2Proof Sys2Proof.Machine

/-! ### Suspend, resume, power loss -/

/-- Settles O50: ON_SUSPEND raises the flag or finds it up; SUSPEND_FINISH, where enabled, leaves
`View.suspendFinish_eq`. -/
theorem suspendFailsWaiters : Obligations.SuspendFailsWaiters := by
  unfold Obligations.SuspendFailsWaiters
  refine fun s c => ⟨fun f w hf => exec_of_inexact_form hf (by simp), State.withHandle_none _, fun x hx =>
    ⟨fun hs => (execOnSuspend_present hx).trans (if_pos hs),
     fun hs => (execOnSuspend_present hx).trans (if_neg (by simp [hs])),
     fun hid hs hp hq => ?finishes, fun h => execSuspendFinish_disabled hx fun he => ?disabled⟩⟩
  case finishes =>
    subst hid
    refine ⟨_, execSuspendFinish_enabled hx (x.suspendFinishEnabled_iff.mpr ⟨hs, hp, hq⟩), ?_,
      View.chanAt_suspendFinish ⟨s, x.id, x⟩⟩
    rw [View.commit, View.suspendFinish_eq]
    rfl
  case disabled =>
    obtain ⟨hs, hp, hq⟩ := x.suspendFinishEnabled_iff.mp he
    simp [hs, hp, hq] at h

/-- Settles O51: the registers are those of the secure, the unmarked or the marked case, and the select lines and the
bus log are as `View.resume_st` says. -/
theorem onResumeRestores : Obligations.OnResumeRestores := by
  unfold Obligations.OnResumeRestores
  refine fun s c => ⟨fun f w hf => exec_of_inexact_form hf (by simp), State.withHandle_none _, fun x hx =>
    ⟨fun hp => ?active, fun hp => ?idle, fun hp hclk => ?_⟩⟩
  case active => rw [execOnResume_awake hx (by simp [hp]), hp]; rfl
  case idle => rw [execOnResume_awake hx (by simp [hp]), hp]; rfl
  have frame := (View.resume_frame ⟨s, c, x⟩).1
  have placed (d : Byte) := View.commit_ctrlAt_of_ctrl frame.ctrl d
  have secure (hs : x.secure = true) := View.resume_c_secure ⟨s, c, x⟩ hs
  have unmarked (hs : x.secure = false) (hr : x.needsReinit = false) := View.resume_c_unmarked ⟨s, c, x⟩ hclk hs hr
  have marked (hs : x.secure = false) (hr : x.needsReinit = true) := View.resume_c_marked ⟨s, c, x⟩ hclk hs hr
  refine ⟨_, (View.resume ⟨s, c, x⟩).c, execOnResume_suspended hx hp, View.commit_ctrlAt_of_key frame.key, ?state,
    fun d hd => (placed d).trans (if_neg (frame.key ▸ hd.symm)), fun h => ?kept, fun hs => by rw [secure hs]; rfl,
    fun hs hr => by rw [unmarked hs hr]; rfl, fun hs hr => ?renewed, fun hs hr => ?defaults, ?native,
    fun l hl => (View.lineLevel_resume ⟨s, c, x⟩ l).trans (State.lineLevel_linesInactive_unnamed hl s),
    fun p hm l hl only => (View.lineLevel_resume ⟨s, c, x⟩ l).trans (State.lineLevel_linesInactive_named hm hl only s),
    fun hh => (View.busLog_resume ⟨s, c, x⟩).trans (by rw [View.dropHolder_free ⟨s, c, x⟩ hh]),
    fun b z hh hz => (View.busLog_resume ⟨s, c, x⟩).trans (View.dropHolder_bound ⟨s, c, x⟩ hh hz)⟩
  case state =>
    rw [View.commit, View.resume_st]
    rfl
  case kept =>
    by_cases hs : x.secure = true
    · rw [secure hs]
      rfl
    · rw [unmarked (Bool.eq_false_iff.mpr hs) (h.resolve_left hs)]
      rfl
  case renewed =>
    rw [marked hs hr]
    refine ⟨rfl, fun h => if_neg h, x.seq.renewed_rest, fun owners clocks leases busy rest => ?_⟩
    obtain ⟨hq, hph, hrx, htx, howner, hwait, hbrx, hbtx, hact, hk⟩ :=
      State.suspended_rests hx hp owners clocks leases busy rest
    have fresh : x.reinitialised.seq = Seq.fresh := x.seq.renewed_rest hq hph
    exact ⟨congrArg Seq.state fresh, congrArg Seq.phase fresh, congrArg Seq.msg fresh, hrx, htx, howner, hwait, hbrx,
      hbtx, hact, hk, Ctrl.nss_gated (x.reinitialised.resumed s.now) hclk⟩
  case defaults =>
    rw [marked hs hr]
    exact ⟨rfl, Hw.defaults_statusWord _⟩
  case native =>
    cases hs : x.secure with
    | true =>
      rw [secure hs]
      rfl
    | false =>
      cases hr : x.needsReinit with
      | true =>
        rw [marked hs hr]
        rfl
      | false =>
        rw [unmarked hs hr]
        rfl

/-- Settles O52: POWER_LOSS draws the serial engine, whose FIFOs are cut to their depth. -/
theorem powerLossForgetsEngine : Obligations.PowerLossForgetsEngine := by
  unfold Obligations.PowerLossForgetsEngine
  intro s c x hx
  exact ⟨fun hp hr => ⟨_, _, execPowerLoss_enabled hx (x.powerLossEnabled_iff.mpr ⟨hp, hr⟩), Hw.Fits.drawn _ _⟩,
    fun h => execPowerLoss_disabled hx (mt x.powerLossEnabled_iff.mp h)⟩
end

section
/-! PROOFS. Power-on (R260): the machine with nothing scheduled, the empty pools of the state at power-on, and the
invariants there. -/

namespace Sys2Proof.Machine

/-! ### Nothing scheduled, nothing present (R260; log entry 1) -/

theorem step_nothingScheduled (s : State) (h : s.inbox = []) : step s = .next s := by
  simp [step, State.fetch, h]

@[simp] theorem State.ctrlAt_reset (c : Byte) : State.reset.ctrlAt c = none := Table.get?_nil c.toNat

@[simp] theorem State.chanAt_reset (k : Byte) : State.reset.chanAt k = Chan.free := rfl

@[simp] theorem State.mappedAt_reset (c : Byte) (dir : MapDir) : State.reset.mappedAt c dir = [] := rfl

/-- What is said of every controller holds at power-on, where there is none. -/
theorem State.allCtrl_reset (P : Ctrl → Prop) : State.reset.AllCtrl P := by
  intro c x hx
  simp at hx

/-! ### The invariants that also speak of a pool (R38, R158) -/

theorem State.holderBound_reset : State.reset.holderBound := by
  intro c x b hx
  simp at hx

/-- No controller owes a mapping, and none is live. -/
theorem State.mapsRight_reset : State.reset.mapsRight := by
  refine State.reset.mapsRight_iff.mpr ⟨fun c _ dir => State.mappedAt_reset c dir, fun c x hx => ?_⟩
  simp at hx

/-- No controller holds a lease, and no channel has a lessee. -/
theorem State.leasesRight_reset : State.reset.leasesRight := by
  refine ⟨fun c x hx => ?_, fun k c hk => ?_⟩
  · simp at hx
  · simp [Chan.free] at hk

end Sys2Proof.Machine

open Sys2Proof Sys2Proof.Machine

/-! ### Power-on -/

/-- Settles O5: with nothing scheduled a step is the identity, and at power-on every pool is empty, so each invariant
of the controllers speaks of none and each of the channels and mappings of free ones. -/
theorem powerOnIsQuiet : Obligations.PowerOnIsQuiet := by
  unfold Obligations.PowerOnIsQuiet
  exact ⟨step_nothingScheduled, State.ctrlAt_reset, State.chanAt_reset, rfl, rfl, rfl, rfl, State.wf_reset,
    State.allCtrl_reset _, State.allCtrl_reset _, State.allCtrl_reset _, State.holderBound_reset,
    State.allCtrl_reset _, State.mapsRight_reset, State.leasesRight_reset,
    State.reset.serviceRight_iff.mpr (State.allCtrl_reset _), State.allCtrl_reset _⟩
end
